-- ==== Sys2Proof/Word.lean ====
section
/-! DEFINITION. The widths of the AVM: bytes of memory, 16-bit words and samples, 32-bit words and
addresses (00_scope.md R7, R10; 20_memory.md R60, R62). -/

namespace Sys2Proof

/-- The unit of memory access (20_memory.md R62). -/
abbrev Byte := BitVec 8

/-- A 16-bit word of a memory record, a gain or a mask (00_scope.md R10, u16). -/
abbrev Half := BitVec 16

/-- A signed 16-bit sample, volume or coefficient, in two's complement (00_scope.md R10, s16). -/
abbrev Sample := BitVec 16

/-- A 32-bit word that crosses a port (30_encoding.md R100). -/
abbrev Word := BitVec 32

/-- A byte address of either memory space, 32 bits, wrapping modulo 2^32 (20_memory.md R60). -/
abbrev Addr := BitVec 32

/-- Samples per bus per frame, `N` (00_scope.md R7). -/
abbrev frameLen : Nat := 80

end Sys2Proof
end

