-- ==== Sys2Proof/Syntax.lean ====
section
/-! DEFINITION. The instructions of the AVM: its command words, sync words and control writes, one
constructor per row of spec/opcode_table.json (00_scope.md R2; 30_encoding.md R106, R111 to R115). -/

namespace Sys2Proof

/-- A command with its operands, a sync word, or a control write. The fields are those the encodings
give a meaning or an echo; bits the spec calls ignored have no field. -/
inductive Instr where
  /-- `NOP`: acknowledged, no other effect (40_commands.md R140). -/
  | nop (sync : BitVec 7)
  /-- `SETUP`: the VPB base, three table addresses, the RPB base (30_encoding.md R107). -/
  | setup (sync : BitVec 7) (vpb resample pattern afc rpb : Addr)
  /-- `START_RENDER`: voices per frame, requested frames, output volume, output addresses
  (30_encoding.md R108). Its `sync` field is ignored (40_commands.md R142). -/
  | startRender (sync : BitVec 7) (voices frames vol : Half) (outL outR : Addr)
  /-- `SET_SAMPLE_BASE`: the byte offset of sample addresses under `NO_ARAM` (30_encoding.md R109). -/
  | setSampleBase (sync : BitVec 7) (base : Addr)
  /-- `PREPARE_FRAME` (41_frame_ops.md R180). -/
  | prepareFrame (sync : BitVec 7)
  /-- `ADD_VOICE`: `imm16` is the voice id (41_frame_ops.md R181). -/
  | addVoice (sync : BitVec 7) (voice : Half)
  /-- `FINALIZE_FRAME` (41_frame_ops.md R182). -/
  | finalizeFrame (sync : BitVec 7)
  /-- `SYNC`, default form: batch id and skip mask (30_encoding.md R111). -/
  | sync (batch : BitVec 4) (mask : Half)
  /-- `SYNC2`, per-frame form: two skip masks (30_encoding.md R112). -/
  | sync2 (maskHi maskLo : Half)
  /-- `SYNC0`, light form: the zero word (30_encoding.md R113). -/
  | sync0
  /-- `CONTINUE`: control write, bit 0 without bit 1 (30_encoding.md R115). -/
  | cont
  /-- `RESET`: control write, bit 1 (30_encoding.md R115). -/
  | reset
  /-- A header whose opcode is reserved (40_commands.md R137). -/
  | reserved (opcode : BitVec 7) (sync : BitVec 7) (imm : Half)
  deriving DecidableEq, Repr

end Sys2Proof
end

