-- ==== Sys2Proof/WellFormed.lean ====
section
/-! DEFINITION. Which terms of `Instr` are instructions. Every field is as wide as its encoding, so the
one thing left to check is that a reserved opcode is reserved (30_encoding.md R106). -/

namespace Sys2Proof

/-- The opcodes 30_encoding.md R106 gives a command. -/
def definedOpcodes : List (BitVec 7) := [0x00, 0x01, 0x02, 0x03, 0x10, 0x11, 0x12]

/-- An instruction is well formed when a `reserved` term carries an opcode that is not in the table
(30_encoding.md R106, row "all others"). -/
def Instr.wellFormed : Instr → Bool
  | .nop _ => true
  | .setup _ _ _ _ _ _ => true
  | .startRender _ _ _ _ _ _ => true
  | .setSampleBase _ _ => true
  | .prepareFrame _ => true
  | .addVoice _ _ => true
  | .finalizeFrame _ => true
  | .sync _ _ => true
  | .sync2 _ _ => true
  | .sync0 => true
  | .cont => true
  | .reset => true
  | .reserved opcode _ _ => !definedOpcodes.contains opcode

end Sys2Proof
end

