-- ==== Sys2Proof/Decode.lean ====
section
/-! DEFINITION. The decoder and the encoder of the words a host writes (30_encoding.md). What a word
means depends on the port and on the state it arrives in (R100), so decoding takes a `Context`. -/

namespace Sys2Proof

/-- How the next word is to be read: the port it is written to, the state it meets there, and the flags
that change decoding (30_encoding.md R100, R110). -/
inductive Context where
  /-- `CMD` in `WAITING`: a header and its operands; `extra` is `START_EXTRA_WORDS` (R101, R106). -/
  | header (extra : Bool)
  /-- `CMD` in `RENDERING`, default form (R111). -/
  | syncDefault
  /-- `CMD` in `RENDERING`, `SYNC_PER_FRAME` (R112). -/
  | syncPerFrame
  /-- `CMD` in `RENDERING`, `LIGHT` (R113). -/
  | syncLight
  /-- `CTRL` (R115). -/
  | control
  deriving DecidableEq, Repr

/-- Why a list of words is no instruction in its context. -/
inductive DecodeError where
  /-- there is no word at all -/
  | noWord
  /-- a word with bit 31 = 0 where a header is due (30_encoding.md R116) -/
  | notHeader
  /-- a command whose operand words are not all there (30_encoding.md R110) -/
  | missingOperand
  /-- a non-zero sync word under `LIGHT` (30_encoding.md R113) -/
  | nonzeroLightSync
  /-- a `CTRL` word with neither bit 0 nor bit 1 (30_encoding.md R115) -/
  | noControlAction
  deriving DecidableEq, Repr

/-! ### Header fields (30_encoding.md R101) -/

/-- Bit 31: set in every header. -/
def headerBit (w : Word) : Bool := w.getLsbD 31

/-- Bits [30:24]. -/
def headerOpcode (w : Word) : BitVec 7 := w.extractLsb' 24 7

/-- Bits [22:16], the sync echo. -/
def headerSync (w : Word) : BitVec 7 := w.extractLsb' 16 7

/-- Bits [15:0]. -/
def headerImm (w : Word) : Half := w.extractLsb' 0 16

/-- The number of operand words of an opcode (30_encoding.md R106, R110). -/
def operandCount (extra : Bool) (opcode : BitVec 7) : Nat :=
  if opcode = 0x01 then 5
  else if opcode = 0x02 then (if extra then 5 else 3)
  else if opcode = 0x03 then 1
  else 0

/-- `START_RENDER` from its operand words: operand 1 is `{req_frames, out_vol}`, operands 4 and 5 are
discarded (30_encoding.md R108). -/
def decodeStartRender (extra : Bool) (sync : BitVec 7) (voices : Half) :
    List Word → Except DecodeError (Instr × List Word)
  | a :: l :: r :: rest =>
    let i := Instr.startRender sync voices (a.extractLsb' 16 16) (a.extractLsb' 0 16) l r
    if extra then
      match rest with
      | _ :: _ :: rest' => .ok (i, rest')
      | _ => .error .missingOperand
    else .ok (i, rest)
  | _ => .error .missingOperand

/-- A command from its header and the words after it (30_encoding.md R101, R106 to R109). -/
def decodeHeader (extra : Bool) (h : Word) (ops : List Word) :
    Except DecodeError (Instr × List Word) :=
  let sync := headerSync h
  let op := headerOpcode h
  if !headerBit h then .error .notHeader
  else if op = 0x00 then .ok (.nop sync, ops)
  else if op = 0x01 then
    match ops with
    | a1 :: a2 :: a3 :: a4 :: a5 :: rest => .ok (.setup sync a1 a2 a3 a4 a5, rest)
    | _ => .error .missingOperand
  else if op = 0x02 then decodeStartRender extra sync (headerImm h) ops
  else if op = 0x03 then
    match ops with
    | a :: rest => .ok (.setSampleBase sync a, rest)
    | _ => .error .missingOperand
  else if op = 0x10 then .ok (.prepareFrame sync, ops)
  else if op = 0x11 then .ok (.addVoice sync (headerImm h), ops)
  else if op = 0x12 then .ok (.finalizeFrame sync, ops)
  else .ok (.reserved op sync (headerImm h), ops)

/-- A control write: bit 1 is `RESET` and wins, else bit 0 is `CONTINUE` (30_encoding.md R115). -/
def decodeControl (w : Word) : Except DecodeError Instr :=
  if w.getLsbD 1 then .ok .reset
  else if w.getLsbD 0 then .ok .cont
  else .error .noControlAction

/-- The decoder: the instruction the words begin with, and the words after it; total, every rejection
named (30_encoding.md R100 to R116). -/
def decode : Context → List Word → Except DecodeError (Instr × List Word)
  | _, [] => .error .noWord
  | .header extra, h :: ops => decodeHeader extra h ops
  | .syncDefault, w :: rest => .ok (.sync (w.extractLsb' 16 4) (w.extractLsb' 0 16), rest)
  | .syncPerFrame, w :: rest => .ok (.sync2 (w.extractLsb' 16 16) (w.extractLsb' 0 16), rest)
  | .syncLight, w :: rest => if w = 0 then .ok (.sync0, rest) else .error .nonzeroLightSync
  | .control, w :: rest => (decodeControl w).map (·, rest)

/-! ### The encoder -/

/-- A header word: bit 31 set, bit 23 zero (30_encoding.md R101). -/
def encodeHeader (opcode sync : BitVec 7) (imm : Half) : Word :=
  1#1 ++ opcode ++ 0#1 ++ sync ++ imm

/-- The words of an instruction, ignored bits zero; `extra` adds `START_RENDER`'s two discarded words,
written 0 (30_encoding.md R101, R106 to R115, R120). -/
def encode (extra : Bool) : Instr → List Word
  | .nop sync => [encodeHeader 0x00 sync 0]
  | .setup sync vpb resample pattern afc rpb =>
    [encodeHeader 0x01 sync 0, vpb, resample, pattern, afc, rpb]
  | .startRender sync voices frames vol outL outR =>
    [encodeHeader 0x02 sync voices, frames ++ vol, outL, outR] ++ (if extra then [0, 0] else [])
  | .setSampleBase sync base => [encodeHeader 0x03 sync 0, base]
  | .prepareFrame sync => [encodeHeader 0x10 sync 0]
  | .addVoice sync voice => [encodeHeader 0x11 sync voice]
  | .finalizeFrame sync => [encodeHeader 0x12 sync 0]
  | .sync batch mask => [0#12 ++ batch ++ mask]
  | .sync2 maskHi maskLo => [maskHi ++ maskLo]
  | .sync0 => [0]
  | .cont => [1]
  | .reset => [2]
  | .reserved opcode sync imm => [encodeHeader opcode sync imm]

/-- The context in which an instruction's words are read (30_encoding.md R100, R110 to R115). -/
def Instr.context (extra : Bool) : Instr → Context
  | .nop _ => .header extra
  | .setup _ _ _ _ _ _ => .header extra
  | .startRender _ _ _ _ _ _ => .header extra
  | .setSampleBase _ _ => .header extra
  | .prepareFrame _ => .header extra
  | .addVoice _ _ => .header extra
  | .finalizeFrame _ => .header extra
  | .sync _ _ => .syncDefault
  | .sync2 _ _ => .syncPerFrame
  | .sync0 => .syncLight
  | .cont => .control
  | .reset => .control
  | .reserved _ _ _ => .header extra

/-! ### A table word without its context -/

/-- The context `decodeTableWord` gives a word that comes without one: a set bit 31 is a header; of the
others, 0 is `SYNC0`, the canonical control writes 1 and 2 are `CTRL` words (30_encoding.md R115), a
word whose ignored bits [31:20] are zero is `SYNC`, and the rest are `SYNC2`. DESIGN CHOICE, log 16:
the table's rows overlap and only the port and the state tell them apart (R100). -/
def tableContext (w : Word) : Context :=
  if headerBit w then .header false
  else if w = 0 then .syncLight
  else if w = 1 ∨ w = 2 then .control
  else if w.extractLsb' 20 12 = 0 then .syncDefault
  else .syncPerFrame

/-- The six 32-bit words (the longest command) of a number whose bit 0 is the least significant bit of
the first word. -/
def tableWords (w : Nat) : List Word :=
  (List.range 6).map fun k => BitVec.ofNat 32 (w >>> (32 * k))

/-- The instruction the decoder reads from a table row's word; bits above `nbits` are zero. -/
def decodeTableWord (nbits w : Nat) : Option Instr :=
  let words := tableWords (w % 2 ^ nbits)
  match decode (tableContext (words.headD 0)) words with
  | .ok (i, _) => some i
  | .error _ => none

end Sys2Proof
end

