-- ==== Sys2Proof/Machine/Arith.lean ====
section
/-! DEFINITION. The arithmetic the rules are written in: exact integers, narrowed where a rule says so
(00_scope.md R10, R13). -/

namespace Sys2Proof.Machine

/-- `clamp16(v)`: the nearest value in -32768..32767 (00_scope.md R10). -/
def clamp16 (v : Int) : Sample :=
  if v < -32768 then BitVec.ofInt 16 (-32768)
  else if 32767 < v then BitVec.ofInt 16 32767
  else BitVec.ofInt 16 v

/-- `wrap16(v)`: the value congruent to `v` modulo 65536 (00_scope.md R10). -/
def wrap16 (v : Int) : Sample := BitVec.ofInt 16 v

/-- `wrap32(v)`: the value congruent to `v` modulo 2^32 (00_scope.md R10). -/
def wrap32 (v : Int) : Word := BitVec.ofInt 32 v

/-- `v >>a n`: the floor of `v / 2^n` on exact integers (00_scope.md R10). -/
def asr (v : Int) (n : Nat) : Int := v >>> n

/-- A sample or volume scaled by a gain: the exact product, shifted, clamped (41_frame_ops.md R170,
42_voice_mix.md R201, R221). -/
def scale (gain v : Int) (shift : Nat) : Sample := clamp16 (asr (gain * v) shift)

/-- The exact sum of the products of two lists, as far as both go (43_sources_resample.md R275,
44_reverb.md R293). -/
def dot : List Sample → List Sample → Int
  | c :: cs, x :: xs => c.toInt * x.toInt + dot cs xs
  | _, _ => 0

/-- The high half of a 16.16 accumulator, `v >>a 16` (42_voice_mix.md R201, R210). -/
def highHalf (v : Word) : Sample := v.extractLsb' 16 16

/-- A volume as a 16.16 accumulator, `v * 65536` (42_voice_mix.md R210). -/
def accum (v : Sample) : Word := wrap32 (v.toInt * 65536)

/-- A volume halved, truncating toward zero (42_voice_mix.md R205). -/
def halve (v : Sample) : Sample := BitVec.ofInt 16 (v.toInt.tdiv 2)

end Sys2Proof.Machine
end

