-- ==== Sys2Proof/Config.lean ====
section
/-! DEFINITION. The open parameters of the spec (00_scope.md R8): what the platform or the source fixes
and no rule gives. Each is an uninterpreted constant: nothing in Lean can evaluate it. -/

namespace Sys2Proof

/-- The two byte-addressed memory spaces (20_memory.md R60). -/
inductive Space where
  | main
  | sample
  deriving DecidableEq, Repr

/-- A range of addresses of one space that does not answer: `MEM_MAP` is false on `first .. last`
(20_memory.md R66). A list of holes is the whole of `MEM_MAP` as plain data. -/
structure Hole where
  space : Space
  first : Nat
  last : Nat
  deriving DecidableEq, Repr

/-- The two synthetic waves (43_sources_resample.md R240, source types 0 and 1). -/
inductive Wave where
  | square
  | saw
  deriving DecidableEq, Repr

namespace Config

/-- `FLAGS` as strapped (10_state.md R20: "no default exists"). DESIGN CHOICE, log 2. -/
opaque flags : BitVec 8

/-- `BACK_DECAY_GAIN`, unsigned 1.15 (00_scope.md R8). DESIGN CHOICE, log 2. -/
opaque backDecayGain : Half

/-- `REVERB_FRONT_GAIN_L`, unsigned 1.15 (00_scope.md R8). DESIGN CHOICE, log 2. -/
opaque reverbFrontGainL : Half

/-- `REVERB_FRONT_GAIN_R`, unsigned 1.15 (00_scope.md R8). DESIGN CHOICE, log 2. -/
opaque reverbFrontGainR : Half

/-- The addresses that do not answer on this platform, `MEM_MAP` (20_memory.md R66).
DESIGN CHOICE, log 7. -/
opaque holes : List Hole

/-- `SynthGen` for source types 0 and 1: phase and ratio give 80 samples and the next phase. By R244 it
does not depend on `PATTERN` or `BUS`, so it is not given them (43_sources_resample.md R244). Log 13. -/
opaque synthWave : Wave → Half → Half → Vector Sample 80 × Half

/-- Which of the four patterns derives its phase step from a bus, "variable step" mode; the source does
not say which (43_sources_resample.md R245). Log 13. -/
opaque variableStepPattern : Fin 4

/-- `SynthGen` for source types 2 to 5: phase, ratio, the 64 words of that pattern and, for the
variable-step pattern alone, the ten buses (43_sources_resample.md R244, R245). Log 13. -/
opaque synthPattern : Fin 4 → Half → Half → List Sample → Option (List (List Sample)) →
  Vector Sample 80 × Half

/-- `PatternRegen`: the new words of patterns 2 and 3 from the whole pattern table. Patterns 0 and 1 are
kept by the rule, so it does not give them (41_frame_ops.md R176). Log 13. -/
opaque patternRegen : List Sample → Vector Sample 128

end Config
end Sys2Proof
end

