-- ==== Sys2Proof/Machine/State.lean ====
section
/-! DEFINITION. The state of the AVM as plain data (10_state.md), the memory it reaches (20_memory.md
R60), the configuration it is strapped with (00_scope.md R8, R16), and the host's side of the ports. -/

namespace Sys2Proof.Machine

/-- `state` (10_state.md R29). -/
inductive Mode where
  | waiting
  | writingCmd
  | rendering
  | halted
  deriving DecidableEq, Repr

/-- `halt_cause` (60_exceptions.md R312); `none` while not halted (10_state.md R35). -/
inductive HaltCause where
  | none
  | unknownOpcode
  | unexpectedSync
  | badLightSync
  | cmdOverflow
  | badSourceType
  | badDestId
  | badRpbGeometry
  | busError
  | notConfigured
  deriving DecidableEq, Repr

/-- The ten mixing buses by name (10_state.md R22). -/
inductive BusId where
  | fl
  | fr
  | bl
  | br
  | flRv
  | frRv
  | blRv
  | brRv
  | auxaRv
  | auxbRv
  deriving DecidableEq, Repr

/-- The mixing buses, 80 signed 16-bit samples each (10_state.md R22). -/
structure Buses where
  fl : List Sample
  fr : List Sample
  bl : List Sample
  br : List Sample
  flRv : List Sample
  frRv : List Sample
  blRv : List Sample
  brRv : List Sample
  auxaRv : List Sample
  auxbRv : List Sample
  deriving DecidableEq, Repr

/-- The four tables held inside the AVM (10_state.md R25). -/
structure Tables where
  /-- `RESAMPLE_COEF[0..255]` -/
  resampleCoef : List Sample
  /-- `PATTERN[0..255]` -/
  pattern : List Sample
  /-- `SINE[0..127]` -/
  sine : List Sample
  /-- `AFC_COEF[0..31]` -/
  afcCoef : List Sample
  deriving DecidableEq, Repr

/-- The state of one reverb unit (10_state.md R28). -/
structure ReverbUnit where
  /-- `rvb_cursor[r]` -/
  cursor : Half
  /-- `rvb_carry[r][0..7]` -/
  carry : List Sample
  deriving DecidableEq, Repr

/-- The command buffer (10_state.md R30, R31). -/
structure CmdBuffer where
  /-- `cmd_buf[0..63]` -/
  buf : List Word
  /-- `cmd_wr`, wraps modulo 64 -/
  wr : BitVec 6
  /-- `cmd_rd`, wraps modulo 64 -/
  rd : BitVec 6
  /-- `cmd_words`, 0..64 -/
  words : Nat
  /-- `pending_cmds`, 0..64 -/
  pending : Nat
  /-- `words_expected`, 0..5 -/
  expected : Nat
  deriving DecidableEq, Repr

/-- The rendering cursors (10_state.md R33). -/
structure Cursors where
  /-- `req_frames` -/
  reqFrames : Half
  /-- `voices_per_frame` -/
  voicesPerFrame : Half
  /-- `cur_frame` -/
  curFrame : Half
  /-- `cur_voice` -/
  curVoice : Half
  /-- `skip_flags[0..15]` -/
  skipFlags : List Half
  /-- `max_unlocked`, 0..256 -/
  maxUnlocked : Nat
  /-- `sync_half` -/
  syncHalf : Bool
  deriving DecidableEq, Repr

/-- The configuration of the instance: set once, never changed (00_scope.md R8, R16). -/
structure Platform where
  /-- `FLAGS`, the straps (10_state.md R20, R21) -/
  flags : BitVec 8
  /-- `BACK_DECAY_GAIN` -/
  backDecayGain : Half
  /-- `REVERB_FRONT_GAIN_L` -/
  reverbFrontGainL : Half
  /-- `REVERB_FRONT_GAIN_R` -/
  reverbFrontGainR : Half
  /-- where `MEM_MAP` is false (20_memory.md R66) -/
  holes : List Hole
  deriving DecidableEq, Repr

/-- Memory: (address, byte) pairs, addresses strictly rising, no listed byte zero; what is not listed
reads 0x00 (log 6). -/
abbrev Memory := List Host.Cell

/-- The width of a host access to the register block (93_implementation_defined.md U9). -/
inductive Width where
  | byte
  | half
  | word
  deriving DecidableEq, Repr

/-- One step of the host (00_scope.md R15): a register access by byte offset (10_state.md R37), a byte
access to memory, or the hardware reset input (70_reset_and_hazards.md R350). -/
inductive HostAccess where
  | regRead (width : Width) (offset : Nat)
  | regWrite (width : Width) (offset : Nat) (value : Word)
  | memRead (space : Space) (addr : Addr)
  | memWrite (space : Space) (addr : Addr) (value : Byte)
  | resetInput
  deriving DecidableEq, Repr

/-- What a read by the host returned (00_scope.md R17 (d)). -/
inductive Reply where
  | reg (value : Word)
  | byte (value : Byte)
  deriving DecidableEq, Repr

/-- One pulse of the interrupt output and what pulsed it (60_exceptions.md R322). -/
inductive Pulse where
  /-- the push of an event word (60_exceptions.md R320) -/
  | event (word : Word)
  /-- an accepted light-protocol sync word (40_commands.md R146) -/
  | lightSync
  deriving DecidableEq, Repr

/-- The machine. `host`, `replies` and `irq` are the model's own fields (log 1, 9, 10); `cfg` holds the
configuration, which no step changes (log 2); all else is the spec's. -/
structure State where
  cfg : Platform
  main : Memory
  sample : Memory
  buses : Buses
  tables : Tables
  vpbBase : Addr
  rpbBase : Addr
  sampleBase : Addr
  outL : Addr
  outR : Addr
  outVol : Half
  reverb : List ReverbUnit
  mode : Mode
  cmd : CmdBuffer
  canExecute : Bool
  cur : Cursors
  prepared : Bool
  setupDone : Bool
  outValid : Bool
  haltCause : HaltCause
  evt : List Word
  irq : List Pulse
  host : List HostAccess
  replies : List Reply
  deriving DecidableEq, Repr

/-- Why the model stops; no instruction of the AVM ends in one of these. -/
inductive Fault where
  /-- Raised by a host memory access to an address that does not answer (`MEM_MAP` false); what the
  platform does with the host's own access is not in the spec (20_memory.md R66, log 11). Safe. -/
  | hostUnmapped
  /-- Raised by a host memory access to `SAMPLE` when `NO_ARAM` = 1: there is then no such space
  (20_memory.md R61, log 11). Safe. -/
  | noSampleSpace
  deriving DecidableEq, Repr

/-- What the model gives no meaning. -/
inductive Refusal where
  /-- Raised by `exec` for an instruction without a meaning; no arm of this model raises it. Safe. -/
  | notModelled (mnemonic : String)
  /-- Raised by a host access to the register block of another width than 32 bits or at an offset that
  is no register (93_implementation_defined.md U9: "refuse"; log 12). Safe. -/
  | reservedRegisterAccess
  deriving DecidableEq, Repr

/-- Ten silent buses (10_state.md R24). -/
def Buses.zero : Buses :=
  let z := List.replicate frameLen 0
  ⟨z, z, z, z, z, z, z, z, z, z⟩

/-- The tables before any `SETUP`: the spec gives them no value and guards every use (10_state.md R26);
zeros. DESIGN CHOICE, log 4. -/
def Tables.zero : Tables :=
  ⟨List.replicate 256 0, List.replicate 256 0, List.replicate 128 0, List.replicate 32 0⟩

/-- An empty command buffer; its words hold no value by the spec (10_state.md R30), zeros here.
DESIGN CHOICE, log 5. -/
def CmdBuffer.empty : CmdBuffer := ⟨List.replicate 64 0, 0, 0, 0, 0, 0⟩

/-- The cursors at reset (10_state.md R33). -/
def Cursors.zero : Cursors := ⟨0, 0, 0, 0, List.replicate 16 0, 0, false⟩

/-- The reverb units at reset (10_state.md R28). -/
def ReverbUnit.zero : ReverbUnit := ⟨0, List.replicate 8 0⟩

/-- The uninterpreted configuration (00_scope.md R8). DESIGN CHOICE, log 2, 7. -/
def Platform.strapped : Platform :=
  ⟨Config.flags, Config.backDecayGain, Config.reverbFrontGainL, Config.reverbFrontGainR, Config.holes⟩

/-- The machine right after power-on reset (10_state.md R42; 70_reset_and_hazards.md R351): idle, empty,
nothing listed in memory, no host access to come. Registers the spec leaves unset hold 0
(DESIGN CHOICE, log 3). -/
def State.reset : State where
  cfg := Platform.strapped
  main := []
  sample := []
  buses := Buses.zero
  tables := Tables.zero
  vpbBase := 0
  rpbBase := 0
  sampleBase := 0
  outL := 0
  outR := 0
  outVol := 0
  reverb := List.replicate 4 ReverbUnit.zero
  mode := .waiting
  cmd := CmdBuffer.empty
  canExecute := true
  cur := Cursors.zero
  prepared := false
  setupDone := false
  outValid := false
  haltCause := .none
  evt := []
  irq := []
  host := []
  replies := []

end Sys2Proof.Machine
end

