-- ==== Sys2Proof/Machine/Flags.lean ====
section
/-! DEFINITION. The flag bits of `FLAGS`, and the words the status registers read as. The AVM has no
arithmetic condition codes (10_state.md R20, R21, R29, R35, R38; 60_exceptions.md R312). -/

namespace Sys2Proof.Machine

/-! ### FLAGS (10_state.md R21) -/

/-- Bit 0, `NO_ARAM`. -/
def Platform.noAram (p : Platform) : Bool := p.flags.getLsbD 0
/-- Bit 1, `DOLBY_LOUDER`. -/
def Platform.dolbyLouder (p : Platform) : Bool := p.flags.getLsbD 1
/-- Bit 2, `LIGHT`. -/
def Platform.light (p : Platform) : Bool := p.flags.getLsbD 2
/-- Bit 3, `FOUR_DESTS`. -/
def Platform.fourDests (p : Platform) : Bool := p.flags.getLsbD 3
/-- Bit 4, `VOLUME_STEP`. -/
def Platform.volumeStep (p : Platform) : Bool := p.flags.getLsbD 4
/-- Bit 5, `SYNC_PER_FRAME`. -/
def Platform.syncPerFrame (p : Platform) : Bool := p.flags.getLsbD 5
/-- Bit 6, `LEGACY_VPB`. -/
def Platform.legacyVpb (p : Platform) : Bool := p.flags.getLsbD 6
/-- Bit 7, `START_EXTRA_WORDS`. -/
def Platform.startExtraWords (p : Platform) : Bool := p.flags.getLsbD 7

/-- `NCH`, the mixing channels of a voice (42_voice_mix.md R203). -/
def Platform.channels (p : Platform) : Nat := if p.fourDests then 4 else 6

/-! ### STATUS, FLAGS and CURSOR as the host reads them (10_state.md R37, R38) -/

/-- The two bits of `STATUS.state` (10_state.md R29). -/
def Mode.code : Mode → BitVec 2
  | .waiting => 0
  | .writingCmd => 1
  | .rendering => 2
  | .halted => 3

/-- The four bits of `STATUS.halt_cause` (60_exceptions.md R312). -/
def HaltCause.code : HaltCause → BitVec 4
  | .none => 0
  | .unknownOpcode => 1
  | .unexpectedSync => 2
  | .badLightSync => 3
  | .cmdOverflow => 4
  | .badSourceType => 5
  | .badDestId => 6
  | .badRpbGeometry => 7
  | .busError => 8
  | .notConfigured => 9

/-- `STATUS` (10_state.md R38): [1:0] state, [2] can_execute, [3] prepared, [4] setup_done,
[5] evt_pending, [6] sync_half, [7] 0, [11:8] halt_cause, [31:12] 0. -/
def State.statusWord (s : State) : Word :=
  0#20 ++ s.haltCause.code ++ 0#1 ++ BitVec.ofBool s.cur.syncHalf ++ BitVec.ofBool (!s.evt.isEmpty) ++
    BitVec.ofBool s.setupDone ++ BitVec.ofBool s.prepared ++ BitVec.ofBool s.canExecute ++ s.mode.code

/-- `FLAGS` as read: bits [7:0], the rest 0 (10_state.md R20). -/
def State.flagsWord (s : State) : Word := 0#24 ++ s.cfg.flags

/-- `CURSOR` = `{cur_frame, cur_voice}` (10_state.md R37). -/
def State.cursorWord (s : State) : Word := s.cur.curFrame ++ s.cur.curVoice

end Sys2Proof.Machine
end

