-- ==== Sys2Proof/Machine/Ops.lean ====
section
/-! DEFINITION. The shared operations: memory of both spaces, the halt (the AVM's only exception) and the
reset (the only way out of it), events, and access to the buses and reverb units. -/

namespace Sys2Proof.Machine

/-! ### Memory as a canonical list -/

/-- What an address that no entry lists reads as. DESIGN CHOICE, log 6. -/
def Memory.default : Byte := 0

/-- The byte at an address. -/
def Memory.read : Memory → Nat → Byte
  | [], _ => Memory.default
  | (k, b) :: m, a => if k = a then b else Memory.read m a

/-- A byte stored at an address, keeping the canonical form: the default is not listed. -/
def Memory.write : Memory → Nat → Byte → Memory
  | [], a, v => if v = Memory.default then [] else [(a, v)]
  | (k, b) :: m, a, v =>
    if a < k then (if v = Memory.default then (k, b) :: m else (a, v) :: (k, b) :: m)
    else if a = k then (if v = Memory.default then m else (a, v) :: m)
    else (k, b) :: Memory.write m a v

/-- Addresses strictly rising from `low` on, below 2^32, and no listed byte is the default. -/
def Memory.wfFrom (low : Nat) : Memory → Bool
  | [] => true
  | (k, b) :: m =>
    decide (low ≤ k) && decide (k < 2 ^ 32) && decide (b ≠ Memory.default) && Memory.wfFrom (k + 1) m

/-- The canonical form of a memory. -/
def Memory.wf (m : Memory) : Bool := Memory.wfFrom 0 m

/-- The memory of a space. -/
def State.mem (s : State) : Space → Memory
  | .main => s.main
  | .sample => s.sample

/-- The state with the memory of a space replaced. -/
def State.setMem (s : State) (sp : Space) (m : Memory) : State :=
  match sp with
  | .main => { s with main := m }
  | .sample => { s with sample := m }

/-- One byte of a space, whether or not the platform answers there. -/
def State.byteAt (s : State) (sp : Space) (a : Addr) : Byte := (s.mem sp).read a.toNat

/-- `MEM_MAP(space, addr)` (20_memory.md R66; 00_scope.md R8). -/
def Platform.mapped (p : Platform) (sp : Space) (a : Addr) : Bool :=
  p.holes.all fun h => !(decide (h.space = sp) && decide (h.first ≤ a.toNat) && decide (a.toNat ≤ h.last))

/-- `MemRead(space, addr, 1)`, none where the address does not answer (20_memory.md R62, R66). -/
def State.read8? (s : State) (sp : Space) (a : Addr) : Option Byte :=
  if s.cfg.mapped sp a then some (s.byteAt sp a) else none

/-- `MemRead(space, addr, 2)`, big-endian (20_memory.md R63). -/
def State.read16? (s : State) (sp : Space) (a : Addr) : Option Half :=
  match s.read8? sp a, s.read8? sp (a + 1) with
  | some hi, some lo => some (hi ++ lo)
  | _, _ => none

/-- `MemRead(space, addr, 4)`, big-endian (20_memory.md R63). -/
def State.read32? (s : State) (sp : Space) (a : Addr) : Option Word :=
  match s.read16? sp a, s.read16? sp (a + 2) with
  | some hi, some lo => some (hi ++ lo)
  | _, _ => none

/-- `n` consecutive bytes from `a` on. -/
def State.bytes? (s : State) (sp : Space) : Nat → Addr → Option (List Byte)
  | 0, _ => some []
  | n + 1, a =>
    match s.read8? sp a, s.bytes? sp n (a + 1) with
    | some b, some bs => some (b :: bs)
    | _, _ => none

/-- `n` consecutive 16-bit words from `a` on, each at an address 2 further. -/
def State.words? (s : State) (sp : Space) : Nat → Addr → Option (List Half)
  | 0, _ => some []
  | n + 1, a =>
    match s.read16? sp a, s.words? sp n (a + 2) with
    | some w, some ws => some (w :: ws)
    | _, _ => none

/-- The words from `a` on up to the first that does not answer, at most `n`: what a table load has
stored when it halts (40_commands.md R141; 60_exceptions.md R312, cause 8). -/
def State.wordsUntil (s : State) (sp : Space) : Nat → Addr → List Half
  | 0, _ => []
  | n + 1, a =>
    match s.read16? sp a with
    | some w => w :: s.wordsUntil sp n (a + 2)
    | none => []

/-- A 16-bit word as its two bytes in memory order (20_memory.md R63). -/
def halfBytes (w : Half) : List Byte := [w.extractLsb' 8 8, w.extractLsb' 0 8]

/-- Bytes stored one by one in increasing address (modulo 2^32) until one does not answer; whether all
were stored (20_memory.md R80; 60_exceptions.md R312, cause 8). -/
def storeBytes (answers : Addr → Bool) : Memory → Addr → List Byte → Memory × Bool
  | m, _, [] => (m, true)
  | m, a, b :: bs =>
    if answers a then storeBytes answers (m.write a.toNat b) (a + 1) bs else (m, false)

/-! ### Running an operation: it completes, or it halts the AVM -/

/-- An operation inside one port access: it completes with a result, or it halts. Either way it leaves a
state (60_exceptions.md R311: what was done before the halt stays done). -/
abbrev Act (α : Type) := EStateM HaltCause State α

/-- The state an operation leaves, completed or halted. -/
def Act.final {α : Type} (act : Act α) (s : State) : State :=
  match act s with
  | .ok _ s' => s'
  | .error _ s' => s'

/-- An operation as an outcome of the step: completed or halted, the machine is in a next state. -/
def Act.outcome (act : Act Unit) (s : State) : Host.Outcome State Fault Refusal :=
  .next (act.final s)

/-- TAKING THE EXCEPTION, `halt(cause)`: the cause and the state are written and nothing else changes
(60_exceptions.md R311). -/
def State.haltWith (s : State) (cause : HaltCause) : State :=
  { s with haltCause := cause, mode := .halted }

/-- `halt(cause)` inside an operation: no later step of any rule runs (60_exceptions.md R311). -/
def halt {α : Type} (cause : HaltCause) : Act α := fun s => .error cause (s.haltWith cause)

/-- THE WAY BACK, `RESET` and the reset input: every AVM register at its reset value; FLAGS and the other
configuration, both memories, and what stands outside the AVM are kept (10_state.md R42; 40_commands.md
R151; 70_reset_and_hazards.md R350, R351). -/
def State.resetAvm (s : State) : State :=
  { State.reset with
    cfg := s.cfg, main := s.main, sample := s.sample, irq := s.irq, host := s.host, replies := s.replies }

/-! ### Memory inside an operation -/

/-- The value read, or `BUS_ERROR` (20_memory.md R66). -/
def ofRead {α : Type} (read : State → Option α) : Act α := fun s =>
  match read s with
  | some v => .ok v s
  | none => halt .busError s

/-- `MemRead` of consecutive bytes. -/
def readBytes (sp : Space) (n : Nat) (a : Addr) : Act (List Byte) := ofRead fun s => s.bytes? sp n a

/-- `MemRead` of consecutive 16-bit words. -/
def readWords (sp : Space) (n : Nat) (a : Addr) : Act (List Half) := ofRead fun s => s.words? sp n a

/-- `MemWrite(MAIN, a + 2*i, 2, ws[i])` for increasing `i` (20_memory.md R63, R80). -/
def storeWords (a : Addr) (ws : List Half) : Act Unit := fun s =>
  let r := storeBytes (s.cfg.mapped .main) s.main a (ws.flatMap halfBytes)
  let s' := s.setMem .main r.1
  if r.2 then .ok () s' else halt .busError s'

/-- Where `SampleRead(a, ..)` reads: `SAMPLE`, or `MAIN` above `sample_base` with `NO_ARAM`
(20_memory.md R61). -/
def State.sampleSpace (s : State) : Space := if s.cfg.noAram then .main else .sample

/-- The address `SampleRead(a, ..)` reads at (20_memory.md R61). -/
def State.sampleAddr (s : State) (a : Addr) : Addr := if s.cfg.noAram then s.sampleBase + a else a

/-- `SampleRead` of consecutive bytes (20_memory.md R61). -/
def readSampleBytes (n : Nat) (a : Addr) : Act (List Byte) :=
  ofRead fun s => s.bytes? s.sampleSpace n (s.sampleAddr a)

/-! ### Events (60_exceptions.md R320, R322) -/

/-- `EvtPush(w)`: the word at the tail of the FIFO, and one pulse. -/
def State.pushEvent (s : State) (w : Word) : State :=
  { s with evt := s.evt ++ [w], irq := s.irq ++ [.event w] }

/-- The pulse of an accepted light sync word (40_commands.md R146). -/
def State.pulseLightSync (s : State) : State := { s with irq := s.irq ++ [.lightSync] }

/-- `CMD_ACK(sync)` = 0x10000000 + sync (30_encoding.md R118). -/
def ackWord (sync : BitVec 7) : Word := 0x10000000 + sync.setWidth 32

/-- `FRAME_DONE(f)` = 0x20000000 + f (30_encoding.md R118). -/
def frameDoneWord (frame : Half) : Word := 0x20000000 + frame.setWidth 32

/-- `RENDER_DONE` = 0x30000000 (30_encoding.md R118). -/
def renderDoneWord : Word := 0x30000000

/-- `Ack(sync)` (40_commands.md R138). -/
def ack (sync : BitVec 7) : Act Unit := modify fun s => s.pushEvent (ackWord sync)

/-! ### Buses (10_state.md R22) -/

/-- The samples of a bus. -/
def Buses.get (b : Buses) : BusId → List Sample
  | .fl => b.fl
  | .fr => b.fr
  | .bl => b.bl
  | .br => b.br
  | .flRv => b.flRv
  | .frRv => b.frRv
  | .blRv => b.blRv
  | .brRv => b.brRv
  | .auxaRv => b.auxaRv
  | .auxbRv => b.auxbRv

/-- The buses with one replaced. -/
def Buses.set (b : Buses) (id : BusId) (v : List Sample) : Buses :=
  match id with
  | .fl => { b with fl := v }
  | .fr => { b with fr := v }
  | .bl => { b with bl := v }
  | .br => { b with br := v }
  | .flRv => { b with flRv := v }
  | .frRv => { b with frRv := v }
  | .blRv => { b with blRv := v }
  | .brRv => { b with brRv := v }
  | .auxaRv => { b with auxaRv := v }
  | .auxbRv => { b with auxbRv := v }

/-- The ten buses in the order of their numbers. -/
def Buses.toList (b : Buses) : List (List Sample) :=
  [b.fl, b.fr, b.bl, b.br, b.flRv, b.frRv, b.blRv, b.brRv, b.auxaRv, b.auxbRv]

/-- The bus of a destination id: 1..10; 0 is no destination, the rest are reserved (10_state.md R22). -/
def BusId.ofDest (id : Half) : Option BusId :=
  match id.toNat with
  | 1 => some .fl
  | 2 => some .fr
  | 3 => some .bl
  | 4 => some .br
  | 5 => some .flRv
  | 6 => some .frRv
  | 7 => some .blRv
  | 8 => some .brRv
  | 9 => some .auxaRv
  | 10 => some .auxbRv
  | _ => none

/-- `BusClear(b)` (41_frame_ops.md R170). -/
def Buses.clear (b : Buses) (id : BusId) : Buses := b.set id (List.replicate frameLen 0)

/-- `BusScale(b, g, sh)`, `g` unsigned (41_frame_ops.md R170). -/
def Buses.scaleBus (b : Buses) (id : BusId) (g : Half) (sh : Nat) : Buses :=
  b.set id ((b.get id).map fun x => scale g.toNat x.toInt sh)

/-- One sample of `MixConst` and of a ramp: the scaled sample clamped before the add, the add wrapping
(41_frame_ops.md R170; 42_voice_mix.md R201). -/
def mixSample (g : Int) (b x : Sample) : Sample := wrap16 (b.toInt + (scale g x.toInt 15).toInt)

/-- `MixConst(dst, src, g)`, `g` unsigned 1.15 (41_frame_ops.md R170). -/
def Buses.mixConst (b : Buses) (dst : BusId) (src : List Sample) (g : Half) : Buses :=
  b.set dst (List.zipWith (mixSample g.toNat) (b.get dst) src)

/-! ### Reverb units (10_state.md R28) -/

/-- The state of unit `r`. -/
def State.reverbUnit (s : State) (r : Nat) : ReverbUnit := s.reverb.getD r ReverbUnit.zero

/-- Unit `r` replaced. -/
def State.setReverb (s : State) (r : Nat) (u : ReverbUnit) : State :=
  { s with reverb := s.reverb.set r u }

/-- `RB(r)`, the bus a unit owns (44_reverb.md). -/
def unitBus : Nat → BusId
  | 0 => .flRv
  | 1 => .frRv
  | 2 => .auxaRv
  | _ => .auxbRv

end Sys2Proof.Machine
end

