-- ==== Sys2Proof/Machine/Operands.lean ====
section
/-! DEFINITION. The operands a command finds in memory: the fields of a voice's parameter block (VPB) and
of a reverb parameter block (RPB), and the selectors read from them (20_memory.md R68 to R76). -/

namespace Sys2Proof.Machine

/-! ### The VPB image `F[0..0xBF]` (20_memory.md R68, R70) -/

/-- A VPB in the full layout, 0xC0 words (20_memory.md R68). -/
abbrev Vpb := List Half

/-- Word `i` of the image. -/
def Vpb.word (f : Vpb) (i : Nat) : Half := f.getD i 0

/-- The image with word `i` replaced. -/
def Vpb.put (f : Vpb) (i : Nat) (v : Half) : Vpb := List.set f i v

/-- The image with consecutive words replaced from word `i` on. -/
def Vpb.putAll (f : Vpb) (i : Nat) (vs : List Half) : Vpb := f.take i ++ vs ++ f.drop (i + vs.length)

/-- The 32-bit value `{word i, word i+1}` (20_memory.md R70). -/
def Vpb.pair (f : Vpb) (i : Nat) : Word := f.word i ++ f.word (i + 1)

/-- The image with a 32-bit value at words `i`, `i+1`. -/
def Vpb.putPair (f : Vpb) (i : Nat) (v : Word) : Vpb :=
  (f.put i (v.extractLsb' 16 16)).put (i + 1) (v.extractLsb' 0 16)

/-- Word 0x00, `enabled`. -/
def Vpb.enabled (f : Vpb) : Half := f.word 0x00
/-- Word 0x01, `done`. -/
def Vpb.done (f : Vpb) : Half := f.word 0x01
/-- Word 0x02, `ratio`, 4.12. -/
def Vpb.ratio (f : Vpb) : Half := f.word 0x02
/-- Word 0x03, `source_type`. -/
def Vpb.sourceType (f : Vpb) : Half := f.word 0x03
/-- Word 0x05, `end_requested`. -/
def Vpb.endRequested (f : Vpb) : Half := f.word 0x05
/-- Word 0x06, `use_constant_sample`. -/
def Vpb.useConstantSample (f : Vpb) : Half := f.word 0x06
/-- Word 0x07, `constant_sample`. -/
def Vpb.constantSample (f : Vpb) : Sample := f.word 0x07
/-- Words 0x08, 0x09, `position`, 20.12 (43_sources_resample.md R246). -/
def Vpb.position (f : Vpb) : Word := f.pair 0x08
/-- `position[31:12]`, the index of the next raw sample (43_sources_resample.md R246). -/
def Vpb.index (f : Vpb) : BitVec 20 := f.position.extractLsb' 12 20
/-- `position[11:0]`, the resampler's fraction (43_sources_resample.md R246). -/
def Vpb.frac (f : Vpb) : BitVec 12 := f.position.extractLsb' 0 12
/-- Word 0x0A, `use_dolby`. -/
def Vpb.useDolby (f : Vpb) : Half := f.word 0x0A
/-- Bits [6:0] of word 0x0B, `dolby_pan_x`. -/
def Vpb.panX (f : Vpb) : BitVec 7 := (f.word 0x0B).extractLsb' 0 7
/-- Bits [6:0] of word 0x0C, `dolby_pan_y`. -/
def Vpb.panY (f : Vpb) : BitVec 7 := (f.word 0x0C).extractLsb' 0 7
/-- Word 0x0D, `dolby_reverb_factor`. -/
def Vpb.reverbFactor (f : Vpb) : Sample := f.word 0x0D
/-- Word 0x0E, `dolby_volume_current`. -/
def Vpb.dolbyCurrent (f : Vpb) : Sample := f.word 0x0E
/-- Word 0x0F, `dolby_volume_target`. -/
def Vpb.dolbyTarget (f : Vpb) : Sample := f.word 0x0F
/-- Word 0x10+4c, `ch[c].dest_id`. -/
def Vpb.destId (f : Vpb) (c : Nat) : Half := f.word (0x10 + 4 * c)
/-- Word 0x11+4c, `ch[c].target_volume`. -/
def Vpb.target (f : Vpb) (c : Nat) : Sample := f.word (0x11 + 4 * c)
/-- Word 0x12+4c, `ch[c].current_volume`. -/
def Vpb.current (f : Vpb) (c : Nat) : Sample := f.word (0x12 + 4 * c)
/-- Words 0x28..0x2B, `resample_hist`. -/
def Vpb.hist (f : Vpb) : List Sample := [f.word 0x28, f.word 0x29, f.word 0x2A, f.word 0x2B]
/-- Word 0x2C, `afc_yn1`. -/
def Vpb.yn1 (f : Vpb) : Sample := f.word 0x2C
/-- Word 0x2D, `afc_yn2`. -/
def Vpb.yn2 (f : Vpb) : Sample := f.word 0x2D
/-- Word 0x2E, `synth_phase`. -/
def Vpb.synthPhase (f : Vpb) : Half := f.word 0x2E
/-- Word 0x30+n, `afc_cache[n]`. -/
def Vpb.cache (f : Vpb) (n : Nat) : Sample := f.word (0x30 + n)
/-- Words 0x80, 0x81, `base_address`. -/
def Vpb.baseAddress (f : Vpb) : Addr := f.pair 0x80
/-- Words 0x82, 0x83, `length`. -/
def Vpb.streamLength (f : Vpb) : Word := f.pair 0x82
/-- Word 0x84, `loop_enable`. -/
def Vpb.loopEnable (f : Vpb) : Half := f.word 0x84
/-- Word 0x85, `loop_yn1`. -/
def Vpb.loopYn1 (f : Vpb) : Sample := f.word 0x85
/-- Word 0x86, `loop_yn2`. -/
def Vpb.loopYn2 (f : Vpb) : Sample := f.word 0x86
/-- Words 0x88, 0x89, `loop_address`. -/
def Vpb.loopAddress (f : Vpb) : Addr := f.pair 0x88
/-- Words 0x8A, 0x8B, `loop_start`. -/
def Vpb.loopStart (f : Vpb) : Word := f.pair 0x8A

/-- `done <- 1`. -/
def Vpb.setDone (f : Vpb) : Vpb := f.put 0x01 1
/-- `position[31:12] <- i`. -/
def Vpb.setIndex (f : Vpb) (i : BitVec 20) : Vpb := f.putPair 0x08 (i ++ f.frac)
/-- `position[11:0] <- r`. -/
def Vpb.setFrac (f : Vpb) (r : BitVec 12) : Vpb := f.putPair 0x08 (f.index ++ r)
/-- `ch[c].target_volume <- v`. -/
def Vpb.setTarget (f : Vpb) (c : Nat) (v : Sample) : Vpb := f.put (0x11 + 4 * c) v
/-- `ch[c].current_volume <- v`. -/
def Vpb.setCurrent (f : Vpb) (c : Nat) (v : Sample) : Vpb := f.put (0x12 + 4 * c) v
/-- `afc_yn1 <- a ; afc_yn2 <- b`. -/
def Vpb.setYn (f : Vpb) (a b : Sample) : Vpb := (f.put 0x2C a).put 0x2D b

/-! ### Transfer layouts (20_memory.md R69, R72) -/

/-- Words of a VPB in memory: 0xC0, or 0x80 with `LEGACY_VPB` (20_memory.md R68). -/
def Platform.vpbWords (p : Platform) : Nat := if p.legacyVpb then 0x80 else 0xC0

/-- `VPB_STRIDE` in bytes (20_memory.md R67). -/
def Platform.vpbStride (p : Platform) : Nat := if p.legacyVpb then 0x100 else 0x180

/-- `Uncompress` (20_memory.md R72). -/
def uncompress (l : List Half) : Vpb :=
  l.take 0x60 ++ List.replicate 0x20 0 ++ (l.drop 0x60).take 0x20 ++ List.replicate 0x20 0

/-- `Compress` (20_memory.md R72). -/
def compress (f : Vpb) : List Half := f.take 0x60 ++ (f.drop 0x80).take 0x20

/-- The image of the words fetched (20_memory.md R69). -/
def Platform.expand (p : Platform) (ws : List Half) : Vpb := if p.legacyVpb then uncompress ws else ws

/-- The words stored for an image (20_memory.md R69). -/
def Platform.pack (p : Platform) (f : Vpb) : List Half := if p.legacyVpb then compress f else f

/-- The address of voice `v`'s VPB, modulo 2^32 (20_memory.md R67, R69). -/
def State.vpbAddr (s : State) (v : Half) : Addr :=
  s.vpbBase + BitVec.ofNat 32 (v.toNat * s.cfg.vpbStride)

/-! ### The source selector (43_sources_resample.md R240) -/

/-- The streamed sources. -/
inductive StreamKind where
  | pcm8
  | pcm16
  | afc4
  | afc2
  | raw16Main
  deriving DecidableEq, Repr

/-- The sample sources of `source_type` (43_sources_resample.md R240). -/
inductive SourceKind where
  | wave (w : Wave)
  | pattern (p : Fin 4)
  | stream (k : StreamKind)
  deriving DecidableEq, Repr

/-- The source a `source_type` selects; none where the value is reserved (43_sources_resample.md R240). -/
def SourceKind.ofType (t : Half) : Option SourceKind :=
  match t.toNat with
  | 0 => some (.wave .square)
  | 1 => some (.wave .saw)
  | 2 => some (.pattern 0)
  | 3 => some (.pattern 1)
  | 4 => some (.pattern 2)
  | 5 => some (.pattern 3)
  | 8 => some (.stream .pcm8)
  | 9 => some (.stream .pcm16)
  | 10 => some (.stream .afc4)
  | 11 => some (.stream .afc2)
  | 12 => some (.stream .raw16Main)
  | _ => none

/-- `DolbyActive(F)` (42_voice_mix.md R204). -/
def Platform.dolbyActive (p : Platform) (f : Vpb) : Bool := decide (f.useDolby ≠ 0) && !p.light

/-! ### The RPB (20_memory.md R75, R76) -/

/-- The sixteen words of a reverb parameter block. -/
abbrev Rpb := List Half

/-- Word `i` of the block. -/
def Rpb.word (p : Rpb) (i : Nat) : Half := p.getD i 0
/-- `enable` bit 0, `ENABLED`. -/
def Rpb.enabled (p : Rpb) : Bool := (p.word 0x00).getLsbD 0
/-- `enable` bit 1, `PRE_FILTER`. -/
def Rpb.preFilter (p : Rpb) : Bool := (p.word 0x00).getLsbD 1
/-- `enable` bit 2, `POST_FILTER`. -/
def Rpb.postFilter (p : Rpb) : Bool := (p.word 0x00).getLsbD 2
/-- Word 0x01, `cb_size`. -/
def Rpb.cbSize (p : Rpb) : Half := p.word 0x01
/-- Words 0x02, 0x03, `cb_base`. -/
def Rpb.cbBase (p : Rpb) : Addr := p.word 0x02 ++ p.word 0x03
/-- Word 0x04+2d, `dest[d].id`. -/
def Rpb.destId (p : Rpb) (d : Nat) : Half := p.word (0x04 + 2 * d)
/-- Word 0x05+2d, `dest[d].gain`. -/
def Rpb.destGain (p : Rpb) (d : Nat) : Half := p.word (0x05 + 2 * d)
/-- Words 0x08..0x0F, `coef`. -/
def Rpb.coef (p : Rpb) : List Sample := (p.drop 0x08).take 8

/-- The address of RPB `r` (20_memory.md R67; 44_reverb.md R290). -/
def State.rpbAddr (s : State) (r : Nat) : Addr := s.rpbBase + BitVec.ofNat 32 (0x20 * r)

/-- The address of block `c` of a circular buffer (20_memory.md R77). -/
def Rpb.blockAddr (p : Rpb) (c : Half) : Addr := p.cbBase + BitVec.ofNat 32 (160 * c.toNat)

end Sys2Proof.Machine
end

