-- ==== Sys2Proof/Machine/Reverb.lean ====
section
/-! DEFINITION. The reverb feedback path: `ApplyReverb` before and after the voices of a frame
(44_reverb.md). -/

namespace Sys2Proof.Machine

/-- `Fir8(W, coef)`: 80 samples from a window of 88 (44_reverb.md R293). -/
def fir8 (coef window : List Sample) : List Sample :=
  (List.range frameLen).map fun k => clamp16 (asr (dot coef (window.drop k)) 15)

/-- `RpbFetch(r)` (44_reverb.md R290). -/
def rpbFetch (r : Nat) : Act Rpb := do
  let s ← get
  readWords .main 16 (s.rpbAddr r)

/-- The checks on an enabled unit in the pre-render phase (44_reverb.md R292). -/
def rpbDefect (p : Rpb) : Option HaltCause :=
  if p.cbSize = 0 then some .badRpbGeometry
  else if 10 < (p.destId 0).toNat ∨ 10 < (p.destId 1).toNat then some .badDestId
  else none

/-- The filter applied where its enable bit is set (44_reverb.md R291). -/
def filterIf (on : Bool) (coef carry x : List Sample) : List Sample :=
  if on then fir8 coef (carry ++ x) else x

/-- The contribution to one destination of an RPB (44_reverb.md R291). -/
def rpbMix (p : Rpb) (x : List Sample) (b : Buses) (d : Nat) : Buses :=
  match BusId.ofDest (p.destId d) with
  | none => b
  | some id => b.mixConst id x (p.destGain d)

/-- What the block read does to the buses: the filtered block into both destinations, then the unit's own
bus overwritten (44_reverb.md R291). -/
def reverbIn (p : Rpb) (r : Nat) (carry raw : List Sample) (b : Buses) : Buses :=
  let x := filterIf p.preFilter p.coef carry raw
  let y := filterIf p.postFilter p.coef carry x
  (rpbMix p x (rpbMix p x b 0) 1).set (unitBus r) y

/-- The pre-render phase of an enabled unit that passed its checks (44_reverb.md R291). -/
def preEnabled (r : Nat) (p : Rpb) : Act Unit := do
  let s ← get
  let u := s.reverbUnit r
  let raw ← readWords .main frameLen (p.blockAddr (u.cursor % p.cbSize))
  set ({ s with buses := reverbIn p r u.carry raw s.buses }.setReverb r ⟨u.cursor, raw.drop 72⟩)

/-- The pre-render phase of one unit (44_reverb.md R290 to R292). -/
def preUnit (r : Nat) : Act Unit := do
  let p ← rpbFetch r
  if p.enabled then
    match rpbDefect p with
    | some cause => halt cause
    | none => preEnabled r p
  else pure ()

/-- The cursor after block `c` of a buffer of `size` blocks (44_reverb.md R297). -/
def nextBlock (size c : Half) : Half := BitVec.ofNat 16 ((c.toNat + 1) % size.toNat)

/-- The post-render phase of an enabled unit: its bus to the block at the cursor, the cursor on
(44_reverb.md R297). -/
def postEnabled (r : Nat) (p : Rpb) : Act Unit := do
  let s ← get
  let u := s.reverbUnit r
  let c := u.cursor % p.cbSize
  storeWords (p.blockAddr c) (s.buses.get (unitBus r))
  modify fun s => s.setReverb r ⟨nextBlock p.cbSize c, u.carry⟩

/-- The post-render phase of one unit (44_reverb.md R297). -/
def postUnit (r : Nat) : Act Unit := do
  let p ← rpbFetch r
  if p.enabled then
    if p.cbSize = 0 then halt .badRpbGeometry else postEnabled r p
  else pure ()

/-- Both phases visit the units in the order 0, 1, 2, 3 (44_reverb.md R290). -/
def forUnits (unit : Nat → Act Unit) : Act Unit := do
  unit 0
  unit 1
  unit 2
  unit 3

/-- `ApplyReverb(pre)` (44_reverb.md R291). -/
def applyReverbPre : Act Unit := forUnits preUnit

/-- `ApplyReverb(post)` (44_reverb.md R297). -/
def applyReverbPost : Act Unit := forUnits postUnit

end Sys2Proof.Machine
end

