-- ==== Sys2Proof/Machine/Mix.lean ====
section
/-! DEFINITION. Voice mixing: the gain ramp, the end request, channel mode and the positional (Dolby) mode
(42_voice_mix.md R201 to R224). -/

namespace Sys2Proof.Machine

/-- `RampStep(cur, tgt)`: the exact delta times 65536, divided by 80 toward zero (42_voice_mix.md R201). -/
def rampStep (cur tgt : Sample) : Word := wrap32 (((tgt.toInt - cur.toInt) * 65536).tdiv 80)

/-- `MixRamp` over the samples of a bus and a source: sample `k` uses the volume before the `k`-th
increment; the accumulator that is left (42_voice_mix.md R201). -/
def mixRamp : List Sample → List Sample → Word → Word → List Sample × Word
  | b :: bs, x :: xs, vol, step =>
    let r := mixRamp bs xs (vol + step) step
    (mixSample (highHalf vol).toInt b x :: r.1, r.2)
  | bs, _, vol, _ => (bs, vol)

/-- `EndRequest(F)` in Dolby mode: the target master volume is halved (42_voice_mix.md R205). -/
def endDolby (f : Vpb) : Vpb :=
  let t := halve f.dolbyTarget
  let f := f.put 0x0F t
  if t = 0 then f.setDone else f

/-- `EndRequest(F)` in channel mode: every channel's target is halved (42_voice_mix.md R205). -/
def endChannels (channels : Nat) (f : Vpb) : Vpb :=
  let f := (List.range channels).foldl (fun f c => f.setTarget c (halve (f.target c))) f
  if (List.range channels).all fun c => f.target c = 0 then f.setDone else f

/-- `EndRequest(F)`, step 2 of `AddVoice` (42_voice_mix.md R205). -/
def endRequest (p : Platform) (f : Vpb) : Vpb :=
  if f.endRequested = 0 then f
  else if p.dolbyActive f then endDolby f
  else endChannels p.channels f

/-! ### Channel mode -/

/-- `ChannelStep(F, c)` (42_voice_mix.md R212). -/
def channelStep (p : Platform) (f : Vpb) (c : Nat) : Word :=
  if p.volumeStep then accum (f.target c) else rampStep (f.current c) (f.target c)

/-- One channel of `MixChannels` (42_voice_mix.md R210). -/
def mixChannel (p : Platform) (voice : List Sample) (fb : Vpb × Buses) (c : Nat) : Vpb × Buses :=
  match BusId.ofDest (fb.1.destId c) with
  | none => fb
  | some id =>
    let r := mixRamp (fb.2.get id) voice (accum (fb.1.current c)) (channelStep p fb.1 c)
    (fb.1.setCurrent c (highHalf r.2), fb.2.set id r.1)

/-- `MixChannels(F, voice)`, in increasing channel number (42_voice_mix.md R210). -/
def mixChannels (p : Platform) (voice : List Sample) (f : Vpb) (b : Buses) : Vpb × Buses :=
  (List.range p.channels).foldl (mixChannel p voice) (f, b)

/-! ### Dolby mode -/

/-- `SINE[i]`. -/
def Tables.sineAt (t : Tables) (i : BitVec 7) : Int := (t.sine.getD i.toNat 0).toInt

/-- `QuadrantVolumes(F)` in the order FL, FR, BL, BR (42_voice_mix.md R221). -/
def quadrantVolumes (t : Tables) (f : Vpb) : List Sample :=
  let l := t.sineAt (f.panX ^^^ 0x7F)
  let r := t.sineAt f.panX
  let front := t.sineAt (f.panY ^^^ 0x7F)
  let back := t.sineAt f.panY
  [scale l front 15, scale r front 15, scale l back 15, scale r back 15]

/-- `Louder(v)` (42_voice_mix.md R222). -/
def louder (p : Platform) (v : Sample) : Sample := if p.dolbyLouder then clamp16 (2 * v.toInt) else v

/-- A ramp from `cur` to `tgt` into one bus; the accumulator is discarded (42_voice_mix.md R220). -/
def rampInto (voice : List Sample) (b : Buses) (id : BusId) (cur tgt : Sample) : Buses :=
  b.set id (mixRamp (b.get id) voice (accum cur) (rampStep cur tgt)).1

/-- One quadrant of `MixDolby`: the direct bus, then its reverb-feed counterpart (42_voice_mix.md R220,
R223). -/
def mixQuadrant (p : Platform) (f : Vpb) (voice : List Sample) (b : Buses)
    (q : BusId × BusId × Sample) : Buses :=
  let c := louder p (scale q.2.2.toInt f.dolbyCurrent.toInt 15)
  let t := louder p (scale q.2.2.toInt f.dolbyTarget.toInt 15)
  let rc := scale c.toInt f.reverbFactor.toInt 15
  let rt := scale t.toInt f.reverbFactor.toInt 15
  rampInto voice (rampInto voice b q.1 c t) q.2.1 rc rt

/-- `MixDolby(F, voice)` (42_voice_mix.md R220, R224). -/
def mixDolby (p : Platform) (t : Tables) (voice : List Sample) (f : Vpb) (b : Buses) : Vpb × Buses :=
  let direct := [BusId.fl, .fr, .bl, .br]
  let feed := [BusId.flRv, .frRv, .blRv, .brRv]
  let quads := direct.zip (feed.zip (quadrantVolumes t f))
  (f.put 0x0E f.dolbyTarget, quads.foldl (mixQuadrant p f voice) b)

end Sys2Proof.Machine
end

