-- ==== Sys2Proof/Machine/Sources.lean ====
section
/-! DEFINITION. Where a voice's 80 samples come from: the constant-sample override, the synthetic and
pattern sources, the streams with their loops and the AFC decoder, and the 4-tap resampler
(43_sources_resample.md). -/

namespace Sys2Proof.Machine

/-! ### Synthetic and pattern sources (43_sources_resample.md R244, R245) -/

/-- The 64 words of pattern `p` (10_state.md R25). -/
def Tables.patternWords (t : Tables) (p : Fin 4) : List Sample := (t.pattern.drop (64 * p.val)).take 64

/-- `SynthGen` for a wave: no table, no bus (43_sources_resample.md R244). -/
def synthWave (w : Wave) (f : Vpb) : List Sample × Half :=
  let r := Config.synthWave w f.synthPhase f.ratio
  (r.1.toList, r.2)

/-- `SynthGen` for a pattern: its own 64 words, and the buses for the variable-step pattern alone
(43_sources_resample.md R244, R245). -/
def synthPattern (t : Tables) (b : Buses) (p : Fin 4) (f : Vpb) : List Sample × Half :=
  let seen := if p = Config.variableStepPattern then some b.toList else none
  let r := Config.synthPattern p f.synthPhase f.ratio (t.patternWords p) seen
  (r.1.toList, r.2)

/-! ### AFC (43_sources_resample.md R260 to R266) -/

/-- Bytes of one AFC block: 1 + 8, or 1 + 4 (43_sources_resample.md R260). -/
def afcBlockBytes (k : StreamKind) : Nat := if k = .afc4 then 9 else 5

/-- The expanded samples of one data byte: two signed nibbles times 2048, or four signed pairs of bits
times 8192, the most significant first (43_sources_resample.md R260, R262; PRESUMED by the spec, log 14). -/
def afcExpand (k : StreamKind) (y : Byte) : List Int :=
  if k = .afc4 then
    [(y.extractLsb' 4 4).toInt * 2048, (y.extractLsb' 0 4).toInt * 2048]
  else
    [(y.extractLsb' 6 2).toInt * 8192, (y.extractLsb' 4 2).toInt * 8192,
     (y.extractLsb' 2 2).toInt * 8192, (y.extractLsb' 0 2).toInt * 8192]

/-- The prediction over the expanded samples, `yn1` the newer history: the decoded samples and the history
after them (43_sources_resample.md R262). -/
def afcPredict (delta c1 c2 : Int) : List Int → Sample → Sample → List Sample × Sample × Sample
  | [], yn1, yn2 => ([], yn1, yn2)
  | q :: qs, yn1, yn2 =>
    let s := clamp16 (asr (delta * q + yn1.toInt * c1 + yn2.toInt * c2) 11)
    let r := afcPredict delta c1 c2 qs s yn1
    (s :: r.1, r.2)

/-- A block's bytes decoded from a history: [7:4] of the header is the shift, [3:0] the coefficient pair
(43_sources_resample.md R260, R262). -/
def afcDecode (k : StreamKind) (coef : List Sample) (bytes : List Byte) (yn1 yn2 : Sample) :
    List Sample × Sample × Sample :=
  let h := bytes.headD 0
  let idx := (h.extractLsb' 0 4).toNat
  let delta : Int := 2 ^ (h.extractLsb' 4 4).toNat
  afcPredict delta (coef.getD (2 * idx) 0).toInt (coef.getD (2 * idx + 1) 0).toInt
    (bytes.tail.flatMap (afcExpand k)) yn1 yn2

/-- `DecodeAfcBlock(F, t, blk)`: the block is read, decoded into the cache, and the history replaced
(43_sources_resample.md R262). -/
def decodeAfcBlock (f : Vpb) (k : StreamKind) (blk : Nat) : Act Vpb := do
  let bytes ← readSampleBytes (afcBlockBytes k) (f.baseAddress + BitVec.ofNat 32 (afcBlockBytes k * blk))
  let s ← get
  let r := afcDecode k s.tables.afcCoef bytes f.yn1 f.yn2
  return (f.putAll 0x30 r.1).setYn r.2.1 r.2.2

/-! ### Streams (43_sources_resample.md R246 to R252) -/

/-- A big-endian 16-bit value from two bytes (20_memory.md R63). -/
def bytesHalf (bs : List Byte) : Half := bs.getD 0 0 ++ bs.getD 1 0

/-- The loop restart: the base becomes `loop_address`, the index `loop_start`, and an AFC stream takes its
saved history (43_sources_resample.md R250, R252). -/
def Vpb.restartLoop (f : Vpb) (k : StreamKind) : Vpb :=
  let f' := (f.putPair 0x80 f.loopAddress).setIndex (f.loopStart.extractLsb' 0 20)
  if k = .afc4 ∨ k = .afc2 then f'.setYn f.loopYn1 f.loopYn2 else f'

/-- The raw sample at the stream's index, and the image after a block was decoded for it; `fresh` says a
loop has just restarted (43_sources_resample.md R247, R250). -/
def rawSample (f : Vpb) (k : StreamKind) (fresh : Bool) : Act (Sample × Vpb) := do
  let i := f.index.toNat
  let b := f.baseAddress
  match k with
  | .pcm8 => do
    let bs ← readSampleBytes 1 (b + BitVec.ofNat 32 i)
    return (wrap16 ((bs.getD 0 0).toInt * 256), f)
  | .pcm16 => do
    let bs ← readSampleBytes 2 (b + BitVec.ofNat 32 (2 * i))
    return (bytesHalf bs, f)
  | .raw16Main => do
    let bs ← readBytes .main 2 (b + BitVec.ofNat 32 (2 * i))
    return (bytesHalf bs, f)
  | .afc4 => do
    let f ← if fresh || i % 16 == 0 then decodeAfcBlock f k (i / 16) else pure f
    return (f.cache (i % 16), f)
  | .afc2 => do
    let f ← if fresh || i % 16 == 0 then decodeAfcBlock f k (i / 16) else pure f
    return (f.cache (i % 16), f)

/-- A fetch at an index inside the stream: the sample, the index advanced modulo 2^20
(43_sources_resample.md R250). -/
def fetchAt (f : Vpb) (k : StreamKind) (fresh : Bool) : Act (Sample × Vpb) := do
  let r ← rawSample f k fresh
  return (r.1, r.2.setIndex (r.2.index + 1))

/-- The index is inside the stream (43_sources_resample.md R252). -/
def Vpb.inStream (f : Vpb) : Bool := decide (f.index.toNat < f.streamLength.toNat)

/-- `NextSample(F, t)` (43_sources_resample.md R250, R252). -/
def nextSample (f : Vpb) (k : StreamKind) : Act (Sample × Vpb) :=
  if f.inStream then fetchAt f k false
  else if f.loopEnable = 0 then pure (0, f.setDone)
  else
    let f' := f.restartLoop k
    if f'.inStream then fetchAt f' k true else pure (0, f'.setDone)

/-- `n` raw samples, one after another (43_sources_resample.md R270). -/
def nextSamples (k : StreamKind) : Nat → Vpb → Act (List Sample × Vpb)
  | 0, f => pure ([], f)
  | n + 1, f => do
    let r ← nextSample f k
    let rs ← nextSamples k n r.2
    return (r.1 :: rs.1, rs.2)

/-! ### The resampler (43_sources_resample.md R270 to R277) -/

/-- `Tap(in, idx, f, r)`: nearest neighbour at or above 4.0, else the 4-tap filter of set `f >> 6`
(43_sources_resample.md R275; 90_conflicts.md C1, C2). -/
def tap (coef window : List Sample) (idx frac ratio : Nat) : Sample :=
  if 0x4000 ≤ ratio then window.getD idx 0
  else
    let set := frac / 64
    clamp16 (asr (2 * dot ((coef.drop (4 * set)).take 4) (window.drop idx)) 16)

/-- Output sample `k` of a frame (43_sources_resample.md R270). -/
def resampleAt (coef window : List Sample) (frac ratio k : Nat) : Sample :=
  let p := frac + k * ratio
  tap coef window (p / 4096) (p % 4096) ratio

/-- `Resample(F, t)` (43_sources_resample.md R270). -/
def resample (f : Vpb) (k : StreamKind) : Act (List Sample × Vpb) := do
  let ratio := f.ratio.toNat
  let frac := f.frac.toNat
  let last := frac + frameLen * ratio
  let n := last / 4096
  let r ← nextSamples k n f
  let s ← get
  let window := f.hist ++ r.1
  let out := (List.range frameLen).map (resampleAt s.tables.resampleCoef window frac ratio)
  let f' := (r.2.putAll 0x28 ((window.drop n).take 4)).setFrac (BitVec.ofNat 12 last)
  return (out, f'.put 0x07 (out.getD 79 0))

/-! ### Source selection (43_sources_resample.md R241, R242) -/

/-- `LoadVoiceSamples(F)`, step 1 of `AddVoice`; a reserved source type was refused before
(42_voice_mix.md R203), so its arm is not reached (43_sources_resample.md R241). -/
def loadVoiceSamples (f : Vpb) : Act (List Sample × Vpb) :=
  if f.useConstantSample ≠ 0 then pure (List.replicate frameLen f.constantSample, f)
  else
    match SourceKind.ofType f.sourceType with
    | some (.wave w) =>
      let r := synthWave w f
      pure (r.1, f.put 0x2E r.2)
    | some (.pattern p) => do
      let s ← get
      let r := synthPattern s.tables s.buses p f
      return (r.1, f.put 0x2E r.2)
    | some (.stream k) => resample f k
    | none => halt .badSourceType

end Sys2Proof.Machine
end

