-- ==== Sys2Proof/Machine/Voice.lean ====
section
/-! DEFINITION. `AddVoice`: one voice mixed into the frame (42_voice_mix.md R200, R203, R225, R226). -/

namespace Sys2Proof.Machine

/-- `Validate(F)`: the cause it halts with, if any; the source type before the destinations
(42_voice_mix.md R203; 60_exceptions.md R312). -/
def voiceDefect (p : Platform) (f : Vpb) : Option HaltCause :=
  if f.useConstantSample = 0 ∧ SourceKind.ofType f.sourceType = none then some .badSourceType
  else if !p.dolbyActive f && (List.range p.channels).any fun c => decide (10 < (f.destId c).toNat) then
    some .badDestId
  else none

/-- `VpbFetch(v)` (20_memory.md R69). -/
def vpbFetch (v : Half) : Act Vpb := do
  let s ← get
  let ws ← readWords .main s.cfg.vpbWords (s.vpbAddr v)
  return s.cfg.expand ws

/-- `VpbStore(v)` (20_memory.md R69). -/
def vpbStore (v : Half) (f : Vpb) : Act Unit := do
  let s ← get
  storeWords (s.vpbAddr v) (s.cfg.pack f)

/-- Steps 3 and 4 of `AddVoice`: one of the two mixing modes (42_voice_mix.md R200, R204). -/
def mixVoice (p : Platform) (t : Tables) (voice : List Sample) (f : Vpb) (b : Buses) : Vpb × Buses :=
  if p.dolbyActive f then mixDolby p t voice f b else mixChannels p voice f b

/-- Step 5 of `AddVoice`: `reset_vpb` is cleared outside constant-sample mode (42_voice_mix.md R225). -/
def clearReset (f : Vpb) : Vpb := if f.useConstantSample = 0 then f.put 0x04 0 else f

/-- Steps 1 to 6 of `AddVoice` for an enabled voice that is not done (42_voice_mix.md R200). -/
def mixEnabledVoice (v : Half) (f : Vpb) : Act Unit := do
  let (voice, f) ← loadVoiceSamples f
  let s ← get
  let (f, buses) := mixVoice s.cfg s.tables voice (endRequest s.cfg f) s.buses
  set { s with buses := buses }
  vpbStore v (clearReset f)

/-- `AddVoice(v)` (42_voice_mix.md R200). -/
def addVoice (v : Half) : Act Unit := do
  let f ← vpbFetch v
  if f.enabled = 0 ∨ f.done ≠ 0 then pure ()
  else do
    let s ← get
    match voiceDefect s.cfg f with
    | some cause => halt cause
    | none => mixEnabledVoice v f

end Sys2Proof.Machine
end

