-- ==== Sys2Proof/Machine/Frame.lean ====
section
/-! DEFINITION. The frame: preparation, finalisation, and the rendering loop over frames and voices with its
yield (41_frame_ops.md R171 to R178). -/

namespace Sys2Proof.Machine

/-- Steps 1 to 3 of `PrepareFrame` (41_frame_ops.md R174). -/
def prepareBuses (p : Platform) (b : Buses) : Buses :=
  let b := (b.clear .fl).clear .fr
  let b := (b.scaleBus .bl p.backDecayGain 15).scaleBus .br p.backDecayGain 15
  (((b.clear .flRv).clear .frRv).clear .auxaRv).clear .auxbRv

/-- Steps 5 and 6 of `PrepareFrame` (41_frame_ops.md R174). -/
def foldBackReverb (p : Platform) (b : Buses) : Buses :=
  let b := b.mixConst .fl b.blRv p.reverbFrontGainL
  let b := b.mixConst .fr b.brRv p.reverbFrontGainR
  (b.clear .blRv).clear .brRv

/-- `PatternRegen`: patterns 0 and 1 kept, 2 and 3 from the open function (41_frame_ops.md R176). -/
def regenPattern (pattern : List Sample) : List Sample :=
  pattern.take 128 ++ (Config.patternRegen pattern).toList

/-- Steps 5 to 8 of `PrepareFrame` (41_frame_ops.md R174). -/
def State.closePrepare (s : State) : State :=
  { s with
    buses := foldBackReverb s.cfg s.buses
    tables := { s.tables with pattern := regenPattern s.tables.pattern }
    prepared := true }

/-- `PrepareFrame` (41_frame_ops.md R174). -/
def prepareFrame : Act Unit := do
  let s ← get
  if s.prepared then pure ()
  else if !s.setupDone then halt .notConfigured
  else do
    modify fun s => { s with buses := prepareBuses s.cfg s.buses }
    applyReverbPre
    modify State.closePrepare

/-- Step 1 of `FinalizeFrame` (41_frame_ops.md R178). -/
def State.scaleFront (s : State) : State :=
  { s with buses := (s.buses.scaleBus .fl s.outVol 12).scaleBus .fr s.outVol 12 }

/-- Step 3 of `FinalizeFrame` (41_frame_ops.md R178). -/
def State.advanceOut (s : State) : State := { s with outL := s.outL + 160, outR := s.outR + 160 }

/-- Steps 1 to 3 of `FinalizeFrame`: the left frame, then the right (41_frame_ops.md R178). -/
def writeFrame : Act Unit := do
  modify State.scaleFront
  let s ← get
  storeWords s.outL s.buses.fl
  storeWords s.outR s.buses.fr
  modify State.advanceOut

/-- `FinalizeFrame` (41_frame_ops.md R178). -/
def finalizeFrame : Act Unit := do
  let s ← get
  if !s.prepared then pure ()
  else if !s.outValid then halt .notConfigured
  else do
    writeFrame
    applyReverbPost
    modify fun s => { s with prepared := false }

/-! ### The rendering loop -/

/-- The skip-mask bit of a voice: group `v >> 4`, bit `v & 15` (30_encoding.md R114). -/
def Cursors.voiceSelected (c : Cursors) (v : Half) : Bool :=
  (c.skipFlags.getD (v.toNat / 16) 0).getLsbD (v.toNat % 16)

/-- The cursor past one voice (41_frame_ops.md R171). -/
def State.nextVoice (s : State) : State := { s with cur := { s.cur with curVoice := s.cur.curVoice + 1 } }

/-- The cursors at the end of a frame; the skip masks are kept (41_frame_ops.md R171). -/
def State.nextFrame (s : State) : State :=
  { s with
    cur := { s.cur with
      curVoice := 0, maxUnlocked := 0, syncHalf := false, curFrame := s.cur.curFrame + 1 } }

/-- `RenderDone` (41_frame_ops.md R173). -/
def State.renderDone (s : State) : State :=
  { s.pushEvent renderDoneWord with
    canExecute := s.canExecute && s.cfg.light
    mode := .waiting }

/-- The voice at the cursor mixed if its mask bit is set, else skipped without any memory access
(41_frame_ops.md R171). -/
def visitVoice : Act Unit := do
  let s ← get
  if s.cur.voiceSelected s.cur.curVoice then addVoice s.cur.curVoice else pure ()

/-- The voices of a frame from the cursor on, at most `n` of them: whether the loop yielded at a voice that
is not unlocked. The caller gives the number of voices left (41_frame_ops.md R171; log 18). -/
def renderVoices : Nat → Act Bool
  | 0 => pure false
  | n + 1 => do
    let s ← get
    if s.cur.maxUnlocked ≤ s.cur.curVoice.toNat then pure true
    else do
      visitVoice
      modify State.nextVoice
      renderVoices n

/-- `FRAME_DONE`, before `FinalizeFrame` and not under `LIGHT` (41_frame_ops.md R172). -/
def State.frameDone (s : State) : State :=
  if s.cfg.light then s else s.pushEvent (frameDoneWord s.cur.curFrame)

/-- The end of a frame whose voices are all done (41_frame_ops.md R171). -/
def closeFrame : Act Unit := do
  modify State.frameDone
  finalizeFrame
  modify State.nextFrame

/-- The voices left in the frame. -/
def Cursors.voicesLeft (c : Cursors) : Nat := c.voicesPerFrame.toNat - c.curVoice.toNat

/-- The frames left in the render. -/
def Cursors.framesLeft (c : Cursors) : Nat := c.reqFrames.toNat - c.curFrame.toNat

/-- The frames of a render from the cursors on, at most `n` of them. The caller gives the number of frames
left (41_frame_ops.md R171; log 18). -/
def renderFrames : Nat → Act Unit
  | 0 => modify State.renderDone
  | n + 1 => do
    prepareFrame
    let s ← get
    let yielded ← renderVoices s.cur.voicesLeft
    if yielded then pure ()
    else do
      closeFrame
      renderFrames n

/-- `RenderAudio` (41_frame_ops.md R171). -/
def renderAudio : Act Unit := do
  let s ← get
  renderFrames s.cur.framesLeft

end Sys2Proof.Machine
end

