-- ==== Sys2Proof/Machine/Commands.lean ====
section
/-! DEFINITION. The meanings of the commands, each as the dispatch loop executes it once it has popped the
command (40_commands.md R137 to R143; 41_frame_ops.md R180 to R182). -/

namespace Sys2Proof.Machine

/-! ### NOP -/

/-- `Execute(NOP)` (40_commands.md R140). -/
def doNop (sync : BitVec 7) : Act Unit := ack sync

/-- `NOP`: acknowledged, nothing else (40_commands.md R140). -/
def execNop (sync : BitVec 7) (s : State) : Host.Outcome State Fault Refusal := (doNop sync).outcome s

/-! ### SETUP -/

/-- A table overwritten from its start by the words that could be read. -/
def overwrite (old new : List Sample) : List Sample := new ++ old.drop new.length

/-- A table of `n` words copied from `MAIN`, element by element: the elements before one that does not
answer are stored, then the AVM halts (20_memory.md R79; 40_commands.md R141; log 19). -/
def loadTable (n : Nat) (a : Addr) (read : Tables → List Sample)
    (put : Tables → List Sample → Tables) : Act Unit := fun s =>
  let ws := s.wordsUntil .main n a
  let s' := { s with tables := put s.tables (overwrite (read s.tables) ws) }
  if ws.length = n then .ok () s' else halt .busError s'

/-- `RESAMPLE_COEF[i] <- Read16s(MAIN, a2 + 2*i)` (40_commands.md R141). -/
def loadResample (a : Addr) : Act Unit :=
  loadTable 256 a Tables.resampleCoef fun t v => { t with resampleCoef := v }

/-- `PATTERN[i] <- Read16s(MAIN, a3 + 2*i)` (40_commands.md R141). -/
def loadPattern (a : Addr) : Act Unit := loadTable 256 a Tables.pattern fun t v => { t with pattern := v }

/-- `SINE[i] <- Read16s(MAIN, a3 + 512 + 2*i)` (40_commands.md R141; 20_memory.md R79). -/
def loadSine (a : Addr) : Act Unit := loadTable 128 (a + 512) Tables.sine fun t v => { t with sine := v }

/-- `AFC_COEF[i] <- Read16s(MAIN, a4 + 2*i)` (40_commands.md R141). -/
def loadAfc (a : Addr) : Act Unit := loadTable 32 a Tables.afcCoef fun t v => { t with afcCoef := v }

/-- The sine table, not loaded under `LIGHT` (40_commands.md R141). -/
def loadSineUnlessLight (a : Addr) : Act Unit := do
  let s ← get
  if s.cfg.light then pure () else loadSine a

/-- `Execute(SETUP)` (40_commands.md R141). -/
def doSetup (sync : BitVec 7) (vpb resample pattern afc rpb : Addr) : Act Unit := do
  modify fun s => { s with vpbBase := vpb }
  loadResample resample
  loadPattern pattern
  loadSineUnlessLight pattern
  loadAfc afc
  modify fun s => { s with rpbBase := rpb, setupDone := true }
  ack sync

/-- `SETUP` (40_commands.md R141). -/
def execSetup (sync : BitVec 7) (vpb resample pattern afc rpb : Addr) (s : State) :
    Host.Outcome State Fault Refusal :=
  (doSetup sync vpb resample pattern afc rpb).outcome s

/-! ### START_RENDER -/

/-- The registers and cursors `START_RENDER` writes (40_commands.md R142). -/
def State.startRender (s : State) (voices frames vol : Half) (outL outR : Addr) : State :=
  { s with
    outVol := vol, outL := outL, outR := outR, outValid := true
    cur := ⟨frames, voices, 0, 0, List.replicate 16 0, 0, false⟩
    mode := .rendering }

/-- `Execute(START_RENDER)` (40_commands.md R142). -/
def doStartRender (voices frames vol : Half) (outL outR : Addr) : Act Unit := do
  let s ← get
  if !s.setupDone then halt .notConfigured
  else do
    modify fun s => s.startRender voices frames vol outL outR
    renderAudio

/-- `START_RENDER`; its `sync` field is ignored (40_commands.md R142). -/
def execStartRender (_sync : BitVec 7) (voices frames vol : Half) (outL outR : Addr) (s : State) :
    Host.Outcome State Fault Refusal :=
  (doStartRender voices frames vol outL outR).outcome s

/-! ### SET_SAMPLE_BASE -/

/-- `Execute(SET_SAMPLE_BASE)` (40_commands.md R143). -/
def doSetSampleBase (sync : BitVec 7) (base : Addr) : Act Unit := do
  let s ← get
  if !s.cfg.noAram then halt .unknownOpcode
  else do
    modify fun s => { s with sampleBase := base }
    ack sync

/-- `SET_SAMPLE_BASE` (40_commands.md R143). -/
def execSetSampleBase (sync : BitVec 7) (base : Addr) (s : State) : Host.Outcome State Fault Refusal :=
  (doSetSampleBase sync base).outcome s

/-! ### The direct frame commands -/

/-- `Execute(PREPARE_FRAME)` (41_frame_ops.md R180). -/
def doPrepareFrame (sync : BitVec 7) : Act Unit := do
  prepareFrame
  ack sync

/-- `PREPARE_FRAME` (41_frame_ops.md R180). -/
def execPrepareFrame (sync : BitVec 7) (s : State) : Host.Outcome State Fault Refusal :=
  (doPrepareFrame sync).outcome s

/-- `Execute(ADD_VOICE)` (41_frame_ops.md R181). -/
def doAddVoice (sync : BitVec 7) (voice : Half) : Act Unit := do
  prepareFrame
  addVoice voice
  ack sync

/-- `ADD_VOICE` (41_frame_ops.md R181). -/
def execAddVoice (sync : BitVec 7) (voice : Half) (s : State) : Host.Outcome State Fault Refusal :=
  (doAddVoice sync voice).outcome s

/-- `Execute(FINALIZE_FRAME)` (41_frame_ops.md R182). -/
def doFinalizeFrame (sync : BitVec 7) : Act Unit := do
  finalizeFrame
  ack sync

/-- `FINALIZE_FRAME` (41_frame_ops.md R182). -/
def execFinalizeFrame (sync : BitVec 7) (s : State) : Host.Outcome State Fault Refusal :=
  (doFinalizeFrame sync).outcome s

/-! ### Reserved opcodes -/

/-- `Execute` of a reserved opcode (40_commands.md R137). -/
def doReserved : Act Unit := halt .unknownOpcode

/-- A reserved opcode: halts, not acknowledged (40_commands.md R137). -/
def execReserved (_opcode _sync : BitVec 7) (_imm : Half) (s : State) :
    Host.Outcome State Fault Refusal :=
  doReserved.outcome s

end Sys2Proof.Machine
end

