-- ==== Sys2Proof/Machine/CommandPort.lean ====
section
/-! DEFINITION. The command buffer, the words that fill it, and the dispatch loop that empties it
(40_commands.md R131 to R136). -/

namespace Sys2Proof.Machine

/-! ### The buffer (40_commands.md R134) -/

/-- A word into a buffer that has room. -/
def CmdBuffer.push (c : CmdBuffer) (w : Word) : CmdBuffer :=
  { c with buf := c.buf.set c.wr.toNat w, wr := c.wr + 1, words := c.words + 1 }

/-- The word at the read cursor. -/
def CmdBuffer.front (c : CmdBuffer) : Word := c.buf.getD c.rd.toNat 0

/-- The buffer without its front word. -/
def CmdBuffer.pop (c : CmdBuffer) : CmdBuffer := { c with rd := c.rd + 1, words := c.words - 1 }

/-- `BufPush(w)`; a full buffer halts and the word is lost (40_commands.md R134). -/
def bufPush (w : Word) : Act Unit := do
  let s ← get
  if s.cmd.words = 64 then halt .cmdOverflow
  else set { s with cmd := s.cmd.push w }

/-- `BufPop()`. It never pops past an empty buffer: that would be `UNKNOWN_OPCODE` (40_commands.md R136),
which the buffer's invariant keeps from happening (10_state.md R31; log 15). -/
def bufPop : Act Word := do
  let s ← get
  if s.cmd.words = 0 then halt .unknownOpcode
  else do
    set { s with cmd := s.cmd.pop }
    return s.cmd.front

/-- The next header, words with bit 31 = 0 skipped (40_commands.md R135, R136); the first argument bounds
the skipping by the words there are. -/
def popHeader : Nat → Act Word
  | 0 => halt .unknownOpcode
  | n + 1 => do
    let w ← bufPop
    if headerBit w then return w else popHeader n

/-- The operand words of a command, in order (40_commands.md R135). -/
def popOperands : Nat → Act (List Word)
  | 0 => pure []
  | n + 1 => do
    let w ← bufPop
    let ws ← popOperands n
    return w :: ws

/-! ### The dispatch loop (40_commands.md R135) -/

/-- `Execute(op, sync, imm, ops)` of a decoded command (40_commands.md R135). Sync words and control writes
never stand in the buffer (30_encoding.md R100). -/
def executeCommand : Instr → Act Unit
  | .nop sync => doNop sync
  | .setup sync vpb resample pattern afc rpb => doSetup sync vpb resample pattern afc rpb
  | .startRender _ voices frames vol outL outR => doStartRender voices frames vol outL outR
  | .setSampleBase sync base => doSetSampleBase sync base
  | .prepareFrame sync => doPrepareFrame sync
  | .addVoice sync voice => doAddVoice sync voice
  | .finalizeFrame sync => doFinalizeFrame sync
  | .reserved _ _ _ => doReserved
  | .sync _ _ => halt .unknownOpcode
  | .sync2 _ _ => halt .unknownOpcode
  | .sync0 => halt .unknownOpcode
  | .cont => halt .unknownOpcode
  | .reset => halt .unknownOpcode

/-- One complete command popped and decoded (40_commands.md R135). -/
def fetchCommand : Act Instr := do
  let s ← get
  let extra := s.cfg.startExtraWords
  let h ← popHeader s.cmd.words
  let ops ← popOperands (operandCount extra (headerOpcode h))
  modify fun s => { s with cmd := { s.cmd with pending := s.cmd.pending - 1 } }
  match decode (.header extra) (h :: ops) with
  | .ok (i, _) => pure i
  | .error _ => halt .unknownOpcode

/-- The loop may run another command (40_commands.md R135). -/
def State.mayDispatch (s : State) : Bool :=
  decide (0 < s.cmd.pending) && s.canExecute && decide (s.mode = .waiting)

/-- `RunPendingCommands`, at most `n` commands (40_commands.md R135). -/
def dispatchLoop : Nat → Act Unit
  | 0 => pure ()
  | n + 1 => do
    let s ← get
    if s.mayDispatch then do
      let i ← fetchCommand
      executeCommand i
      dispatchLoop n
    else pure ()

/-- `RunPendingCommands` (40_commands.md R135): each round takes one of the pending commands and none adds
one, so their number bounds the loop (log 18). -/
def runPendingCommands : Act Unit := do
  let s ← get
  dispatchLoop s.cmd.pending

/-! ### Words that fill the buffer -/

/-- One more complete command (40_commands.md R131, R132). -/
def State.commandComplete (s : State) : State :=
  { s with mode := .waiting, cmd := { s.cmd with pending := s.cmd.pending + 1 } }

/-- `HeaderWord(w)`, in `WAITING` (40_commands.md R131). -/
def headerWord (w : Word) : Act Unit := do
  bufPush w
  let s ← get
  let n := operandCount s.cfg.startExtraWords (headerOpcode w)
  if n = 0 then do
    modify State.commandComplete
    runPendingCommands
  else set { s with cmd := { s.cmd with expected := n }, mode := .writingCmd }

/-- `OperandWord(w)`, in `WRITING_CMD` (40_commands.md R132). -/
def operandWord (w : Word) : Act Unit := do
  bufPush w
  modify fun s => { s with cmd := { s.cmd with expected := s.cmd.expected - 1 } }
  let s ← get
  if s.cmd.expected = 0 then do
    modify State.commandComplete
    runPendingCommands
  else pure ()

end Sys2Proof.Machine
end

