-- ==== Sys2Proof/Machine/Control.lean ====
section
/-! DEFINITION. The meanings of the control writes (40_commands.md R150, R151). -/

namespace Sys2Proof.Machine

/-- `CONTINUE`'s operation (40_commands.md R150). -/
def doContinue : Act Unit := do
  let s ← get
  if s.mode = .halted then pure ()
  else do
    set { s with canExecute := true }
    if s.mode = .waiting then runPendingCommands else pure ()

/-- `CONTINUE` (40_commands.md R150). -/
def execCont (s : State) : Host.Outcome State Fault Refusal := doContinue.outcome s

/-- `RESET` (40_commands.md R151). -/
def execReset (s : State) : Host.Outcome State Fault Refusal := .next s.resetAvm

end Sys2Proof.Machine
end

