-- ==== Sys2Proof/Machine/Sync.lean ====
section
/-! DEFINITION. The meanings of the sync words: each updates the skip masks and the unlock gate, then resumes
the rendering loop (40_commands.md R145 to R148). -/

namespace Sys2Proof.Machine

/-- What follows every accepted sync word: the rendering loop, and, where the render has finished, the
dispatch loop (40_commands.md R145). -/
def resumeRender : Act Unit := do
  renderAudio
  let s ← get
  if s.mode = .waiting then runPendingCommands else pure ()

/-- `SyncDefault(w)`: the batch's mask, and the gate to the end of the batch (40_commands.md R148). -/
def Cursors.unlockBatch (c : Cursors) (batch : BitVec 4) (mask : Half) : Cursors :=
  { c with
    skipFlags := c.skipFlags.set batch.toNat mask
    maxUnlocked := max c.maxUnlocked (16 * (batch.toNat + 1)) }

/-- `SyncPerFrame(w)`: two masks at the half `sync_half` selects (40_commands.md R147). -/
def Cursors.unlockHalf (c : Cursors) (maskHi maskLo : Half) : Cursors :=
  let half := c.syncHalf.toNat
  { c with
    skipFlags := (c.skipFlags.set (2 * half) maskHi).set (2 * half + 1) maskLo
    maxUnlocked := max c.maxUnlocked (32 * (half + 1))
    syncHalf := !c.syncHalf }

/-- `SyncLight(0)`: every voice (40_commands.md R146). -/
def Cursors.unlockAll (c : Cursors) : Cursors :=
  { c with skipFlags := List.replicate 16 0xFFFF, maxUnlocked := 256 }

/-- The default sync word (40_commands.md R145, R148). -/
def doSync (batch : BitVec 4) (mask : Half) : Act Unit := do
  modify fun s => { s with cur := s.cur.unlockBatch batch mask }
  resumeRender

/-- `SYNC` (40_commands.md R148). -/
def execSync (batch : BitVec 4) (mask : Half) (s : State) : Host.Outcome State Fault Refusal :=
  (doSync batch mask).outcome s

/-- The per-frame sync word (40_commands.md R145, R147). -/
def doSync2 (maskHi maskLo : Half) : Act Unit := do
  modify fun s => { s with cur := s.cur.unlockHalf maskHi maskLo }
  resumeRender

/-- `SYNC2` (40_commands.md R147). -/
def execSync2 (maskHi maskLo : Half) (s : State) : Host.Outcome State Fault Refusal :=
  (doSync2 maskHi maskLo).outcome s

/-- The light sync word: every voice, and a pulse of its own (40_commands.md R145, R146). -/
def doSync0 : Act Unit := do
  modify fun s => { s with cur := s.cur.unlockAll }.pulseLightSync
  resumeRender

/-- `SYNC0` (40_commands.md R146). -/
def execSync0 (s : State) : Host.Outcome State Fault Refusal := doSync0.outcome s

end Sys2Proof.Machine
end

