-- ==== Sys2Proof/Machine/Dispatch.lean ====
section
/-! DEFINITION. One arm per row of spec/opcode_table.json. -/

namespace Sys2Proof.Machine

-- What an instruction does where the machine executes it: a command once the dispatch loop has popped it
-- (40_commands.md R135), a sync word in RENDERING (R145), a control write in any state (R150, R151).
def exec (i : Instr) (s : State) : Host.Outcome State Fault Refusal :=
  match i with
  | .nop sync => Sys2Proof.Machine.execNop sync s
  | .setup sync vpb resample pattern afc rpb => Sys2Proof.Machine.execSetup sync vpb resample pattern afc rpb s
  | .startRender sync voices frames vol outL outR => Sys2Proof.Machine.execStartRender sync voices frames vol outL outR s
  | .setSampleBase sync base => Sys2Proof.Machine.execSetSampleBase sync base s
  | .prepareFrame sync => Sys2Proof.Machine.execPrepareFrame sync s
  | .addVoice sync voice => Sys2Proof.Machine.execAddVoice sync voice s
  | .finalizeFrame sync => Sys2Proof.Machine.execFinalizeFrame sync s
  | .sync batch mask => Sys2Proof.Machine.execSync batch mask s
  | .sync2 maskHi maskLo => Sys2Proof.Machine.execSync2 maskHi maskLo s
  | .sync0 => Sys2Proof.Machine.execSync0 s
  | .cont => Sys2Proof.Machine.execCont s
  | .reset => Sys2Proof.Machine.execReset s
  | .reserved opcode sync imm => Sys2Proof.Machine.execReserved opcode sync imm s

end Sys2Proof.Machine
end

