-- ==== Sys2Proof/Machine/Port.lean ====
section
/-! DEFINITION. The host's side: what a word written to a register becomes, what a register reads as, and
the host's own accesses to memory (10_state.md R37 to R39; 40_commands.md R130, R133, R145, R152). -/

namespace Sys2Proof.Machine

/-- How a `CMD` word in `RENDERING` is read: `LIGHT` first (40_commands.md R145, R146). -/
def Platform.syncContext (p : Platform) : Context :=
  if p.light then .syncLight else if p.syncPerFrame then .syncPerFrame else .syncDefault

/-- A word in `RENDERING` decoded and run; the only one that is no instruction is a non-zero light sync
word (40_commands.md R145, R146). -/
def syncWord (w : Word) (s : State) : Host.Outcome State Fault Refusal :=
  match decode s.cfg.syncContext [w] with
  | .ok (i, _) => exec i s
  | .error _ => (halt .badLightSync : Act Unit).outcome s

/-- `CmdWrite(w)` (40_commands.md R130). -/
def cmdWrite (w : Word) (s : State) : Host.Outcome State Fault Refusal :=
  match s.mode with
  | .halted => .next s
  | .rendering => syncWord w s
  | .writingCmd => (operandWord w).outcome s
  | .waiting => if headerBit w then (headerWord w).outcome s else (halt .unexpectedSync : Act Unit).outcome s

/-- A write to `CTRL`; a word with neither bit set has no effect (30_encoding.md R115). -/
def ctrlWrite (w : Word) (s : State) : Host.Outcome State Fault Refusal :=
  match decode .control [w] with
  | .ok (i, _) => exec i s
  | .error _ => .next s

/-- A 32-bit write to a register: `CMD`, `CTRL`, or a read-only one, which ignores it (10_state.md R37). -/
def regWrite (offset : Nat) (w : Word) (s : State) : Host.Outcome State Fault Refusal :=
  match offset with
  | 0x00 => cmdWrite w s
  | 0x04 => ctrlWrite w s
  | 0x08 => .next s
  | 0x0C => .next s
  | 0x10 => .next s
  | 0x14 => .next s
  | _ => .refused .reservedRegisterAccess

/-- The value a read returned, for the host. -/
def State.reply (s : State) (r : Reply) : State := { s with replies := s.replies ++ [r] }

/-- A read of `EVT`: the head of the FIFO, which it removes, or 0 (60_exceptions.md R321). -/
def State.popEvent (s : State) : State := { s with evt := s.evt.tail }.reply (.reg (s.evt.headD 0))

/-- A 32-bit read of a register; a write-only one reads 0 (10_state.md R37). -/
def regRead (offset : Nat) (s : State) : Host.Outcome State Fault Refusal :=
  match offset with
  | 0x00 => .next (s.reply (.reg 0))
  | 0x04 => .next (s.reply (.reg 0))
  | 0x08 => .next (s.reply (.reg s.statusWord))
  | 0x0C => .next s.popEvent
  | 0x10 => .next (s.reply (.reg s.flagsWord))
  | 0x14 => .next (s.reply (.reg s.cursorWord))
  | _ => .refused .reservedRegisterAccess

/-- Why the host's own access to memory stops the model, if it does (log 11). -/
def State.hostFault (s : State) (sp : Space) (a : Addr) : Option Fault :=
  if s.cfg.noAram ∧ sp = .sample then some .noSampleSpace
  else if s.cfg.mapped sp a then none
  else some .hostUnmapped

/-- One step of the host (00_scope.md R15). -/
def hostAccess (h : HostAccess) (s : State) : Host.Outcome State Fault Refusal :=
  match h with
  | .regWrite .word offset w => regWrite offset w s
  | .regRead .word offset => regRead offset s
  | .regWrite .byte _ _ => .refused .reservedRegisterAccess
  | .regWrite .half _ _ => .refused .reservedRegisterAccess
  | .regRead .byte _ => .refused .reservedRegisterAccess
  | .regRead .half _ => .refused .reservedRegisterAccess
  | .memRead sp a =>
    match s.hostFault sp a with
    | some f => .fault f
    | none => .next (s.reply (.byte (s.byteAt sp a)))
  | .memWrite sp a b =>
    match s.hostFault sp a with
    | some f => .fault f
    | none => .next (s.setMem sp ((s.mem sp).write a.toNat b))
  | .resetInput => .next s.resetAvm

/-! ### A program's first words (log 16, 17) -/

/-- The FLAGS under which the table gives a row's word that row's reading: `NO_ARAM` for `SET_SAMPLE_BASE`,
`SYNC_PER_FRAME` for `SYNC2`, `LIGHT` for `SYNC0`, none for the rest (spec/opcode_table.json, "context"). -/
def tableFlags : Instr → BitVec 8
  | .setSampleBase _ _ => 0x01
  | .sync2 _ _ => 0x20
  | .sync0 => 0x04
  | .nop _ => 0x00
  | .setup _ _ _ _ _ _ => 0x00
  | .startRender _ _ _ _ _ _ => 0x00
  | .prepareFrame _ => 0x00
  | .addVoice _ _ => 0x00
  | .finalizeFrame _ => 0x00
  | .sync _ _ => 0x00
  | .cont => 0x00
  | .reset => 0x00
  | .reserved _ _ _ => 0x00

/-- The state with a command's words all written but the last, which is the host's next write. -/
def State.placeCommand (s : State) (h : Word) (ops : List Word) : State :=
  match ops.reverse with
  | [] =>
    { s with
      mode := .waiting, canExecute := true, cmd := CmdBuffer.empty
      host := .regWrite .word 0x00 h :: s.host }
  | w :: front =>
    let c := (h :: front.reverse).foldl CmdBuffer.push CmdBuffer.empty
    { s with
      mode := .writingCmd, canExecute := true, cmd := { c with expected := 1 }
      host := .regWrite .word 0x00 w :: s.host }

/-- The state in which the next step runs the instruction of a table row's word: the words the command needs
in the buffer, the port state its row names, and the last word as the host's next write. -/
def State.place (s : State) (words : List Word) : State :=
  let h := words.headD 0
  match tableContext h with
  | .header _ => s.placeCommand h (words.tail.take (operandCount false (headerOpcode h)))
  | .control => { s with host := .regWrite .word 0x04 h :: s.host }
  | _ => { s with mode := .rendering, host := .regWrite .word 0x00 h :: s.host }

end Sys2Proof.Machine
end

