-- ==== Sys2Proof/Machine/Step.lean ====
section
/-! DEFINITION. One step of the model: one access by the host (00_scope.md R15). -/

namespace Sys2Proof.Machine

/-- One step: the host's next access, and all the AVM does for it before it returns (00_scope.md R15;
20_memory.md R80). With no access to come the AVM is idle: it never acts on its own
(70_reset_and_hazards.md R352, R371). -/
def step (s : State) : Host.Outcome State Fault Refusal :=
  match s.host with
  | [] => .next s
  | a :: rest => hostAccess a { s with host := rest }

/-- The state in which the next step runs the instruction of a table row's word, FLAGS strapped as the row's
context asks (log 17). -/
def State.withFetchWord (s : State) (nbits w : Nat) : State :=
  match decodeTableWord nbits w with
  | none => s
  | some i =>
    { s with cfg := { s.cfg with flags := tableFlags i } }.place (tableWords (w % 2 ^ nbits))

end Sys2Proof.Machine
end

