-- ==== Sys2Proof/Safety.lean ====
section
/-! DEFINITION. What claims about runs are stated in: the invariants the rules give the machine between two
host accesses, and the hypotheses that keep the reverb silent. -/

namespace Sys2Proof.Machine

/-! ### The command buffer (10_state.md R31) -/

/-- The words between `cmd_rd` and `cmd_wr`, oldest first. -/
def CmdBuffer.contents (c : CmdBuffer) : List Word :=
  (List.range c.words).map fun i => c.buf.getD (c.rd + BitVec.ofNat 6 i).toNat 0

/-- What is left of a list of words after `n` complete commands; none if they are not there. -/
def afterCommands (extra : Bool) : Nat → List Word → Option (List Word)
  | 0, ws => some ws
  | _ + 1, [] => none
  | n + 1, h :: ws =>
    if headerBit h && decide (operandCount extra (headerOpcode h) ≤ ws.length) then
      afterCommands extra n (ws.drop (operandCount extra (headerOpcode h)))
    else none

/-- A command being written: its header and the operands received, `expected` more to come. -/
def openCommand (extra : Bool) (expected : Nat) : List Word → Bool
  | [] => false
  | h :: ops =>
    headerBit h && decide (0 < expected) &&
      decide (ops.length + expected = operandCount extra (headerOpcode h))

/-- The invariant of the command buffer (10_state.md R31): the counters agree, and the words are the pending
commands and, in `WRITING_CMD`, the command being written. A halted machine may keep a command it was
writing. -/
def State.bufferInv (s : State) : Bool :=
  decide (s.cmd.buf.length = 64) && decide (s.cmd.words ≤ 64) &&
    decide (s.cmd.wr = s.cmd.rd + BitVec.ofNat 6 s.cmd.words) &&
    match afterCommands s.cfg.startExtraWords s.cmd.pending s.cmd.contents with
    | none => false
    | some rest =>
      match s.mode with
      | .writingCmd => openCommand s.cfg.startExtraWords s.cmd.expected rest
      | .waiting => rest.isEmpty && decide (s.cmd.expected = 0)
      | .rendering => rest.isEmpty && decide (s.cmd.expected = 0)
      | .halted => true

/-! ### Shapes (10_state.md R22, R25, R28, R30, R33) -/

/-- Every bus has its 80 samples (10_state.md R22). -/
def Buses.full (b : Buses) : Bool := b.toList.all fun l => decide (l.length = frameLen)

/-- Every table has its elements (10_state.md R25). -/
def Tables.full (t : Tables) : Bool :=
  decide (t.resampleCoef.length = 256) && decide (t.pattern.length = 256) &&
    decide (t.sine.length = 128) && decide (t.afcCoef.length = 32)

/-- Four reverb units of eight carried samples (10_state.md R28). -/
def reverbFull (us : List ReverbUnit) : Bool :=
  decide (us.length = 4) && us.all fun u => decide (u.carry.length = 8)

/-- Every array of the state has the length the spec gives it. -/
def State.shapeInv (s : State) : Bool :=
  s.buses.full && s.tables.full && reverbFull s.reverb && decide (s.cur.skipFlags.length = 16) &&
    decide (s.cmd.buf.length = 64)

/-! ### The state machine (40_commands.md R153) -/

/-- Between two host accesses: in `RENDERING` a frame is left, is prepared, and its next voice is not
unlocked (R153, 41_frame_ops.md R171); in `WAITING` and `WRITING_CMD` no frame is left (R153); a cause is
recorded exactly in `HALTED` (10_state.md R35); the gate is at most 256 (R33). -/
def State.protocolInv (s : State) : Bool :=
  (match s.mode with
    | .rendering =>
      decide (s.cur.curFrame.toNat < s.cur.reqFrames.toNat) && s.prepared && s.setupDone && s.outValid &&
        decide (s.cur.maxUnlocked ≤ s.cur.curVoice.toNat) &&
        decide (s.cur.curVoice.toNat < s.cur.voicesPerFrame.toNat)
    | .waiting => decide (s.cur.curFrame = s.cur.reqFrames)
    | .writingCmd => decide (s.cur.curFrame = s.cur.reqFrames)
    | .halted => true) &&
    decide (s.mode = .halted ↔ s.haltCause ≠ .none) && decide (s.cur.maxUnlocked ≤ 256)

/-- Both memories are in canonical form. -/
def State.memoryInv (s : State) : Bool := s.main.wf && s.sample.wf

/-! ### Hypotheses of claims -/

/-- The four RPBs answer and are disabled, so that `ApplyReverb` changes nothing (44_reverb.md R290). -/
def State.reverbSilent (s : State) : Bool :=
  (List.range 4).all fun r =>
    match s.words? .main 16 (s.rpbAddr r) with
    | some p => !(Rpb.enabled p)
    | none => false

/-- A run of bytes of `MAIN` all answers (20_memory.md R66). -/
def State.answers (s : State) (a : Addr) (n : Nat) : Bool :=
  (List.range n).all fun i => s.cfg.mapped .main (a + BitVec.ofNat 32 i)

/-- Of the bytes of `MAIN` from `a` on, number `j` is the first that does not answer (20_memory.md R66). -/
def State.breaksAt (s : State) (a : Addr) (j : Nat) : Bool :=
  s.answers a j && !s.cfg.mapped .main (a + BitVec.ofNat 32 j)

/-- The buses after `PrepareFrame` with every reverb unit disabled, each from its samples before
(41_frame_ops.md R170, R174). -/
def quietBuses (p : Platform) (b : Buses) : Buses where
  fl := b.blRv.map fun x => scale p.reverbFrontGainL.toNat x.toInt 15
  fr := b.brRv.map fun x => scale p.reverbFrontGainR.toNat x.toInt 15
  bl := b.bl.map fun x => scale p.backDecayGain.toNat x.toInt 15
  br := b.br.map fun x => scale p.backDecayGain.toNat x.toInt 15
  flRv := List.replicate frameLen 0
  frRv := List.replicate frameLen 0
  blRv := List.replicate frameLen 0
  brRv := List.replicate frameLen 0
  auxaRv := List.replicate frameLen 0
  auxbRv := List.replicate frameLen 0

/-- A frame can be opened without a halt and without reverb: one is open, or the machine is set up and the
reverb is silent (41_frame_ops.md R174). -/
def State.canOpenFrame (s : State) : Bool :=
  s.prepared || (s.setupDone && s.buses.full && s.reverbSilent)

/-- The state with its frame opened, the reverb being silent (41_frame_ops.md R174). -/
def State.frameOpen (s : State) : State :=
  { s with
    buses := if s.prepared then s.buses else quietBuses s.cfg s.buses
    tables :=
      { s.tables with
        pattern := if s.prepared then s.tables.pattern else regenPattern s.tables.pattern }
    prepared := true }

/-- The two front buses scaled by the output volume (41_frame_ops.md R178, step 1). -/
def State.scaledFront (s : State) : Buses :=
  { s.buses with
    fl := s.buses.fl.map fun x => scale s.outVol.toNat x.toInt 12
    fr := s.buses.fr.map fun x => scale s.outVol.toNat x.toInt 12 }

/-- The state once byte `j` of the left output buffer did not answer: the bytes before it are stored, the
addresses are where they were, and the AVM is halted (41_frame_ops.md R178; 60_exceptions.md R312). -/
def State.leftBroken (s : State) (j : Nat) : State :=
  { s with
    buses := s.scaledFront
    main := (storeBytes (fun _ => true) s.main s.outL ((s.scaledFront.fl.flatMap halfBytes).take j)).1
    mode := .halted
    haltCause := .busError }

/-- The state once the left output buffer is written and byte `j` of the right one did not answer
(41_frame_ops.md R178; 60_exceptions.md R312). -/
def State.rightBroken (s : State) (j : Nat) : State :=
  let m := (storeBytes (fun _ => true) s.main s.outL (s.scaledFront.fl.flatMap halfBytes)).1
  { s with
    buses := s.scaledFront
    main := (storeBytes (fun _ => true) m s.outR ((s.scaledFront.fr.flatMap halfBytes).take j)).1
    mode := .halted
    haltCause := .busError }

/-- The state once the two output buffers are written, every address answering: the front buses scaled,
their samples stored left then right, the output addresses advanced (41_frame_ops.md R178). -/
def State.frameWritten (s : State) : State :=
  let l := s.buses.fl.map fun x => scale s.outVol.toNat x.toInt 12
  let r := s.buses.fr.map fun x => scale s.outVol.toNat x.toInt 12
  let m := (storeBytes (s.cfg.mapped .main) s.main s.outL (l.flatMap halfBytes)).1
  { s with
    buses := { s.buses with fl := l, fr := r }
    main := (storeBytes (s.cfg.mapped .main) m s.outR (r.flatMap halfBytes)).1
    outL := s.outL + 160
    outR := s.outR + 160 }

/-- The open frame can be closed without a halt and without reverb: an output is set, its buffers answer,
and the reverb is silent once they are written (41_frame_ops.md R178). -/
def State.canCloseFrame (s : State) : Bool :=
  s.prepared && s.outValid && s.buses.full && s.answers s.outL 160 && s.answers s.outR 160 &&
    s.frameWritten.reverbSilent

/-- Rendering passes over a voice without a change: its mask bit is clear, or its VPB answers and is
disabled or done (41_frame_ops.md R171; 42_voice_mix.md R200). -/
def State.voiceIdle (s : State) (v : Half) : Bool :=
  !s.cur.voiceSelected v ||
    match s.words? .main s.cfg.vpbWords (s.vpbAddr v) with
    | some ws => decide ((s.cfg.expand ws).enabled = 0) || decide ((s.cfg.expand ws).done ≠ 0)
    | none => false

/-- Every voice from the cursor up to `n` is passed over. -/
def State.idleBelow (s : State) (n : Nat) : Bool :=
  (List.range n).all fun v => decide (v < s.cur.curVoice.toNat) || s.voiceIdle (BitVec.ofNat 16 v)

/-- A word an `EVT` read can return other than 0: kind 1, 2 or 3, bits [27:16] zero
(30_encoding.md R118). -/
def eventWord (w : Word) : Bool :=
  (decide (w.extractLsb' 28 4 = 1) || decide (w.extractLsb' 28 4 = 2) || decide (w.extractLsb' 28 4 = 3)) &&
    decide (w.extractLsb' 16 12 = 0)

/-- Every word of the event FIFO is an event word (30_encoding.md R118). -/
def State.eventInv (s : State) : Bool := s.evt.all eventWord

/-- The event word whose push a pulse belongs to; a light sync word's pulse has none
(60_exceptions.md R322). -/
def Pulse.word? : Pulse → Option Word
  | .event w => some w
  | .lightSync => none

/-- The host's access resets the AVM: the reset input, or a `CTRL` write with bit 1 set
(70_reset_and_hazards.md R350). -/
def HostAccess.resets : HostAccess → Bool
  | .resetInput => true
  | .regWrite .word 0x04 w => w.getLsbD 1
  | _ => false

/-- The state once one frame without voices has been rendered, the reverb being silent: opened, its event pushed
unless `LIGHT`, written, closed, the cursors at the next frame (41_frame_ops.md R171, R172). -/
def State.voicelessFrame (s : State) : State :=
  let o := s.frameOpen
  let word : Word := 0x20000000 + s.cur.curFrame.setWidth 32
  let w := { o with
    evt := if s.cfg.light then o.evt else o.evt ++ [word]
    irq := if s.cfg.light then o.irq else o.irq ++ [Pulse.event word] }.frameWritten
  { w with
    prepared := false
    cur := { s.cur with curVoice := 0, maxUnlocked := 0, syncHalf := false, curFrame := s.cur.curFrame + 1 } }

/-! ### The ramp as one formula -/

/-- The volume for sample `k` of a ramp over a frame, on exact integers (42_voice_mix.md R201). -/
def rampVolume (cur tgt : Sample) (k : Nat) : Int :=
  (cur.toInt * 65536 + k * ((tgt.toInt - cur.toInt) * 65536).tdiv 80) / 65536

/-- Sample `k` of a bus after a ramp: `x` scaled by the volume, clamped, added with a wrap to the bus's `b`
(42_voice_mix.md R201). -/
def rampedSample (cur tgt : Sample) (k : Nat) (b x : Sample) : Sample :=
  wrap16 (b.toInt + (clamp16 (rampVolume cur tgt k * x.toInt / 32768)).toInt)

/-- A run is safe while the machine is not halted (60_exceptions.md R311). -/
def State.running (s : State) : Bool := decide (s.mode ≠ .halted)

/-- The words of a VPB image that `AddVoice` may change (20_memory.md R71); channels 4 and 5 only without
`FOUR_DESTS` (20_memory.md R70). -/
def mutableWords (p : Platform) : List Nat :=
  [0x01, 0x04, 0x07, 0x08, 0x09, 0x0E, 0x0F] ++
    ((List.range p.channels).flatMap fun c => [0x11 + 4 * c, 0x12 + 4 * c]) ++
    [0x28, 0x29, 0x2A, 0x2B, 0x2C, 0x2D, 0x2E] ++ (List.range 16).map (0x30 + ·) ++ [0x80, 0x81]

/-- The word of the image that word `i` of the record in memory holds (20_memory.md R72). -/
def imageIndex (p : Platform) (i : Nat) : Nat := if p.legacyVpb ∧ 0x60 ≤ i then i + 0x20 else i

end Sys2Proof.Machine
end

