-- ==== Sys2Proof/Certificates/Slice0/Obligations.lean ====
section
/-! DEFINITION. The statements for the provers, from the numbered rules of spec/. A result statement has as
its conclusion that the instruction answers a next state, written out from the state before: what it does
not name is unchanged, so it is the instruction's frame too. -/

open Sys2Proof
open Sys2Proof.Machine

/-! ### Words and instructions -/

/-- Decode and encode agree: every well-formed instruction, with every operand at every value, with or
without the two discarded words, is read back whole and nothing after it is consumed (30_encoding.md R101,
R106 to R115). -/
def Obligations.DecodeEncode : Prop :=
  ∀ (i : Instr) (extra : Bool) (rest : List Word), i.wellFormed = true →
    decode (i.context extra) (encode extra i ++ rest) = .ok (i, rest)

/-- The length of a command is fixed by its header: a header decodes exactly when bit 31 is set and its
operand words are there, it consumes exactly those, and what it decodes to is well formed (30_encoding.md
R106, R110). A word without bit 31, a missing operand, a non-zero light sync word and a control word with
neither bit are rejected by name (R113, R115, R116). -/
def Obligations.CommandLength : Prop :=
  (∀ (extra : Bool) (h : Word) (ops : List Word),
    (headerBit h = true ∧ operandCount extra (headerOpcode h) ≤ ops.length →
      ∃ i : Instr, i.wellFormed = true ∧
        decode (.header extra) (h :: ops) = .ok (i, ops.drop (operandCount extra (headerOpcode h)))) ∧
    (headerBit h = false → decode (.header extra) (h :: ops) = .error .notHeader) ∧
    (headerBit h = true → ops.length < operandCount extra (headerOpcode h) →
      decode (.header extra) (h :: ops) = .error .missingOperand)) ∧
  (∀ (w : Word) (rest : List Word), w ≠ 0 →
    decode .syncLight (w :: rest) = .error .nonzeroLightSync) ∧
  (∀ (w : Word) (rest : List Word), w.getLsbD 0 = false → w.getLsbD 1 = false →
    decode .control (w :: rest) = .error .noControlAction)

/-- The worked encodings of the spec decode to what they stand for (30_encoding.md R122). -/
def Obligations.WorkedEncodings : Prop :=
  decode (.header false) [0x80050000] = .ok (.nop 5, []) ∧
  decode (.header false) [0x81000000, 0x00001000, 0x00002000, 0x00002200, 0x00002500, 0x00003000] =
    .ok (.setup 0 0x1000 0x2000 0x2200 0x2500 0x3000, []) ∧
  decode (.header false) [0x82000010, 0x00011000, 0x00008000, 0x00009000] =
    .ok (.startRender 0 16 1 0x1000 0x8000 0x9000, []) ∧
  decode (.header false) [0x91010003] = .ok (.addVoice 1 3, []) ∧
  decode .syncDefault [0x0000FFFF] = .ok (.sync 0 0xFFFF, []) ∧
  decode .syncDefault [0x00020005] = .ok (.sync 2 0x0005, []) ∧
  decode .syncPerFrame [0x800100FF] = .ok (.sync2 0x8001 0x00FF, [])

/-- Bits the encodings call ignored do not matter: bit 23 of a header, bits [31:20] of a default sync word,
bits [31:2] of a control word (30_encoding.md R116, last row but three), and `imm16` of an opcode that defines
none (30_encoding.md R101, R106). Two headers that agree on bit 31, the opcode and the sync echo decode alike
when the opcode is NOP, SETUP, SET_SAMPLE_BASE, PREPARE_FRAME or FINALIZE_FRAME, whatever follows them. With a
reserved opcode each decodes to an instruction that keeps its own `imm16`, consumes nothing after it, and does
the same in every state. -/
def Obligations.IgnoredBits : Prop :=
  (∀ (extra : Bool) (h : Word) (ops : List Word),
    decode (.header extra) ((h ^^^ 0x00800000) :: ops) = decode (.header extra) (h :: ops)) ∧
  (∀ (w w' : Word) (rest : List Word), w.extractLsb' 0 20 = w'.extractLsb' 0 20 →
    decode .syncDefault (w :: rest) = decode .syncDefault (w' :: rest)) ∧
  (∀ (w w' : Word) (rest : List Word), w.extractLsb' 0 2 = w'.extractLsb' 0 2 →
    decode .control (w :: rest) = decode .control (w' :: rest)) ∧
  ∀ (extra : Bool) (h h' : Word) (ops : List Word), h.getLsbD 31 = h'.getLsbD 31 →
    h.extractLsb' 24 7 = h'.extractLsb' 24 7 → h.extractLsb' 16 7 = h'.extractLsb' 16 7 →
      (h.extractLsb' 24 7 ∈ ([0x00, 0x01, 0x03, 0x10, 0x12] : List (BitVec 7)) →
        decode (.header extra) (h :: ops) = decode (.header extra) (h' :: ops)) ∧
      (h.getLsbD 31 = true →
        h.extractLsb' 24 7 ∉ ([0x00, 0x01, 0x02, 0x03, 0x10, 0x11, 0x12] : List (BitVec 7)) →
          ∃ i i' : Instr, decode (.header extra) (h :: ops) = .ok (i, ops) ∧
            decode (.header extra) (h' :: ops) = .ok (i', ops) ∧ ∀ s : State, exec i s = exec i' s)

/-! ### One step -/

/-- A step runs the decoded instruction, where one word is a whole instruction: a control write in any
state, and a word written to `CMD` in `RENDERING`, read in the sync form FLAGS select. A control write with
neither bit has no effect in any state. With no access to come the machine is idle (00_scope.md R15;
30_encoding.md R115; 40_commands.md R145). -/
def Obligations.StepRunsWord : Prop :=
  (∀ s : State, s.host = [] → step s = .next s) ∧
  (∀ (s : State) (w : Word) (rest : List HostAccess) (i : Instr),
    s.host = .regWrite .word 0x04 w :: rest → decode .control [w] = .ok (i, []) →
      step s = exec i { s with host := rest }) ∧
  (∀ (s : State) (w : Word) (rest : List HostAccess),
    s.host = .regWrite .word 0x04 w :: rest → w.getLsbD 0 = false → w.getLsbD 1 = false →
      step s = .next { s with host := rest }) ∧
  (∀ (s : State) (w : Word) (rest : List HostAccess) (i : Instr),
    s.host = .regWrite .word 0x00 w :: rest → s.mode = .rendering →
    decode (if s.cfg.light then .syncLight else if s.cfg.syncPerFrame then .syncPerFrame else .syncDefault)
      [w] = .ok (i, []) →
      step s = exec i { s with host := rest })

/-- A step runs the decoded instruction, where the word is a command without operands: it goes through the
empty buffer and is executed at once (40_commands.md R130, R131, R135). -/
def Obligations.StepRunsCommand : Prop :=
  ∀ (s : State) (w : Word) (rest : List HostAccess) (i : Instr),
    s.host = .regWrite .word 0x00 w :: rest → s.mode = .waiting → s.canExecute = true →
    s.cmd.words = 0 → s.cmd.pending = 0 → s.bufferInv = true →
    decode (.header s.cfg.startExtraWords) [w] = .ok (i, []) →
      step s = exec i
        { s with
          host := rest
          cmd :=
            { s.cmd with
              buf := s.cmd.buf.set s.cmd.wr.toNat w, wr := s.cmd.wr + 1, rd := s.cmd.rd + 1 } }

/-- A step runs the decoded instruction, where the word is the last operand of a command: the buffer is
emptied of the command, which is executed at once (40_commands.md R132, R135). -/
def Obligations.StepRunsLastOperand : Prop :=
  ∀ (s : State) (w h : Word) (ops : List Word) (rest : List HostAccess) (i : Instr),
    s.host = .regWrite .word 0x00 w :: rest → s.mode = .writingCmd → s.canExecute = true →
    s.cmd.expected = 1 → s.cmd.pending = 0 → s.bufferInv = true → s.cmd.words < 64 →
    s.cmd.contents = h :: ops → decode (.header s.cfg.startExtraWords) (h :: (ops ++ [w])) = .ok (i, []) →
      step s = exec i
        { s with
          host := rest
          mode := .waiting
          cmd :=
            { s.cmd with
              buf := s.cmd.buf.set s.cmd.wr.toNat w, wr := s.cmd.wr + 1, rd := s.cmd.wr + 1
              words := 0, expected := 0 } }

/-- Command accumulation: a header with operands is buffered and opens `WRITING_CMD`; an operand that is not
the last is buffered whatever its value and counted down. A header without operands, and the last operand, are
buffered, complete one more pending command, and the pending commands run, whatever waits before it; where
dispatch is blocked the command stays queued (40_commands.md R131, R132, R134, R135). -/
def Obligations.CommandAccumulates : Prop :=
  (∀ (s : State) (w : Word) (rest : List HostAccess),
    s.host = .regWrite .word 0x00 w :: rest → s.mode = .waiting → headerBit w = true →
    s.cmd.words < 64 →
    0 < operandCount s.cfg.startExtraWords (headerOpcode w) →
      step s = .next
        { s with
          host := rest
          mode := .writingCmd
          cmd :=
            { s.cmd with
              buf := s.cmd.buf.set s.cmd.wr.toNat w, wr := s.cmd.wr + 1, words := s.cmd.words + 1
              expected := operandCount s.cfg.startExtraWords (headerOpcode w) } }) ∧
  (∀ (s : State) (w : Word) (rest : List HostAccess),
    s.host = .regWrite .word 0x00 w :: rest → s.mode = .writingCmd → 1 < s.cmd.expected →
    s.cmd.words < 64 →
      step s = .next
        { s with
          host := rest
          cmd :=
            { s.cmd with
              buf := s.cmd.buf.set s.cmd.wr.toNat w, wr := s.cmd.wr + 1, words := s.cmd.words + 1
              expected := s.cmd.expected - 1 } }) ∧
  (∀ (s : State) (w : Word) (rest : List HostAccess),
    s.host = .regWrite .word 0x00 w :: rest → s.mode = .waiting → headerBit w = true →
    s.cmd.words < 64 →
    operandCount s.cfg.startExtraWords (headerOpcode w) = 0 →
      let queued : State :=
        { s with
          host := rest
          cmd :=
            { s.cmd with
              buf := s.cmd.buf.set s.cmd.wr.toNat w, wr := s.cmd.wr + 1, words := s.cmd.words + 1
              pending := s.cmd.pending + 1 } }
      step s = .next (runPendingCommands.final queued) ∧
      (s.canExecute = false → step s = .next queued)) ∧
  (∀ (s : State) (w : Word) (rest : List HostAccess),
    s.host = .regWrite .word 0x00 w :: rest → s.mode = .writingCmd → s.cmd.expected = 1 →
    s.cmd.words < 64 →
      let queued : State :=
        { s with
          host := rest
          mode := .waiting
          cmd :=
            { s.cmd with
              buf := s.cmd.buf.set s.cmd.wr.toNat w, wr := s.cmd.wr + 1, words := s.cmd.words + 1
              pending := s.cmd.pending + 1, expected := 0 } }
      step s = .next (runPendingCommands.final queued) ∧
      (s.canExecute = false → step s = .next queued))

/-- The halts of the command port: a word without bit 31 in `WAITING`, a non-zero sync word under `LIGHT`, a
word into a full buffer. Each changes the state and the cause and nothing else (40_commands.md R133, R134,
R146; 60_exceptions.md R311, R312). -/
def Obligations.PortHalts : Prop :=
  (∀ (s : State) (w : Word) (rest : List HostAccess),
    s.host = .regWrite .word 0x00 w :: rest → s.mode = .waiting → headerBit w = false →
      step s = .next { s with host := rest, mode := .halted, haltCause := .unexpectedSync }) ∧
  (∀ (s : State) (w : Word) (rest : List HostAccess),
    s.host = .regWrite .word 0x00 w :: rest → s.mode = .rendering → s.cfg.light = true → w ≠ 0 →
      step s = .next { s with host := rest, mode := .halted, haltCause := .badLightSync }) ∧
  (∀ (s : State) (w : Word) (rest : List HostAccess),
    s.host = .regWrite .word 0x00 w :: rest → s.cmd.words = 64 →
    (s.mode = .waiting ∧ headerBit w = true) ∨ s.mode = .writingCmd →
      step s = .next { s with host := rest, mode := .halted, haltCause := .cmdOverflow })

/-- `HALTED` is left only by a reset: any other access leaves the state, the cause and all that the AVM holds
but the event FIFO as they are; a word written to `CMD`, and a control write without bit 1, change nothing at
all; the four readable registers go on being read (40_commands.md R152; 60_exceptions.md R311). -/
def Obligations.HaltedStays : Prop :=
  (∀ (s t : State) (a : HostAccess) (rest : List HostAccess),
    s.host = a :: rest → s.mode = .halted → a.resets = false → step s = .next t →
      ∃ main sample evt replies,
        t = { s with host := rest, main := main, sample := sample, evt := evt, replies := replies }) ∧
  (∀ (s : State) (w : Word) (rest : List HostAccess),
    s.mode = .halted → s.host = .regWrite .word 0x00 w :: rest →
      step s = .next { s with host := rest }) ∧
  (∀ (s : State) (w : Word) (rest : List HostAccess),
    s.mode = .halted → s.host = .regWrite .word 0x04 w :: rest → w.getLsbD 1 = false →
      step s = .next { s with host := rest }) ∧
  (∀ (s : State) (offset : Nat) (rest : List HostAccess),
    s.mode = .halted → s.host = .regRead .word offset :: rest → offset ∈ [0x08, 0x0C, 0x10, 0x14] →
      step s = .next
        { s with
          host := rest
          evt := if offset = 0x0C then s.evt.tail else s.evt
          replies := s.replies ++ [.reg
            (if offset = 0x08 then s.statusWord
            else if offset = 0x0C then s.evt.headD 0
            else if offset = 0x10 then s.cfg.flags.setWidth 32
            else s.cur.curFrame ++ s.cur.curVoice)] })

/-- The register map: what a 32-bit read of each offset returns and does, that a write to a read-only
register is ignored, and that any other width or offset is refused; and which bit of FLAGS each flag is
(10_state.md R21, R37; 60_exceptions.md R321;
the refusal follows 93_implementation_defined.md U9 and is the model's, log 12). -/
def Obligations.RegisterMap : Prop :=
  (∀ (s : State) (offset : Nat) (rest : List HostAccess),
    s.host = .regRead .word offset :: rest → offset = 0x00 ∨ offset = 0x04 →
      step s = .next { s with host := rest, replies := s.replies ++ [.reg 0] }) ∧
  (∀ (s : State) (rest : List HostAccess), s.host = .regRead .word 0x08 :: rest →
    step s = .next { s with host := rest, replies := s.replies ++ [.reg s.statusWord] }) ∧
  (∀ (s : State) (rest : List HostAccess), s.host = .regRead .word 0x0C :: rest → s.evt = [] →
    step s = .next { s with host := rest, replies := s.replies ++ [.reg 0] }) ∧
  (∀ (s : State) (w : Word) (ws : List Word) (rest : List HostAccess),
    s.host = .regRead .word 0x0C :: rest → s.evt = w :: ws →
      step s = .next { s with host := rest, evt := ws, replies := s.replies ++ [.reg w] }) ∧
  (∀ (s : State) (rest : List HostAccess), s.host = .regRead .word 0x10 :: rest →
    step s = .next { s with host := rest, replies := s.replies ++ [.reg (s.cfg.flags.setWidth 32)] }) ∧
  (∀ (s : State) (rest : List HostAccess), s.host = .regRead .word 0x14 :: rest →
    step s = .next
      { s with host := rest, replies := s.replies ++ [.reg (s.cur.curFrame ++ s.cur.curVoice)] }) ∧
  (∀ (s : State) (offset : Nat) (w : Word) (rest : List HostAccess),
    s.host = .regWrite .word offset w :: rest → offset ∈ [0x08, 0x0C, 0x10, 0x14] →
      step s = .next { s with host := rest }) ∧
  (∀ (s : State) (width : Width) (offset : Nat) (w : Word) (rest : List HostAccess),
    s.host = .regWrite width offset w :: rest ∨ s.host = .regRead width offset :: rest →
    width ≠ .word ∨ offset ∉ [0x00, 0x04, 0x08, 0x0C, 0x10, 0x14] →
      step s = .refused .reservedRegisterAccess) ∧
  ∀ p : Platform,
    [p.noAram, p.dolbyLouder, p.light, p.fourDests, p.volumeStep, p.syncPerFrame, p.legacyVpb,
      p.startExtraWords] = (List.range 8).map p.flags.getLsbD

/-- The fields of `STATUS`, the numbers of the states and of the halt causes, and its value after reset; reading
`STATUS`, `FLAGS` or `CURSOR` has no side effect (10_state.md R38; 60_exceptions.md R312). -/
def Obligations.StatusFields : Prop :=
  [Mode.waiting, .writingCmd, .rendering, .halted].map Mode.code = [0, 1, 2, 3] ∧
  [HaltCause.none, .unknownOpcode, .unexpectedSync, .badLightSync, .cmdOverflow, .badSourceType, .badDestId,
      .badRpbGeometry, .busError, .notConfigured].map HaltCause.code = [0, 1, 2, 3, 4, 5, 6, 7, 8, 9] ∧
  (∀ s : State,
    s.statusWord.extractLsb' 0 2 = s.mode.code ∧
    s.statusWord.getLsbD 2 = s.canExecute ∧
    s.statusWord.getLsbD 3 = s.prepared ∧
    s.statusWord.getLsbD 4 = s.setupDone ∧
    s.statusWord.getLsbD 5 = !s.evt.isEmpty ∧
    s.statusWord.getLsbD 6 = s.cur.syncHalf ∧
    s.statusWord.getLsbD 7 = false ∧
    s.statusWord.extractLsb' 8 4 = s.haltCause.code ∧
    s.statusWord.extractLsb' 12 20 = 0) ∧
  State.reset.statusWord = 0x00000004 ∧
  (∀ (s : State) (offset : Nat) (rest : List HostAccess), s.host = .regRead .word offset :: rest →
    offset = 0x08 ∨ offset = 0x10 ∨ offset = 0x14 →
      step s = .next
        { s with
          host := rest
          replies := s.replies ++ [.reg
            (if offset = 0x08 then s.statusWord
            else if offset = 0x10 then s.cfg.flags.setWidth 32
            else s.cur.curFrame ++ s.cur.curVoice)] })

/-- Memory is storage: a byte the host writes is the byte it reads next, and every other byte of both spaces
is as it was. What the AVM reads is the bytes there, big-endian, where they answer; a run of bytes stored is
what its addresses read, and every other address reads as before (20_memory.md R62, R63, R65, R66). -/
def Obligations.HostMemory : Prop :=
  (∀ (s : State) (sp : Space) (a : Addr),
    s.read8? sp a = (if s.cfg.mapped sp a then some (s.byteAt sp a) else none) ∧
    (∀ w : Half, s.read16? sp a = some w ↔
      s.read8? sp a = some (w.extractLsb' 8 8) ∧ s.read8? sp (a + 1) = some (w.extractLsb' 0 8)) ∧
    (∀ (n : Nat) (bs : List Byte), s.bytes? sp n a = some bs ↔
      bs.length = n ∧ ∀ i < n, s.read8? sp (a + BitVec.ofNat 32 i) = some (bs.getD i 0)) ∧
    ∀ (n : Nat) (ws : List Half), s.words? sp n a = some ws ↔
      ws.length = n ∧ ∀ i < n, s.read16? sp (a + BitVec.ofNat 32 (2 * i)) = some (ws.getD i 0)) ∧
  (∀ w : Half, halfBytes w = [w.extractLsb' 8 8, w.extractLsb' 0 8]) ∧
  (∀ (m : Memory) (a : Addr) (bs : List Byte), m.wf = true → bs.length ≤ 2 ^ 32 →
    let m' := (storeBytes (fun _ => true) m a bs).1
    (∀ i < bs.length, m'.read (a + BitVec.ofNat 32 i).toNat = bs.getD i 0) ∧
    ∀ x : Addr, (∀ i < bs.length, x ≠ a + BitVec.ofNat 32 i) → m'.read x.toNat = m.read x.toNat) ∧
  ∀ (s : State) (sp : Space) (a : Addr) (b : Byte) (rest : List HostAccess),
    s.host = .memWrite sp a b :: .memRead sp a :: rest → s.memoryInv = true →
    s.cfg.mapped sp a = true → (s.cfg.noAram = true → sp = .main) →
      ∃ t, step s = .next t ∧
        step t = .next { t with host := rest, replies := s.replies ++ [.byte b] } ∧
        ∀ (sp' : Space) (x : Addr), sp' ≠ sp ∨ x ≠ a → t.byteAt sp' x = s.byteAt sp' x

/-- The dispatch loop: while a command is pending, commands may execute and the state is `WAITING`, one
command is popped and executed, and the condition is tested again; else nothing happens
(40_commands.md R135). -/
def Obligations.DispatchLoop : Prop :=
  ∀ s : State,
    runPendingCommands s =
      (if 0 < s.cmd.pending ∧ s.canExecute = true ∧ s.mode = .waiting then
        (do
          let i ← fetchCommand
          executeCommand i
          runPendingCommands : Act Unit) s
      else .ok () s)

/-- Under the buffer's invariant one command is popped whole: its header and its operands are the oldest
words, they decode, and exactly they leave the buffer (10_state.md R31; 40_commands.md R135). -/
def Obligations.FetchCommand : Prop :=
  ∀ s : State, s.bufferInv = true → 0 < s.cmd.pending →
    ∃ (i : Instr) (rest : List Word) (n : Nat),
      decode (.header s.cfg.startExtraWords) s.cmd.contents = .ok (i, rest) ∧ i.wellFormed = true ∧
      n + rest.length = s.cmd.words ∧
      fetchCommand s = .ok i
        { s with
          cmd :=
            { s.cmd with
              rd := s.cmd.rd + BitVec.ofNat 6 n, words := rest.length, pending := s.cmd.pending - 1 } } ∧
      ({ s.cmd with rd := s.cmd.rd + BitVec.ofNat 6 n, words := rest.length } : CmdBuffer).contents = rest

/-! ### The configuration commands -/

/-- `NOP` is acknowledged and does nothing else (40_commands.md R140). -/
def Obligations.NopResult : Prop :=
  ∀ (sync : BitVec 7) (s : State),
    exec (.nop sync) s = .next
      { s with
        evt := s.evt ++ [0x10000000 + sync.setWidth 32]
        irq := s.irq ++ [.event (0x10000000 + sync.setWidth 32)] }

/-- `SETUP` where every word it reads answers: the two bases, the tables (the sine table not under `LIGHT`),
`setup_done`, the acknowledgment (40_commands.md R141; 20_memory.md R79). -/
def Obligations.SetupResult : Prop :=
  ∀ (sync : BitVec 7) (vpb resample pattern afc rpb : Addr) (s : State) (rc pt sn ac : List Sample),
    s.tables.full = true →
    s.words? .main 256 resample = some rc → s.words? .main 256 pattern = some pt →
    (s.cfg.light = false → s.words? .main 128 (pattern + 512) = some sn) →
    s.words? .main 32 afc = some ac →
      exec (.setup sync vpb resample pattern afc rpb) s = .next
        { s with
          vpbBase := vpb
          tables :=
            { resampleCoef := rc, pattern := pt, sine := if s.cfg.light then s.tables.sine else sn
              afcCoef := ac }
          rpbBase := rpb
          setupDone := true
          evt := s.evt ++ [0x10000000 + sync.setWidth 32]
          irq := s.irq ++ [.event (0x10000000 + sync.setWidth 32)] }

/-- `SETUP` at a word that does not answer, in each of the four tables: the VPB base is written, the tables read
before have their new values, the words before it are in its table, nothing else is changed but the halt
(40_commands.md R141; 60_exceptions.md R312). That a table is replaced word by word is the model's reading,
log 19. -/
def Obligations.SetupBusError : Prop :=
  ∀ (sync : BitVec 7) (vpb resample pattern afc rpb : Addr) (s : State), s.tables.full = true →
    let stops (t : Tables) : Prop :=
      exec (.setup sync vpb resample pattern afc rpb) s = .next
        { s with vpbBase := vpb, tables := t, mode := .halted, haltCause := .busError }
    let breaks (n : Nat) (a : Addr) (k : Nat) (ws : List Sample) : Prop :=
      k < n ∧ s.words? .main k a = some ws ∧ s.read16? .main (a + BitVec.ofNat 32 (2 * k)) = none
    (∀ (k : Nat) (ws : List Sample), breaks 256 resample k ws →
      stops { s.tables with resampleCoef := ws ++ s.tables.resampleCoef.drop k }) ∧
    ∀ rc : List Sample, s.words? .main 256 resample = some rc →
      (∀ (k : Nat) (ws : List Sample), breaks 256 pattern k ws →
        stops { s.tables with resampleCoef := rc, pattern := ws ++ s.tables.pattern.drop k }) ∧
      ∀ pt : List Sample, s.words? .main 256 pattern = some pt →
        (∀ (k : Nat) (ws : List Sample), s.cfg.light = false → breaks 128 (pattern + 512) k ws →
          stops { s.tables with resampleCoef := rc, pattern := pt, sine := ws ++ s.tables.sine.drop k }) ∧
        ∀ sn : List Sample, (s.cfg.light = false → s.words? .main 128 (pattern + 512) = some sn) →
          ∀ (k : Nat) (ws : List Sample), breaks 32 afc k ws →
            stops
              { resampleCoef := rc, pattern := pt, sine := if s.cfg.light then s.tables.sine else sn
                afcCoef := ws ++ s.tables.afcCoef.drop k }

/-- `START_RENDER` of a configured machine: with a frame and a voice to render it stops at the first voice,
its first frame open; with no frame to render it is done at once and dispatch is blocked unless `LIGHT`; with
frames but no voice every frame is opened, written and closed one after another without a sync word, and the
render is done (40_commands.md R142; 41_frame_ops.md R171, R172, R173). -/
def Obligations.StartRenderResult : Prop :=
  ∀ (sync : BitVec 7) (voices frames vol : Half) (outL outR : Addr) (s : State), s.setupDone = true →
    (frames ≠ 0 → voices ≠ 0 → s.canOpenFrame = true →
      exec (.startRender sync voices frames vol outL outR) s = .next
        { s.frameOpen with
          outVol := vol, outL := outL, outR := outR, outValid := true
          cur := ⟨frames, voices, 0, 0, List.replicate 16 0, 0, false⟩
          mode := .rendering }) ∧
    (frames = 0 →
      exec (.startRender sync voices frames vol outL outR) s = .next
        { s with
          outVol := vol, outL := outL, outR := outR, outValid := true
          cur := ⟨0, voices, 0, 0, List.replicate 16 0, 0, false⟩
          mode := .waiting
          canExecute := s.canExecute && s.cfg.light
          evt := s.evt ++ [0x30000000]
          irq := s.irq ++ [.event 0x30000000] }) ∧
    (voices = 0 →
      let s₀ : State :=
        { s with
          outVol := vol, outL := outL, outR := outR, outValid := true
          cur := ⟨frames, 0, 0, 0, List.replicate 16 0, 0, false⟩
          mode := .rendering }
      (∀ j < frames.toNat,
        (State.voicelessFrame^[j] s₀).canOpenFrame = true ∧
          (State.voicelessFrame^[j] s₀).frameOpen.canCloseFrame = true) →
      let t := State.voicelessFrame^[frames.toNat] s₀
      exec (.startRender sync voices frames vol outL outR) s = .next
        { t with
          mode := .waiting
          canExecute := s.canExecute && s.cfg.light
          evt := t.evt ++ [0x30000000]
          irq := t.irq ++ [.event 0x30000000] } ∧
      t.cur = ⟨frames, 0, frames, 0, List.replicate 16 0, 0, false⟩ ∧
      t.outL = outL + 160 * frames.setWidth 32 ∧ t.outR = outR + 160 * frames.setWidth 32 ∧
      t.evt = s.evt ++
        (if s.cfg.light then []
        else (List.range frames.toNat).map fun j => 0x20000000 + BitVec.ofNat 32 j) ∧
      (frames ≠ 0 → t.prepared = false))

/-- `SET_SAMPLE_BASE` with `NO_ARAM` writes the base and is acknowledged; without, it halts (40_commands.md
R143). With `NO_ARAM` a sample address is read in `MAIN` at the base plus the address, modulo 2^32; without, in
`SAMPLE` at the address itself, and the base is not used: with any other base the same bytes are read. Either way
a byte that does not answer halts (20_memory.md R61, R66). -/
def Obligations.SetSampleBaseResult : Prop :=
  ∀ (sync : BitVec 7) (base : Addr) (s : State),
    (s.cfg.noAram = true →
      exec (.setSampleBase sync base) s = .next
        { s with
          sampleBase := base
          evt := s.evt ++ [0x10000000 + sync.setWidth 32]
          irq := s.irq ++ [.event (0x10000000 + sync.setWidth 32)] }) ∧
    (s.cfg.noAram = false →
      exec (.setSampleBase sync base) s = .next { s with mode := .halted, haltCause := .unknownOpcode }) ∧
    (s.cfg.noAram = true → s.sampleSpace = .main ∧ ∀ a : Addr, s.sampleAddr a = s.sampleBase + a ∧
      ∀ n : Nat,
        (∀ bs : List Byte, s.bytes? .main n (s.sampleBase + a) = some bs → readSampleBytes n a s = .ok bs s) ∧
        (s.bytes? .main n (s.sampleBase + a) = none →
          readSampleBytes n a s = .error .busError { s with mode := .halted, haltCause := .busError })) ∧
    (s.cfg.noAram = false → s.sampleSpace = .sample ∧ ∀ a : Addr, s.sampleAddr a = a ∧
      ∀ n : Nat,
        (∀ bs : List Byte, s.bytes? .sample n a = some bs → readSampleBytes n a s = .ok bs s ∧
          ∀ b : Addr, readSampleBytes n a { s with sampleBase := b } = .ok bs { s with sampleBase := b }) ∧
        (s.bytes? .sample n a = none →
          readSampleBytes n a s = .error .busError { s with mode := .halted, haltCause := .busError }))

/-- The halts of the commands themselves: a reserved opcode, `SET_SAMPLE_BASE` without `NO_ARAM`, and the
commands that need `SETUP` or an output before they have them. Nothing but the state and the cause changes,
and nothing is acknowledged (40_commands.md R137, R142; 41_frame_ops.md R174, R178; 60_exceptions.md R311,
R312). -/
def Obligations.CommandHalts : Prop :=
  (∀ (opcode sync : BitVec 7) (imm : Half) (s : State),
    exec (.reserved opcode sync imm) s = .next { s with mode := .halted, haltCause := .unknownOpcode }) ∧
  (∀ (sync : BitVec 7) (base : Addr) (s : State), s.cfg.noAram = false →
    exec (.setSampleBase sync base) s = .next { s with mode := .halted, haltCause := .unknownOpcode }) ∧
  (∀ (sync : BitVec 7) (voices frames vol : Half) (outL outR : Addr) (s : State), s.setupDone = false →
    exec (.startRender sync voices frames vol outL outR) s =
      .next { s with mode := .halted, haltCause := .notConfigured }) ∧
  (∀ (sync : BitVec 7) (voice : Half) (s : State), s.prepared = false → s.setupDone = false →
    exec (.prepareFrame sync) s = .next { s with mode := .halted, haltCause := .notConfigured } ∧
    exec (.addVoice sync voice) s = .next { s with mode := .halted, haltCause := .notConfigured }) ∧
  (∀ (sync : BitVec 7) (s : State), s.prepared = true → s.outValid = false →
    exec (.finalizeFrame sync) s = .next { s with mode := .halted, haltCause := .notConfigured })

/-! ### The frame commands -/

/-- `PREPARE_FRAME`: an open frame is left alone; else, with the reverb silent, every bus is cleared,
attenuated or folded back as the rule says, patterns 2 and 3 are regenerated, the frame is open. Either way
it is acknowledged. Whatever the reverb units are: the buses are cleared and attenuated, then the units 0, 1, 2
and 3 run their phase before the voices, then the back-reverb buses are folded into the front and cleared, the
patterns regenerated, and the frame is open; a halt of a unit ends it there, without an acknowledgment
(41_frame_ops.md R170, R174, R176, R180; 44_reverb.md R290). -/
def Obligations.PrepareFrameResult : Prop :=
  (∀ (sync : BitVec 7) (s : State), s.canOpenFrame = true →
    exec (.prepareFrame sync) s = .next
      { s.frameOpen with
        evt := s.evt ++ [0x10000000 + sync.setWidth 32]
        irq := s.irq ++ [.event (0x10000000 + sync.setWidth 32)] }) ∧
  (∀ s : State, s.prepared = true → prepareFrame s = .ok () s) ∧
  (∀ s : State, s.prepared = false → s.setupDone = true →
    let zeros : List Sample := List.replicate 80 0
    let scaled (g : Half) (bus : List Sample) : List Sample :=
      bus.map fun x => clamp16 (asr (g.toNat * x.toInt) 15)
    let mixed (g : Half) (bus src : List Sample) : List Sample :=
      List.zipWith (fun o x => wrap16 (o.toInt + (clamp16 (asr (g.toNat * x.toInt) 15)).toInt)) bus src
    prepareFrame s =
      (do
        modify fun u =>
          { u with
            buses :=
              { u.buses with
                fl := zeros, fr := zeros
                bl := scaled u.cfg.backDecayGain u.buses.bl
                br := scaled u.cfg.backDecayGain u.buses.br
                flRv := zeros, frRv := zeros, auxaRv := zeros, auxbRv := zeros } }
        preUnit 0
        preUnit 1
        preUnit 2
        preUnit 3
        modify fun u =>
          { u with
            buses :=
              { u.buses with
                fl := mixed u.cfg.reverbFrontGainL u.buses.fl u.buses.blRv
                fr := mixed u.cfg.reverbFrontGainR u.buses.fr u.buses.brRv
                blRv := zeros, brRv := zeros }
            tables :=
              { u.tables with
                pattern := u.tables.pattern.take 128 ++ (Config.patternRegen u.tables.pattern).toList }
            prepared := true } : Act Unit) s) ∧
  ∀ (sync : BitVec 7) (s : State),
    exec (.prepareFrame sync) s = .next
      ((do
        prepareFrame
        modify fun u => u.pushEvent (0x10000000 + sync.setWidth 32) : Act Unit).final s)

/-- `ADD_VOICE` of a voice that is disabled or done: the frame is opened, the command is acknowledged,
nothing else happens (42_voice_mix.md R200; 41_frame_ops.md R181). -/
def Obligations.AddVoiceSkips : Prop :=
  ∀ (sync : BitVec 7) (v : Half) (s : State) (ws : List Half), s.canOpenFrame = true →
    s.words? .main s.cfg.vpbWords (s.vpbAddr v) = some ws →
    (s.cfg.expand ws).enabled = 0 ∨ (s.cfg.expand ws).done ≠ 0 →
      exec (.addVoice sync v) s = .next
        { s.frameOpen with
          evt := s.evt ++ [0x10000000 + sync.setWidth 32]
          irq := s.irq ++ [.event (0x10000000 + sync.setWidth 32)] }

/-- `ADD_VOICE` of an enabled, valid voice whose samples can be loaded: the voice is mixed into the buses of
the open frame in its mode, and its record, packed again, is stored where it was fetched. The store cannot
fail, for every byte of the record has been read. Where the samples cannot be loaded the command ends there,
nothing mixed or stored. Whatever the reverb units are, the frame is opened, the voice is added, and the command
is acknowledged, in this order (42_voice_mix.md R200; 41_frame_ops.md R181; 20_memory.md R69). -/
def Obligations.AddVoiceMixes : Prop :=
  (∀ (sync : BitVec 7) (v : Half) (s : State),
    exec (.addVoice sync v) s = .next
      ((do
        prepareFrame
        addVoice v
        modify fun u => u.pushEvent (0x10000000 + sync.setWidth 32) : Act Unit).final s)) ∧
  (∀ (sync : BitVec 7) (v : Half) (s t : State) (ws : List Half) (cause : HaltCause),
    s.canOpenFrame = true →
    s.words? .main s.cfg.vpbWords (s.vpbAddr v) = some ws →
    (s.cfg.expand ws).enabled ≠ 0 → (s.cfg.expand ws).done = 0 →
    voiceDefect s.cfg (s.cfg.expand ws) = none →
    loadVoiceSamples (s.cfg.expand ws) s.frameOpen = .error cause t →
      exec (.addVoice sync v) s = .next t ∧ cause = .busError ∧
      t = { s.frameOpen with mode := .halted, haltCause := .busError }) ∧
  ∀ (sync : BitVec 7) (v : Half) (s : State) (ws : List Half) (voice : List Sample) (f : Vpb),
    s.canOpenFrame = true →
    s.words? .main s.cfg.vpbWords (s.vpbAddr v) = some ws →
    (s.cfg.expand ws).enabled ≠ 0 → (s.cfg.expand ws).done = 0 →
    voiceDefect s.cfg (s.cfg.expand ws) = none →
    loadVoiceSamples (s.cfg.expand ws) s.frameOpen = .ok (voice, f) s.frameOpen →
      let g := endRequest s.cfg f
      let m :=
        if g.useDolby ≠ 0 ∧ s.cfg.light = false then
          mixDolby s.cfg s.frameOpen.tables voice g s.frameOpen.buses
        else mixChannels s.cfg voice g s.frameOpen.buses
      let g' := if m.1.useConstantSample = 0 then m.1.put 0x04 0 else m.1
      exec (.addVoice sync v) s = .next
        { s.frameOpen with
          buses := m.2
          main :=
            (storeBytes (fun _ => true) s.main (s.vpbAddr v) ((s.cfg.pack g').flatMap halfBytes)).1
          evt := s.evt ++ [0x10000000 + sync.setWidth 32]
          irq := s.irq ++ [.event (0x10000000 + sync.setWidth 32)] }

/-- Validation of an enabled voice by `ADD_VOICE`: a reserved source type outside constant-sample mode, then a
destination above 10 in channel mode, halts with nothing of the voice written; the channel records are not
checked in Dolby mode, the source type not in constant-sample mode, and any other voice passes. A record that
does not answer halts before (42_voice_mix.md R203; 60_exceptions.md R312). -/
def Obligations.AddVoiceHalts : Prop :=
  (∀ (sync : BitVec 7) (v : Half) (s : State), s.canOpenFrame = true →
    s.words? .main s.cfg.vpbWords (s.vpbAddr v) = none →
      exec (.addVoice sync v) s = .next { s.frameOpen with mode := .halted, haltCause := .busError }) ∧
  ∀ (sync : BitVec 7) (v : Half) (s : State) (ws : List Half), s.canOpenFrame = true →
    s.words? .main s.cfg.vpbWords (s.vpbAddr v) = some ws →
    (s.cfg.expand ws).enabled ≠ 0 → (s.cfg.expand ws).done = 0 →
    ((s.cfg.expand ws).useConstantSample = 0 →
      (s.cfg.expand ws).sourceType.toNat ∉ [0, 1, 2, 3, 4, 5, 8, 9, 10, 11, 12] →
      exec (.addVoice sync v) s =
        .next { s.frameOpen with mode := .halted, haltCause := .badSourceType }) ∧
    ((s.cfg.expand ws).useConstantSample ≠ 0 ∨
        (s.cfg.expand ws).sourceType.toNat ∈ [0, 1, 2, 3, 4, 5, 8, 9, 10, 11, 12] →
      (s.cfg.expand ws).useDolby = 0 ∨ s.cfg.light = true →
      (∃ c, c < (if s.cfg.fourDests then 4 else 6) ∧ 10 < ((s.cfg.expand ws).destId c).toNat) →
      exec (.addVoice sync v) s = .next { s.frameOpen with mode := .halted, haltCause := .badDestId }) ∧
    ((s.cfg.expand ws).useConstantSample ≠ 0 ∨
        (s.cfg.expand ws).sourceType.toNat ∈ [0, 1, 2, 3, 4, 5, 8, 9, 10, 11, 12] →
      ((s.cfg.expand ws).useDolby ≠ 0 ∧ s.cfg.light = false) ∨
        (∀ c < (if s.cfg.fourDests then 4 else 6), ((s.cfg.expand ws).destId c).toNat ≤ 10) →
      voiceDefect s.cfg (s.cfg.expand ws) = none)

/-- The frame of `ADD_VOICE`, however it ends: memory outside the words of the record that it may change is
as it was, byte by byte, `SAMPLE` whole; so are every register, cursor and flag it does not own
(20_memory.md R69, R71). -/
def Obligations.AddVoiceFrame : Prop :=
  ∀ (sync : BitVec 7) (v : Half) (s t : State), s.memoryInv = true →
    exec (.addVoice sync v) s = .next t →
      (∀ a : Addr,
        (∀ i < s.cfg.vpbWords, imageIndex s.cfg i ∈ mutableWords s.cfg →
          a ≠ s.vpbAddr v + BitVec.ofNat 32 (2 * i) ∧ a ≠ s.vpbAddr v + BitVec.ofNat 32 (2 * i + 1)) →
        t.byteAt .main a = s.byteAt .main a) ∧
      (∃ main buses reverb pattern prepared evt irq mode haltCause,
        t =
          { s with
            main := main, buses := buses, reverb := reverb
            tables := { s.tables with pattern := pattern }
            prepared := prepared, evt := evt, irq := irq, mode := mode, haltCause := haltCause }) ∧
      (s.prepared = true → t.reverb = s.reverb ∧ t.tables = s.tables ∧ t.prepared = true)

/-- The words of a voice's image that mixing may change: those of the list and no other; the volume targets
only under an end request, the base address only where the stream loops (20_memory.md R71). -/
def Obligations.VoiceImage : Prop :=
  ∀ (s : State) (f f' : Vpb) (voice : List Sample), f.length = 0xC0 →
    loadVoiceSamples f s = .ok (voice, f') s →
      let g := clearReset (mixVoice s.cfg s.tables voice (endRequest s.cfg f') s.buses).1
      g.length = 0xC0 ∧
      (∀ i, i ∉ mutableWords s.cfg → g.word i = f.word i) ∧
      (f.endRequested = 0 → g.dolbyTarget = f.dolbyTarget ∧ ∀ c < 6, g.target c = f.target c) ∧
      (f.loopEnable = 0 → g.baseAddress = f.baseAddress)

/-- `FINALIZE_FRAME`: without an open frame it is only acknowledged; else, its output buffers answering and
the reverb silent, the front buses are scaled, both are stored, the addresses advance, the frame is closed.
Whatever the reverb units are: after the two buffers are written and the addresses advanced, the units 0, 1, 2
and 3 run their phase after the voices, then the frame is closed. A byte of either buffer that does not answer
halts: the bytes before it are stored, the addresses have not advanced, no unit has run, the frame is open still
and nothing is acknowledged (41_frame_ops.md R170, R178, R182; 44_reverb.md R290; 60_exceptions.md R312). -/
def Obligations.FinalizeFrameResult : Prop :=
  ∀ (sync : BitVec 7) (s : State),
    (s.prepared = false →
      exec (.finalizeFrame sync) s = .next
        { s with
          evt := s.evt ++ [0x10000000 + sync.setWidth 32]
          irq := s.irq ++ [.event (0x10000000 + sync.setWidth 32)] }) ∧
    (s.canCloseFrame = true →
      exec (.finalizeFrame sync) s = .next
        { s.frameWritten with
          prepared := false
          evt := s.evt ++ [0x10000000 + sync.setWidth 32]
          irq := s.irq ++ [.event (0x10000000 + sync.setWidth 32)] }) ∧
    exec (.finalizeFrame sync) s = .next
      ((do
        finalizeFrame
        modify fun u => u.pushEvent (0x10000000 + sync.setWidth 32) : Act Unit).final s) ∧
    (s.prepared = true → s.outValid = true →
      let scaled (g : Half) (bus : List Sample) : List Sample :=
        bus.map fun x => clamp16 (asr (g.toNat * x.toInt) 12)
      finalizeFrame s =
        (do
          modify fun u =>
            { u with
              buses := { u.buses with fl := scaled u.outVol u.buses.fl, fr := scaled u.outVol u.buses.fr } }
          let u ← get
          storeWords u.outL u.buses.fl
          storeWords u.outR u.buses.fr
          modify fun u => { u with outL := u.outL + 160, outR := u.outR + 160 }
          postUnit 0
          postUnit 1
          postUnit 2
          postUnit 3
          modify fun u => { u with prepared := false } : Act Unit) s) ∧
    (s.prepared = true → s.outValid = true → s.buses.full = true → ∀ j < 160,
      (s.breaksAt s.outL j = true → exec (.finalizeFrame sync) s = .next (s.leftBroken j)) ∧
      (s.answers s.outL 160 = true → s.breaksAt s.outR j = true →
        exec (.finalizeFrame sync) s = .next (s.rightBroken j)))

/-- What the host finds after a frame is closed with the reverb silent: sample `k` of each front bus, scaled
by the 4.12 volume, floored and clamped, big-endian at its place in each output buffer; every byte outside
the two buffers as it was (41_frame_ops.md R178; 20_memory.md R63, R78). -/
def Obligations.FinalizeOutput : Prop :=
  ∀ (sync : BitVec 7) (s : State), s.canCloseFrame = true → s.memoryInv = true →
    (∀ i < 160, ∀ j < 160, s.outL + BitVec.ofNat 32 i ≠ s.outR + BitVec.ofNat 32 j) →
      ∃ t, exec (.finalizeFrame sync) s = .next t ∧ t.outL = s.outL + 160 ∧ t.outR = s.outR + 160 ∧
        (∀ k < 80,
          t.read16? .main (s.outL + BitVec.ofNat 32 (2 * k)) =
            some (clamp16 (((s.buses.fl.getD k 0).toInt * s.outVol.toNat) / 4096)) ∧
          t.read16? .main (s.outR + BitVec.ofNat 32 (2 * k)) =
            some (clamp16 (((s.buses.fr.getD k 0).toInt * s.outVol.toNat) / 4096))) ∧
        ∀ a : Addr,
          (∀ i < 160, a ≠ s.outL + BitVec.ofNat 32 i ∧ a ≠ s.outR + BitVec.ofNat 32 i) →
          t.byteAt .main a = s.byteAt .main a

/-! ### Rendering -/

/-- `SYNC` and `SYNC2` in an open frame: the masks and the gate are updated, the voices below the gate that
are masked off or idle are passed over, and the machine yields at the gate (40_commands.md R147, R148;
41_frame_ops.md R171; 30_encoding.md R114). -/
def Obligations.SyncAdvances : Prop :=
  ∀ s : State, s.mode = .rendering → s.prepared = true →
    s.cur.curFrame.toNat < s.cur.reqFrames.toNat → s.cur.curVoice.toNat < s.cur.voicesPerFrame.toNat →
    (∀ (batch : BitVec 4) (mask : Half),
      let c : Cursors :=
        { s.cur with
          skipFlags := s.cur.skipFlags.set batch.toNat mask
          maxUnlocked := max s.cur.maxUnlocked (16 * (batch.toNat + 1)) }
      c.maxUnlocked < s.cur.voicesPerFrame.toNat →
      ({ s with cur := c } : State).idleBelow c.maxUnlocked = true →
        exec (.sync batch mask) s = .next
          { s with
            cur := { c with curVoice := BitVec.ofNat 16 (max s.cur.curVoice.toNat c.maxUnlocked) } }) ∧
    (∀ maskHi maskLo : Half,
      let h := if s.cur.syncHalf then 1 else 0
      let c : Cursors :=
        { s.cur with
          skipFlags := (s.cur.skipFlags.set (2 * h) maskHi).set (2 * h + 1) maskLo
          maxUnlocked := max s.cur.maxUnlocked (32 * (h + 1))
          syncHalf := !s.cur.syncHalf }
      c.maxUnlocked < s.cur.voicesPerFrame.toNat →
      ({ s with cur := c } : State).idleBelow c.maxUnlocked = true →
        exec (.sync2 maskHi maskLo) s = .next
          { s with
            cur := { c with curVoice := BitVec.ofNat 16 (max s.cur.curVoice.toNat c.maxUnlocked) } })

/-- `SYNC0` in an open frame: every mask is set, the gate is 256 and the interrupt pulses without an event.
With more than 256 voices, all below 256 idle, the render waits at voice 256. In the last frame of a light
render, its voices idle and no command waiting, the frame is closed without a `FRAME_DONE`, `RENDER_DONE` is
pushed, the state is `WAITING` and dispatch is not blocked (40_commands.md R142, R146; 41_frame_ops.md R171,
R172, R173). -/
def Obligations.Sync0Advances : Prop :=
  ∀ s : State, s.mode = .rendering → s.prepared = true →
    let c : Cursors := { s.cur with skipFlags := List.replicate 16 0xFFFF, maxUnlocked := 256 }
    (s.cur.curFrame.toNat < s.cur.reqFrames.toNat → s.cur.curVoice.toNat < s.cur.voicesPerFrame.toNat →
      256 < s.cur.voicesPerFrame.toNat → ({ s with cur := c } : State).idleBelow 256 = true →
      exec .sync0 s = .next
        { s with
          cur := { c with curVoice := BitVec.ofNat 16 (max s.cur.curVoice.toNat 256) }
          irq := s.irq ++ [.lightSync] }) ∧
    (s.cfg.light = true → s.canCloseFrame = true → s.cur.curFrame.toNat + 1 = s.cur.reqFrames.toNat →
      s.cur.voicesPerFrame.toNat ≤ 256 → s.cmd.pending = 0 →
      ({ s with cur := c } : State).idleBelow s.cur.voicesPerFrame.toNat = true →
      exec .sync0 s = .next
        { s.frameWritten with
          prepared := false
          cur := { c with curVoice := 0, maxUnlocked := 0, syncHalf := false, curFrame := s.cur.reqFrames }
          evt := s.evt ++ [0x30000000]
          irq := s.irq ++ [.lightSync, .event 0x30000000]
          mode := .waiting })

/-- The sync word that unlocks the last voices of the last frame: the output is written, the frame is closed,
the frame's event and then the render's are pushed, dispatch is blocked and the state is `WAITING`; the masks are
kept. Where a byte of the left output buffer does not answer, the frame's event has been pushed already, and
neither the frame nor the render is done (40_commands.md R148; 41_frame_ops.md R171, R172, R173, R178; default
protocol). -/
def Obligations.SyncCompletesRender : Prop :=
  ∀ (s : State) (batch : BitVec 4) (mask : Half), s.mode = .rendering → s.cfg.light = false →
    s.cur.curFrame.toNat + 1 = s.cur.reqFrames.toNat →
    s.cur.voicesPerFrame.toNat ≤ max s.cur.maxUnlocked (16 * (batch.toNat + 1)) →
    let masks := s.cur.skipFlags.set batch.toNat mask
    ({ s with cur := { s.cur with skipFlags := masks } } : State).idleBelow s.cur.voicesPerFrame.toNat =
      true →
      (s.canCloseFrame = true →
        exec (.sync batch mask) s = .next
          { s.frameWritten with
            prepared := false
            cur :=
              { s.cur with
                skipFlags := masks, curVoice := 0, maxUnlocked := 0, syncHalf := false
                curFrame := s.cur.reqFrames }
            evt := s.evt ++ [0x20000000 + s.cur.curFrame.setWidth 32, 0x30000000]
            irq := s.irq ++ [.event (0x20000000 + s.cur.curFrame.setWidth 32), .event 0x30000000]
            canExecute := false
            mode := .waiting }) ∧
      (s.prepared = true → s.outValid = true → s.buses.full = true →
        ∀ j < 160, s.breaksAt s.outL j = true →
          exec (.sync batch mask) s = .next
            { s.leftBroken j with
              cur :=
                { s.cur with
                  skipFlags := masks
                  maxUnlocked := max s.cur.maxUnlocked (16 * (batch.toNat + 1))
                  curVoice := BitVec.ofNat 16 (max s.cur.curVoice.toNat s.cur.voicesPerFrame.toNat) }
              evt := s.evt ++ [0x20000000 + s.cur.curFrame.setWidth 32]
              irq := s.irq ++ [.event (0x20000000 + s.cur.curFrame.setWidth 32)] })

/-- `RenderAudio` is the loop of the rule: with no frame left the render is done; else the frame is prepared
and its voices visited, and where they do not yield the frame is closed and the loop goes on. A voice at or
above the gate yields; one below is mixed where its mask bit is set, and the cursor goes on. `START_RENDER` is
that loop from fresh cursors; each sync word updates the masks and the gate (`SYNC0` pulses too), runs the loop,
and in `WAITING` the pending commands. That the loop over the voices counts the turns left is the model's, log 18
(40_commands.md R142, R145 to R148; 41_frame_ops.md R171, R173). -/
def Obligations.RenderLoop : Prop :=
  (∀ (sync : BitVec 7) (voices frames vol : Half) (outL outR : Addr) (s : State), s.setupDone = true →
    exec (.startRender sync voices frames vol outL outR) s = .next
      (renderAudio.final
        { s with
          outVol := vol, outL := outL, outR := outR, outValid := true
          cur := ⟨frames, voices, 0, 0, List.replicate 16 0, 0, false⟩
          mode := .rendering })) ∧
  (∀ s : State,
    let resume : Act Unit := do
      renderAudio
      let u ← get
      if u.mode = .waiting then runPendingCommands
    let h := if s.cur.syncHalf then 1 else 0
    (∀ (batch : BitVec 4) (mask : Half),
      exec (.sync batch mask) s = .next
        (resume.final
          { s with
            cur :=
              { s.cur with
                skipFlags := s.cur.skipFlags.set batch.toNat mask
                maxUnlocked := max s.cur.maxUnlocked (16 * (batch.toNat + 1)) } })) ∧
    (∀ maskHi maskLo : Half,
      exec (.sync2 maskHi maskLo) s = .next
        (resume.final
          { s with
            cur :=
              { s.cur with
                skipFlags := (s.cur.skipFlags.set (2 * h) maskHi).set (2 * h + 1) maskLo
                maxUnlocked := max s.cur.maxUnlocked (32 * (h + 1))
                syncHalf := !s.cur.syncHalf } })) ∧
    exec .sync0 s = .next
      (resume.final
        { s with
          cur := { s.cur with skipFlags := List.replicate 16 0xFFFF, maxUnlocked := 256 }
          irq := s.irq ++ [.lightSync] })) ∧
  (∀ (n : Nat) (s : State),
    renderVoices 0 s = .ok false s ∧
    renderVoices (n + 1) s =
      (if s.cur.maxUnlocked ≤ s.cur.curVoice.toNat then .ok true s
      else
        (do
          if (s.cur.skipFlags.getD (s.cur.curVoice.toNat / 16) 0).getLsbD (s.cur.curVoice.toNat % 16) then
            addVoice s.cur.curVoice
          modify fun u => { u with cur := { u.cur with curVoice := u.cur.curVoice + 1 } }
          renderVoices n : Act Bool) s)) ∧
  ∀ s : State,
    renderAudio s =
      (if s.cur.curFrame.toNat < s.cur.reqFrames.toNat then
        (do
          prepareFrame
          let u ← get
          let yielded ← renderVoices (u.cur.voicesPerFrame.toNat - u.cur.curVoice.toNat)
          if yielded then pure ()
          else do
            modify fun u => if u.cfg.light then u else u.pushEvent (frameDoneWord u.cur.curFrame)
            finalizeFrame
            modify fun u =>
              { u with
                cur :=
                  { u.cur with
                    curVoice := 0, maxUnlocked := 0, syncHalf := false, curFrame := u.cur.curFrame + 1 } }
            renderAudio : Act Unit) s
      else
        .ok ()
          { s with
            evt := s.evt ++ [0x30000000]
            irq := s.irq ++ [.event 0x30000000]
            canExecute := if s.cfg.light then s.canExecute else false
            mode := .waiting })

/-! ### Control writes -/

/-- `CONTINUE`: ignored in `HALTED`; else commands may execute again, and in `WAITING` the pending ones do
(40_commands.md R150). -/
def Obligations.ContinueResult : Prop :=
  (∀ s : State, s.mode = .halted → exec .cont s = .next s) ∧
  (∀ s : State, s.mode = .writingCmd ∨ s.mode = .rendering ∨ (s.mode = .waiting ∧ s.cmd.pending = 0) →
    exec .cont s = .next { s with canExecute := true }) ∧
  (∀ s : State, s.mode = .waiting →
    exec .cont s = .next (runPendingCommands.final { s with canExecute := true }))

/-- `RESET` and the reset input do the same from any state: every register the spec gives a reset value has it,
FLAGS, the rest of the configuration and both memories are kept. That the trace of pulses, the accesses to come
and the replies are kept is the model's choice, log 22 (10_state.md R42; 40_commands.md R151;
70_reset_and_hazards.md R350, R351). -/
def Obligations.ResetResult : Prop :=
  (∀ s : State, ∃ t, exec .reset s = .next t ∧
    t.mode = .waiting ∧ t.canExecute = true ∧ t.prepared = false ∧ t.setupDone = false ∧
    t.outValid = false ∧ t.haltCause = .none ∧ t.evt = [] ∧ t.sampleBase = 0 ∧
    t.cur = ⟨0, 0, 0, 0, List.replicate 16 0, 0, false⟩ ∧
    t.cmd.wr = 0 ∧ t.cmd.rd = 0 ∧ t.cmd.words = 0 ∧ t.cmd.pending = 0 ∧ t.cmd.expected = 0 ∧
    (∀ id : BusId, t.buses.get id = List.replicate 80 0) ∧
    t.reverb = List.replicate 4 ⟨0, List.replicate 8 0⟩ ∧
    t.cfg = s.cfg ∧ t.main = s.main ∧ t.sample = s.sample ∧
    t.irq = s.irq ∧ t.host = s.host ∧ t.replies = s.replies ∧
    t.statusWord = 0x00000004 ∧ t.cursorWord = 0) ∧
  (∀ (s : State) (rest : List HostAccess), s.host = .resetInput :: rest →
    step s = exec .reset { s with host := rest })

/-! ### Frames of whole families -/

/-- What the commands do not touch, however they end: `SET_SAMPLE_BASE` alone writes `sample_base`, `SETUP`
alone the two bases and `setup_done`, `FINALIZE_FRAME` alone advances the output addresses; none of them
touches the cursors, the command buffer, `can_execute`, `out_vol`, `SAMPLE`, and only `ADD_VOICE` and
`FINALIZE_FRAME` store to `MAIN` (10_state.md R27; 20_memory.md R60). -/
def Obligations.CommandFrame : Prop :=
  ∀ (i : Instr) (s t : State), exec i s = .next t →
    (∀ b m, i ≠ .sync b m) → (∀ h l, i ≠ .sync2 h l) → i ≠ .sync0 → i ≠ .cont → i ≠ .reset →
    (∀ y v f o l r, i ≠ .startRender y v f o l r) →
      t.cur = s.cur ∧ t.cmd = s.cmd ∧ t.canExecute = s.canExecute ∧ t.outVol = s.outVol ∧
      t.outValid = s.outValid ∧ t.sample = s.sample ∧ t.cfg = s.cfg ∧
      ((∀ y b, i ≠ .setSampleBase y b) → t.sampleBase = s.sampleBase) ∧
      ((∀ y a b c d e, i ≠ .setup y a b c d e) →
        t.vpbBase = s.vpbBase ∧ t.rpbBase = s.rpbBase ∧ t.setupDone = s.setupDone ∧
        t.tables.resampleCoef = s.tables.resampleCoef ∧ t.tables.sine = s.tables.sine ∧
        t.tables.afcCoef = s.tables.afcCoef) ∧
      ((∀ y, i ≠ .finalizeFrame y) → t.outL = s.outL ∧ t.outR = s.outR) ∧
      ((∀ y, i ≠ .finalizeFrame y) → (∀ y v, i ≠ .addVoice y v) → t.main = s.main)

/-- What a render does not touch, however it goes: with no command waiting behind it, `START_RENDER` and the
sync words leave the command buffer, the bases, `sample_base`, `setup_done`, `SAMPLE` and every table but the
regenerated patterns alone (10_state.md R25, R27). -/
def Obligations.RenderFrame : Prop :=
  ∀ (i : Instr) (s t : State), exec i s = .next t → s.cmd.pending = 0 → s.tables.full = true →
    ((∃ b m, i = .sync b m) ∨ (∃ h l, i = .sync2 h l) ∨ i = .sync0 ∨
      ∃ y v f o l r, i = .startRender y v f o l r) →
      t.cmd = s.cmd ∧ t.vpbBase = s.vpbBase ∧ t.rpbBase = s.rpbBase ∧ t.sampleBase = s.sampleBase ∧
      t.setupDone = s.setupDone ∧ t.sample = s.sample ∧ t.cfg = s.cfg ∧
      t.tables.resampleCoef = s.tables.resampleCoef ∧ t.tables.sine = s.tables.sine ∧
      t.tables.afcCoef = s.tables.afcCoef ∧ t.tables.pattern.take 128 = s.tables.pattern.take 128

/-! ### The mixing arithmetic -/

/-- The arithmetic the mixing rules are written in: the clamp is to -32768..32767, the wraps are to the number
congruent modulo 2^16 or 2^32 in the signed range, the arithmetic shift is the floor of the quotient
(00_scope.md R10).
The gain ramp: the step is the exact quotient, which always fits 32 bits, at most 53,686,272 in magnitude.
Over a bus, sample `k` is scaled by the volume before the `k`-th increment, the scaled sample is clamped and
the sum into the bus wraps; the accumulator ends 80 increments on (42_voice_mix.md R201). -/
def Obligations.MixRampSamples : Prop :=
  (∀ v : Int,
    (clamp16 v).toInt = max (-32768) (min 32767 v) ∧
    (wrap16 v).toInt = v.bmod 65536 ∧
    (wrap32 v).toInt = v.bmod 4294967296 ∧
    ∀ n : Nat, asr v n = v / 2 ^ n) ∧
  (∀ cur tgt : Sample,
    (rampStep cur tgt).toInt = ((tgt.toInt - cur.toInt) * 65536).tdiv 80 ∧
    (rampStep cur tgt).toInt.natAbs ≤ 53686272) ∧
  ∀ (bus src : List Sample) (vol step : Word), bus.length = 80 → src.length = 80 →
    (mixRamp bus src vol step).1.length = 80 ∧
    (∀ k < 80,
      (mixRamp bus src vol step).1.getD k 0 =
        wrap16 ((bus.getD k 0).toInt +
          (clamp16 (asr (((vol + BitVec.ofNat 32 k * step).sshiftRight 16).toInt * (src.getD k 0).toInt)
            15)).toInt)) ∧
    (mixRamp bus src vol step).2 = vol + 80 * step

/-- A volume as an accumulator is the volume times 65536, and an accumulator's volume is the floor of it over 65536.
Consequences of the ramp: a zero delta has step zero and scales every sample by the same volume, and with
volume zero leaves the bus; the ramps 0 to 1 and 0 to 32767 end one short of their target, 0 to -1 is at -1
from sample 1 on, 1 to 0 reaches its target, and so does the extreme delta, whose step R202 gives and whose end
follows by R201 (42_voice_mix.md R201, R202). -/
def Obligations.RampSteps : Prop :=
  (∀ c : Sample, (accum c).toInt = c.toInt * 65536) ∧ (∀ v : Word, (highHalf v).toInt = v.toInt / 65536) ∧
  (∀ c : Sample, rampStep c c = 0) ∧
  (∀ (c : Sample) (bus src : List Sample), bus.length = src.length →
    mixRamp bus src (accum c) 0 =
      (List.zipWith (fun b x => wrap16 (b.toInt + (clamp16 (asr (c.toInt * x.toInt) 15)).toInt)) bus src,
        accum c)) ∧
  (∀ bus src : List Sample, mixRamp bus src (accum 0) 0 = (bus, accum 0)) ∧
  (rampStep 0 1).toInt = 819 ∧ (rampStep 0 32767).toInt = 26842726 ∧ (rampStep 0 (-1)).toInt = -819 ∧
  (rampStep 1 0).toInt = -819 ∧ (rampStep (-32768) 32767).toInt = 53686272 ∧
  (∀ bus src : List Sample, bus.length = 80 → src.length = 80 →
    (mixRamp bus src (accum 0) (rampStep 0 1)).2.toInt = 65520 ∧
    highHalf (mixRamp bus src (accum 0) (rampStep 0 1)).2 = 0 ∧
    (mixRamp bus src (accum 0) (rampStep 0 32767)).2.toInt = 2147418080 ∧
    highHalf (mixRamp bus src (accum 0) (rampStep 0 32767)).2 = 32766 ∧
    (∀ k < 80, 1 ≤ k →
      (mixRamp bus src (accum 0) (rampStep 0 (-1))).1.getD k 0 =
        wrap16 ((bus.getD k 0).toInt + (clamp16 (asr (-1 * (src.getD k 0).toInt) 15)).toInt)) ∧
    (mixRamp bus src (accum 1) (rampStep 1 0)).2.toInt = 16 ∧
    highHalf (mixRamp bus src (accum 1) (rampStep 1 0)).2 = 0 ∧
    (mixRamp bus src (accum (-32768)) (rampStep (-32768) 32767)).2.toInt = 2147418112 ∧
    highHalf (mixRamp bus src (accum (-32768)) (rampStep (-32768) 32767)).2 = 32767)

/-- The end request: without it nothing happens; else the Dolby target, or every channel's target, is halved
toward zero, and `done` is set when that leaves only zeros; nothing else of the image changes. Halving takes
every volume, negative ones included, to zero in at most 16 frames (42_voice_mix.md R205). -/
def Obligations.EndRequestFades : Prop :=
  (∀ (p : Platform) (f : Vpb), f.length = 0xC0 →
    (f.endRequested = 0 → endRequest p f = f) ∧
    (f.endRequested ≠ 0 → f.useDolby ≠ 0 → p.light = false →
      ((endRequest p f).dolbyTarget.toInt = f.dolbyTarget.toInt.tdiv 2 ∧
        (endRequest p f).done = (if (endRequest p f).dolbyTarget = 0 then 1 else f.done) ∧
        ∀ i, i ≠ 0x01 → i ≠ 0x0F → (endRequest p f).word i = f.word i)) ∧
    (f.endRequested ≠ 0 → f.useDolby = 0 ∨ p.light = true →
      let n := if p.fourDests then 4 else 6
      (∀ c < n, ((endRequest p f).target c).toInt = (f.target c).toInt.tdiv 2) ∧
      (endRequest p f).done = (if ∀ c < n, (endRequest p f).target c = 0 then 1 else f.done) ∧
      ∀ i, i ≠ 0x01 → (∀ c < n, i ≠ 0x11 + 4 * c) → (endRequest p f).word i = f.word i)) ∧
  ∀ v : Sample, (halve v).toInt = v.toInt.tdiv 2 ∧ halve^[16] v = 0

/-- Channel mode. Without `VOLUME_STEP` a channel ramps from its current to its target volume: sample `k` is
scaled by the ramp's volume for it, and the current volume becomes the volume after 80 increments. With it,
sample `k` is scaled by the current volume plus `k` steps, and the volume after the frame is 80 steps on, both
modulo 65536. A channel without a destination does nothing. The channels are taken in increasing number, six or,
with `FOUR_DESTS`, four. Destination 1 to 10 is the bus of that number, 0 and the rest are none
(10_state.md R22; 42_voice_mix.md R201, R210, R212). -/
def Obligations.StepChannel : Prop :=
  ((List.range 11).map fun d => BusId.ofDest (BitVec.ofNat 16 d)) =
    [none, some .fl, some .fr, some .bl, some .br, some .flRv, some .frRv, some .blRv, some .brRv,
      some .auxaRv, some .auxbRv] ∧
  (∀ d : Half, 10 < d.toNat → BusId.ofDest d = none) ∧
  (∀ b : Buses,
    [BusId.fl, .fr, .bl, .br, .flRv, .frRv, .blRv, .brRv, .auxaRv, .auxbRv].map b.get =
      [b.fl, b.fr, b.bl, b.br, b.flRv, b.frRv, b.blRv, b.brRv, b.auxaRv, b.auxbRv] ∧
    ∀ (id id' : BusId) (bus : List Sample), (b.set id bus).get id' = if id' = id then bus else b.get id') ∧
  ∀ (p : Platform) (voice : List Sample),
    (∀ (f : Vpb) (b : Buses) (c : Nat),
      (f.destId c = 0 → mixChannel p voice (f, b) c = (f, b)) ∧
      ∀ id : BusId, BusId.ofDest (f.destId c) = some id → voice.length = 80 → (b.get id).length = 80 →
        (p.volumeStep = false →
          ∃ out : List Sample,
            mixChannel p voice (f, b) c =
              (f.put (0x12 + 4 * c) (BitVec.ofInt 16 (rampVolume (f.current c) (f.target c) 80)),
                b.set id out) ∧
            out.length = 80 ∧
            ∀ k < 80,
              out.getD k 0 =
                rampedSample (f.current c) (f.target c) k ((b.get id).getD k 0) (voice.getD k 0)) ∧
        (p.volumeStep = true →
          ∃ out : List Sample,
            mixChannel p voice (f, b) c =
              (f.put (0x12 + 4 * c) (f.current c + 80 * f.target c), b.set id out) ∧
            out.length = 80 ∧
            ∀ k < 80,
              out.getD k 0 =
                wrap16 (((b.get id).getD k 0).toInt +
                  (clamp16 (asr ((f.current c + BitVec.ofNat 16 k * f.target c).toInt *
                    (voice.getD k 0).toInt) 15)).toInt))) ∧
    ∀ (f : Vpb) (b : Buses),
      let m := mixChannel p voice
      mixChannels p voice f b =
        if p.fourDests then m (m (m (m (f, b) 0) 1) 2) 3
        else m (m (m (m (m (m (f, b) 0) 1) 2) 3) 4) 5

/-- Positional mode, taken where `use_dolby` is set and not under `LIGHT`. Four quadrant volumes come from the sine
table at the pan positions and their complements; each, scaled by the master volumes and doubled with
`DOLBY_LOUDER`, ramps the voice into its direct bus, and scaled again by the reverb factor into its reverb-feed
bus; a factor of 0 adds nothing there. The master volume becomes its target exactly, no other word changes,
and buses 9 and 10 are never touched (42_voice_mix.md R201, R204, R220 to R224). -/
def Obligations.DolbyMix : Prop :=
  ∀ (p : Platform) (t : Tables) (voice : List Sample) (f : Vpb) (b : Buses),
    let out := (mixDolby p t voice f b).2
    let sine (i : BitVec 7) : Int := (t.sine.getD i.toNat 0).toInt
    let x := (f.word 0x0B).extractLsb' 0 7
    let y := (f.word 0x0C).extractLsb' 0 7
    let louder (v : Sample) : Sample := if p.dolbyLouder then clamp16 (2 * v.toInt) else v
    (voice.length = 80 → b.full = true →
      out.full = true ∧
      ∀ (direct feed : BusId) (side depth : BitVec 7),
        (direct, feed, side, depth) ∈
          [(BusId.fl, BusId.flRv, x ^^^ 0x7F, y ^^^ 0x7F), (BusId.fr, BusId.frRv, x, y ^^^ 0x7F),
            (BusId.bl, BusId.blRv, x ^^^ 0x7F, y), (BusId.br, BusId.brRv, x, y)] →
        let quad := clamp16 (sine side * sine depth / 32768)
        let cur := louder (clamp16 (quad.toInt * f.dolbyCurrent.toInt / 32768))
        let tgt := louder (clamp16 (quad.toInt * f.dolbyTarget.toInt / 32768))
        let feedCur := clamp16 (cur.toInt * f.reverbFactor.toInt / 32768)
        let feedTgt := clamp16 (tgt.toInt * f.reverbFactor.toInt / 32768)
        ∀ k < 80,
          (out.get direct).getD k 0 = rampedSample cur tgt k ((b.get direct).getD k 0) (voice.getD k 0) ∧
          (out.get feed).getD k 0 = rampedSample feedCur feedTgt k ((b.get feed).getD k 0) (voice.getD k 0)) ∧
    (mixDolby p t voice f b).1 = f.put 0x0E f.dolbyTarget ∧
    out.get .auxaRv = b.get .auxaRv ∧ out.get .auxbRv = b.get .auxbRv ∧
    (f.reverbFactor = 0 → ∀ id ∈ [BusId.flRv, .frRv, .blRv, .brRv], out.get id = b.get id) ∧
    (f.useDolby ≠ 0 → p.light = false → mixVoice p t voice f b = mixDolby p t voice f b) ∧
    (f.useDolby = 0 ∨ p.light = true → mixVoice p t voice f b = mixChannels p voice f b)

/-! ### Records, sources and the resampler -/

/-- The legacy layout loses nothing: a record expanded and packed is the record, and its words stand in the
image where the rule puts them, the rest zero; packing keeps the two ranges that hold fields. Which layout is
transferred, how many words of it, and where a voice's record lies. The fields of the image by word number, and
what writing one leaves (20_memory.md R67 to R70, R72; 43_sources_resample.md R246). -/
def Obligations.LegacyLayout : Prop :=
  (∀ (s : State) (v : Half),
    s.vpbAddr v = s.vpbBase + BitVec.ofNat 32 (v.toNat * if s.cfg.legacyVpb then 0x100 else 0x180)) ∧
  (∀ p : Platform,
    p.vpbWords = (if p.legacyVpb then 0x80 else 0xC0) ∧
    (∀ ws : List Half, p.expand ws = if p.legacyVpb then uncompress ws else ws) ∧
    ∀ f : Vpb, p.pack f = if p.legacyVpb then compress f else f) ∧
  (∀ f : Vpb,
    [f.enabled, f.done, f.ratio, f.sourceType, f.endRequested, f.useConstantSample, f.constantSample,
        f.useDolby, f.reverbFactor, f.dolbyCurrent, f.dolbyTarget, f.yn1, f.yn2, f.synthPhase, f.loopEnable,
        f.loopYn1, f.loopYn2] =
      [0x00, 0x01, 0x02, 0x03, 0x05, 0x06, 0x07, 0x0A, 0x0D, 0x0E, 0x0F, 0x2C, 0x2D, 0x2E, 0x84, 0x85,
        0x86].map f.word ∧
    [f.baseAddress, f.streamLength, f.loopAddress, f.loopStart] =
      [0x80, 0x82, 0x88, 0x8A].map (fun i => f.word i ++ f.word (i + 1)) ∧
    f.index = (f.word 0x08 ++ f.word 0x09).extractLsb' 12 20 ∧
    f.frac = (f.word 0x08 ++ f.word 0x09).extractLsb' 0 12 ∧
    f.hist = [0x28, 0x29, 0x2A, 0x2B].map f.word ∧
    ∀ c, f.destId c = f.word (0x10 + 4 * c) ∧ f.target c = f.word (0x11 + 4 * c) ∧
      f.current c = f.word (0x12 + 4 * c)) ∧
  (∀ f : Vpb, f.length = 0xC0 →
    (∀ i < 0xC0, ∀ (v : Half) (j : Nat),
      (f.put i v).length = 0xC0 ∧ (f.put i v).word j = if j = i then v else f.word j) ∧
    (∀ (i : Nat) (vs : List Half), i + vs.length ≤ 0xC0 →
      (f.putAll i vs).length = 0xC0 ∧
      ∀ j, (f.putAll i vs).word j = if i ≤ j ∧ j < i + vs.length then vs.getD (j - i) 0 else f.word j) ∧
    (∀ (i : Nat) (v : Word),
      f.putPair i v = (f.put i (v.extractLsb' 16 16)).put (i + 1) (v.extractLsb' 0 16)) ∧
    (∀ a b : Sample, f.setYn a b = (f.put 0x2C a).put 0x2D b) ∧
    ∀ x : BitVec 20, (f.setIndex x).index = x ∧ (f.setIndex x).frac = f.frac ∧
      (f.setIndex x).length = 0xC0 ∧ ∀ j, j ≠ 0x08 → j ≠ 0x09 → (f.setIndex x).word j = f.word j) ∧
  (∀ f : Vpb, f.length = 0xC0 →
    (compress f).length = 0x80 ∧ (∀ i < 0x60, (compress f).getD i 0 = f.word i) ∧
    ∀ i < 0x20, (compress f).getD (0x60 + i) 0 = f.word (0x80 + i)) ∧
  ∀ l : List Half, l.length = 0x80 →
    compress (uncompress l) = l ∧ (uncompress l).length = 0xC0 ∧
    (∀ i < 0x60, (uncompress l).getD i 0 = l.getD i 0) ∧
    (∀ i < 0x20, (uncompress l).getD (0x60 + i) 0 = 0 ∧
      (uncompress l).getD (0x80 + i) 0 = l.getD (0x60 + i) 0 ∧ (uncompress l).getD (0xA0 + i) 0 = 0)

/-- The PCM streams: an index inside the stream reads its sample, 8-bit ones times 256, 16-bit ones
big-endian, from the stream's space, and advances by one; a byte that does not answer halts. An index at or
past the end of any stream that does not loop, or whose loop starts past the end, gives 0 and marks the voice
done; a loop rebases the stream and goes on in the same fetch (43_sources_resample.md R247, R250, R252). -/
def Obligations.StreamFetch : Prop :=
  ∀ (f : Vpb) (s : State),
    let i := f.index.toNat
    let start := f.loopStart.toNat % 2 ^ 20
    let at8 (base : Addr) (n : Nat) := s.bytes? s.sampleSpace 1 (s.sampleAddr (base + BitVec.ofNat 32 n))
    let at16 (base : Addr) (n : Nat) :=
      s.bytes? s.sampleSpace 2 (s.sampleAddr (base + BitVec.ofNat 32 (2 * n)))
    let atMain (base : Addr) (n : Nat) := s.bytes? .main 2 (base + BitVec.ofNat 32 (2 * n))
    let misses (k : StreamKind) (base : Addr) (n : Nat) : Prop :=
      (k = .pcm8 ∧ at8 base n = none) ∨ (k = .pcm16 ∧ at16 base n = none) ∨
        (k = .raw16Main ∧ atMain base n = none)
    (i < f.streamLength.toNat →
      (∀ b : Byte, at8 f.baseAddress i = some [b] →
        nextSample f .pcm8 s = .ok (b ++ (0 : Byte), f.setIndex (f.index + 1)) s) ∧
      (∀ hi lo : Byte, at16 f.baseAddress i = some [hi, lo] →
        nextSample f .pcm16 s = .ok (hi ++ lo, f.setIndex (f.index + 1)) s) ∧
      (∀ hi lo : Byte, atMain f.baseAddress i = some [hi, lo] →
        nextSample f .raw16Main s = .ok (hi ++ lo, f.setIndex (f.index + 1)) s) ∧
      (∀ k : StreamKind, misses k f.baseAddress i →
        nextSample f k s = .error .busError { s with mode := .halted, haltCause := .busError })) ∧
    (∀ k : StreamKind, f.streamLength.toNat ≤ i → f.loopEnable = 0 →
      nextSample f k s = .ok (0, f.put 0x01 1) s) ∧
    (f.length = 0xC0 → f.streamLength.toNat ≤ i → f.loopEnable ≠ 0 →
      let rebased := f.putPair 0x80 f.loopAddress
      let after := rebased.setIndex (BitVec.ofNat 20 (start + 1))
      (∀ k : StreamKind, f.streamLength.toNat ≤ start →
        let g := rebased.setIndex (BitVec.ofNat 20 start)
        nextSample f k s =
          .ok (0, (if k = .afc4 ∨ k = .afc2 then g.setYn f.loopYn1 f.loopYn2 else g).put 0x01 1) s) ∧
      (start < f.streamLength.toNat →
        (∀ b : Byte, at8 f.loopAddress start = some [b] →
          nextSample f .pcm8 s = .ok (b ++ (0 : Byte), after) s) ∧
        (∀ hi lo : Byte, at16 f.loopAddress start = some [hi, lo] →
          nextSample f .pcm16 s = .ok (hi ++ lo, after) s) ∧
        (∀ hi lo : Byte, atMain f.loopAddress start = some [hi, lo] →
          nextSample f .raw16Main s = .ok (hi ++ lo, after) s) ∧
        (∀ k : StreamKind, misses k f.loopAddress start →
          nextSample f k s = .error .busError { s with mode := .halted, haltCause := .busError })))

/-- The AFC streams. A block: sixteen samples, each predicted from the two before it with the block's shift and
coefficient pair, floored and clamped; the history left is the last two samples, newer first. A fetch inside a
block reads the cache; one that enters a block at sample 0 decodes the block from the history, at the base
plus 9 or 5 bytes times the block's number, and leaves its samples in the cache and its history; a loop
restart decodes the block it lands in, wherever in it, from the loop's saved history; a byte that does not
answer halts. The order of samples inside a byte and the expansion are the spec's own general knowledge
(43_sources_resample.md R247, R250, R252, R260, R262, R264; log 14). -/
def Obligations.AfcDecode : Prop :=
  (∀ (k : StreamKind) (coef : List Sample) (header : Byte) (data : List Byte) (yn1 yn2 : Sample),
    (k = .afc4 ∧ data.length = 8) ∨ (k = .afc2 ∧ data.length = 4) →
      let idx := (header.extractLsb' 0 4).toNat
      let delta : Int := 2 ^ (header.extractLsb' 4 4).toNat
      let q (n : Nat) : Int :=
        if k = .afc4 then ((data.getD (n / 2) 0).extractLsb' (if n % 2 = 0 then 4 else 0) 4).toInt * 2048
        else ((data.getD (n / 4) 0).extractLsb' (6 - 2 * (n % 4)) 2).toInt * 8192
      ∃ out : List Sample, out.length = 16 ∧
        afcDecode k coef (header :: data) yn1 yn2 = (out, out.getD 15 0, out.getD 14 0) ∧
        ∀ n < 16,
          let y1 := if n = 0 then yn1 else out.getD (n - 1) 0
          let y2 := if n = 0 then yn2 else if n = 1 then yn1 else out.getD (n - 2) 0
          out.getD n 0 =
            clamp16 ((delta * q n + y1.toInt * (coef.getD (2 * idx) 0).toInt +
              y2.toInt * (coef.getD (2 * idx + 1) 0).toInt) / 2048)) ∧
  ∀ (f : Vpb) (k : StreamKind) (s : State), f.length = 0xC0 → k = .afc4 ∨ k = .afc2 →
    let i := f.index.toNat
    let start := f.loopStart.toNat % 2 ^ 20
    let size := if k = .afc4 then 9 else 5
    let block (base : Addr) (n : Nat) :=
      s.bytes? s.sampleSpace size (s.sampleAddr (base + BitVec.ofNat 32 (size * (n / 16))))
    let decoded := afcDecode k s.tables.afcCoef
    let after (g : Vpb) (n : Nat) (d : List Sample × Sample × Sample) : Vpb :=
      ((g.putAll 0x30 d.1).setYn d.2.1 d.2.2).setIndex (BitVec.ofNat 20 (n + 1))
    (i < f.streamLength.toNat →
      (i % 16 ≠ 0 →
        nextSample f k s = .ok (f.word (0x30 + i % 16), f.setIndex (BitVec.ofNat 20 (i + 1))) s) ∧
      (i % 16 = 0 →
        (∀ bs, block f.baseAddress i = some bs →
          nextSample f k s =
            .ok ((decoded bs f.yn1 f.yn2).1.getD 0 0, after f i (decoded bs f.yn1 f.yn2)) s) ∧
        (block f.baseAddress i = none →
          nextSample f k s = .error .busError { s with mode := .halted, haltCause := .busError }))) ∧
    (f.streamLength.toNat ≤ i → f.loopEnable ≠ 0 → start < f.streamLength.toNat →
      (∀ bs, block f.loopAddress start = some bs →
        nextSample f k s =
          .ok ((decoded bs f.loopYn1 f.loopYn2).1.getD (start % 16) 0,
            after (f.putPair 0x80 f.loopAddress) start (decoded bs f.loopYn1 f.loopYn2)) s) ∧
      (block f.loopAddress start = none →
        nextSample f k s = .error .busError { s with mode := .halted, haltCause := .busError }))

/-- One output sample of the resampler: below a ratio of 4.0 the four-tap filter of the set that the top six
bits of the fraction select, at or above it the window's own sample (43_sources_resample.md R275;
90_conflicts.md C1, C2). -/
def Obligations.ResamplerTap : Prop :=
  ∀ (coef window : List Sample) (idx frac ratio : Nat), coef.length = 256 → idx + 4 ≤ window.length →
    frac < 4096 →
      (ratio < 0x4000 →
        tap coef window idx frac ratio =
          clamp16 (((List.range 4).map fun i =>
            2 * (coef.getD (4 * (frac / 64) + i) 0).toInt *
              (window.getD (idx + i) 0).toInt).sum / 65536)) ∧
      (0x4000 ≤ ratio → tap coef window idx frac ratio = window.getD idx 0)

/-- A resampled frame, from any stream. The raw samples are fetched one after another, `n` of them, `n` the whole
part of the end position; the window is the four held samples and then these. Output sample `i` is the tap at
the position `i` ratios on; the last four window elements are the next frame's history, the fraction left is the
end position's, the held sample is the last one, and every other word is as the fetches left it. A fetch that
halts halts the frame; with ratio 0 nothing is fetched and only the held sample changes. Outside constant-sample
mode the source types 8 to 12 select the five streams, and each is resampled
(43_sources_resample.md R240, R241, R270, R277). -/
def Obligations.ResampleFrame : Prop :=
  (∀ (f : Vpb) (type : Nat) (k : StreamKind), f.useConstantSample = 0 → f.sourceType.toNat = type →
    (type, k) ∈ [(8, StreamKind.pcm8), (9, .pcm16), (10, .afc4), (11, .afc2), (12, .raw16Main)] →
      loadVoiceSamples f = resample f k) ∧
  (∀ (k : StreamKind) (n : Nat) (f : Vpb) (s : State),
    nextSamples k 0 f s = .ok ([], f) s ∧
    ∀ (xs : List Sample) (h : Vpb) (t : State),
      nextSamples k (n + 1) f s = .ok (xs, h) t ↔
        ∃ x ys g u, xs = x :: ys ∧ nextSample f k s = .ok (x, g) u ∧ nextSamples k n g u = .ok (ys, h) t) ∧
  (∀ (f : Vpb) (k : StreamKind) (s : State), f.length = 0xC0 →
    let ratio := f.ratio.toNat
    let frac := f.frac.toNat
    let n := (frac + 80 * ratio) / 4096
    (∀ (new : List Sample) (g : Vpb) (t : State), nextSamples k n f s = .ok (new, g) t →
      t = s ∧ new.length = n ∧
      ∃ (out : List Sample) (f' : Vpb), resample f k s = .ok (out, f') s ∧
        out.length = 80 ∧ f'.length = 0xC0 ∧
        (∀ i < 80,
          out.getD i 0 =
            tap s.tables.resampleCoef (f.hist ++ new) ((frac + i * ratio) / 4096) ((frac + i * ratio) % 4096)
              ratio) ∧
        (∀ j < 4, f'.word (0x28 + j) = (f.hist ++ new).getD (n + j) 0) ∧
        f'.index = g.index ∧ f'.frac.toNat = (frac + 80 * ratio) % 4096 ∧
        f'.word 0x07 = out.getD 79 0 ∧
        ∀ w, w ∉ [0x07, 0x08, 0x09, 0x28, 0x29, 0x2A, 0x2B] → f'.word w = g.word w) ∧
    ∀ (c : HaltCause) (t : State), nextSamples k n f s = .error c t → resample f k s = .error c t) ∧
  (∀ (f : Vpb) (k : StreamKind) (s : State), f.length = 0xC0 → f.ratio = 0 →
    resample f k s =
      .ok (List.replicate 80 (tap s.tables.resampleCoef f.hist 0 f.frac.toNat 0),
        f.put 0x07 (tap s.tables.resampleCoef f.hist 0 f.frac.toNat 0)) s)

/-- The sources that read no stream: in constant-sample mode the held sample 80 times, the image unchanged;
a synthetic or pattern source gives 80 samples and changes `synth_phase` alone, and reads no memory. What they
give depends on `source_type`, `synth_phase` and `ratio` and on no other word of the image: two images that agree
there, in two machines, give the same samples and the same new phase, for a wave whatever else differs, for a
pattern where the machines agree on the 64 words of that pattern and, if it is the one pattern that sees the
buses, on the buses (43_sources_resample.md R242, R244). -/
def Obligations.SourcesWithoutStream : Prop :=
  (∀ (f : Vpb) (s : State), f.useConstantSample ≠ 0 →
    loadVoiceSamples f s = .ok (List.replicate 80 f.constantSample, f) s) ∧
  (∀ (f : Vpb) (s : State), f.useConstantSample = 0 → f.sourceType.toNat ≤ 5 →
    ∃ (voice : List Sample) (phase : Half), voice.length = 80 ∧
      loadVoiceSamples f s = .ok (voice, f.put 0x2E phase) s) ∧
  (∀ (f g : Vpb) (s t : State), f.useConstantSample = 0 → g.useConstantSample = 0 →
    f.sourceType.toNat ≤ 1 → g.sourceType = f.sourceType → g.synthPhase = f.synthPhase → g.ratio = f.ratio →
      ∃ (voice : List Sample) (phase : Half),
        loadVoiceSamples f s = .ok (voice, f.put 0x2E phase) s ∧
        loadVoiceSamples g t = .ok (voice, g.put 0x2E phase) t) ∧
  ∃ chosen : Fin 4, ∀ (f g : Vpb) (s t : State) (p : Fin 4),
    f.useConstantSample = 0 → g.useConstantSample = 0 →
    f.sourceType.toNat = p.val + 2 → g.sourceType = f.sourceType → g.synthPhase = f.synthPhase →
    g.ratio = f.ratio →
    (∀ i < 64, t.tables.pattern.getD (64 * p.val + i) 0 = s.tables.pattern.getD (64 * p.val + i) 0) →
    s.tables.full = true → t.tables.full = true → p ≠ chosen ∨ t.buses = s.buses →
      ∃ (voice : List Sample) (phase : Half),
        loadVoiceSamples f s = .ok (voice, f.put 0x2E phase) s ∧
        loadVoiceSamples g t = .ok (voice, g.put 0x2E phase) t

/-! ### Reverb -/

/-- The eight-tap filter: output `k` is the sum of the coefficients over window samples `k` to `k + 7`,
floored at 1.15 and clamped; the last window sample is not used (44_reverb.md R293). -/
def Obligations.FirFilter : Prop :=
  ∀ coef window : List Sample, coef.length = 8 → window.length = 88 →
    (fir8 coef window).length = 80 ∧
    (∀ k < 80,
      (fir8 coef window).getD k 0 =
        clamp16 (((List.range 8).map fun j =>
          (coef.getD j 0).toInt * (window.getD (k + j) 0).toInt).sum / 32768)) ∧
    ∀ v : Sample, fir8 coef (window.set 87 v) = fir8 coef window

/-- The pre-render phase of an enabled, valid unit: the block at the cursor, filtered where the bits say,
goes to both destinations and then overwrites the unit's bus; the carry is the block's last eight raw samples,
the cursor and memory stay. A block that does not answer halts with nothing changed. The units 0 to 3 own the
buses 5, 6, 9 and 10 (10_state.md R22; 44_reverb.md R291). -/
def Obligations.ReverbPre : Prop :=
  (List.range 4).map unitBus = [.flRv, .frRv, .auxaRv, .auxbRv] ∧
  (∀ (r : Nat) (s : State), r < 4 → s.reverb.length = 4 → s.reverb[r]? = some (s.reverbUnit r)) ∧
  (∀ (r : Nat) (s : State) (p : List Half),
    s.words? .main 16 (s.rpbBase + BitVec.ofNat 32 (0x20 * r)) = some p →
    Rpb.enabled p = true → Rpb.cbSize p ≠ 0 → (Rpb.destId p 0).toNat ≤ 10 → (Rpb.destId p 1).toNat ≤ 10 →
    s.words? .main 80
      (Rpb.cbBase p + BitVec.ofNat 32 (160 * ((s.reverbUnit r).cursor % Rpb.cbSize p).toNat)) = none →
      preUnit r s = .error .busError { s with mode := .halted, haltCause := .busError }) ∧
  ∀ (r : Nat) (s : State) (p raw : List Half), r < 4 → s.reverb.length = 4 →
    s.words? .main 16 (s.rpbBase + BitVec.ofNat 32 (0x20 * r)) = some p →
    Rpb.enabled p = true → Rpb.cbSize p ≠ 0 → (Rpb.destId p 0).toNat ≤ 10 → (Rpb.destId p 1).toNat ≤ 10 →
    s.words? .main 80
      (Rpb.cbBase p + BitVec.ofNat 32 (160 * ((s.reverbUnit r).cursor % Rpb.cbSize p).toNat)) = some raw →
      let carry := (s.reverbUnit r).carry
      let x := if Rpb.preFilter p then fir8 (Rpb.coef p) (carry ++ raw) else raw
      let y := if Rpb.postFilter p then fir8 (Rpb.coef p) (carry ++ x) else x
      let add (b : Buses) (d : Nat) : Buses :=
        match BusId.ofDest (Rpb.destId p d) with
        | none => b
        | some id =>
          b.set id (List.zipWith
            (fun o v => wrap16 (o.toInt + (clamp16 (asr ((Rpb.destGain p d).toNat * v.toInt) 15)).toInt))
            (b.get id) x)
      preUnit r s = .ok ()
        { s with
          buses := (add (add s.buses 0) 1).set (unitBus r) y
          reverb := s.reverb.set r ⟨(s.reverbUnit r).cursor, raw.drop 72⟩ }

/-- The post-render phase of an enabled unit: its bus is stored big-endian at the block of the cursor, the
cursor moves to the next block modulo the buffer's length, and after as many frames as the buffer has blocks
it is back where it was. A byte of the block that does not answer halts: the bytes before it are stored, the
cursor has not moved (44_reverb.md R297; 60_exceptions.md R312). -/
def Obligations.ReverbPost : Prop :=
  (∀ (r : Nat) (s : State) (p : List Half), s.buses.full = true →
    s.words? .main 16 (s.rpbBase + BitVec.ofNat 32 (0x20 * r)) = some p →
    Rpb.enabled p = true → Rpb.cbSize p ≠ 0 →
    let c := (s.reverbUnit r).cursor % Rpb.cbSize p
    s.answers (Rpb.cbBase p + BitVec.ofNat 32 (160 * c.toNat)) 160 = true →
      postUnit r s = .ok ()
        { s with
          main :=
            (storeBytes (fun _ => true) s.main (Rpb.cbBase p + BitVec.ofNat 32 (160 * c.toNat))
              ((s.buses.get (unitBus r)).flatMap halfBytes)).1
          reverb :=
            s.reverb.set r ⟨nextBlock (Rpb.cbSize p) c, (s.reverbUnit r).carry⟩ }) ∧
  (∀ (r : Nat) (s : State) (p : List Half), s.buses.full = true →
    s.words? .main 16 (s.rpbBase + BitVec.ofNat 32 (0x20 * r)) = some p →
    Rpb.enabled p = true → Rpb.cbSize p ≠ 0 →
    let block := Rpb.cbBase p + BitVec.ofNat 32 (160 * ((s.reverbUnit r).cursor % Rpb.cbSize p).toNat)
    ∀ j < 160, s.breaksAt block j = true →
      postUnit r s = .error .busError
        { s with
          main :=
            (storeBytes (fun _ => true) s.main block
              (((s.buses.get (unitBus r)).flatMap halfBytes).take j)).1
          mode := .halted
          haltCause := .busError }) ∧
  (∀ size c : Half, c.toNat < size.toNat →
    (nextBlock size c).toNat = (c.toNat + 1) % size.toNat ∧ (nextBlock size)^[size.toNat] c = c)

/-- A unit that is disabled is passed over in both phases; an enabled one with an empty buffer, or before the
voices with a destination above 10, halts with nothing of it changed; so does a record that does not answer. The
fields of a record by word number (20_memory.md R76; 44_reverb.md R290, R292). -/
def Obligations.ReverbChecks : Prop :=
  (∀ p : List Half, p.length = 16 →
    let w (i : Nat) : Half := p.getD i 0
    Rpb.enabled p = (w 0).getLsbD 0 ∧ Rpb.preFilter p = (w 0).getLsbD 1 ∧
    Rpb.postFilter p = (w 0).getLsbD 2 ∧ Rpb.cbSize p = w 1 ∧ Rpb.cbBase p = w 2 ++ w 3 ∧
    Rpb.destId p 0 = w 4 ∧ Rpb.destGain p 0 = w 5 ∧ Rpb.destId p 1 = w 6 ∧ Rpb.destGain p 1 = w 7 ∧
    Rpb.coef p = (List.range 8).map fun j => w (8 + j)) ∧
  (∀ (r : Nat) (s : State),
    s.words? .main 16 (s.rpbBase + BitVec.ofNat 32 (0x20 * r)) = none →
      preUnit r s = .error .busError { s with mode := .halted, haltCause := .busError } ∧
      postUnit r s = .error .busError { s with mode := .halted, haltCause := .busError }) ∧
  ∀ (r : Nat) (s : State) (p : List Half),
    s.words? .main 16 (s.rpbBase + BitVec.ofNat 32 (0x20 * r)) = some p →
      (Rpb.enabled p = false → preUnit r s = .ok () s ∧ postUnit r s = .ok () s) ∧
      (Rpb.enabled p = true → Rpb.cbSize p = 0 →
        preUnit r s = .error .badRpbGeometry { s with mode := .halted, haltCause := .badRpbGeometry } ∧
        postUnit r s = .error .badRpbGeometry { s with mode := .halted, haltCause := .badRpbGeometry }) ∧
      (Rpb.enabled p = true → Rpb.cbSize p ≠ 0 →
        10 < (Rpb.destId p 0).toNat ∨ 10 < (Rpb.destId p 1).toNat →
        preUnit r s = .error .badDestId { s with mode := .halted, haltCause := .badDestId })

/-! ### The whole machine -/

/-- The configuration is set once and never changed, and only the host writes `SAMPLE`
(00_scope.md R16; 10_state.md R20; 20_memory.md R60). -/
def Obligations.ConfigurationFixed : Prop :=
  ∀ s t : State, step s = .next t →
    t.cfg = s.cfg ∧ (t.sample = s.sample ∨ ∃ a b rest, s.host = .memWrite .sample a b :: rest)

/-- Events and pulses, over any step: pulses are only added; each event word is appended with its own pulse
and in that order; words leave the FIFO only by an `EVT` read, which takes the head, or by a reset, and
neither pulses (60_exceptions.md R320, R321, R322). -/
def Obligations.EventsAndPulses : Prop :=
  ∀ s t : State, step s = .next t →
    ∃ pulses : List Pulse, t.irq = s.irq ++ pulses ∧
      (t.evt = s.evt ++ pulses.filterMap Pulse.word? ∨
        (pulses = [] ∧ ∃ rest, s.host = .regRead .word 0x0C :: rest ∧ t.evt = s.evt.tail) ∨
        (pulses = [] ∧ ∃ a rest, s.host = a :: rest ∧ a.resets = true ∧ t.evt = []))

/-- Every step keeps the event FIFO's words event words: kind 1, 2 or 3 and bits [27:16] zero, so that no
event word is 0 (30_encoding.md R118; 60_exceptions.md R321). -/
def Obligations.EventWordsKept : Prop :=
  ∀ s t : State, s.eventInv = true → step s = .next t → t.eventInv = true

/-- Every step keeps both memories in canonical form, so that equal memories are equal data. The form, and what
an unlisted byte reads as, are the model's choice, log 6. -/
def Obligations.MemoryKept : Prop :=
  ∀ s t : State, s.memoryInv = true → step s = .next t → t.memoryInv = true

/-- Every step keeps every array of the machine as long as the spec makes it: 80 samples a bus, 256, 256, 128
and 32 words a table, four reverb units of eight carried samples, 16 masks, 64 buffered words
(10_state.md R22, R25, R28, R30, R33). -/
def Obligations.ShapeKept : Prop :=
  ∀ s t : State, s.shapeInv = true → step s = .next t → t.shapeInv = true

/-- Every step keeps the state machine's invariant: `RENDERING` only with a frame left, an open frame and its
next voice locked; in `WAITING` and `WRITING_CMD` no frame left; a cause recorded exactly in `HALTED`
(40_commands.md R153; 10_state.md R33, R35). -/
def Obligations.ProtocolKept : Prop :=
  ∀ s t : State, s.protocolInv = true → step s = .next t → t.protocolInv = true

/-- Every step keeps the invariant of the command buffer: the counters agree, and its words are the complete
commands in order and then the command being written (10_state.md R31). -/
def Obligations.BufferKept : Prop :=
  ∀ s t : State, s.bufferInv = true → step s = .next t → t.bufferInv = true

/-- The five invariants hold right after reset. The values of tables, buffer and memory that they look at are the
model's choice where the spec leaves them unset, log 4, 5 and 6. -/
def Obligations.ResetInvariants : Prop :=
  State.reset.eventInv = true ∧ State.reset.memoryInv = true ∧ State.reset.shapeInv = true ∧
    State.reset.protocolInv = true ∧ State.reset.bufferInv = true
end

