-- ==== Sys2Proof/Laws/State.lean ====
section
/-! SUPPORT. One lemma per field per named update of `State`: what the field is after it. -/

namespace Sys2Proof.Machine.State

variable (s : State)

/-! ### `s.haltWith c` -/

@[simp] theorem haltWith_cfg (c : HaltCause) : (s.haltWith c).cfg = s.cfg := rfl
@[simp] theorem haltWith_main (c : HaltCause) : (s.haltWith c).main = s.main := rfl
@[simp] theorem haltWith_sample (c : HaltCause) : (s.haltWith c).sample = s.sample := rfl
@[simp] theorem haltWith_buses (c : HaltCause) : (s.haltWith c).buses = s.buses := rfl
@[simp] theorem haltWith_tables (c : HaltCause) : (s.haltWith c).tables = s.tables := rfl
@[simp] theorem haltWith_vpbBase (c : HaltCause) : (s.haltWith c).vpbBase = s.vpbBase := rfl
@[simp] theorem haltWith_rpbBase (c : HaltCause) : (s.haltWith c).rpbBase = s.rpbBase := rfl
@[simp] theorem haltWith_sampleBase (c : HaltCause) :
    (s.haltWith c).sampleBase = s.sampleBase := rfl
@[simp] theorem haltWith_outL (c : HaltCause) : (s.haltWith c).outL = s.outL := rfl
@[simp] theorem haltWith_outR (c : HaltCause) : (s.haltWith c).outR = s.outR := rfl
@[simp] theorem haltWith_outVol (c : HaltCause) : (s.haltWith c).outVol = s.outVol := rfl
@[simp] theorem haltWith_reverb (c : HaltCause) : (s.haltWith c).reverb = s.reverb := rfl
@[simp] theorem haltWith_mode (c : HaltCause) : (s.haltWith c).mode = Mode.halted := rfl
@[simp] theorem haltWith_cmd (c : HaltCause) : (s.haltWith c).cmd = s.cmd := rfl
@[simp] theorem haltWith_canExecute (c : HaltCause) :
    (s.haltWith c).canExecute = s.canExecute := rfl
@[simp] theorem haltWith_cur (c : HaltCause) : (s.haltWith c).cur = s.cur := rfl
@[simp] theorem haltWith_prepared (c : HaltCause) : (s.haltWith c).prepared = s.prepared := rfl
@[simp] theorem haltWith_setupDone (c : HaltCause) : (s.haltWith c).setupDone = s.setupDone := rfl
@[simp] theorem haltWith_outValid (c : HaltCause) : (s.haltWith c).outValid = s.outValid := rfl
@[simp] theorem haltWith_haltCause (c : HaltCause) : (s.haltWith c).haltCause = c := rfl
@[simp] theorem haltWith_evt (c : HaltCause) : (s.haltWith c).evt = s.evt := rfl
@[simp] theorem haltWith_irq (c : HaltCause) : (s.haltWith c).irq = s.irq := rfl
@[simp] theorem haltWith_host (c : HaltCause) : (s.haltWith c).host = s.host := rfl
@[simp] theorem haltWith_replies (c : HaltCause) : (s.haltWith c).replies = s.replies := rfl

/-! ### `s.setMem .main m` -/

@[simp] theorem setMem_main_cfg (m : Memory) : (s.setMem .main m).cfg = s.cfg := rfl
@[simp] theorem setMem_main_main (m : Memory) : (s.setMem .main m).main = m := rfl
@[simp] theorem setMem_main_sample (m : Memory) : (s.setMem .main m).sample = s.sample := rfl
@[simp] theorem setMem_main_buses (m : Memory) : (s.setMem .main m).buses = s.buses := rfl
@[simp] theorem setMem_main_tables (m : Memory) : (s.setMem .main m).tables = s.tables := rfl
@[simp] theorem setMem_main_vpbBase (m : Memory) : (s.setMem .main m).vpbBase = s.vpbBase := rfl
@[simp] theorem setMem_main_rpbBase (m : Memory) : (s.setMem .main m).rpbBase = s.rpbBase := rfl
@[simp] theorem setMem_main_sampleBase (m : Memory) :
    (s.setMem .main m).sampleBase = s.sampleBase := rfl
@[simp] theorem setMem_main_outL (m : Memory) : (s.setMem .main m).outL = s.outL := rfl
@[simp] theorem setMem_main_outR (m : Memory) : (s.setMem .main m).outR = s.outR := rfl
@[simp] theorem setMem_main_outVol (m : Memory) : (s.setMem .main m).outVol = s.outVol := rfl
@[simp] theorem setMem_main_reverb (m : Memory) : (s.setMem .main m).reverb = s.reverb := rfl
@[simp] theorem setMem_main_mode (m : Memory) : (s.setMem .main m).mode = s.mode := rfl
@[simp] theorem setMem_main_cmd (m : Memory) : (s.setMem .main m).cmd = s.cmd := rfl
@[simp] theorem setMem_main_canExecute (m : Memory) :
    (s.setMem .main m).canExecute = s.canExecute := rfl
@[simp] theorem setMem_main_cur (m : Memory) : (s.setMem .main m).cur = s.cur := rfl
@[simp] theorem setMem_main_prepared (m : Memory) : (s.setMem .main m).prepared = s.prepared := rfl
@[simp] theorem setMem_main_setupDone (m : Memory) :
    (s.setMem .main m).setupDone = s.setupDone := rfl
@[simp] theorem setMem_main_outValid (m : Memory) : (s.setMem .main m).outValid = s.outValid := rfl
@[simp] theorem setMem_main_haltCause (m : Memory) :
    (s.setMem .main m).haltCause = s.haltCause := rfl
@[simp] theorem setMem_main_evt (m : Memory) : (s.setMem .main m).evt = s.evt := rfl
@[simp] theorem setMem_main_irq (m : Memory) : (s.setMem .main m).irq = s.irq := rfl
@[simp] theorem setMem_main_host (m : Memory) : (s.setMem .main m).host = s.host := rfl
@[simp] theorem setMem_main_replies (m : Memory) : (s.setMem .main m).replies = s.replies := rfl

/-! ### `s.setMem .sample m` -/

@[simp] theorem setMem_sample_cfg (m : Memory) : (s.setMem .sample m).cfg = s.cfg := rfl
@[simp] theorem setMem_sample_main (m : Memory) : (s.setMem .sample m).main = s.main := rfl
@[simp] theorem setMem_sample_sample (m : Memory) : (s.setMem .sample m).sample = m := rfl
@[simp] theorem setMem_sample_buses (m : Memory) : (s.setMem .sample m).buses = s.buses := rfl
@[simp] theorem setMem_sample_tables (m : Memory) : (s.setMem .sample m).tables = s.tables := rfl
@[simp] theorem setMem_sample_vpbBase (m : Memory) : (s.setMem .sample m).vpbBase = s.vpbBase := rfl
@[simp] theorem setMem_sample_rpbBase (m : Memory) : (s.setMem .sample m).rpbBase = s.rpbBase := rfl
@[simp] theorem setMem_sample_sampleBase (m : Memory) :
    (s.setMem .sample m).sampleBase = s.sampleBase := rfl
@[simp] theorem setMem_sample_outL (m : Memory) : (s.setMem .sample m).outL = s.outL := rfl
@[simp] theorem setMem_sample_outR (m : Memory) : (s.setMem .sample m).outR = s.outR := rfl
@[simp] theorem setMem_sample_outVol (m : Memory) : (s.setMem .sample m).outVol = s.outVol := rfl
@[simp] theorem setMem_sample_reverb (m : Memory) : (s.setMem .sample m).reverb = s.reverb := rfl
@[simp] theorem setMem_sample_mode (m : Memory) : (s.setMem .sample m).mode = s.mode := rfl
@[simp] theorem setMem_sample_cmd (m : Memory) : (s.setMem .sample m).cmd = s.cmd := rfl
@[simp] theorem setMem_sample_canExecute (m : Memory) :
    (s.setMem .sample m).canExecute = s.canExecute := rfl
@[simp] theorem setMem_sample_cur (m : Memory) : (s.setMem .sample m).cur = s.cur := rfl
@[simp] theorem setMem_sample_prepared (m : Memory) :
    (s.setMem .sample m).prepared = s.prepared := rfl
@[simp] theorem setMem_sample_setupDone (m : Memory) :
    (s.setMem .sample m).setupDone = s.setupDone := rfl
@[simp] theorem setMem_sample_outValid (m : Memory) :
    (s.setMem .sample m).outValid = s.outValid := rfl
@[simp] theorem setMem_sample_haltCause (m : Memory) :
    (s.setMem .sample m).haltCause = s.haltCause := rfl
@[simp] theorem setMem_sample_evt (m : Memory) : (s.setMem .sample m).evt = s.evt := rfl
@[simp] theorem setMem_sample_irq (m : Memory) : (s.setMem .sample m).irq = s.irq := rfl
@[simp] theorem setMem_sample_host (m : Memory) : (s.setMem .sample m).host = s.host := rfl
@[simp] theorem setMem_sample_replies (m : Memory) : (s.setMem .sample m).replies = s.replies := rfl

/-! ### `s.pushEvent w` -/

@[simp] theorem pushEvent_cfg (w : Word) : (s.pushEvent w).cfg = s.cfg := rfl
@[simp] theorem pushEvent_main (w : Word) : (s.pushEvent w).main = s.main := rfl
@[simp] theorem pushEvent_sample (w : Word) : (s.pushEvent w).sample = s.sample := rfl
@[simp] theorem pushEvent_buses (w : Word) : (s.pushEvent w).buses = s.buses := rfl
@[simp] theorem pushEvent_tables (w : Word) : (s.pushEvent w).tables = s.tables := rfl
@[simp] theorem pushEvent_vpbBase (w : Word) : (s.pushEvent w).vpbBase = s.vpbBase := rfl
@[simp] theorem pushEvent_rpbBase (w : Word) : (s.pushEvent w).rpbBase = s.rpbBase := rfl
@[simp] theorem pushEvent_sampleBase (w : Word) : (s.pushEvent w).sampleBase = s.sampleBase := rfl
@[simp] theorem pushEvent_outL (w : Word) : (s.pushEvent w).outL = s.outL := rfl
@[simp] theorem pushEvent_outR (w : Word) : (s.pushEvent w).outR = s.outR := rfl
@[simp] theorem pushEvent_outVol (w : Word) : (s.pushEvent w).outVol = s.outVol := rfl
@[simp] theorem pushEvent_reverb (w : Word) : (s.pushEvent w).reverb = s.reverb := rfl
@[simp] theorem pushEvent_mode (w : Word) : (s.pushEvent w).mode = s.mode := rfl
@[simp] theorem pushEvent_cmd (w : Word) : (s.pushEvent w).cmd = s.cmd := rfl
@[simp] theorem pushEvent_canExecute (w : Word) : (s.pushEvent w).canExecute = s.canExecute := rfl
@[simp] theorem pushEvent_cur (w : Word) : (s.pushEvent w).cur = s.cur := rfl
@[simp] theorem pushEvent_prepared (w : Word) : (s.pushEvent w).prepared = s.prepared := rfl
@[simp] theorem pushEvent_setupDone (w : Word) : (s.pushEvent w).setupDone = s.setupDone := rfl
@[simp] theorem pushEvent_outValid (w : Word) : (s.pushEvent w).outValid = s.outValid := rfl
@[simp] theorem pushEvent_haltCause (w : Word) : (s.pushEvent w).haltCause = s.haltCause := rfl
@[simp] theorem pushEvent_evt (w : Word) : (s.pushEvent w).evt = s.evt ++ [w] := rfl
@[simp] theorem pushEvent_irq (w : Word) : (s.pushEvent w).irq = s.irq ++ [Pulse.event w] := rfl
@[simp] theorem pushEvent_host (w : Word) : (s.pushEvent w).host = s.host := rfl
@[simp] theorem pushEvent_replies (w : Word) : (s.pushEvent w).replies = s.replies := rfl

/-! ### `s.pulseLightSync` -/

@[simp] theorem pulseLightSync_cfg : (s.pulseLightSync).cfg = s.cfg := rfl
@[simp] theorem pulseLightSync_main : (s.pulseLightSync).main = s.main := rfl
@[simp] theorem pulseLightSync_sample : (s.pulseLightSync).sample = s.sample := rfl
@[simp] theorem pulseLightSync_buses : (s.pulseLightSync).buses = s.buses := rfl
@[simp] theorem pulseLightSync_tables : (s.pulseLightSync).tables = s.tables := rfl
@[simp] theorem pulseLightSync_vpbBase : (s.pulseLightSync).vpbBase = s.vpbBase := rfl
@[simp] theorem pulseLightSync_rpbBase : (s.pulseLightSync).rpbBase = s.rpbBase := rfl
@[simp] theorem pulseLightSync_sampleBase : (s.pulseLightSync).sampleBase = s.sampleBase := rfl
@[simp] theorem pulseLightSync_outL : (s.pulseLightSync).outL = s.outL := rfl
@[simp] theorem pulseLightSync_outR : (s.pulseLightSync).outR = s.outR := rfl
@[simp] theorem pulseLightSync_outVol : (s.pulseLightSync).outVol = s.outVol := rfl
@[simp] theorem pulseLightSync_reverb : (s.pulseLightSync).reverb = s.reverb := rfl
@[simp] theorem pulseLightSync_mode : (s.pulseLightSync).mode = s.mode := rfl
@[simp] theorem pulseLightSync_cmd : (s.pulseLightSync).cmd = s.cmd := rfl
@[simp] theorem pulseLightSync_canExecute : (s.pulseLightSync).canExecute = s.canExecute := rfl
@[simp] theorem pulseLightSync_cur : (s.pulseLightSync).cur = s.cur := rfl
@[simp] theorem pulseLightSync_prepared : (s.pulseLightSync).prepared = s.prepared := rfl
@[simp] theorem pulseLightSync_setupDone : (s.pulseLightSync).setupDone = s.setupDone := rfl
@[simp] theorem pulseLightSync_outValid : (s.pulseLightSync).outValid = s.outValid := rfl
@[simp] theorem pulseLightSync_haltCause : (s.pulseLightSync).haltCause = s.haltCause := rfl
@[simp] theorem pulseLightSync_evt : (s.pulseLightSync).evt = s.evt := rfl
@[simp] theorem pulseLightSync_irq : (s.pulseLightSync).irq = s.irq ++ [Pulse.lightSync] := rfl
@[simp] theorem pulseLightSync_host : (s.pulseLightSync).host = s.host := rfl
@[simp] theorem pulseLightSync_replies : (s.pulseLightSync).replies = s.replies := rfl

/-! ### `s.setReverb r u` -/

@[simp] theorem setReverb_cfg (r : Nat) (u : ReverbUnit) : (s.setReverb r u).cfg = s.cfg := rfl
@[simp] theorem setReverb_main (r : Nat) (u : ReverbUnit) : (s.setReverb r u).main = s.main := rfl
@[simp] theorem setReverb_sample (r : Nat) (u : ReverbUnit) :
    (s.setReverb r u).sample = s.sample := rfl
@[simp] theorem setReverb_buses (r : Nat) (u : ReverbUnit) :
    (s.setReverb r u).buses = s.buses := rfl
@[simp] theorem setReverb_tables (r : Nat) (u : ReverbUnit) :
    (s.setReverb r u).tables = s.tables := rfl
@[simp] theorem setReverb_vpbBase (r : Nat) (u : ReverbUnit) :
    (s.setReverb r u).vpbBase = s.vpbBase := rfl
@[simp] theorem setReverb_rpbBase (r : Nat) (u : ReverbUnit) :
    (s.setReverb r u).rpbBase = s.rpbBase := rfl
@[simp] theorem setReverb_sampleBase (r : Nat) (u : ReverbUnit) :
    (s.setReverb r u).sampleBase = s.sampleBase := rfl
@[simp] theorem setReverb_outL (r : Nat) (u : ReverbUnit) : (s.setReverb r u).outL = s.outL := rfl
@[simp] theorem setReverb_outR (r : Nat) (u : ReverbUnit) : (s.setReverb r u).outR = s.outR := rfl
@[simp] theorem setReverb_outVol (r : Nat) (u : ReverbUnit) :
    (s.setReverb r u).outVol = s.outVol := rfl
@[simp] theorem setReverb_reverb (r : Nat) (u : ReverbUnit) :
    (s.setReverb r u).reverb = s.reverb.set r u := rfl
@[simp] theorem setReverb_mode (r : Nat) (u : ReverbUnit) : (s.setReverb r u).mode = s.mode := rfl
@[simp] theorem setReverb_cmd (r : Nat) (u : ReverbUnit) : (s.setReverb r u).cmd = s.cmd := rfl
@[simp] theorem setReverb_canExecute (r : Nat) (u : ReverbUnit) :
    (s.setReverb r u).canExecute = s.canExecute := rfl
@[simp] theorem setReverb_cur (r : Nat) (u : ReverbUnit) : (s.setReverb r u).cur = s.cur := rfl
@[simp] theorem setReverb_prepared (r : Nat) (u : ReverbUnit) :
    (s.setReverb r u).prepared = s.prepared := rfl
@[simp] theorem setReverb_setupDone (r : Nat) (u : ReverbUnit) :
    (s.setReverb r u).setupDone = s.setupDone := rfl
@[simp] theorem setReverb_outValid (r : Nat) (u : ReverbUnit) :
    (s.setReverb r u).outValid = s.outValid := rfl
@[simp] theorem setReverb_haltCause (r : Nat) (u : ReverbUnit) :
    (s.setReverb r u).haltCause = s.haltCause := rfl
@[simp] theorem setReverb_evt (r : Nat) (u : ReverbUnit) : (s.setReverb r u).evt = s.evt := rfl
@[simp] theorem setReverb_irq (r : Nat) (u : ReverbUnit) : (s.setReverb r u).irq = s.irq := rfl
@[simp] theorem setReverb_host (r : Nat) (u : ReverbUnit) : (s.setReverb r u).host = s.host := rfl
@[simp] theorem setReverb_replies (r : Nat) (u : ReverbUnit) :
    (s.setReverb r u).replies = s.replies := rfl

/-! ### `s.startRender v f g l r` -/

@[simp] theorem startRender_cfg (v f g : Half) (l r : Addr) :
    (s.startRender v f g l r).cfg = s.cfg := rfl
@[simp] theorem startRender_main (v f g : Half) (l r : Addr) :
    (s.startRender v f g l r).main = s.main := rfl
@[simp] theorem startRender_sample (v f g : Half) (l r : Addr) :
    (s.startRender v f g l r).sample = s.sample := rfl
@[simp] theorem startRender_buses (v f g : Half) (l r : Addr) :
    (s.startRender v f g l r).buses = s.buses := rfl
@[simp] theorem startRender_tables (v f g : Half) (l r : Addr) :
    (s.startRender v f g l r).tables = s.tables := rfl
@[simp] theorem startRender_vpbBase (v f g : Half) (l r : Addr) :
    (s.startRender v f g l r).vpbBase = s.vpbBase := rfl
@[simp] theorem startRender_rpbBase (v f g : Half) (l r : Addr) :
    (s.startRender v f g l r).rpbBase = s.rpbBase := rfl
@[simp] theorem startRender_sampleBase (v f g : Half) (l r : Addr) :
    (s.startRender v f g l r).sampleBase = s.sampleBase := rfl
@[simp] theorem startRender_outL (v f g : Half) (l r : Addr) :
    (s.startRender v f g l r).outL = l := rfl
@[simp] theorem startRender_outR (v f g : Half) (l r : Addr) :
    (s.startRender v f g l r).outR = r := rfl
@[simp] theorem startRender_outVol (v f g : Half) (l r : Addr) :
    (s.startRender v f g l r).outVol = g := rfl
@[simp] theorem startRender_reverb (v f g : Half) (l r : Addr) :
    (s.startRender v f g l r).reverb = s.reverb := rfl
@[simp] theorem startRender_mode (v f g : Half) (l r : Addr) :
    (s.startRender v f g l r).mode = Mode.rendering := rfl
@[simp] theorem startRender_cmd (v f g : Half) (l r : Addr) :
    (s.startRender v f g l r).cmd = s.cmd := rfl
@[simp] theorem startRender_canExecute (v f g : Half) (l r : Addr) :
    (s.startRender v f g l r).canExecute = s.canExecute := rfl
@[simp] theorem startRender_cur (v f g : Half) (l r : Addr) :
    (s.startRender v f g l r).cur = ⟨f, v, 0, 0, List.replicate 16 0, 0, false⟩ := rfl
@[simp] theorem startRender_prepared (v f g : Half) (l r : Addr) :
    (s.startRender v f g l r).prepared = s.prepared := rfl
@[simp] theorem startRender_setupDone (v f g : Half) (l r : Addr) :
    (s.startRender v f g l r).setupDone = s.setupDone := rfl
@[simp] theorem startRender_outValid (v f g : Half) (l r : Addr) :
    (s.startRender v f g l r).outValid = true := rfl
@[simp] theorem startRender_haltCause (v f g : Half) (l r : Addr) :
    (s.startRender v f g l r).haltCause = s.haltCause := rfl
@[simp] theorem startRender_evt (v f g : Half) (l r : Addr) :
    (s.startRender v f g l r).evt = s.evt := rfl
@[simp] theorem startRender_irq (v f g : Half) (l r : Addr) :
    (s.startRender v f g l r).irq = s.irq := rfl
@[simp] theorem startRender_host (v f g : Half) (l r : Addr) :
    (s.startRender v f g l r).host = s.host := rfl
@[simp] theorem startRender_replies (v f g : Half) (l r : Addr) :
    (s.startRender v f g l r).replies = s.replies := rfl

/-! ### `s.closePrepare` -/

@[simp] theorem closePrepare_cfg : (s.closePrepare).cfg = s.cfg := rfl
@[simp] theorem closePrepare_main : (s.closePrepare).main = s.main := rfl
@[simp] theorem closePrepare_sample : (s.closePrepare).sample = s.sample := rfl
@[simp] theorem closePrepare_buses : (s.closePrepare).buses = foldBackReverb s.cfg s.buses := rfl
@[simp] theorem closePrepare_tables :
    (s.closePrepare).tables = { s.tables with pattern := regenPattern s.tables.pattern } := rfl
@[simp] theorem closePrepare_vpbBase : (s.closePrepare).vpbBase = s.vpbBase := rfl
@[simp] theorem closePrepare_rpbBase : (s.closePrepare).rpbBase = s.rpbBase := rfl
@[simp] theorem closePrepare_sampleBase : (s.closePrepare).sampleBase = s.sampleBase := rfl
@[simp] theorem closePrepare_outL : (s.closePrepare).outL = s.outL := rfl
@[simp] theorem closePrepare_outR : (s.closePrepare).outR = s.outR := rfl
@[simp] theorem closePrepare_outVol : (s.closePrepare).outVol = s.outVol := rfl
@[simp] theorem closePrepare_reverb : (s.closePrepare).reverb = s.reverb := rfl
@[simp] theorem closePrepare_mode : (s.closePrepare).mode = s.mode := rfl
@[simp] theorem closePrepare_cmd : (s.closePrepare).cmd = s.cmd := rfl
@[simp] theorem closePrepare_canExecute : (s.closePrepare).canExecute = s.canExecute := rfl
@[simp] theorem closePrepare_cur : (s.closePrepare).cur = s.cur := rfl
@[simp] theorem closePrepare_prepared : (s.closePrepare).prepared = true := rfl
@[simp] theorem closePrepare_setupDone : (s.closePrepare).setupDone = s.setupDone := rfl
@[simp] theorem closePrepare_outValid : (s.closePrepare).outValid = s.outValid := rfl
@[simp] theorem closePrepare_haltCause : (s.closePrepare).haltCause = s.haltCause := rfl
@[simp] theorem closePrepare_evt : (s.closePrepare).evt = s.evt := rfl
@[simp] theorem closePrepare_irq : (s.closePrepare).irq = s.irq := rfl
@[simp] theorem closePrepare_host : (s.closePrepare).host = s.host := rfl
@[simp] theorem closePrepare_replies : (s.closePrepare).replies = s.replies := rfl

/-! ### `s.scaleFront` -/

@[simp] theorem scaleFront_cfg : (s.scaleFront).cfg = s.cfg := rfl
@[simp] theorem scaleFront_main : (s.scaleFront).main = s.main := rfl
@[simp] theorem scaleFront_sample : (s.scaleFront).sample = s.sample := rfl
@[simp] theorem scaleFront_buses :
    (s.scaleFront).buses = (s.buses.scaleBus .fl s.outVol 12).scaleBus .fr s.outVol 12 := rfl
@[simp] theorem scaleFront_tables : (s.scaleFront).tables = s.tables := rfl
@[simp] theorem scaleFront_vpbBase : (s.scaleFront).vpbBase = s.vpbBase := rfl
@[simp] theorem scaleFront_rpbBase : (s.scaleFront).rpbBase = s.rpbBase := rfl
@[simp] theorem scaleFront_sampleBase : (s.scaleFront).sampleBase = s.sampleBase := rfl
@[simp] theorem scaleFront_outL : (s.scaleFront).outL = s.outL := rfl
@[simp] theorem scaleFront_outR : (s.scaleFront).outR = s.outR := rfl
@[simp] theorem scaleFront_outVol : (s.scaleFront).outVol = s.outVol := rfl
@[simp] theorem scaleFront_reverb : (s.scaleFront).reverb = s.reverb := rfl
@[simp] theorem scaleFront_mode : (s.scaleFront).mode = s.mode := rfl
@[simp] theorem scaleFront_cmd : (s.scaleFront).cmd = s.cmd := rfl
@[simp] theorem scaleFront_canExecute : (s.scaleFront).canExecute = s.canExecute := rfl
@[simp] theorem scaleFront_cur : (s.scaleFront).cur = s.cur := rfl
@[simp] theorem scaleFront_prepared : (s.scaleFront).prepared = s.prepared := rfl
@[simp] theorem scaleFront_setupDone : (s.scaleFront).setupDone = s.setupDone := rfl
@[simp] theorem scaleFront_outValid : (s.scaleFront).outValid = s.outValid := rfl
@[simp] theorem scaleFront_haltCause : (s.scaleFront).haltCause = s.haltCause := rfl
@[simp] theorem scaleFront_evt : (s.scaleFront).evt = s.evt := rfl
@[simp] theorem scaleFront_irq : (s.scaleFront).irq = s.irq := rfl
@[simp] theorem scaleFront_host : (s.scaleFront).host = s.host := rfl
@[simp] theorem scaleFront_replies : (s.scaleFront).replies = s.replies := rfl

/-! ### `s.advanceOut` -/

@[simp] theorem advanceOut_cfg : (s.advanceOut).cfg = s.cfg := rfl
@[simp] theorem advanceOut_main : (s.advanceOut).main = s.main := rfl
@[simp] theorem advanceOut_sample : (s.advanceOut).sample = s.sample := rfl
@[simp] theorem advanceOut_buses : (s.advanceOut).buses = s.buses := rfl
@[simp] theorem advanceOut_tables : (s.advanceOut).tables = s.tables := rfl
@[simp] theorem advanceOut_vpbBase : (s.advanceOut).vpbBase = s.vpbBase := rfl
@[simp] theorem advanceOut_rpbBase : (s.advanceOut).rpbBase = s.rpbBase := rfl
@[simp] theorem advanceOut_sampleBase : (s.advanceOut).sampleBase = s.sampleBase := rfl
@[simp] theorem advanceOut_outL : (s.advanceOut).outL = s.outL + 160 := rfl
@[simp] theorem advanceOut_outR : (s.advanceOut).outR = s.outR + 160 := rfl
@[simp] theorem advanceOut_outVol : (s.advanceOut).outVol = s.outVol := rfl
@[simp] theorem advanceOut_reverb : (s.advanceOut).reverb = s.reverb := rfl
@[simp] theorem advanceOut_mode : (s.advanceOut).mode = s.mode := rfl
@[simp] theorem advanceOut_cmd : (s.advanceOut).cmd = s.cmd := rfl
@[simp] theorem advanceOut_canExecute : (s.advanceOut).canExecute = s.canExecute := rfl
@[simp] theorem advanceOut_cur : (s.advanceOut).cur = s.cur := rfl
@[simp] theorem advanceOut_prepared : (s.advanceOut).prepared = s.prepared := rfl
@[simp] theorem advanceOut_setupDone : (s.advanceOut).setupDone = s.setupDone := rfl
@[simp] theorem advanceOut_outValid : (s.advanceOut).outValid = s.outValid := rfl
@[simp] theorem advanceOut_haltCause : (s.advanceOut).haltCause = s.haltCause := rfl
@[simp] theorem advanceOut_evt : (s.advanceOut).evt = s.evt := rfl
@[simp] theorem advanceOut_irq : (s.advanceOut).irq = s.irq := rfl
@[simp] theorem advanceOut_host : (s.advanceOut).host = s.host := rfl
@[simp] theorem advanceOut_replies : (s.advanceOut).replies = s.replies := rfl

/-! ### `s.nextVoice` -/

@[simp] theorem nextVoice_cfg : (s.nextVoice).cfg = s.cfg := rfl
@[simp] theorem nextVoice_main : (s.nextVoice).main = s.main := rfl
@[simp] theorem nextVoice_sample : (s.nextVoice).sample = s.sample := rfl
@[simp] theorem nextVoice_buses : (s.nextVoice).buses = s.buses := rfl
@[simp] theorem nextVoice_tables : (s.nextVoice).tables = s.tables := rfl
@[simp] theorem nextVoice_vpbBase : (s.nextVoice).vpbBase = s.vpbBase := rfl
@[simp] theorem nextVoice_rpbBase : (s.nextVoice).rpbBase = s.rpbBase := rfl
@[simp] theorem nextVoice_sampleBase : (s.nextVoice).sampleBase = s.sampleBase := rfl
@[simp] theorem nextVoice_outL : (s.nextVoice).outL = s.outL := rfl
@[simp] theorem nextVoice_outR : (s.nextVoice).outR = s.outR := rfl
@[simp] theorem nextVoice_outVol : (s.nextVoice).outVol = s.outVol := rfl
@[simp] theorem nextVoice_reverb : (s.nextVoice).reverb = s.reverb := rfl
@[simp] theorem nextVoice_mode : (s.nextVoice).mode = s.mode := rfl
@[simp] theorem nextVoice_cmd : (s.nextVoice).cmd = s.cmd := rfl
@[simp] theorem nextVoice_canExecute : (s.nextVoice).canExecute = s.canExecute := rfl
@[simp] theorem nextVoice_cur :
    (s.nextVoice).cur = { s.cur with curVoice := s.cur.curVoice + 1 } := rfl
@[simp] theorem nextVoice_prepared : (s.nextVoice).prepared = s.prepared := rfl
@[simp] theorem nextVoice_setupDone : (s.nextVoice).setupDone = s.setupDone := rfl
@[simp] theorem nextVoice_outValid : (s.nextVoice).outValid = s.outValid := rfl
@[simp] theorem nextVoice_haltCause : (s.nextVoice).haltCause = s.haltCause := rfl
@[simp] theorem nextVoice_evt : (s.nextVoice).evt = s.evt := rfl
@[simp] theorem nextVoice_irq : (s.nextVoice).irq = s.irq := rfl
@[simp] theorem nextVoice_host : (s.nextVoice).host = s.host := rfl
@[simp] theorem nextVoice_replies : (s.nextVoice).replies = s.replies := rfl

/-! ### `s.nextFrame` -/

@[simp] theorem nextFrame_cfg : (s.nextFrame).cfg = s.cfg := rfl
@[simp] theorem nextFrame_main : (s.nextFrame).main = s.main := rfl
@[simp] theorem nextFrame_sample : (s.nextFrame).sample = s.sample := rfl
@[simp] theorem nextFrame_buses : (s.nextFrame).buses = s.buses := rfl
@[simp] theorem nextFrame_tables : (s.nextFrame).tables = s.tables := rfl
@[simp] theorem nextFrame_vpbBase : (s.nextFrame).vpbBase = s.vpbBase := rfl
@[simp] theorem nextFrame_rpbBase : (s.nextFrame).rpbBase = s.rpbBase := rfl
@[simp] theorem nextFrame_sampleBase : (s.nextFrame).sampleBase = s.sampleBase := rfl
@[simp] theorem nextFrame_outL : (s.nextFrame).outL = s.outL := rfl
@[simp] theorem nextFrame_outR : (s.nextFrame).outR = s.outR := rfl
@[simp] theorem nextFrame_outVol : (s.nextFrame).outVol = s.outVol := rfl
@[simp] theorem nextFrame_reverb : (s.nextFrame).reverb = s.reverb := rfl
@[simp] theorem nextFrame_mode : (s.nextFrame).mode = s.mode := rfl
@[simp] theorem nextFrame_cmd : (s.nextFrame).cmd = s.cmd := rfl
@[simp] theorem nextFrame_canExecute : (s.nextFrame).canExecute = s.canExecute := rfl
@[simp] theorem nextFrame_cur :
    (s.nextFrame).cur =
      { s.cur with curVoice := 0, maxUnlocked := 0, syncHalf := false, curFrame := s.cur.curFrame + 1 } := rfl
@[simp] theorem nextFrame_prepared : (s.nextFrame).prepared = s.prepared := rfl
@[simp] theorem nextFrame_setupDone : (s.nextFrame).setupDone = s.setupDone := rfl
@[simp] theorem nextFrame_outValid : (s.nextFrame).outValid = s.outValid := rfl
@[simp] theorem nextFrame_haltCause : (s.nextFrame).haltCause = s.haltCause := rfl
@[simp] theorem nextFrame_evt : (s.nextFrame).evt = s.evt := rfl
@[simp] theorem nextFrame_irq : (s.nextFrame).irq = s.irq := rfl
@[simp] theorem nextFrame_host : (s.nextFrame).host = s.host := rfl
@[simp] theorem nextFrame_replies : (s.nextFrame).replies = s.replies := rfl

/-! ### `s.renderDone` -/

@[simp] theorem renderDone_cfg : (s.renderDone).cfg = s.cfg := rfl
@[simp] theorem renderDone_main : (s.renderDone).main = s.main := rfl
@[simp] theorem renderDone_sample : (s.renderDone).sample = s.sample := rfl
@[simp] theorem renderDone_buses : (s.renderDone).buses = s.buses := rfl
@[simp] theorem renderDone_tables : (s.renderDone).tables = s.tables := rfl
@[simp] theorem renderDone_vpbBase : (s.renderDone).vpbBase = s.vpbBase := rfl
@[simp] theorem renderDone_rpbBase : (s.renderDone).rpbBase = s.rpbBase := rfl
@[simp] theorem renderDone_sampleBase : (s.renderDone).sampleBase = s.sampleBase := rfl
@[simp] theorem renderDone_outL : (s.renderDone).outL = s.outL := rfl
@[simp] theorem renderDone_outR : (s.renderDone).outR = s.outR := rfl
@[simp] theorem renderDone_outVol : (s.renderDone).outVol = s.outVol := rfl
@[simp] theorem renderDone_reverb : (s.renderDone).reverb = s.reverb := rfl
@[simp] theorem renderDone_mode : (s.renderDone).mode = Mode.waiting := rfl
@[simp] theorem renderDone_cmd : (s.renderDone).cmd = s.cmd := rfl
@[simp] theorem renderDone_canExecute :
    (s.renderDone).canExecute = (s.canExecute && s.cfg.light) := rfl
@[simp] theorem renderDone_cur : (s.renderDone).cur = s.cur := rfl
@[simp] theorem renderDone_prepared : (s.renderDone).prepared = s.prepared := rfl
@[simp] theorem renderDone_setupDone : (s.renderDone).setupDone = s.setupDone := rfl
@[simp] theorem renderDone_outValid : (s.renderDone).outValid = s.outValid := rfl
@[simp] theorem renderDone_haltCause : (s.renderDone).haltCause = s.haltCause := rfl
@[simp] theorem renderDone_evt : (s.renderDone).evt = s.evt ++ [renderDoneWord] := rfl
@[simp] theorem renderDone_irq : (s.renderDone).irq = s.irq ++ [Pulse.event renderDoneWord] := rfl
@[simp] theorem renderDone_host : (s.renderDone).host = s.host := rfl
@[simp] theorem renderDone_replies : (s.renderDone).replies = s.replies := rfl

/-! ### `s.commandComplete` -/

@[simp] theorem commandComplete_cfg : (s.commandComplete).cfg = s.cfg := rfl
@[simp] theorem commandComplete_main : (s.commandComplete).main = s.main := rfl
@[simp] theorem commandComplete_sample : (s.commandComplete).sample = s.sample := rfl
@[simp] theorem commandComplete_buses : (s.commandComplete).buses = s.buses := rfl
@[simp] theorem commandComplete_tables : (s.commandComplete).tables = s.tables := rfl
@[simp] theorem commandComplete_vpbBase : (s.commandComplete).vpbBase = s.vpbBase := rfl
@[simp] theorem commandComplete_rpbBase : (s.commandComplete).rpbBase = s.rpbBase := rfl
@[simp] theorem commandComplete_sampleBase : (s.commandComplete).sampleBase = s.sampleBase := rfl
@[simp] theorem commandComplete_outL : (s.commandComplete).outL = s.outL := rfl
@[simp] theorem commandComplete_outR : (s.commandComplete).outR = s.outR := rfl
@[simp] theorem commandComplete_outVol : (s.commandComplete).outVol = s.outVol := rfl
@[simp] theorem commandComplete_reverb : (s.commandComplete).reverb = s.reverb := rfl
@[simp] theorem commandComplete_mode : (s.commandComplete).mode = Mode.waiting := rfl
@[simp] theorem commandComplete_cmd :
    (s.commandComplete).cmd = { s.cmd with pending := s.cmd.pending + 1 } := rfl
@[simp] theorem commandComplete_canExecute : (s.commandComplete).canExecute = s.canExecute := rfl
@[simp] theorem commandComplete_cur : (s.commandComplete).cur = s.cur := rfl
@[simp] theorem commandComplete_prepared : (s.commandComplete).prepared = s.prepared := rfl
@[simp] theorem commandComplete_setupDone : (s.commandComplete).setupDone = s.setupDone := rfl
@[simp] theorem commandComplete_outValid : (s.commandComplete).outValid = s.outValid := rfl
@[simp] theorem commandComplete_haltCause : (s.commandComplete).haltCause = s.haltCause := rfl
@[simp] theorem commandComplete_evt : (s.commandComplete).evt = s.evt := rfl
@[simp] theorem commandComplete_irq : (s.commandComplete).irq = s.irq := rfl
@[simp] theorem commandComplete_host : (s.commandComplete).host = s.host := rfl
@[simp] theorem commandComplete_replies : (s.commandComplete).replies = s.replies := rfl

/-! ### `s.reply r` -/

@[simp] theorem reply_cfg (r : Reply) : (s.reply r).cfg = s.cfg := rfl
@[simp] theorem reply_main (r : Reply) : (s.reply r).main = s.main := rfl
@[simp] theorem reply_sample (r : Reply) : (s.reply r).sample = s.sample := rfl
@[simp] theorem reply_buses (r : Reply) : (s.reply r).buses = s.buses := rfl
@[simp] theorem reply_tables (r : Reply) : (s.reply r).tables = s.tables := rfl
@[simp] theorem reply_vpbBase (r : Reply) : (s.reply r).vpbBase = s.vpbBase := rfl
@[simp] theorem reply_rpbBase (r : Reply) : (s.reply r).rpbBase = s.rpbBase := rfl
@[simp] theorem reply_sampleBase (r : Reply) : (s.reply r).sampleBase = s.sampleBase := rfl
@[simp] theorem reply_outL (r : Reply) : (s.reply r).outL = s.outL := rfl
@[simp] theorem reply_outR (r : Reply) : (s.reply r).outR = s.outR := rfl
@[simp] theorem reply_outVol (r : Reply) : (s.reply r).outVol = s.outVol := rfl
@[simp] theorem reply_reverb (r : Reply) : (s.reply r).reverb = s.reverb := rfl
@[simp] theorem reply_mode (r : Reply) : (s.reply r).mode = s.mode := rfl
@[simp] theorem reply_cmd (r : Reply) : (s.reply r).cmd = s.cmd := rfl
@[simp] theorem reply_canExecute (r : Reply) : (s.reply r).canExecute = s.canExecute := rfl
@[simp] theorem reply_cur (r : Reply) : (s.reply r).cur = s.cur := rfl
@[simp] theorem reply_prepared (r : Reply) : (s.reply r).prepared = s.prepared := rfl
@[simp] theorem reply_setupDone (r : Reply) : (s.reply r).setupDone = s.setupDone := rfl
@[simp] theorem reply_outValid (r : Reply) : (s.reply r).outValid = s.outValid := rfl
@[simp] theorem reply_haltCause (r : Reply) : (s.reply r).haltCause = s.haltCause := rfl
@[simp] theorem reply_evt (r : Reply) : (s.reply r).evt = s.evt := rfl
@[simp] theorem reply_irq (r : Reply) : (s.reply r).irq = s.irq := rfl
@[simp] theorem reply_host (r : Reply) : (s.reply r).host = s.host := rfl
@[simp] theorem reply_replies (r : Reply) : (s.reply r).replies = s.replies ++ [r] := rfl

/-! ### `s.popEvent` -/

@[simp] theorem popEvent_cfg : (s.popEvent).cfg = s.cfg := rfl
@[simp] theorem popEvent_main : (s.popEvent).main = s.main := rfl
@[simp] theorem popEvent_sample : (s.popEvent).sample = s.sample := rfl
@[simp] theorem popEvent_buses : (s.popEvent).buses = s.buses := rfl
@[simp] theorem popEvent_tables : (s.popEvent).tables = s.tables := rfl
@[simp] theorem popEvent_vpbBase : (s.popEvent).vpbBase = s.vpbBase := rfl
@[simp] theorem popEvent_rpbBase : (s.popEvent).rpbBase = s.rpbBase := rfl
@[simp] theorem popEvent_sampleBase : (s.popEvent).sampleBase = s.sampleBase := rfl
@[simp] theorem popEvent_outL : (s.popEvent).outL = s.outL := rfl
@[simp] theorem popEvent_outR : (s.popEvent).outR = s.outR := rfl
@[simp] theorem popEvent_outVol : (s.popEvent).outVol = s.outVol := rfl
@[simp] theorem popEvent_reverb : (s.popEvent).reverb = s.reverb := rfl
@[simp] theorem popEvent_mode : (s.popEvent).mode = s.mode := rfl
@[simp] theorem popEvent_cmd : (s.popEvent).cmd = s.cmd := rfl
@[simp] theorem popEvent_canExecute : (s.popEvent).canExecute = s.canExecute := rfl
@[simp] theorem popEvent_cur : (s.popEvent).cur = s.cur := rfl
@[simp] theorem popEvent_prepared : (s.popEvent).prepared = s.prepared := rfl
@[simp] theorem popEvent_setupDone : (s.popEvent).setupDone = s.setupDone := rfl
@[simp] theorem popEvent_outValid : (s.popEvent).outValid = s.outValid := rfl
@[simp] theorem popEvent_haltCause : (s.popEvent).haltCause = s.haltCause := rfl
@[simp] theorem popEvent_evt : (s.popEvent).evt = s.evt.tail := rfl
@[simp] theorem popEvent_irq : (s.popEvent).irq = s.irq := rfl
@[simp] theorem popEvent_host : (s.popEvent).host = s.host := rfl
@[simp] theorem popEvent_replies : (s.popEvent).replies = s.replies ++ [Reply.reg (s.evt.headD 0)] := rfl

/-! ### `s.resetAvm` -/

@[simp] theorem resetAvm_cfg : (s.resetAvm).cfg = s.cfg := rfl
@[simp] theorem resetAvm_main : (s.resetAvm).main = s.main := rfl
@[simp] theorem resetAvm_sample : (s.resetAvm).sample = s.sample := rfl
@[simp] theorem resetAvm_buses : (s.resetAvm).buses = State.reset.buses := rfl
@[simp] theorem resetAvm_tables : (s.resetAvm).tables = State.reset.tables := rfl
@[simp] theorem resetAvm_vpbBase : (s.resetAvm).vpbBase = State.reset.vpbBase := rfl
@[simp] theorem resetAvm_rpbBase : (s.resetAvm).rpbBase = State.reset.rpbBase := rfl
@[simp] theorem resetAvm_sampleBase : (s.resetAvm).sampleBase = State.reset.sampleBase := rfl
@[simp] theorem resetAvm_outL : (s.resetAvm).outL = State.reset.outL := rfl
@[simp] theorem resetAvm_outR : (s.resetAvm).outR = State.reset.outR := rfl
@[simp] theorem resetAvm_outVol : (s.resetAvm).outVol = State.reset.outVol := rfl
@[simp] theorem resetAvm_reverb : (s.resetAvm).reverb = State.reset.reverb := rfl
@[simp] theorem resetAvm_mode : (s.resetAvm).mode = State.reset.mode := rfl
@[simp] theorem resetAvm_cmd : (s.resetAvm).cmd = State.reset.cmd := rfl
@[simp] theorem resetAvm_canExecute : (s.resetAvm).canExecute = State.reset.canExecute := rfl
@[simp] theorem resetAvm_cur : (s.resetAvm).cur = State.reset.cur := rfl
@[simp] theorem resetAvm_prepared : (s.resetAvm).prepared = State.reset.prepared := rfl
@[simp] theorem resetAvm_setupDone : (s.resetAvm).setupDone = State.reset.setupDone := rfl
@[simp] theorem resetAvm_outValid : (s.resetAvm).outValid = State.reset.outValid := rfl
@[simp] theorem resetAvm_haltCause : (s.resetAvm).haltCause = State.reset.haltCause := rfl
@[simp] theorem resetAvm_evt : (s.resetAvm).evt = State.reset.evt := rfl
@[simp] theorem resetAvm_irq : (s.resetAvm).irq = s.irq := rfl
@[simp] theorem resetAvm_host : (s.resetAvm).host = s.host := rfl
@[simp] theorem resetAvm_replies : (s.resetAvm).replies = s.replies := rfl

/-! ### `s.frameDone` -/

@[simp] theorem frameDone_cfg : s.frameDone.cfg = s.cfg := by
  unfold frameDone; split <;> rfl
@[simp] theorem frameDone_main : s.frameDone.main = s.main := by
  unfold frameDone; split <;> rfl
@[simp] theorem frameDone_sample : s.frameDone.sample = s.sample := by
  unfold frameDone; split <;> rfl
@[simp] theorem frameDone_buses : s.frameDone.buses = s.buses := by
  unfold frameDone; split <;> rfl
@[simp] theorem frameDone_tables : s.frameDone.tables = s.tables := by
  unfold frameDone; split <;> rfl
@[simp] theorem frameDone_vpbBase : s.frameDone.vpbBase = s.vpbBase := by
  unfold frameDone; split <;> rfl
@[simp] theorem frameDone_rpbBase : s.frameDone.rpbBase = s.rpbBase := by
  unfold frameDone; split <;> rfl
@[simp] theorem frameDone_sampleBase : s.frameDone.sampleBase = s.sampleBase := by
  unfold frameDone; split <;> rfl
@[simp] theorem frameDone_outL : s.frameDone.outL = s.outL := by
  unfold frameDone; split <;> rfl
@[simp] theorem frameDone_outR : s.frameDone.outR = s.outR := by
  unfold frameDone; split <;> rfl
@[simp] theorem frameDone_outVol : s.frameDone.outVol = s.outVol := by
  unfold frameDone; split <;> rfl
@[simp] theorem frameDone_reverb : s.frameDone.reverb = s.reverb := by
  unfold frameDone; split <;> rfl
@[simp] theorem frameDone_mode : s.frameDone.mode = s.mode := by
  unfold frameDone; split <;> rfl
@[simp] theorem frameDone_cmd : s.frameDone.cmd = s.cmd := by
  unfold frameDone; split <;> rfl
@[simp] theorem frameDone_canExecute : s.frameDone.canExecute = s.canExecute := by
  unfold frameDone; split <;> rfl
@[simp] theorem frameDone_cur : s.frameDone.cur = s.cur := by
  unfold frameDone; split <;> rfl
@[simp] theorem frameDone_prepared : s.frameDone.prepared = s.prepared := by
  unfold frameDone; split <;> rfl
@[simp] theorem frameDone_setupDone : s.frameDone.setupDone = s.setupDone := by
  unfold frameDone; split <;> rfl
@[simp] theorem frameDone_outValid : s.frameDone.outValid = s.outValid := by
  unfold frameDone; split <;> rfl
@[simp] theorem frameDone_haltCause : s.frameDone.haltCause = s.haltCause := by
  unfold frameDone; split <;> rfl
@[simp] theorem frameDone_evt :
    s.frameDone.evt = if s.cfg.light then s.evt else s.evt ++ [frameDoneWord s.cur.curFrame] := by
  unfold frameDone; split <;> rfl
@[simp] theorem frameDone_irq :
    s.frameDone.irq = if s.cfg.light then s.irq else s.irq ++ [Pulse.event (frameDoneWord s.cur.curFrame)] := by
  unfold frameDone; split <;> rfl
@[simp] theorem frameDone_host : s.frameDone.host = s.host := by
  unfold frameDone; split <;> rfl
@[simp] theorem frameDone_replies : s.frameDone.replies = s.replies := by
  unfold frameDone; split <;> rfl

end Sys2Proof.Machine.State
end

