-- ==== Sys2Proof/Laws/Memory.lean ====
section
/-! SUPPORT. Memory: reading after writing, and the canonical form every operation keeps. -/

namespace Sys2Proof.Machine

theorem Memory.read_write_other (m : Memory) (a x : Nat) (v : Byte) (h : x ≠ a) :
    (m.write a v).read x = m.read x := by
  induction m with
  | nil => unfold Memory.write; split <;> simp [Memory.read, h.symm]
  | cons c m ih =>
    obtain ⟨k, b⟩ := c
    unfold Memory.write
    split
    · split <;> simp [Memory.read, h.symm]
    · split
      · rename_i _ hk
        subst hk
        split <;> simp [Memory.read, h.symm]
      · simp [Memory.read, ih]

/-- Below the first address of a canonical memory every byte is the default. -/
theorem Memory.read_below (m : Memory) (low a : Nat) (hm : m.wfFrom low = true) (h : a < low) :
    m.read a = Memory.default := by
  induction m generalizing low with
  | nil => rfl
  | cons c m ih =>
    obtain ⟨k, b⟩ := c
    simp only [Memory.wfFrom, Bool.and_eq_true, decide_eq_true_eq] at hm
    have hk : k ≠ a := by omega
    simp only [Memory.read, hk, if_false]
    exact ih (k + 1) hm.2 (by omega)

theorem Memory.wfFrom_mono (m : Memory) (low low' : Nat) (hm : m.wfFrom low = true) (h : low' ≤ low) :
    m.wfFrom low' = true := by
  cases m with
  | nil => rfl
  | cons c m =>
    obtain ⟨k, b⟩ := c
    simp only [Memory.wfFrom, Bool.and_eq_true, decide_eq_true_eq] at hm ⊢
    exact ⟨⟨⟨by omega, hm.1.1.2⟩, hm.1.2⟩, hm.2⟩

theorem Memory.read_write_same_from (m : Memory) (low a : Nat) (v : Byte) (hm : m.wfFrom low = true) :
    (m.write a v).read a = v := by
  induction m generalizing low with
  | nil =>
    unfold Memory.write
    split
    · rename_i h; simp [Memory.read, h]
    · simp [Memory.read]
  | cons c m ih =>
    obtain ⟨k, b⟩ := c
    simp only [Memory.wfFrom, Bool.and_eq_true, decide_eq_true_eq] at hm
    unfold Memory.write
    split
    · split
      · rename_i hak hv
        have hk : k ≠ a := by omega
        have := Memory.read_below m (k + 1) a hm.2 (by omega)
        simp [Memory.read, hk, this, hv]
      · simp [Memory.read]
    · split
      · rename_i _ hak
        subst hak
        split
        · rename_i hv
          rw [Memory.read_below m (a + 1) a hm.2 (by omega), hv]
        · simp [Memory.read]
      · rename_i _ hak
        have hk : k ≠ a := fun h => hak h.symm
        simp only [Memory.read, hk, if_false]
        exact ih (k + 1) hm.2

theorem Memory.read_write_same (m : Memory) (a : Nat) (v : Byte) (hm : m.wf = true) :
    (m.write a v).read a = v :=
  Memory.read_write_same_from m 0 a v hm

theorem Memory.write_wfFrom (m : Memory) (low a : Nat) (v : Byte) (hm : m.wfFrom low = true)
    (ha : a < 2 ^ 32) (hl : low ≤ a) : (m.write a v).wfFrom low = true := by
  induction m generalizing low with
  | nil =>
    unfold Memory.write
    split
    · rfl
    · rename_i h
      simp [Memory.wfFrom, hl, h]
      omega
  | cons c m ih =>
    obtain ⟨k, b⟩ := c
    have hm' := hm
    simp only [Memory.wfFrom, Bool.and_eq_true, decide_eq_true_eq] at hm
    unfold Memory.write
    split
    · split
      · exact hm'
      · rename_i hak hv
        simp only [Memory.wfFrom, Bool.and_eq_true, decide_eq_true_eq]
        exact ⟨⟨⟨hl, ha⟩, hv⟩, ⟨⟨by omega, hm.1.1.2⟩, hm.1.2⟩, hm.2⟩
    · split
      · rename_i _ hak
        subst hak
        split
        · exact Memory.wfFrom_mono m (a + 1) low hm.2 (by omega)
        · rename_i hv
          simp only [Memory.wfFrom, Bool.and_eq_true, decide_eq_true_eq]
          exact ⟨⟨⟨hl, ha⟩, hv⟩, hm.2⟩
      · simp only [Memory.wfFrom, Bool.and_eq_true, decide_eq_true_eq]
        exact ⟨hm.1, ih (k + 1) hm.2 (by omega)⟩

/-- A byte store keeps the canonical form. -/
theorem Memory.write_wf (m : Memory) (a : Addr) (v : Byte) (hm : m.wf = true) :
    (m.write a.toNat v).wf = true :=
  Memory.write_wfFrom m 0 a.toNat v hm a.isLt (Nat.zero_le _)

/-- A run of byte stores keeps the canonical form. -/
theorem storeBytes_wf (answers : Addr → Bool) (bs : List Byte) (m : Memory) (a : Addr)
    (hm : m.wf = true) : (storeBytes answers m a bs).1.wf = true := by
  induction bs generalizing m a with
  | nil => exact hm
  | cons b bs ih =>
    unfold storeBytes
    split
    · exact ih _ _ (Memory.write_wf m a b hm)
    · exact hm

/-- A run of byte stores leaves every byte outside it alone. -/
theorem storeBytes_read_outside (answers : Addr → Bool) (bs : List Byte) (m : Memory) (a x : Addr)
    (h : ∀ i < bs.length, x ≠ a + BitVec.ofNat 32 i) :
    (storeBytes answers m a bs).1.read x.toNat = m.read x.toNat := by
  induction bs generalizing m a with
  | nil => rfl
  | cons b bs ih =>
    unfold storeBytes
    split
    · rw [ih]
      · apply Memory.read_write_other
        intro hx
        apply h 0 (by simp)
        simpa using BitVec.eq_of_toNat_eq hx
      · intro i hi
        have := h (i + 1) (by simpa using hi)
        rw [BitVec.add_assoc]
        intro hx
        apply this
        rw [hx]
        congr 1
        apply BitVec.eq_of_toNat_eq
        simp [Nat.add_comm]
    · rfl

/-- Where every address of a run answers, all of it is stored. -/
theorem storeBytes_ok (answers : Addr → Bool) (bs : List Byte) (m : Memory) (a : Addr)
    (h : ∀ i < bs.length, answers (a + BitVec.ofNat 32 i) = true) :
    (storeBytes answers m a bs).2 = true := by
  induction bs generalizing m a with
  | nil => rfl
  | cons b bs ih =>
    have h0 : answers a = true := by simpa using h 0 (by simp)
    unfold storeBytes
    rw [if_pos h0]
    apply ih
    intro i hi
    have := h (i + 1) (by simpa using hi)
    rw [BitVec.add_assoc]
    rw [show (1 : BitVec 32) + BitVec.ofNat 32 i = BitVec.ofNat 32 (i + 1) from ?_]
    · exact this
    · apply BitVec.eq_of_toNat_eq
      simp [Nat.add_comm]

/-- A run of byte stores that completed, and does not wrap onto itself, reads back. -/
theorem storeBytes_read_inside (answers : Addr → Bool) (bs : List Byte) (m : Memory) (a : Addr) (i : Nat)
    (hm : m.wf = true) (hl : bs.length ≤ 2 ^ 32) (hok : (storeBytes answers m a bs).2 = true)
    (hi : i < bs.length) :
    (storeBytes answers m a bs).1.read (a + BitVec.ofNat 32 i).toNat = bs.getD i 0 := by
  induction bs generalizing m a i with
  | nil => simp at hi
  | cons b bs ih =>
    unfold storeBytes at hok ⊢
    split at hok
    · rename_i hans
      rw [if_pos hans]
      cases i with
      | zero =>
        rw [show a + BitVec.ofNat 32 0 = a by simp, storeBytes_read_outside]
        · rw [Memory.read_write_same m _ _ hm]; rfl
        · intro j hj hx
          have := congrArg BitVec.toNat hx
          simp only [List.length_cons] at hl
          have hja : (a + 1 + BitVec.ofNat 32 j).toNat = (a.toNat + 1 + j) % 2 ^ 32 := by
            simp [BitVec.toNat_add, Nat.add_mod]
          rw [hja] at this
          have := a.isLt
          omega
      | succ i =>
        have hstep : a + BitVec.ofNat 32 (i + 1) = a + 1 + BitVec.ofNat 32 i := by
          apply BitVec.eq_of_toNat_eq
          simp [BitVec.toNat_add]
          omega
        rw [hstep, ih _ _ _ (Memory.write_wf m a b hm) (by simp at hl; omega) hok (by simpa using hi)]
        rfl
    · exact absurd hok (by simp)

theorem addr_succ (a : Addr) (i : Nat) : a + 1 + BitVec.ofNat 32 i = a + BitVec.ofNat 32 (i + 1) := by
  apply BitVec.eq_of_toNat_eq
  simp [BitVec.toNat_add]
  omega

/-- Where every address of a run answers, the run stores what it stores where every address answers. -/
theorem storeBytes_all (answers : Addr → Bool) (bs : List Byte) (m : Memory) (a : Addr)
    (h : ∀ i < bs.length, answers (a + BitVec.ofNat 32 i) = true) :
    storeBytes answers m a bs = storeBytes (fun _ => true) m a bs := by
  induction bs generalizing m a with
  | nil => rfl
  | cons b bs ih =>
    unfold storeBytes
    rw [if_pos (by simpa using h 0 (by simp)), if_pos rfl]
    exact ih _ _ fun i hi => by rw [addr_succ]; exact h (i + 1) (by simpa using hi)

/-- Where byte `j` of a run is the first whose address does not answer, the bytes before it are stored. -/
theorem storeBytes_break (answers : Addr → Bool) (bs : List Byte) (m : Memory) (a : Addr) {j : Nat}
    (hj : j < bs.length) (h : ∀ i < j, answers (a + BitVec.ofNat 32 i) = true)
    (hb : answers (a + BitVec.ofNat 32 j) = false) :
    storeBytes answers m a bs = ((storeBytes (fun _ => true) m a (bs.take j)).1, false) := by
  induction bs generalizing m a j with
  | nil => simp at hj
  | cons b bs ih =>
    cases j with
    | zero =>
      unfold storeBytes
      rw [if_neg (by simpa using hb)]
      rfl
    | succ j =>
      rw [List.take_succ_cons]
      unfold storeBytes
      rw [if_pos (by simpa using h 0 (by omega)), if_pos rfl]
      exact ih _ _ (by simpa using hj) (fun i hi => by rw [addr_succ]; exact h (i + 1) (by omega))
        (by rw [addr_succ]; exact hb)

end Sys2Proof.Machine
end

