-- ==== Sys2Proof/Laws/Act.lean ====
section
/-! SUPPORT. Operations: how they run one after another, and how a relation between the state before and
the state after passes through them. -/

namespace Sys2Proof.Machine

variable {α β : Type}

/-! ### Running the pieces -/

@[simp] theorem Act.pure_apply (a : α) (s : State) : (pure a : Act α) s = .ok a s := rfl
@[simp] theorem Act.get_bind (f : State → Act β) (s : State) : (get >>= f : Act β) s = f s s := rfl
@[simp] theorem Act.set_bind (t : State) (f : PUnit → Act β) (s : State) :
    (set t >>= f : Act β) s = f ⟨⟩ t := rfl
@[simp] theorem Act.modify_bind (g : State → State) (f : PUnit → Act β) (s : State) :
    (modify g >>= f : Act β) s = f ⟨⟩ (g s) := rfl
@[simp] theorem Act.modify_apply (g : State → State) (s : State) :
    (modify g : Act PUnit) s = .ok ⟨⟩ (g s) := rfl
@[simp] theorem Act.set_apply (t s : State) : (set t : Act PUnit) s = .ok ⟨⟩ t := rfl
@[simp] theorem Act.get_apply (s : State) : (get : Act State) s = .ok s s := rfl
@[simp] theorem halt_apply (c : HaltCause) (s : State) :
    (halt c : Act α) s = .error c (s.haltWith c) := rfl
@[simp] theorem Act.pure_bind_apply (a : α) (f : α → Act β) (s : State) :
    (pure a >>= f : Act β) s = f a s := rfl
@[simp] theorem Act.halt_bind (c : HaltCause) (f : α → Act β) (s : State) :
    ((halt c : Act α) >>= f : Act β) s = .error c (s.haltWith c) := rfl

theorem Act.bind_apply (act : Act α) (f : α → Act β) (s : State) :
    (act >>= f) s = match act s with
      | .ok a s' => f a s'
      | .error e s' => .error e s' := by
  show EStateM.bind act f s = _
  unfold EStateM.bind
  cases act s <;> rfl

theorem Act.bind_ok {act : Act α} {f : α → Act β} {s s' : State} {a : α} (h : act s = .ok a s') :
    (act >>= f) s = f a s' := by
  rw [Act.bind_apply, h]

theorem Act.bind_error {act : Act α} {f : α → Act β} {s s' : State} {e : HaltCause}
    (h : act s = .error e s') : (act >>= f) s = .error e s' := by
  rw [Act.bind_apply, h]

/-- A sequence completes exactly when both parts do. -/
theorem Act.bind_eq_ok {act : Act α} {f : α → Act β} {s t : State} {b : β} :
    (act >>= f) s = .ok b t ↔ ∃ a s', act s = .ok a s' ∧ f a s' = .ok b t := by
  rw [Act.bind_apply]
  cases act s <;> simp

theorem Act.final_ok {act : Act α} {s s' : State} {a : α} (h : act s = .ok a s') :
    act.final s = s' := by
  simp [Act.final, h]

theorem Act.final_error {act : Act α} {s s' : State} {e : HaltCause} (h : act s = .error e s') :
    act.final s = s' := by
  simp [Act.final, h]

theorem Act.final_bind (act : Act α) (f : α → Act β) (s : State) :
    (act >>= f).final s = match act s with
      | .ok a s' => (f a).final s'
      | .error _ s' => s' := by
  unfold Act.final
  rw [Act.bind_apply]
  cases act s <;> rfl

theorem Act.outcome_eq (act : Act Unit) (s : State) : act.outcome s = .next (act.final s) := rfl

/-! ### What an operation may touch -/

/-- At `s` the operation completes in a state `T` allows, or halts with a cause in such a state, halted. -/
def Act.At (T : State → State → Prop) (act : Act α) (s : State) : Prop :=
  (∃ a t, act s = .ok a t ∧ T s t) ∨ ∃ c t, c ≠ .none ∧ act s = .error c (t.haltWith c) ∧ T s t

/-- What passes through both parts of a sequence passes through the sequence. -/
theorem Act.At.bind {T : State → State → Prop} (trans : ∀ a b c, T a b → T b c → T a c)
    {act : Act α} {f : α → Act β} {s : State} (h : Act.At T act s)
    (hf : ∀ a t, act s = .ok a t → T s t → Act.At T (f a) t) : Act.At T (act >>= f) s := by
  rcases h with ⟨a, t, ha, ht⟩ | ⟨c, t, hc, ha, ht⟩
  · rcases hf a t ha ht with ⟨b, u, hb, hu⟩ | ⟨c, u, hc, hb, hu⟩
    · exact .inl ⟨b, u, by rw [Act.bind_ok ha, hb], trans _ _ _ ht hu⟩
    · exact .inr ⟨c, u, hc, by rw [Act.bind_ok ha, hb], trans _ _ _ ht hu⟩
  · exact .inr ⟨c, t, hc, Act.bind_error ha, ht⟩

theorem Act.At.mono {T U : State → State → Prop} (h : ∀ a b, T a b → U a b) {act : Act α} {s : State}
    (ha : Act.At T act s) : Act.At U act s := by
  rcases ha with ⟨a, t, ha, ht⟩ | ⟨c, t, hc, ha, ht⟩
  · exact .inl ⟨a, t, ha, h _ _ ht⟩
  · exact .inr ⟨c, t, hc, ha, h _ _ ht⟩

theorem Act.At.ok {T : State → State → Prop} {act : Act α} {s t : State} {a : α} (h : act s = .ok a t)
    (ht : T s t) : Act.At T act s := .inl ⟨a, t, h, ht⟩

theorem Act.At.halt {T : State → State → Prop} {c : HaltCause} (hc : c ≠ .none) {s : State} (h : T s s) :
    Act.At T (Machine.halt c : Act α) s := .inr ⟨c, s, hc, rfl, h⟩

/-- The state an operation leaves: one `T` allows, or such a state halted. -/
theorem Act.At.final {T : State → State → Prop} {act : Act α} {s : State} (h : Act.At T act s) :
    T s (act.final s) ∨ ∃ c t, c ≠ HaltCause.none ∧ act.final s = t.haltWith c ∧ T s t := by
  rcases h with ⟨a, t, ha, ht⟩ | ⟨c, t, hc, ha, ht⟩
  · exact .inl (Act.final_ok ha ▸ ht)
  · exact .inr ⟨c, t, hc, Act.final_error ha, ht⟩

/-! ### Operations that only read -/

/-- An operation that changes nothing: it completes in the state it found, or halts there with
`BUS_ERROR`. -/
def Act.ReadsOnly (act : Act α) : Prop :=
  ∀ s, (∃ a, act s = .ok a s) ∨ act s = .error .busError (s.haltWith .busError)

theorem Act.ReadsOnly.pure (a : α) : (Pure.pure a : Act α).ReadsOnly := fun _ => .inl ⟨a, rfl⟩

theorem Act.ReadsOnly.get : (MonadState.get : Act State).ReadsOnly :=
  fun s => .inl ⟨s, rfl⟩

theorem Act.ReadsOnly.bind {act : Act α} {f : α → Act β} (h : act.ReadsOnly)
    (hf : ∀ a, (f a).ReadsOnly) : (act >>= f).ReadsOnly := by
  intro s
  rcases h s with ⟨a, ha⟩ | ha
  · rw [Act.bind_ok ha]; exact hf a s
  · rw [Act.bind_error ha]; exact .inr rfl

theorem ofRead_some {read : State → Option α} {s : State} {v : α} (h : read s = some v) :
    ofRead read s = .ok v s := by
  simp [ofRead, h]

theorem ofRead_none {read : State → Option α} {s : State} (h : read s = none) :
    ofRead read s = .error .busError (s.haltWith .busError) := by
  simp [ofRead, h]

theorem ofRead_readsOnly (read : State → Option α) : (ofRead read).ReadsOnly := by
  intro s
  cases h : read s with
  | some v => exact .inl ⟨v, ofRead_some h⟩
  | none => exact .inr (ofRead_none h)

theorem readBytes_readsOnly (sp : Space) (n : Nat) (a : Addr) : (readBytes sp n a).ReadsOnly :=
  ofRead_readsOnly _

theorem readWords_readsOnly (sp : Space) (n : Nat) (a : Addr) : (readWords sp n a).ReadsOnly :=
  ofRead_readsOnly _

theorem readSampleBytes_readsOnly (n : Nat) (a : Addr) : (readSampleBytes n a).ReadsOnly :=
  ofRead_readsOnly _

/-- An operation that only reads leaves the state it found, or that state halted. -/
theorem Act.ReadsOnly.final {act : Act α} (h : act.ReadsOnly) (s : State) :
    act.final s = s ∨ act.final s = s.haltWith .busError := by
  rcases h s with ⟨a, ha⟩ | ha
  · exact .inl (Act.final_ok ha)
  · exact .inr (Act.final_error ha)

/-- Reading passes every relation a state has to itself. -/
theorem Act.ReadsOnly.at {act : Act α} (h : act.ReadsOnly) {T : State → State → Prop} {s : State}
    (hT : T s s) : Act.At T act s := by
  rcases h s with ⟨a, ha⟩ | ha
  · exact .inl ⟨a, s, ha, hT⟩
  · exact .inr ⟨.busError, s, by decide, ha, hT⟩

/-- A read that completed left the state as it was. -/
theorem Act.ReadsOnly.eq_of_ok {act : Act α} (h : act.ReadsOnly) {s t : State} {a : α}
    (ha : act s = .ok a t) : t = s := by
  rcases h s with ⟨b, hb⟩ | hb
  · rw [hb] at ha; cases ha; rfl
  · rw [hb] at ha; cases ha

end Sys2Proof.Machine
end

