-- ==== Sys2Proof/Laws/Access.lean ====
section
/-! SUPPORT. Reading and storing runs of bytes and words, and the buses. -/

namespace Sys2Proof.Machine

/-! ### Reads -/

theorem State.read8?_eq_some {s : State} {sp : Space} {a : Addr} (h : s.cfg.mapped sp a = true) :
    s.read8? sp a = some (s.byteAt sp a) := by
  simp [State.read8?, h]

/-- A list of words that could be read has the length asked for. -/
theorem State.words?_length {s : State} {sp : Space} {n : Nat} {a : Addr} {ws : List Half}
    (h : s.words? sp n a = some ws) : ws.length = n := by
  induction n generalizing a ws with
  | zero => simp [State.words?] at h; simp [← h]
  | succ n ih =>
    unfold State.words? at h
    split at h
    · rename_i w ws' hw hws
      cases h
      simp [ih hws]
    · cases h

theorem State.bytes?_length {s : State} {sp : Space} {n : Nat} {a : Addr} {bs : List Byte}
    (h : s.bytes? sp n a = some bs) : bs.length = n := by
  induction n generalizing a bs with
  | zero => simp [State.bytes?] at h; simp [← h]
  | succ n ih =>
    unfold State.bytes? at h
    split at h
    · rename_i b bs' hb hbs
      cases h
      simp [ih hbs]
    · cases h

theorem State.wordsUntil_length_le (s : State) (sp : Space) (n : Nat) (a : Addr) :
    (s.wordsUntil sp n a).length ≤ n := by
  induction n generalizing a with
  | zero => simp [State.wordsUntil]
  | succ n ih =>
    unfold State.wordsUntil
    split
    · simpa using ih (a + 2)
    · simp

/-- Where every word answers, the words up to the first that does not are all of them. -/
theorem State.wordsUntil_of_words? {s : State} {sp : Space} {n : Nat} {a : Addr} {ws : List Half}
    (h : s.words? sp n a = some ws) : s.wordsUntil sp n a = ws := by
  induction n generalizing a ws with
  | zero => simp [State.words?] at h; simp [State.wordsUntil, ← h]
  | succ n ih =>
    unfold State.words? at h
    split at h
    · rename_i w ws' hw hws
      cases h
      have := ih hws
      unfold State.wordsUntil
      rw [hw, this]
    · cases h

/-- Where the `k`-th word is the first that does not answer, they are the words before it. -/
theorem State.wordsUntil_of_break {s : State} {sp : Space} {k n : Nat} {a : Addr} {ws : List Half} (hk : k < n)
    (h : s.words? sp k a = some ws) (hb : s.read16? sp (a + BitVec.ofNat 32 (2 * k)) = none) :
    s.wordsUntil sp n a = ws := by
  induction n generalizing a k ws with
  | zero => omega
  | succ n ih =>
    cases k with
    | zero =>
      simp only [State.words?, Option.some.injEq] at h
      simp only [Nat.mul_zero, BitVec.add_zero] at hb
      simp [State.wordsUntil, hb, ← h]
    | succ k =>
      unfold State.words? at h
      split at h
      · rename_i w ws' hw hws
        cases h
        have e : a + 2 + BitVec.ofNat 32 (2 * k) = a + BitVec.ofNat 32 (2 * (k + 1)) := by
          rw [BitVec.add_assoc]
          congr 1
          apply BitVec.eq_of_toNat_eq
          simp
          omega
        unfold State.wordsUntil
        rw [hw]
        simp only [ih (k := k) (by omega) hws (by rw [e]; exact hb)]
      · cases h

/-- Reading words depends on the configuration and the memory of the space alone. -/
theorem State.words?_congr {s t : State} (hc : t.cfg = s.cfg) {sp : Space} (hm : t.mem sp = s.mem sp)
    (n : Nat) (a : Addr) : t.words? sp n a = s.words? sp n a := by
  induction n generalizing a with
  | zero => rfl
  | succ n ih => simp [State.words?, State.read16?, State.read8?, State.byteAt, hc, hm, ih]

theorem State.words?_isSome_of_mapped {s : State} {sp : Space} (h : ∀ a, s.cfg.mapped sp a = true)
    (n : Nat) (a : Addr) : (s.words? sp n a).isSome = true := by
  induction n generalizing a with
  | zero => rfl
  | succ n ih =>
    obtain ⟨ws, hws⟩ := Option.isSome_iff_exists.mp (ih (a + 2))
    unfold State.words?
    rw [hws]
    simp [State.read16?, State.read8?, h]

/-! ### Stores -/

theorem flatMap_halfBytes_length (ws : List Half) : (ws.flatMap halfBytes).length = 2 * ws.length := by
  induction ws with
  | nil => rfl
  | cons w ws ih => simp [List.flatMap_cons, halfBytes, ih]; omega

/-- What a run of word stores does: the bytes go to `MAIN` until one does not answer; nothing else
changes but, then, the halt. -/
theorem storeWords_cases (a : Addr) (ws : List Half) (s : State) :
    ∃ r, r = storeBytes (s.cfg.mapped .main) s.main a (ws.flatMap halfBytes) ∧
      ((r.2 = true ∧ storeWords a ws s = .ok () { s with main := r.1 }) ∨
        (r.2 = false ∧
          storeWords a ws s = .error .busError ({ s with main := r.1 }.haltWith .busError))) := by
  refine ⟨_, rfl, ?_⟩
  unfold storeWords
  cases h : (storeBytes (s.cfg.mapped .main) s.main a (ws.flatMap halfBytes)).2 <;> simp [h, State.setMem]

/-- Where every address of the run answers, the store completes. -/
theorem storeWords_ok {a : Addr} {ws : List Half} {s : State}
    (h : ∀ i < 2 * ws.length, s.cfg.mapped .main (a + BitVec.ofNat 32 i) = true) :
    storeWords a ws s = .ok ()
      { s with main := (storeBytes (s.cfg.mapped .main) s.main a (ws.flatMap halfBytes)).1 } := by
  have hok := storeBytes_ok (s.cfg.mapped .main) (ws.flatMap halfBytes) s.main a
    (by rw [flatMap_halfBytes_length]; exact h)
  unfold storeWords
  simp [hok, State.setMem]

/-- Where byte `j` of the run is the first whose address does not answer, the bytes before it are stored, and the
store halts (20_memory.md R66; 60_exceptions.md R312). -/
theorem storeWords_error {a : Addr} {ws : List Half} {s : State} {j : Nat} (hj : j < 2 * ws.length)
    (h : ∀ i < j, s.cfg.mapped .main (a + BitVec.ofNat 32 i) = true)
    (hb : s.cfg.mapped .main (a + BitVec.ofNat 32 j) = false) :
    storeWords a ws s = .error .busError
      ({ s with main := (storeBytes (fun _ => true) s.main a ((ws.flatMap halfBytes).take j)).1 }.haltWith
        .busError) := by
  have e := storeBytes_break (s.cfg.mapped .main) (ws.flatMap halfBytes) s.main a
    (by rw [flatMap_halfBytes_length]; exact hj) h hb
  unfold storeWords
  simp [e, State.setMem]

/-! ### Buses -/

@[simp] theorem Buses.get_set_same (b : Buses) (id : BusId) (v : List Sample) :
    (b.set id v).get id = v := by
  cases id <;> rfl

theorem Buses.get_set_other (b : Buses) {id id' : BusId} (v : List Sample) (h : id' ≠ id) :
    (b.set id v).get id' = b.get id' := by
  cases id <;> cases id' <;> first | rfl | exact absurd rfl h

/-- Every bus is full exactly when each has 80 samples. -/
theorem Buses.full_iff (b : Buses) : b.full = true ↔ ∀ id, (b.get id).length = frameLen := by
  constructor
  · intro h id
    simp only [Buses.full, Buses.toList, List.all_cons, List.all_nil, Bool.and_eq_true,
      decide_eq_true_eq] at h
    cases id <;> simp_all [Buses.get]
  · intro h
    simp only [Buses.full, Buses.toList, List.all_cons, List.all_nil, Bool.and_eq_true,
      decide_eq_true_eq]
    exact ⟨h .fl, h .fr, h .bl, h .br, h .flRv, h .frRv, h .blRv, h .brRv, h .auxaRv, h .auxbRv, trivial⟩

/-- Replacing a bus by 80 samples keeps every bus full. -/
theorem Buses.full_set {b : Buses} (hb : b.full = true) (id : BusId) {v : List Sample}
    (hv : v.length = frameLen) : (b.set id v).full = true := by
  rw [Buses.full_iff] at *
  intro id'
  by_cases h : id' = id
  · subst h; simpa using hv
  · rw [Buses.get_set_other b v h]; exact hb id'

theorem Buses.full_clear {b : Buses} (hb : b.full = true) (id : BusId) : (b.clear id).full = true :=
  Buses.full_set hb id (by simp)

theorem Buses.full_scaleBus {b : Buses} (hb : b.full = true) (id : BusId) (g : Half) (sh : Nat) :
    (b.scaleBus id g sh).full = true :=
  Buses.full_set hb id (by simpa using (Buses.full_iff b).mp hb id)

theorem Buses.full_mixConst {b : Buses} (hb : b.full = true) (id : BusId) {src : List Sample} (g : Half)
    (hs : src.length = frameLen) : (b.mixConst id src g).full = true :=
  Buses.full_set hb id (by simp [(Buses.full_iff b).mp hb id, hs])

/-- A ramp keeps the length of the bus. -/
@[simp] theorem mixRamp_length (bus src : List Sample) (vol step : Word) :
    (mixRamp bus src vol step).1.length = bus.length := by
  induction bus generalizing src vol with
  | nil => cases src <;> rfl
  | cons b bs ih =>
    cases src with
    | nil => rfl
    | cons x xs => simp [mixRamp, ih]

end Sys2Proof.Machine
end

