-- ==== Sys2Proof/Laws/Touch.lean ====
section
/-! SUPPORT. What each shared operation may touch: one lemma per operation, from the reads of a voice up to
the dispatch loop. A relation below names the fields that may change; every other field is kept. -/

namespace Sys2Proof.Machine

/-! ### The relations -/

/-- `MAIN` alone. -/
def TouchesMain (s t : State) : Prop := ∃ m, t = { s with main := m }

/-- The buses and `MAIN`: what `AddVoice` touches (42_voice_mix.md R200). -/
def TouchesVoice (s t : State) : Prop := ∃ b m, t = { s with buses := b, main := m }

/-- What `PrepareFrame` touches (41_frame_ops.md R174; 44_reverb.md R291). -/
def TouchesPrepare (s t : State) : Prop :=
  ∃ b u p f, t = { s with buses := b, reverb := u, tables := { s.tables with pattern := p }, prepared := f }

/-- What `FinalizeFrame` touches (41_frame_ops.md R178; 44_reverb.md R297). -/
def TouchesFinalize (s t : State) : Prop :=
  ∃ b m l r u f, t = { s with buses := b, main := m, outL := l, outR := r, reverb := u, prepared := f }

/-- What rendering touches (41_frame_ops.md R171). -/
def TouchesRender (s t : State) : Prop :=
  ∃ b m l r u p f cv mu sh cf sf e i x md,
    t = { s with
      buses := b, main := m, outL := l, outR := r, reverb := u
      tables := { s.tables with pattern := p }
      prepared := f
      cur := { s.cur with
        curVoice := cv, maxUnlocked := mu, syncHalf := sh, curFrame := cf, skipFlags := sf }
      evt := e, irq := i, canExecute := x, mode := md }

/-- What a command or the dispatch loop may touch: all but the configuration, `SAMPLE` and the host's side
(00_scope.md R16; 20_memory.md R60). -/
def TouchesAvm (s t : State) : Prop :=
  t.cfg = s.cfg ∧ t.sample = s.sample ∧ t.host = s.host ∧ t.replies = s.replies

theorem TouchesMain.refl (s : State) : TouchesMain s s := ⟨_, rfl⟩
theorem TouchesVoice.refl (s : State) : TouchesVoice s s := ⟨_, _, rfl⟩
theorem TouchesPrepare.refl (s : State) : TouchesPrepare s s := ⟨_, _, _, _, rfl⟩
theorem TouchesFinalize.refl (s : State) : TouchesFinalize s s := ⟨_, _, _, _, _, _, rfl⟩
theorem TouchesRender.refl (s : State) : TouchesRender s s :=
  ⟨_, _, _, _, _, _, _, _, _, _, _, _, _, _, _, _, rfl⟩
theorem TouchesAvm.refl (s : State) : TouchesAvm s s := ⟨rfl, rfl, rfl, rfl⟩

theorem TouchesMain.trans {a b c : State} : TouchesMain a b → TouchesMain b c → TouchesMain a c := by
  rintro ⟨_, rfl⟩ ⟨_, rfl⟩; exact ⟨_, rfl⟩

theorem TouchesVoice.trans {a b c : State} : TouchesVoice a b → TouchesVoice b c → TouchesVoice a c := by
  rintro ⟨_, _, rfl⟩ ⟨_, _, rfl⟩; exact ⟨_, _, rfl⟩

theorem TouchesPrepare.trans {a b c : State} :
    TouchesPrepare a b → TouchesPrepare b c → TouchesPrepare a c := by
  rintro ⟨_, _, _, _, rfl⟩ ⟨_, _, _, _, rfl⟩; exact ⟨_, _, _, _, rfl⟩

theorem TouchesFinalize.trans {a b c : State} :
    TouchesFinalize a b → TouchesFinalize b c → TouchesFinalize a c := by
  rintro ⟨_, _, _, _, _, _, rfl⟩ ⟨_, _, _, _, _, _, rfl⟩; exact ⟨_, _, _, _, _, _, rfl⟩

theorem TouchesRender.trans {a b c : State} :
    TouchesRender a b → TouchesRender b c → TouchesRender a c := by
  rintro ⟨_, _, _, _, _, _, _, _, _, _, _, _, _, _, _, _, rfl⟩
    ⟨_, _, _, _, _, _, _, _, _, _, _, _, _, _, _, _, rfl⟩
  exact ⟨_, _, _, _, _, _, _, _, _, _, _, _, _, _, _, _, rfl⟩

theorem TouchesAvm.trans {a b c : State} : TouchesAvm a b → TouchesAvm b c → TouchesAvm a c := by
  rintro ⟨h1, h2, h3, h4⟩ ⟨k1, k2, k3, k4⟩
  exact ⟨k1.trans h1, k2.trans h2, k3.trans h3, k4.trans h4⟩

theorem TouchesVoice.seq : ∀ a b c, TouchesVoice a b → TouchesVoice b c → TouchesVoice a c :=
  fun _ _ _ => TouchesVoice.trans
theorem TouchesPrepare.seq : ∀ a b c, TouchesPrepare a b → TouchesPrepare b c → TouchesPrepare a c :=
  fun _ _ _ => TouchesPrepare.trans
theorem TouchesFinalize.seq : ∀ a b c, TouchesFinalize a b → TouchesFinalize b c → TouchesFinalize a c :=
  fun _ _ _ => TouchesFinalize.trans
theorem TouchesRender.seq : ∀ a b c, TouchesRender a b → TouchesRender b c → TouchesRender a c :=
  fun _ _ _ => TouchesRender.trans
theorem TouchesAvm.seq : ∀ a b c, TouchesAvm a b → TouchesAvm b c → TouchesAvm a c :=
  fun _ _ _ => TouchesAvm.trans

theorem TouchesMain.voice {a b : State} : TouchesMain a b → TouchesVoice a b := by
  rintro ⟨_, rfl⟩; exact ⟨_, _, rfl⟩

theorem TouchesMain.finalize {a b : State} : TouchesMain a b → TouchesFinalize a b := by
  rintro ⟨_, rfl⟩; exact ⟨_, _, _, _, _, _, rfl⟩

theorem TouchesVoice.render {a b : State} : TouchesVoice a b → TouchesRender a b := by
  rintro ⟨_, _, rfl⟩; exact ⟨_, _, _, _, _, _, _, _, _, _, _, _, _, _, _, _, rfl⟩

theorem TouchesPrepare.render {a b : State} : TouchesPrepare a b → TouchesRender a b := by
  rintro ⟨_, _, _, _, rfl⟩; exact ⟨_, _, _, _, _, _, _, _, _, _, _, _, _, _, _, _, rfl⟩

theorem TouchesFinalize.render {a b : State} : TouchesFinalize a b → TouchesRender a b := by
  rintro ⟨_, _, _, _, _, _, rfl⟩; exact ⟨_, _, _, _, _, _, _, _, _, _, _, _, _, _, _, _, rfl⟩

theorem TouchesRender.avm {a b : State} : TouchesRender a b → TouchesAvm a b := by
  rintro ⟨_, _, _, _, _, _, _, _, _, _, _, _, _, _, _, _, rfl⟩; exact ⟨rfl, rfl, rfl, rfl⟩

/-! ### Voices -/

theorem vpbFetch_readsOnly (v : Half) : (vpbFetch v).ReadsOnly :=
  Act.ReadsOnly.bind .get fun _ => .bind (readWords_readsOnly _ _ _) fun _ => .pure _

theorem decodeAfcBlock_readsOnly (f : Vpb) (k : StreamKind) (blk : Nat) :
    (decodeAfcBlock f k blk).ReadsOnly :=
  Act.ReadsOnly.bind (readSampleBytes_readsOnly _ _) fun _ => .bind .get fun _ => .pure _

theorem rawSample_readsOnly (f : Vpb) (k : StreamKind) (fresh : Bool) :
    (rawSample f k fresh).ReadsOnly := by
  unfold rawSample
  cases k
  · exact .bind (readSampleBytes_readsOnly _ _) fun _ => .pure _
  · exact .bind (readSampleBytes_readsOnly _ _) fun _ => .pure _
  · dsimp only
    split
    · exact .bind (decodeAfcBlock_readsOnly _ _ _) fun _ => .pure _
    · exact .bind (.pure _) fun _ => .pure _
  · dsimp only
    split
    · exact .bind (decodeAfcBlock_readsOnly _ _ _) fun _ => .pure _
    · exact .bind (.pure _) fun _ => .pure _
  · exact .bind (readBytes_readsOnly _ _ _) fun _ => .pure _

theorem nextSample_readsOnly (f : Vpb) (k : StreamKind) : (nextSample f k).ReadsOnly := by
  have h (f : Vpb) (fresh : Bool) : (fetchAt f k fresh).ReadsOnly :=
    .bind (rawSample_readsOnly f k fresh) fun _ => .pure _
  unfold nextSample
  split
  · exact h f false
  · split
    · exact .pure _
    · dsimp only
      split
      · exact h _ true
      · exact .pure _

theorem nextSamples_readsOnly (k : StreamKind) (n : Nat) (f : Vpb) : (nextSamples k n f).ReadsOnly := by
  induction n generalizing f with
  | zero => exact .pure _
  | succ n ih => exact .bind (nextSample_readsOnly f k) fun r => .bind (ih r.2) fun _ => .pure _

theorem resample_readsOnly (f : Vpb) (k : StreamKind) : (resample f k).ReadsOnly :=
  .bind (nextSamples_readsOnly k _ f) fun _ => .bind .get fun _ => .pure _

/-- Step 1 of `AddVoice` reads; a validated voice has a source (43_sources_resample.md R241). -/
theorem loadVoiceSamples_readsOnly {f : Vpb}
    (h : f.useConstantSample ≠ 0 ∨ SourceKind.ofType f.sourceType ≠ none) :
    (loadVoiceSamples f).ReadsOnly := by
  unfold loadVoiceSamples
  split
  · exact .pure _
  · rename_i hc
    split
    · exact .pure _
    · exact .bind .get fun _ => .pure _
    · exact resample_readsOnly f _
    · rename_i hn
      exact absurd hn (h.resolve_left hc)

theorem voiceDefect_ne_none {p : Platform} {f : Vpb} {c : HaltCause} (h : voiceDefect p f = some c) :
    c ≠ .none := by
  unfold voiceDefect at h
  split at h
  · cases h; decide
  · split at h <;> cases h; decide

theorem storeWords_at (a : Addr) (ws : List Half) (s : State) : Act.At TouchesMain (storeWords a ws) s := by
  obtain ⟨r, -, ⟨-, h⟩ | ⟨-, h⟩⟩ := storeWords_cases a ws s
  · exact .inl ⟨(), _, h, _, rfl⟩
  · exact .inr ⟨_, _, by decide, h, _, rfl⟩

theorem vpbStore_at (v : Half) (f : Vpb) (s : State) : Act.At TouchesMain (vpbStore v f) s :=
  storeWords_at _ _ s

theorem mixEnabledVoice_at (v : Half) (f : Vpb) (s : State)
    (h : f.useConstantSample ≠ 0 ∨ SourceKind.ofType f.sourceType ≠ none) :
    Act.At TouchesVoice (mixEnabledVoice v f) s := by
  refine Act.At.bind TouchesVoice.seq ((loadVoiceSamples_readsOnly h).at (.refl s)) ?_
  intro r t hr _
  have := (loadVoiceSamples_readsOnly h).eq_of_ok hr
  subst this
  have h2 := vpbStore_at v
    (clearReset (mixVoice t.cfg t.tables r.1 (endRequest t.cfg r.2) t.buses).1)
    { t with buses := (mixVoice t.cfg t.tables r.1 (endRequest t.cfg r.2) t.buses).2 }
  rcases h2 with ⟨a, u, hu, m, rfl⟩ | ⟨c, u, hc, hu, m, rfl⟩
  · exact .inl ⟨a, _, hu, _, _, rfl⟩
  · exact .inr ⟨c, _, hc, hu, _, _, rfl⟩

/-- `AddVoice` touches the buses and `MAIN`. -/
theorem addVoice_at (v : Half) (s : State) : Act.At TouchesVoice (addVoice v) s := by
  refine Act.At.bind TouchesVoice.seq ((vpbFetch_readsOnly v).at (.refl s)) ?_
  intro f t hf _
  split
  · exact .inl ⟨_, t, rfl, .refl t⟩
  · show Act.At TouchesVoice (get >>= _) t
    unfold Act.At
    rw [Act.get_bind]
    cases hd : voiceDefect t.cfg f with
    | some c => exact Act.At.halt (voiceDefect_ne_none hd) (.refl t)
    | none =>
      refine mixEnabledVoice_at v f t ?_
      unfold voiceDefect at hd
      split at hd
      · cases hd
      · rename_i h; exact Classical.not_and_iff_not_or_not.mp h

/-! ### Reverb -/

theorem rpbFetch_readsOnly (r : Nat) : (rpbFetch r).ReadsOnly :=
  Act.ReadsOnly.bind .get fun _ => readWords_readsOnly _ _ _

theorem rpbDefect_ne_none {p : Rpb} {c : HaltCause} (h : rpbDefect p = some c) : c ≠ .none := by
  unfold rpbDefect at h
  split at h
  · cases h; decide
  · split at h <;> cases h; decide

theorem preUnit_at (r : Nat) (s : State) : Act.At TouchesPrepare (preUnit r) s := by
  refine Act.At.bind TouchesPrepare.seq ((rpbFetch_readsOnly r).at (.refl s)) ?_
  intro p t _ _
  split
  · cases hd : rpbDefect p with
    | some c => exact Act.At.halt (rpbDefect_ne_none hd) (.refl t)
    | none =>
      show Act.At TouchesPrepare (preEnabled r p) t
      unfold preEnabled Act.At
      rw [Act.get_bind]
      refine Act.At.bind TouchesPrepare.seq ((readWords_readsOnly _ _ _).at (.refl t)) ?_
      intro raw u hraw _
      cases (readWords_readsOnly _ _ _).eq_of_ok hraw
      exact .inl ⟨⟨⟩, _, rfl, _, _, _, _, rfl⟩
  · exact .inl ⟨_, t, rfl, .refl t⟩

theorem postUnit_at (r : Nat) (s : State) : Act.At TouchesFinalize (postUnit r) s := by
  refine Act.At.bind TouchesFinalize.seq ((rpbFetch_readsOnly r).at (.refl s)) ?_
  intro p t _ _
  split
  · split
    · exact Act.At.halt (by decide) (.refl t)
    · unfold postEnabled Act.At
      rw [Act.get_bind]
      refine Act.At.bind TouchesFinalize.seq ((storeWords_at _ _ t).mono fun _ _ => TouchesMain.finalize) ?_
      intro _ u _ _
      exact .inl ⟨⟨⟩, _, rfl, _, _, _, _, _, _, rfl⟩
  · exact .inl ⟨_, t, rfl, .refl t⟩

theorem forUnits_at {T : State → State → Prop} (trans : ∀ a b c, T a b → T b c → T a c)
    {unit : Nat → Act Unit} (h : ∀ r s, Act.At T (unit r) s) (s : State) :
    Act.At T (forUnits unit) s :=
  Act.At.bind trans (h 0 s) fun _ t _ _ => Act.At.bind trans (h 1 t) fun _ t _ _ =>
    Act.At.bind trans (h 2 t) fun _ t _ _ => h 3 t

/-! ### Frames -/

/-- `PrepareFrame` touches the buses, the reverb units, the patterns and `prepared`. -/
theorem prepareFrame_at (s : State) : Act.At TouchesPrepare prepareFrame s := by
  unfold prepareFrame Act.At
  rw [Act.get_bind]
  split
  · exact .inl ⟨_, s, rfl, .refl s⟩
  · split
    · exact Act.At.halt (by decide) (.refl s)
    · rw [Act.modify_bind]
      have h := Act.At.bind (f := fun _ => modify State.closePrepare) TouchesPrepare.seq
        (forUnits_at TouchesPrepare.seq preUnit_at { s with buses := prepareBuses s.cfg s.buses })
        (fun _ t _ _ => .inl ⟨⟨⟩, t.closePrepare, rfl, _, _, _, _, rfl⟩)
      have h0 : TouchesPrepare s { s with buses := prepareBuses s.cfg s.buses } := ⟨_, _, _, _, rfl⟩
      rcases h with ⟨a, t, ha, ht⟩ | ⟨c, t, hc, ha, ht⟩
      · exact .inl ⟨a, t, ha, h0.trans ht⟩
      · exact .inr ⟨c, t, hc, ha, h0.trans ht⟩

theorem advanceOut_at (s : State) : Act.At TouchesFinalize (modify State.advanceOut) s :=
  .inl ⟨⟨⟩, s.advanceOut, rfl, _, _, _, _, _, _, rfl⟩

theorem writeFrame_at (s : State) : Act.At TouchesFinalize writeFrame s := by
  have h0 : TouchesFinalize s s.scaleFront := ⟨_, _, _, _, _, _, rfl⟩
  unfold writeFrame Act.At
  rw [Act.modify_bind, Act.get_bind]
  have h := Act.At.bind
    (f := fun _ => do storeWords s.scaleFront.outR s.scaleFront.buses.fr; modify State.advanceOut)
    TouchesFinalize.seq
    ((storeWords_at s.scaleFront.outL s.scaleFront.buses.fl s.scaleFront).mono
      fun _ _ => TouchesMain.finalize)
    (fun _ t _ _ => Act.At.bind TouchesFinalize.seq
      ((storeWords_at s.scaleFront.outR s.scaleFront.buses.fr t).mono fun _ _ => TouchesMain.finalize)
      fun _ u _ _ => advanceOut_at u)
  rcases h with ⟨a, t, ha, ht⟩ | ⟨c, t, hc, ha, ht⟩
  · exact .inl ⟨a, t, ha, h0.trans ht⟩
  · exact .inr ⟨c, t, hc, ha, h0.trans ht⟩

/-- `FinalizeFrame` touches the buses, `MAIN`, the output addresses, the reverb units and `prepared`. -/
theorem finalizeFrame_at (s : State) : Act.At TouchesFinalize finalizeFrame s := by
  unfold finalizeFrame Act.At
  rw [Act.get_bind]
  split
  · exact .inl ⟨_, s, rfl, .refl s⟩
  · split
    · exact Act.At.halt (by decide) (.refl s)
    · exact Act.At.bind TouchesFinalize.seq (writeFrame_at s) fun _ t _ _ =>
        Act.At.bind TouchesFinalize.seq (forUnits_at TouchesFinalize.seq postUnit_at t)
          fun _ u _ _ => .inl ⟨⟨⟩, _, rfl, _, _, _, _, _, _, rfl⟩

/-! ### Rendering -/

theorem visitVoice_at (s : State) : Act.At TouchesVoice visitVoice s := by
  unfold visitVoice Act.At
  rw [Act.get_bind]
  split
  · exact addVoice_at _ s
  · exact .inl ⟨_, s, rfl, .refl s⟩

theorem renderVoices_at (n : Nat) (s : State) : Act.At TouchesRender (renderVoices n) s := by
  induction n generalizing s with
  | zero => exact .inl ⟨_, s, rfl, .refl s⟩
  | succ n ih =>
    unfold renderVoices Act.At
    rw [Act.get_bind]
    split
    · exact .inl ⟨_, s, rfl, .refl s⟩
    · refine Act.At.bind TouchesRender.seq
        ((visitVoice_at s).mono fun _ _ => TouchesVoice.render) fun _ t _ _ => ?_
      have h0 : TouchesRender t t.nextVoice := ⟨_, _, _, _, _, _, _, _, _, _, _, _, _, _, _, _, rfl⟩
      rcases ih t.nextVoice with ⟨a, u, ha, hu⟩ | ⟨c, u, hc, ha, hu⟩
      · exact .inl ⟨a, u, ha, h0.trans hu⟩
      · exact .inr ⟨c, u, hc, ha, h0.trans hu⟩

theorem State.frameDone_touches (s : State) : TouchesRender s s.frameDone := by
  unfold State.frameDone
  split
  · exact .refl s
  · exact ⟨_, _, _, _, _, _, _, _, _, _, _, _, _, _, _, _, rfl⟩

theorem closeFrame_at (s : State) : Act.At TouchesRender closeFrame s := by
  unfold closeFrame Act.At
  rw [Act.modify_bind]
  have h := Act.At.bind (f := fun _ => modify State.nextFrame) TouchesRender.seq
    ((finalizeFrame_at s.frameDone).mono fun _ _ => TouchesFinalize.render)
    (fun _ t _ _ => .inl ⟨⟨⟩, t.nextFrame, rfl,
      _, _, _, _, _, _, _, _, _, _, _, _, _, _, _, _, rfl⟩)
  rcases h with ⟨a, t, ha, ht⟩ | ⟨c, t, hc, ha, ht⟩
  · exact .inl ⟨a, t, ha, s.frameDone_touches.trans ht⟩
  · exact .inr ⟨c, t, hc, ha, s.frameDone_touches.trans ht⟩

theorem renderFrames_at (n : Nat) (s : State) : Act.At TouchesRender (renderFrames n) s := by
  induction n generalizing s with
  | zero =>
    exact .inl ⟨⟨⟩, s.renderDone, rfl, _, _, _, _, _, _, _, _, _, _, _, _, _, _, _, _, rfl⟩
  | succ n ih =>
    unfold renderFrames
    refine Act.At.bind TouchesRender.seq ((prepareFrame_at s).mono fun _ _ => TouchesPrepare.render) fun _ t _ _ => ?_
    unfold Act.At
    rw [Act.get_bind]
    refine Act.At.bind TouchesRender.seq (renderVoices_at _ t) fun y u _ _ => ?_
    split
    · exact .inl ⟨_, u, rfl, .refl u⟩
    · exact Act.At.bind TouchesRender.seq (closeFrame_at u) fun _ v _ _ => ih v

/-- The rendering loop touches what rendering touches. -/
theorem renderAudio_at (s : State) : Act.At TouchesRender renderAudio s := renderFrames_at _ s

end Sys2Proof.Machine
end

