-- ==== Sys2Proof/Laws/Commands.lean ====
section
/-! SUPPORT. What the commands, the dispatch loop, the ports and one step may touch; and that every step
keeps the configuration. -/

namespace Sys2Proof.Machine

/-! ### Commands -/

theorem State.pushEvent_touches (s : State) (w : Word) : TouchesAvm s (s.pushEvent w) :=
  ⟨rfl, rfl, rfl, rfl⟩

theorem ack_at (sync : BitVec 7) (s : State) : Act.At TouchesAvm (ack sync) s :=
  .inl ⟨⟨⟩, s.pushEvent (ackWord sync), rfl, rfl, rfl, rfl, rfl⟩

/-- What a table load does: the elements that could be read are stored; then it completes, or halts. -/
theorem loadTable_cases (n : Nat) (a : Addr) (read : Tables → List Sample)
    (put : Tables → List Sample → Tables) (s : State) :
    ∃ ws, ws = s.wordsUntil .main n a ∧
      ((ws.length = n ∧ loadTable n a read put s =
          .ok () { s with tables := put s.tables (overwrite (read s.tables) ws) }) ∨
        (ws.length ≠ n ∧ loadTable n a read put s = .error .busError
          ({ s with tables := put s.tables (overwrite (read s.tables) ws) }.haltWith .busError))) := by
  refine ⟨_, rfl, ?_⟩
  unfold loadTable
  by_cases h : (s.wordsUntil .main n a).length = n <;> simp [h]

/-- A table whose words all answer is loaded whole. -/
theorem loadTable_ok {n : Nat} {a : Addr} {read : Tables → List Sample}
    {put : Tables → List Sample → Tables} {s : State} {ws : List Half}
    (h : s.words? .main n a = some ws) (hl : (read s.tables).length = n) :
    loadTable n a read put s = .ok () { s with tables := put s.tables ws } := by
  have hn := State.words?_length h
  have hu := State.wordsUntil_of_words? h
  unfold loadTable
  simp [hu, hn, overwrite, List.drop_eq_nil_of_le (Nat.le_of_eq hl)]

/-- A table whose `k`-th word is the first that does not answer: the words before it are stored, and the load
halts. -/
theorem loadTable_error {n k : Nat} {a : Addr} {read : Tables → List Sample}
    {put : Tables → List Sample → Tables} {s : State} {ws : List Half} (hk : k < n)
    (h : s.words? .main k a = some ws) (hb : s.read16? .main (a + BitVec.ofNat 32 (2 * k)) = none) :
    loadTable n a read put s = .error .busError
      ({ s with tables := put s.tables (ws ++ (read s.tables).drop k) }.haltWith .busError) := by
  have hl := State.words?_length h
  unfold loadTable
  rw [State.wordsUntil_of_break hk h hb, if_neg (by omega)]
  simp [overwrite, hl]

theorem loadTable_at (n : Nat) (a : Addr) (read : Tables → List Sample)
    (put : Tables → List Sample → Tables) (s : State) :
    Act.At TouchesAvm (loadTable n a read put) s := by
  obtain ⟨ws, -, ⟨-, h⟩ | ⟨-, h⟩⟩ := loadTable_cases n a read put s
  · exact .inl ⟨(), _, h, rfl, rfl, rfl, rfl⟩
  · exact .inr ⟨_, _, by decide, h, rfl, rfl, rfl, rfl⟩

theorem loadSineUnlessLight_at (a : Addr) (s : State) :
    Act.At TouchesAvm (loadSineUnlessLight a) s := by
  unfold loadSineUnlessLight Act.At
  rw [Act.get_bind]
  split
  · exact .inl ⟨_, s, rfl, .refl s⟩
  · exact loadTable_at _ _ _ _ s

/-- A change that keeps what the AVM may not touch, made before an operation, passes through it. -/
theorem Act.At.after {T : State → State → Prop} (trans : ∀ a b c, T a b → T b c → T a c) {α : Type}
    {act : Act α} {g : State → State} {s : State} (hg : T s (g s)) (h : Act.At T act (g s)) :
    Act.At T (modify g >>= fun _ => act) s := by
  unfold Act.At
  rw [Act.modify_bind]
  rcases h with ⟨a, t, ha, ht⟩ | ⟨c, t, hc, ha, ht⟩
  · exact .inl ⟨a, t, ha, trans _ _ _ hg ht⟩
  · exact .inr ⟨c, t, hc, ha, trans _ _ _ hg ht⟩

theorem doSetup_at (sync : BitVec 7) (vpb resample pattern afc rpb : Addr) (s : State) :
    Act.At TouchesAvm (doSetup sync vpb resample pattern afc rpb) s := by
  unfold doSetup
  refine .after TouchesAvm.seq ⟨rfl, rfl, rfl, rfl⟩ ?_
  refine .bind TouchesAvm.seq (loadTable_at _ _ _ _ _) fun _ t _ _ => ?_
  refine .bind TouchesAvm.seq (loadTable_at _ _ _ _ _) fun _ t _ _ => ?_
  refine .bind TouchesAvm.seq (loadSineUnlessLight_at _ _) fun _ t _ _ => ?_
  refine .bind TouchesAvm.seq (loadTable_at _ _ _ _ _) fun _ t _ _ => ?_
  exact .after TouchesAvm.seq ⟨rfl, rfl, rfl, rfl⟩ (ack_at _ _)

theorem renderAudio_avm (s : State) : Act.At TouchesAvm renderAudio s :=
  (renderAudio_at s).mono fun _ _ => TouchesRender.avm

theorem doStartRender_at (voices frames vol : Half) (outL outR : Addr) (s : State) :
    Act.At TouchesAvm (doStartRender voices frames vol outL outR) s := by
  unfold doStartRender Act.At
  rw [Act.get_bind]
  split
  · exact Act.At.halt (by decide) (.refl s)
  · exact Act.At.after TouchesAvm.seq ⟨rfl, rfl, rfl, rfl⟩ (renderAudio_avm _)

theorem doSetSampleBase_at (sync : BitVec 7) (base : Addr) (s : State) :
    Act.At TouchesAvm (doSetSampleBase sync base) s := by
  unfold doSetSampleBase Act.At
  rw [Act.get_bind]
  split
  · exact Act.At.halt (by decide) (.refl s)
  · exact Act.At.after TouchesAvm.seq ⟨rfl, rfl, rfl, rfl⟩ (ack_at _ _)

theorem prepareFrame_avm (s : State) : Act.At TouchesAvm prepareFrame s :=
  (prepareFrame_at s).mono fun _ _ h => h.render.avm

theorem addVoice_avm (v : Half) (s : State) : Act.At TouchesAvm (addVoice v) s :=
  (addVoice_at v s).mono fun _ _ h => h.render.avm

theorem finalizeFrame_avm (s : State) : Act.At TouchesAvm finalizeFrame s :=
  (finalizeFrame_at s).mono fun _ _ h => h.render.avm

theorem executeCommand_at (i : Instr) (s : State) : Act.At TouchesAvm (executeCommand i) s := by
  cases i with
  | nop sync => exact ack_at sync s
  | setup sync vpb resample pattern afc rpb => exact doSetup_at _ _ _ _ _ _ s
  | startRender _ voices frames vol outL outR => exact doStartRender_at _ _ _ _ _ s
  | setSampleBase sync base => exact doSetSampleBase_at _ _ s
  | prepareFrame sync => exact .bind TouchesAvm.seq (prepareFrame_avm s) fun _ _ _ _ => ack_at _ _
  | addVoice sync voice =>
    exact .bind TouchesAvm.seq (prepareFrame_avm s) fun _ _ _ _ =>
      .bind TouchesAvm.seq (addVoice_avm _ _) fun _ _ _ _ => ack_at _ _
  | finalizeFrame sync => exact .bind TouchesAvm.seq (finalizeFrame_avm s) fun _ _ _ _ => ack_at _ _
  | reserved _ _ _ => exact Act.At.halt (by decide) (.refl s)
  | sync _ _ => exact Act.At.halt (by decide) (.refl s)
  | sync2 _ _ => exact Act.At.halt (by decide) (.refl s)
  | sync0 => exact Act.At.halt (by decide) (.refl s)
  | cont => exact Act.At.halt (by decide) (.refl s)
  | reset => exact Act.At.halt (by decide) (.refl s)

/-- A decoded command is executed by its meaning. -/
theorem exec_eq_executeCommand {i : Instr} {extra : Bool} (h : i.context extra = .header extra) (s : State) :
    exec i s = (executeCommand i).outcome s := by
  cases i <;> first | rfl | cases h

/-! ### The dispatch loop and the port -/

theorem bufPop_at (s : State) : Act.At TouchesAvm bufPop s := by
  unfold bufPop Act.At
  rw [Act.get_bind]
  split
  · exact Act.At.halt (by decide) (.refl s)
  · exact .inl ⟨_, _, rfl, rfl, rfl, rfl, rfl⟩

theorem popHeader_at (n : Nat) (s : State) : Act.At TouchesAvm (popHeader n) s := by
  induction n generalizing s with
  | zero => exact Act.At.halt (by decide) (.refl s)
  | succ n ih =>
    refine .bind TouchesAvm.seq (bufPop_at s) fun w t _ _ => ?_
    split
    · exact .inl ⟨_, t, rfl, .refl t⟩
    · exact ih t

theorem popOperands_at (n : Nat) (s : State) : Act.At TouchesAvm (popOperands n) s := by
  induction n generalizing s with
  | zero => exact .inl ⟨_, s, rfl, .refl s⟩
  | succ n ih =>
    exact .bind TouchesAvm.seq (bufPop_at s) fun w t _ _ =>
      .bind TouchesAvm.seq (ih t) fun ws u _ _ => .inl ⟨_, u, rfl, .refl u⟩

theorem fetchCommand_at (s : State) : Act.At TouchesAvm fetchCommand s := by
  unfold fetchCommand Act.At
  rw [Act.get_bind]
  refine Act.At.bind TouchesAvm.seq (popHeader_at _ s) fun h t _ _ => ?_
  refine .bind TouchesAvm.seq (popOperands_at _ t) fun ops u _ _ => ?_
  refine .after TouchesAvm.seq ⟨rfl, rfl, rfl, rfl⟩ ?_
  split
  · exact .inl ⟨_, _, rfl, .refl _⟩
  · exact Act.At.halt (by decide) (.refl _)

theorem dispatchLoop_at (n : Nat) (s : State) : Act.At TouchesAvm (dispatchLoop n) s := by
  induction n generalizing s with
  | zero => exact .inl ⟨_, s, rfl, .refl s⟩
  | succ n ih =>
    unfold dispatchLoop Act.At
    rw [Act.get_bind]
    split
    · exact Act.At.bind TouchesAvm.seq (fetchCommand_at s) fun i t _ _ =>
        .bind TouchesAvm.seq (executeCommand_at i t) fun _ u _ _ => ih u
    · exact .inl ⟨_, s, rfl, .refl s⟩

theorem runPendingCommands_at (s : State) : Act.At TouchesAvm runPendingCommands s := dispatchLoop_at _ s

theorem bufPush_at (w : Word) (s : State) : Act.At TouchesAvm (bufPush w) s := by
  unfold bufPush Act.At
  rw [Act.get_bind]
  split
  · exact Act.At.halt (by decide) (.refl s)
  · exact .inl ⟨_, _, rfl, rfl, rfl, rfl, rfl⟩

theorem headerWord_at (w : Word) (s : State) : Act.At TouchesAvm (headerWord w) s := by
  refine .bind TouchesAvm.seq (bufPush_at w s) fun _ t _ _ => ?_
  unfold Act.At
  rw [Act.get_bind]
  dsimp only
  split
  · exact Act.At.after TouchesAvm.seq ⟨rfl, rfl, rfl, rfl⟩ (runPendingCommands_at _)
  · exact .inl ⟨_, _, rfl, rfl, rfl, rfl, rfl⟩

theorem operandWord_at (w : Word) (s : State) : Act.At TouchesAvm (operandWord w) s := by
  refine .bind TouchesAvm.seq (bufPush_at w s) fun _ t _ _ => ?_
  refine .after TouchesAvm.seq ⟨rfl, rfl, rfl, rfl⟩ ?_
  unfold Act.At
  rw [Act.get_bind]
  split
  · exact Act.At.after TouchesAvm.seq ⟨rfl, rfl, rfl, rfl⟩ (runPendingCommands_at _)
  · exact .inl ⟨_, _, rfl, .refl _⟩

theorem resumeRender_at (s : State) : Act.At TouchesAvm resumeRender s := by
  refine .bind TouchesAvm.seq (renderAudio_avm s) fun _ t _ _ => ?_
  unfold Act.At
  rw [Act.get_bind]
  split
  · exact runPendingCommands_at t
  · exact .inl ⟨_, _, rfl, .refl _⟩

theorem doContinue_at (s : State) : Act.At TouchesAvm doContinue s := by
  unfold doContinue Act.At
  rw [Act.get_bind]
  split
  · exact .inl ⟨_, _, rfl, .refl _⟩
  · rw [Act.set_bind]
    split
    · exact Act.At.mono (fun _ _ h => h) (runPendingCommands_at _)
    · exact .inl ⟨_, _, rfl, rfl, rfl, rfl, rfl⟩

/-! ### Instructions -/

/-- An operation that touches only what the AVM may leaves a state that differs only there. -/
theorem Act.At.touches {act : Act Unit} {s : State} (h : Act.At TouchesAvm act s) :
    TouchesAvm s (act.final s) := by
  rcases h.final with h | ⟨c, t, -, hf, h⟩
  · exact h
  · rw [hf]; exact h

/-- Every instruction completes in a state that keeps the configuration, `SAMPLE` and the host's side. -/
theorem exec_touches (i : Instr) (s : State) : ∃ t, exec i s = .next t ∧ TouchesAvm s t := by
  by_cases h : i.context false = .header false
  · exact ⟨_, exec_eq_executeCommand h s, (executeCommand_at i s).touches⟩
  · cases i with
    | sync b m =>
      exact ⟨_, rfl, (Act.At.after TouchesAvm.seq ⟨rfl, rfl, rfl, rfl⟩ (resumeRender_at _)).touches⟩
    | sync2 a b =>
      exact ⟨_, rfl, (Act.At.after TouchesAvm.seq ⟨rfl, rfl, rfl, rfl⟩ (resumeRender_at _)).touches⟩
    | sync0 =>
      exact ⟨_, rfl, (Act.At.after TouchesAvm.seq ⟨rfl, rfl, rfl, rfl⟩ (resumeRender_at _)).touches⟩
    | cont => exact ⟨_, rfl, (doContinue_at s).touches⟩
    | reset => exact ⟨_, rfl, rfl, rfl, rfl, rfl⟩
    | nop _ | setup _ _ _ _ _ _ | startRender _ _ _ _ _ _ | setSampleBase _ _ | prepareFrame _
    | addVoice _ _ | finalizeFrame _ | reserved _ _ _ => exact absurd rfl h

end Sys2Proof.Machine
end

