-- ==== Sys2Proof/Laws/Buffer.lean ====
section
/-! SUPPORT. The command buffer: what a push, a pop and the fetch of one command do to its contents. -/

namespace Sys2Proof.Machine

/-! ### Contents -/

/-- The word at distance `i` behind the read cursor. -/
def CmdBuffer.at (c : CmdBuffer) (i : Nat) : Word := c.buf.getD (c.rd + BitVec.ofNat 6 i).toNat 0

theorem CmdBuffer.contents_eq (c : CmdBuffer) : c.contents = (List.range c.words).map c.at := rfl

@[simp] theorem CmdBuffer.contents_length (c : CmdBuffer) : c.contents.length = c.words := by
  simp [CmdBuffer.contents]

theorem CmdBuffer.contents_getElem? (c : CmdBuffer) (i : Nat) :
    c.contents[i]? = if i < c.words then some (c.at i) else none := by
  rw [CmdBuffer.contents_eq, List.getElem?_map]
  by_cases h : i < c.words
  · simp [h]
  · simp [h]

/-- The buffer with its first `n` words gone. -/
def CmdBuffer.skip (c : CmdBuffer) (n : Nat) : CmdBuffer :=
  { c with rd := c.rd + BitVec.ofNat 6 n, words := c.words - n }

theorem CmdBuffer.at_skip (c : CmdBuffer) (n i : Nat) : (c.skip n).at i = c.at (n + i) := by
  unfold CmdBuffer.at CmdBuffer.skip
  congr 2
  rw [BitVec.add_assoc]
  congr 1
  apply BitVec.eq_of_toNat_eq
  simp [BitVec.toNat_add]

theorem CmdBuffer.contents_skip (c : CmdBuffer) (n : Nat) : (c.skip n).contents = c.contents.drop n := by
  apply List.ext_getElem?
  intro i
  rw [CmdBuffer.contents_getElem?, List.getElem?_drop, CmdBuffer.contents_getElem?, CmdBuffer.at_skip]
  have : (c.skip n).words = c.words - n := rfl
  rw [this]
  by_cases h : n + i < c.words
  · rw [if_pos h, if_pos (by omega)]
  · rw [if_neg h, if_neg (by omega)]

theorem CmdBuffer.pop_eq_skip (c : CmdBuffer) : c.pop = c.skip 1 := rfl

theorem CmdBuffer.skip_skip (c : CmdBuffer) (m n : Nat) : (c.skip m).skip n = c.skip (m + n) := by
  simp only [CmdBuffer.skip, Nat.sub_sub, BitVec.add_assoc]
  congr 2
  apply BitVec.eq_of_toNat_eq
  simp [BitVec.toNat_add]

theorem CmdBuffer.front_eq (c : CmdBuffer) : c.front = c.at 0 := by
  simp [CmdBuffer.front, CmdBuffer.at]

theorem CmdBuffer.at_of_contents {c : CmdBuffer} {h : Word} {ws : List Word} (e : c.contents = h :: ws) :
    c.at 0 = h ∧ 0 < c.words := by
  have h0 := CmdBuffer.contents_getElem? c 0
  rw [e] at h0
  by_cases hw : 0 < c.words
  · rw [if_pos hw] at h0
    simp at h0
    exact ⟨h0.symm, hw⟩
  · rw [if_neg hw] at h0
    simp at h0

/-- A push into a buffer with room adds its word at the end. -/
theorem CmdBuffer.contents_push (c : CmdBuffer) (w : Word) (hl : c.buf.length = 64) (hw : c.words < 64)
    (hwr : c.wr = c.rd + BitVec.ofNat 6 c.words) : (c.push w).contents = c.contents ++ [w] := by
  have hpos (i : Nat) (hi : i < 64) (h : i ≠ c.words) : (c.rd + BitVec.ofNat 6 i).toNat ≠ c.wr.toNat := by
    rw [hwr]
    intro e
    have := BitVec.eq_of_toNat_eq e
    have := congrArg BitVec.toNat (add_left_cancel this)
    simp at this
    omega
  apply List.ext_getElem?
  intro i
  rw [CmdBuffer.contents_getElem?]
  have hn : (c.push w).words = c.words + 1 := rfl
  have hat : (c.push w).at i = (c.buf.set c.wr.toNat w).getD (c.rd + BitVec.ofNat 6 i).toNat 0 := rfl
  rw [hn]
  by_cases h : i < c.words
  · rw [if_pos (by omega), List.getElem?_append_left (by simpa using h), CmdBuffer.contents_getElem?,
      if_pos h, hat, List.getD_eq_getElem?_getD, List.getElem?_set,
      if_neg (hpos i (by omega) (by omega)).symm, ← List.getD_eq_getElem?_getD]
    rfl
  · by_cases h' : i = c.words
    · subst h'
      rw [if_pos (by omega), List.getElem?_append_right (by simp), hat, ← hwr,
        List.getD_eq_getElem?_getD, List.getElem?_set]
      have h64 : c.wr.toNat < 64 := c.wr.isLt
      simp [hl, h64]
    · rw [if_neg (by omega), List.getElem?_eq_none (by simp; omega)]

/-! ### Operations -/

theorem bufPush_full {s : State} {w : Word} (h : s.cmd.words = 64) :
    bufPush w s = .error .cmdOverflow (s.haltWith .cmdOverflow) := by
  simp [bufPush, h]

theorem bufPush_room {s : State} {w : Word} (h : s.cmd.words ≠ 64) :
    bufPush w s = .ok ⟨⟩ { s with cmd := s.cmd.push w } := by
  simp [bufPush, h]

theorem bufPop_word {s : State} (h : 0 < s.cmd.words) :
    bufPop s = .ok (s.cmd.at 0) { s with cmd := s.cmd.skip 1 } := by
  unfold bufPop
  rw [Act.get_bind, if_neg (by omega), Act.set_bind, CmdBuffer.front_eq]
  rfl

/-- A header at the read cursor is popped at once: nothing is skipped (40_commands.md R136). -/
theorem popHeader_header {s : State} {n : Nat} (hn : 0 < n) (hw : 0 < s.cmd.words)
    (hb : headerBit (s.cmd.at 0) = true) :
    popHeader n s = .ok (s.cmd.at 0) { s with cmd := s.cmd.skip 1 } := by
  obtain ⟨m, rfl⟩ := Nat.exists_eq_succ_of_ne_zero (Nat.pos_iff_ne_zero.mp hn)
  unfold popHeader
  rw [Act.bind_ok (bufPop_word hw), if_pos hb]
  rfl

/-- Words that are there are popped in order. -/
theorem popOperands_words {s : State} {n : Nat} (h : n ≤ s.cmd.words) :
    popOperands n s = .ok (s.cmd.contents.take n) { s with cmd := s.cmd.skip n } := by
  induction n generalizing s with
  | zero =>
    have : s.cmd.skip 0 = s.cmd := by simp [CmdBuffer.skip]
    simp [popOperands, this]
  | succ n ih =>
    unfold popOperands
    rw [Act.bind_ok (bufPop_word (by omega))]
    have hle : n ≤ (s.cmd.skip 1).words := by
      show n ≤ s.cmd.words - 1
      omega
    rw [Act.bind_ok (ih (s := { s with cmd := s.cmd.skip 1 }) hle)]
    have hc : s.cmd.contents.take (n + 1) = s.cmd.at 0 :: (s.cmd.skip 1).contents.take n := by
      apply List.ext_getElem?
      intro i
      cases i with
      | zero =>
        rw [List.getElem?_take, CmdBuffer.contents_getElem?, if_pos (by omega), if_pos (by omega)]
        rfl
      | succ i =>
        rw [List.getElem?_cons_succ, List.getElem?_take, List.getElem?_take, CmdBuffer.contents_skip,
          List.getElem?_drop, Nat.add_comm 1 i]
        by_cases hi : i < n
        · rw [if_pos (by omega), if_pos hi]
        · rw [if_neg (by omega), if_neg hi]
    rw [Act.pure_apply, hc, CmdBuffer.skip_skip, Nat.add_comm 1 n]

/-- One command popped whole: a header at the read cursor and the operands behind it, where they are there
and decode (40_commands.md R135). -/
theorem fetchCommand_command {s : State} {h : Word} {ws : List Word} {i : Instr} {rest : List Word}
    (hc : s.cmd.contents = h :: ws) (hb : headerBit h = true)
    (hn : operandCount s.cfg.startExtraWords (headerOpcode h) ≤ ws.length)
    (hd : decode (.header s.cfg.startExtraWords)
      (h :: ws.take (operandCount s.cfg.startExtraWords (headerOpcode h))) = .ok (i, rest)) :
    fetchCommand s = .ok i
      { s with
        cmd :=
          { s.cmd.skip (1 + operandCount s.cfg.startExtraWords (headerOpcode h)) with
            pending := s.cmd.pending - 1 } } := by
  obtain ⟨h0, hw⟩ := CmdBuffer.at_of_contents hc
  have hlen : s.cmd.words = ws.length + 1 := by
    rw [← CmdBuffer.contents_length, hc]; rfl
  have hskip : (s.cmd.skip 1).contents = ws := by rw [CmdBuffer.contents_skip, hc]; rfl
  unfold fetchCommand
  rw [Act.get_bind]
  rw [Act.bind_ok (popHeader_header hw hw (by rw [h0]; exact hb)), h0]
  have hle : operandCount s.cfg.startExtraWords (headerOpcode h) ≤ (s.cmd.skip 1).words := by
    show _ ≤ s.cmd.words - 1
    omega
  rw [Act.bind_ok (popOperands_words (s := { s with cmd := s.cmd.skip 1 }) hle), Act.modify_bind]
  show (match decode (.header s.cfg.startExtraWords)
      (h :: (s.cmd.skip 1).contents.take (operandCount s.cfg.startExtraWords (headerOpcode h))) with
    | .ok (i, _) => (pure i : Act Instr)
    | .error _ => halt .unknownOpcode) _ = _
  rw [hskip, hd, CmdBuffer.skip_skip]
  rfl

/-- The dispatch loop with nothing to do. -/
theorem runPendingCommands_idle {s : State} (h : s.mayDispatch = false) :
    runPendingCommands s = .ok () s := by
  unfold runPendingCommands
  rw [Act.get_bind]
  cases s.cmd.pending with
  | zero => rfl
  | succ n =>
    unfold dispatchLoop
    rw [Act.get_bind]
    simp [h]

end Sys2Proof.Machine
end

