-- ==== Sys2Proof/Laws/Decode.lean ====
section
/-! SUPPORT. The fields of words: what is read back from a word put together from its fields. -/

namespace Sys2Proof

/-- The low part of two halves joined. -/
theorem extract_append_low (a b : Half) : ((a ++ b : BitVec (16 + 16)) : Word).extractLsb' 0 16 = b := by
  apply BitVec.eq_of_getLsbD_eq
  intro k hk
  have h := BitVec.getLsbD_append (x := a) (y := b) (i := k)
  simp only [hk, if_true] at h
  simpa [hk] using h

/-- The high part of two halves joined. -/
theorem extract_append_high (a b : Half) : ((a ++ b : BitVec (16 + 16)) : Word).extractLsb' 16 16 = a := by
  apply BitVec.eq_of_getLsbD_eq
  intro k hk
  have h := BitVec.getLsbD_append (x := a) (y := b) (i := 16 + k)
  have h16 : ¬ 16 + k < 16 := by omega
  simp only [h16, if_false, Nat.add_sub_cancel_left] at h
  simpa [hk] using h

/-- The mask of a default sync word (30_encoding.md R111). -/
theorem extract_sync_mask (b : BitVec 4) (m : Half) :
    ((0#12 ++ b ++ m : BitVec (12 + 4 + 16)) : Word).extractLsb' 0 16 = m := by
  apply BitVec.eq_of_getLsbD_eq
  intro k hk
  have h := BitVec.getLsbD_append (x := 0#12 ++ b) (y := m) (i := k)
  simp only [hk, if_true] at h
  simpa [hk] using h

/-- The batch of a default sync word (30_encoding.md R111). -/
theorem extract_sync_batch (b : BitVec 4) (m : Half) :
    ((0#12 ++ b ++ m : BitVec (12 + 4 + 16)) : Word).extractLsb' 16 4 = b := by
  apply BitVec.eq_of_getLsbD_eq
  intro k hk
  have h := BitVec.getLsbD_append (x := 0#12 ++ b) (y := m) (i := 16 + k)
  have h' := BitVec.getLsbD_append (x := 0#12) (y := b) (i := k)
  have h16 : ¬ 16 + k < 16 := by omega
  simp only [h16, if_false, Nat.add_sub_cancel_left, h', hk, if_true] at h
  simpa [hk] using h

/-- The bits of a header (30_encoding.md R101). -/
theorem encodeHeader_getLsbD (opcode sync : BitVec 7) (imm : Half) (k : Nat) :
    (encodeHeader opcode sync imm).getLsbD k =
      if k < 16 then imm.getLsbD k
      else if k < 23 then sync.getLsbD (k - 16)
      else if k < 24 then false
      else if k < 31 then opcode.getLsbD (k - 24)
      else decide (k = 31) := by
  have h1 := BitVec.getLsbD_append (x := 1#1 ++ opcode ++ 0#1 ++ sync) (y := imm) (i := k)
  have h2 := BitVec.getLsbD_append (x := 1#1 ++ opcode ++ 0#1) (y := sync) (i := k - 16)
  have h3 := BitVec.getLsbD_append (x := 1#1 ++ opcode) (y := 0#1) (i := k - 16 - 7)
  have h4 := BitVec.getLsbD_append (x := 1#1) (y := opcode) (i := k - 16 - 7 - 1)
  refine h1.trans ?_
  rw [h2, h3, h4]
  by_cases a : k < 16
  · simp [a]
  by_cases b : k < 23
  · have : k - 16 < 7 := by omega
    simp [a, b, this]
  by_cases c : k < 24
  · have e1 : ¬ k - 16 < 7 := by omega
    have e2 : k - 16 - 7 < 1 := by omega
    simp only [a, b, c, e1, e2, if_true, if_false]
    simp
  by_cases d : k < 31
  · have e1 : ¬ k - 16 < 7 := by omega
    have e2 : ¬ k - 16 - 7 < 1 := by omega
    have e3 : k - 16 - 7 - 1 < 7 := by omega
    have e4 : k - 16 - 7 - 1 = k - 24 := by omega
    simp only [a, b, c, d, e1, e2, e4, if_true, if_false]
    rw [if_pos (by omega)]
  · have e1 : ¬ k - 16 < 7 := by omega
    have e2 : ¬ k - 16 - 7 < 1 := by omega
    have e3 : ¬ k - 16 - 7 - 1 < 7 := by omega
    simp only [a, b, c, d, e1, e2, e3, if_false]
    by_cases e : k = 31
    · subst e; rfl
    · simp only [e, decide_false]
      exact BitVec.getLsbD_of_ge _ _ (by omega)

@[simp] theorem headerBit_encodeHeader (opcode sync : BitVec 7) (imm : Half) :
    headerBit (encodeHeader opcode sync imm) = true := by
  simp [headerBit, encodeHeader_getLsbD, -BitVec.getLsbD_eq_getElem]

@[simp] theorem headerOpcode_encodeHeader (opcode sync : BitVec 7) (imm : Half) :
    headerOpcode (encodeHeader opcode sync imm) = opcode := by
  apply BitVec.eq_of_getLsbD_eq
  intro k hk
  have h1 : ¬ 24 + k < 16 := by omega
  have h2 : ¬ 24 + k < 23 := by omega
  have h3 : ¬ 24 + k < 24 := by omega
  have h4 : 24 + k < 31 := by omega
  simp only [headerOpcode, BitVec.getLsbD_extractLsb', encodeHeader_getLsbD, hk, h1, h2, h3, h4, if_false,
    if_true, Nat.add_sub_cancel_left, decide_true, Bool.true_and]

@[simp] theorem headerSync_encodeHeader (opcode sync : BitVec 7) (imm : Half) :
    headerSync (encodeHeader opcode sync imm) = sync := by
  apply BitVec.eq_of_getLsbD_eq
  intro k hk
  have h1 : ¬ 16 + k < 16 := by omega
  have h2 : 16 + k < 23 := by omega
  simp only [headerSync, BitVec.getLsbD_extractLsb', encodeHeader_getLsbD, hk, h1, h2, if_false, if_true,
    Nat.add_sub_cancel_left, decide_true, Bool.true_and]

@[simp] theorem headerImm_encodeHeader (opcode sync : BitVec 7) (imm : Half) :
    headerImm (encodeHeader opcode sync imm) = imm := by
  apply BitVec.eq_of_getLsbD_eq
  intro k hk
  simp only [headerImm, BitVec.getLsbD_extractLsb', encodeHeader_getLsbD, hk, if_true, Nat.zero_add,
    decide_true, Bool.true_and]

/-! ### Headers -/

/-- A header whose opcode no other row has is a reserved command without operands. -/
theorem decodeHeader_reserved {extra : Bool} {h : Word} {ops : List Word} (hb : headerBit h = true)
    (ho : headerOpcode h ∉ ([0x00, 0x01, 0x02, 0x03, 0x10, 0x11, 0x12] : List (BitVec 7))) :
    decodeHeader extra h ops = .ok (.reserved (headerOpcode h) (headerSync h) (headerImm h), ops) := by
  simp only [List.mem_cons, List.not_mem_nil, or_false, not_or] at ho
  obtain ⟨h0, h1, h2, h3, h4, h5, h6⟩ := ho
  unfold decodeHeader
  rw [if_neg (by simp [hb]), if_neg h0, if_neg h1, if_neg h2, if_neg h3, if_neg h4, if_neg h5, if_neg h6]

end Sys2Proof
end

