-- ==== Sys2Proof/Laws/Frame.lean ====
section
/-! SUPPORT. Frames with silent reverb: what `PrepareFrame` and `FinalizeFrame` leave, and the voices that
rendering passes over. -/

namespace Sys2Proof.Machine

/-! ### Silent reverb -/

theorem State.rpbAddr_congr {s t : State} (h : t.rpbBase = s.rpbBase) (r : Nat) :
    t.rpbAddr r = s.rpbAddr r := by
  simp [State.rpbAddr, h]

/-- Whether the reverb is silent depends on the configuration, `MAIN` and the RPB base alone. -/
theorem State.reverbSilent_congr {s t : State} (hc : t.cfg = s.cfg) (hm : t.main = s.main)
    (hr : t.rpbBase = s.rpbBase) : t.reverbSilent = s.reverbSilent := by
  unfold State.reverbSilent
  refine congrArg (fun f => (List.range 4).all f) (funext fun r => ?_)
  rw [State.rpbAddr_congr hr, State.words?_congr hc (sp := .main) hm]

/-- A disabled unit, in the pre-render phase. -/
theorem preUnit_disabled {r : Nat} {s : State} {p : List Half}
    (h : s.words? .main 16 (s.rpbAddr r) = some p) (hp : Rpb.enabled p = false) :
    preUnit r s = .ok () s := by
  have hf : rpbFetch r s = .ok p s := by
    unfold rpbFetch
    rw [Act.get_bind]
    exact ofRead_some h
  unfold preUnit
  rw [Act.bind_ok hf]
  simp [hp]

/-- A disabled unit, in the post-render phase. -/
theorem postUnit_disabled {r : Nat} {s : State} {p : List Half}
    (h : s.words? .main 16 (s.rpbAddr r) = some p) (hp : Rpb.enabled p = false) :
    postUnit r s = .ok () s := by
  have hf : rpbFetch r s = .ok p s := by
    unfold rpbFetch
    rw [Act.get_bind]
    exact ofRead_some h
  unfold postUnit
  rw [Act.bind_ok hf]
  simp [hp]

theorem State.reverbSilent_unit {s : State} (h : s.reverbSilent = true) {r : Nat} (hr : r < 4) :
    ∃ p, s.words? .main 16 (s.rpbAddr r) = some p ∧ Rpb.enabled p = false := by
  have := List.all_eq_true.mp h r (List.mem_range.mpr hr)
  split at this
  · rename_i p hp
    exact ⟨p, hp, by simpa using this⟩
  · cases this

/-- Four units each of which leaves the state alone. -/
theorem forUnits_same {unit : Nat → Act Unit} {s : State} (h : ∀ r < 4, unit r s = .ok () s) :
    forUnits unit s = .ok () s := by
  unfold forUnits
  rw [Act.bind_ok (h 0 (by decide)), Act.bind_ok (h 1 (by decide)), Act.bind_ok (h 2 (by decide))]
  exact h 3 (by decide)

theorem applyReverbPre_silent {s : State} (h : s.reverbSilent = true) : applyReverbPre s = .ok () s :=
  forUnits_same fun _ hr =>
    let ⟨_, hw, hp⟩ := State.reverbSilent_unit h hr
    preUnit_disabled hw hp

theorem applyReverbPost_silent {s : State} (h : s.reverbSilent = true) : applyReverbPost s = .ok () s :=
  forUnits_same fun _ hr =>
    let ⟨_, hw, hp⟩ := State.reverbSilent_unit h hr
    postUnit_disabled hw hp

/-! ### `PrepareFrame` -/

theorem wrap16_toInt (x : Sample) : wrap16 x.toInt = x := by
  simp [wrap16]

/-- A constant mix into a silent bus is the scaled source. -/
theorem zipWith_mixSample_zero (g : Int) (n : Nat) (src : List Sample) (h : src.length ≤ n) :
    List.zipWith (mixSample g) (List.replicate n 0) src = src.map fun x => scale g x.toInt 15 := by
  induction src generalizing n with
  | nil => simp
  | cons x xs ih =>
    cases n with
    | zero => simp at h
    | succ n =>
      simp only [List.replicate_succ, List.zipWith_cons_cons, List.map_cons]
      rw [ih n (by simpa using h)]
      congr 1
      simp [mixSample, wrap16_toInt]

/-- The buses after a frame is prepared with silent reverb. -/
theorem foldBackReverb_prepareBuses (p : Platform) {b : Buses} (hb : b.full = true) :
    foldBackReverb p (prepareBuses p b) = quietBuses p b := by
  have hl : b.blRv.length = 80 := (Buses.full_iff b).mp hb .blRv
  have hr : b.brRv.length = 80 := (Buses.full_iff b).mp hb .brRv
  have h1 := zipWith_mixSample_zero p.reverbFrontGainL.toNat 80 b.blRv (Nat.le_of_eq hl)
  have h2 := zipWith_mixSample_zero p.reverbFrontGainR.toNat 80 b.brRv (Nat.le_of_eq hr)
  simp only [foldBackReverb, prepareBuses, quietBuses, Buses.mixConst, Buses.clear, Buses.scaleBus, Buses.set,
    Buses.get, frameLen]
  rw [h1, h2]

/-- An open frame is left as it is. -/
theorem State.frameOpen_of_prepared {s : State} (h : s.prepared = true) : s.frameOpen = s := by
  cases s
  simp_all [State.frameOpen]

/-- `PrepareFrame` where it can open a frame with silent reverb. -/
theorem prepareFrame_quiet {s : State} (h : s.canOpenFrame = true) :
    prepareFrame s = .ok () s.frameOpen := by
  unfold prepareFrame
  rw [Act.get_bind]
  cases hp : s.prepared with
  | true => simp [State.frameOpen_of_prepared hp]
  | false =>
    simp only [State.canOpenFrame, hp, Bool.false_or, Bool.and_eq_true] at h
    obtain ⟨⟨hs, hb⟩, hr⟩ := h
    have hs' : ¬ (!s.setupDone) = true := by simp [hs]
    rw [if_neg (by decide), if_neg hs', Act.modify_bind]
    have hq : applyReverbPre { s with buses := prepareBuses s.cfg s.buses } =
        .ok () { s with buses := prepareBuses s.cfg s.buses } :=
      applyReverbPre_silent ((State.reverbSilent_congr rfl rfl rfl).trans hr)
    rw [Act.bind_ok hq]
    simp only [Act.modify_apply, State.closePrepare, foldBackReverb_prepareBuses s.cfg hb, State.frameOpen, hp,
      Bool.false_eq_true, if_false]

/-! ### `FinalizeFrame` -/

theorem State.answers_iff {s : State} {a : Addr} {n : Nat} :
    s.answers a n = true ↔ ∀ i < n, s.cfg.mapped .main (a + BitVec.ofNat 32 i) = true := by
  simp [State.answers]

/-- The two output buffers written, every address answering. -/
theorem writeFrame_ok {s : State} (hb : s.buses.full = true) (hl : s.answers s.outL 160 = true)
    (hr : s.answers s.outR 160 = true) : writeFrame s = .ok () s.frameWritten := by
  have nl : s.buses.fl.length = 80 := (Buses.full_iff _).mp hb .fl
  have nr : s.buses.fr.length = 80 := (Buses.full_iff _).mp hb .fr
  rw [State.answers_iff] at hl hr
  unfold writeFrame
  rw [Act.modify_bind, Act.get_bind]
  have e1 := storeWords_ok (a := s.scaleFront.outL) (ws := s.scaleFront.buses.fl) (s := s.scaleFront) (by
    intro i hi
    exact hl i (by simpa [State.scaleFront, Buses.scaleBus, Buses.set, Buses.get, nl] using hi))
  rw [Act.bind_ok e1]
  rw [Act.bind_ok (storeWords_ok (by
    intro i hi
    exact hr i (by simpa [State.scaleFront, Buses.scaleBus, Buses.set, Buses.get, nr] using hi)))]
  rfl

/-- `FinalizeFrame` where it can close the frame with silent reverb. -/
theorem finalizeFrame_quiet {s : State} (h : s.canCloseFrame = true) :
    finalizeFrame s = .ok () { s.frameWritten with prepared := false } := by
  simp only [State.canCloseFrame, Bool.and_eq_true] at h
  obtain ⟨⟨⟨⟨⟨hp, ho⟩, hb⟩, hl⟩, hr⟩, hq⟩ := h
  unfold finalizeFrame
  rw [Act.get_bind]
  simp only [hp, ho, Bool.not_true, if_false, Bool.false_eq_true]
  rw [Act.bind_ok (writeFrame_ok hb hl hr), Act.bind_ok (applyReverbPost_silent hq)]
  rfl

theorem State.breaksAt_iff {s : State} {a : Addr} {j : Nat} :
    s.breaksAt a j = true ↔
      (∀ i < j, s.cfg.mapped .main (a + BitVec.ofNat 32 i) = true) ∧
        s.cfg.mapped .main (a + BitVec.ofNat 32 j) = false := by
  simp [State.breaksAt, State.answers]

/-- `FinalizeFrame` where a byte of the left output buffer does not answer. -/
theorem finalizeFrame_leftBroken {s : State} (hp : s.prepared = true) (ho : s.outValid = true)
    (hb : s.buses.full = true) {j : Nat} (hj : j < 160) (h : s.breaksAt s.outL j = true) :
    finalizeFrame s = .error .busError (s.leftBroken j) := by
  obtain ⟨h1, h2⟩ := State.breaksAt_iff.mp h
  have nl : s.buses.fl.length = 80 := (Buses.full_iff _).mp hb .fl
  have e := storeWords_error (a := s.scaleFront.outL) (ws := s.scaleFront.buses.fl) (s := s.scaleFront) (j := j)
    (by simp [State.scaleFront, Buses.scaleBus, Buses.get, Buses.set, nl]; omega) h1 h2
  unfold finalizeFrame
  rw [Act.get_bind]
  simp only [hp, ho, Bool.not_true, Bool.false_eq_true, if_false]
  apply Act.bind_error
  unfold writeFrame
  rw [Act.modify_bind, Act.get_bind, Act.bind_error e]
  rfl

/-- `FinalizeFrame` where the left output buffer answers and a byte of the right one does not. -/
theorem finalizeFrame_rightBroken {s : State} (hp : s.prepared = true) (ho : s.outValid = true)
    (hb : s.buses.full = true) {j : Nat} (hj : j < 160) (hl : s.answers s.outL 160 = true)
    (h : s.breaksAt s.outR j = true) : finalizeFrame s = .error .busError (s.rightBroken j) := by
  obtain ⟨h1, h2⟩ := State.breaksAt_iff.mp h
  have nl : s.buses.fl.length = 80 := (Buses.full_iff _).mp hb .fl
  have nr : s.buses.fr.length = 80 := (Buses.full_iff _).mp hb .fr
  rw [State.answers_iff] at hl
  have hm := storeBytes_all (s.cfg.mapped .main) (s.scaledFront.fl.flatMap halfBytes) s.main s.outL
    (by rw [flatMap_halfBytes_length]; simpa [State.scaledFront, nl] using hl)
  have e1 := storeWords_ok (a := s.scaleFront.outL) (ws := s.scaleFront.buses.fl) (s := s.scaleFront)
    fun i hi => hl i (by simpa [State.scaleFront, Buses.scaleBus, Buses.set, Buses.get, nl] using hi)
  have e2 := storeWords_error (a := s.scaleFront.outR) (ws := s.scaleFront.buses.fr) (j := j)
    (s :=
      { s.scaleFront with
        main :=
          (storeBytes (s.scaleFront.cfg.mapped .main) s.scaleFront.main s.scaleFront.outL
            (s.scaleFront.buses.fl.flatMap halfBytes)).1 })
    (by simp [State.scaleFront, Buses.scaleBus, Buses.get, Buses.set, nr]; omega) h1 h2
  unfold finalizeFrame
  rw [Act.get_bind]
  simp only [hp, ho, Bool.not_true, Bool.false_eq_true, if_false]
  apply Act.bind_error
  unfold writeFrame
  rw [Act.modify_bind, Act.get_bind, Act.bind_ok e1, Act.bind_error e2]
  unfold State.rightBroken
  rw [← hm]
  rfl

/-! ### Voices that are passed over -/

theorem vpbFetch_ok {s : State} {v : Half} {ws : List Half}
    (h : s.words? .main s.cfg.vpbWords (s.vpbAddr v) = some ws) :
    vpbFetch v s = .ok (s.cfg.expand ws) s := by
  unfold vpbFetch
  rw [Act.get_bind]
  have : readWords .main s.cfg.vpbWords (s.vpbAddr v) s = .ok ws s := ofRead_some h
  rw [Act.bind_ok this]
  rfl

/-- A voice that is disabled or done is left alone. -/
theorem addVoice_skip {s : State} {v : Half} {ws : List Half}
    (h : s.words? .main s.cfg.vpbWords (s.vpbAddr v) = some ws)
    (hf : (s.cfg.expand ws).enabled = 0 ∨ (s.cfg.expand ws).done ≠ 0) : addVoice v s = .ok () s := by
  unfold addVoice
  rw [Act.bind_ok (vpbFetch_ok h), if_pos hf]
  rfl

theorem visitVoice_idle {s : State} (h : s.voiceIdle s.cur.curVoice = true) :
    visitVoice s = .ok () s := by
  unfold visitVoice
  rw [Act.get_bind]
  cases hs : s.cur.voiceSelected s.cur.curVoice with
  | false => simp
  | true =>
    simp only [State.voiceIdle, hs, Bool.not_true, Bool.false_or] at h
    simp only [if_true]
    split at h
    · rename_i ws hw
      refine addVoice_skip hw ?_
      simpa using h
    · cases h

/-- The state with the voice cursor moved. -/
def State.atVoice (s : State) (v : Nat) : State :=
  { s with cur := { s.cur with curVoice := BitVec.ofNat 16 v } }

theorem State.voiceIdle_atVoice (s : State) (v : Nat) (w : Half) :
    (s.atVoice v).voiceIdle w = s.voiceIdle w := by
  unfold State.voiceIdle
  rw [State.words?_congr (s := s) (t := s.atVoice v) rfl (sp := .main) rfl]
  rfl

/-- Whether a voice is passed over depends on the configuration, `MAIN`, the VPB base and the cursors alone. -/
theorem State.voiceIdle_congr {s t : State} (hc : t.cfg = s.cfg) (hm : t.main = s.main)
    (hv : t.vpbBase = s.vpbBase) (hcur : t.cur = s.cur) (v : Half) : t.voiceIdle v = s.voiceIdle v := by
  unfold State.voiceIdle State.vpbAddr
  rw [hc, hv, hcur, State.words?_congr (s := s) (t := t) hc (sp := .main) hm]

theorem State.idleBelow_iff {s : State} {n : Nat} :
    s.idleBelow n = true ↔
      ∀ v < n, s.cur.curVoice.toNat ≤ v → s.voiceIdle (BitVec.ofNat 16 v) = true := by
  simp only [State.idleBelow, List.all_eq_true, List.mem_range, Bool.or_eq_true, decide_eq_true_eq]
  constructor
  · intro h v hv hc
    exact (h v hv).resolve_left (by omega)
  · intro h v hv
    by_cases hc : s.cur.curVoice.toNat ≤ v
    · exact .inr (h v hv hc)
    · exact .inl (by omega)

/-- Passing over voices: from voice `v` on, over at most `n` of them, those below the gate being idle, the
cursor ends at the gate with a yield, or past the last of them without. -/
theorem renderVoices_idle {s : State} (n v : Nat) (hv : v + n < 2 ^ 16)
    (h : ∀ w, v ≤ w → w < v + n → w < s.cur.maxUnlocked → s.voiceIdle (BitVec.ofNat 16 w) = true) :
    renderVoices n (s.atVoice v) =
      if v + n ≤ max v s.cur.maxUnlocked then .ok false (s.atVoice (v + n))
      else .ok true (s.atVoice (max v s.cur.maxUnlocked)) := by
  induction n generalizing v with
  | zero => simp [renderVoices]
  | succ n ih =>
    have hmod : v % 65536 = v := Nat.mod_eq_of_lt (by omega)
    have hvn : (s.atVoice v).cur.curVoice.toNat = v := by simp [State.atVoice, hmod]
    have hg : (s.atVoice v).cur.maxUnlocked = s.cur.maxUnlocked := rfl
    unfold renderVoices
    rw [Act.get_bind, hvn, hg]
    by_cases hm : s.cur.maxUnlocked ≤ v
    · have e : max v s.cur.maxUnlocked = v := by omega
      rw [if_pos hm, e, if_neg (by omega)]
      rfl
    · rw [if_neg hm]
      have hi : (s.atVoice v).voiceIdle (s.atVoice v).cur.curVoice = true := by
        rw [State.voiceIdle_atVoice]
        exact h v (Nat.le_refl v) (by omega) (by omega)
      rw [Act.bind_ok (visitVoice_idle hi), Act.modify_bind]
      have hnext : (s.atVoice v).nextVoice = s.atVoice (v + 1) := by
        have : (BitVec.ofNat 16 v + 1 : Half) = BitVec.ofNat 16 (v + 1) := by
          apply BitVec.eq_of_toNat_eq; simp
        show ({ s with cur := { s.cur with curVoice := BitVec.ofNat 16 v + 1 } } : State) = _
        rw [this]
        rfl
      rw [hnext, ih (v + 1) (by omega) (fun w h1 h2 h3 => h w (by omega) (by omega) h3)]
      have e1 : v + 1 + n = v + (n + 1) := by omega
      have e2 : max (v + 1) s.cur.maxUnlocked = s.cur.maxUnlocked := by omega
      have e3 : max v s.cur.maxUnlocked = s.cur.maxUnlocked := by omega
      rw [e1, e2, e3]

/-- A frame that is open is left alone (41_frame_ops.md R174). -/
theorem prepareFrame_open {s : State} (h : s.prepared = true) : prepareFrame s = .ok () s := by
  simp [prepareFrame, h]

/-- A render in an open frame whose voices below the gate are all passed over, the gate inside the frame, yields
at the gate (41_frame_ops.md R171). -/
theorem resumeRender_yield {s : State} (hm : s.mode = .rendering) (hp : s.prepared = true)
    (hf : s.cur.curFrame.toNat < s.cur.reqFrames.toNat)
    (hv : s.cur.curVoice.toNat < s.cur.voicesPerFrame.toNat)
    (hg : s.cur.maxUnlocked < s.cur.voicesPerFrame.toNat) (hi : s.idleBelow s.cur.maxUnlocked = true) :
    resumeRender s = .ok () (s.atVoice (max s.cur.curVoice.toNat s.cur.maxUnlocked)) := by
  have ha : s.atVoice s.cur.curVoice.toNat = s := by simp [State.atVoice]
  have hr : renderVoices s.cur.voicesLeft s =
      .ok true (s.atVoice (max s.cur.curVoice.toNat s.cur.maxUnlocked)) := by
    have h := renderVoices_idle (s := s) s.cur.voicesLeft s.cur.curVoice.toNat
      (by unfold Cursors.voicesLeft; have := s.cur.voicesPerFrame.isLt; omega)
      (fun w h1 _ h3 => State.idleBelow_iff.mp hi w h3 h1)
    rw [ha] at h
    rw [h, if_neg]
    unfold Cursors.voicesLeft
    omega
  have hb : renderAudio s = .ok () (s.atVoice (max s.cur.curVoice.toNat s.cur.maxUnlocked)) := by
    unfold renderAudio
    rw [Act.get_bind]
    obtain ⟨n, hn⟩ : ∃ n, s.cur.framesLeft = n + 1 :=
      ⟨s.cur.framesLeft - 1, by unfold Cursors.framesLeft; omega⟩
    rw [hn]
    unfold renderFrames
    rw [Act.bind_ok (prepareFrame_open hp), Act.get_bind, Act.bind_ok hr]
    rfl
  unfold resumeRender
  rw [Act.bind_ok hb, Act.get_bind]
  simp [State.atVoice, hm]

/-- A frame without voices left, that can be opened and closed, is rendered whole (41_frame_ops.md R171, R172). -/
theorem renderFrames_voiceless {s : State} (ho : s.canOpenFrame = true) (hc : s.frameOpen.canCloseFrame = true)
    (hv : s.cur.voicesLeft = 0) (n : Nat) :
    renderFrames (n + 1) s = renderFrames n s.voicelessFrame := by
  have hd : s.frameOpen.frameDone.canCloseFrame = true := by
    have h := hc
    unfold State.canCloseFrame at h ⊢
    unfold State.frameDone
    split
    · exact h
    · have e : (s.frameOpen.pushEvent (frameDoneWord s.frameOpen.cur.curFrame)).frameWritten.reverbSilent =
          s.frameOpen.frameWritten.reverbSilent := State.reverbSilent_congr rfl rfl rfl
      rw [e]
      exact h
  have hl : closeFrame s.frameOpen = .ok () s.voicelessFrame := by
    unfold closeFrame
    rw [Act.modify_bind, Act.bind_ok (finalizeFrame_quiet hd), Act.modify_apply]
    have e : s.frameOpen.cfg = s.cfg := rfl
    unfold State.voicelessFrame State.frameDone State.pushEvent
    rw [e]
    cases s.cfg.light <;> rfl
  have hr : renderVoices s.frameOpen.cur.voicesLeft s.frameOpen = .ok false s.frameOpen := by
    rw [show s.frameOpen.cur = s.cur from rfl, hv]
    rfl
  conv => lhs; unfold renderFrames
  rw [Act.bind_ok (prepareFrame_quiet ho), Act.get_bind, Act.bind_ok hr]
  simp only [Bool.false_eq_true, if_false]
  rw [Act.bind_ok hl]

end Sys2Proof.Machine
end

