-- ==== Sys2Proof/Laws/Image.lean ====
section
/-! SUPPORT. The image of a voice: which words each operation of `AddVoice` may change. -/

namespace Sys2Proof.Machine

/-! ### Reading a word after writing one -/

@[simp] theorem Vpb.put_length (f : Vpb) (i : Nat) (v : Half) : (f.put i v).length = f.length := by
  simp [Vpb.put]

theorem Vpb.word_put_other (f : Vpb) {i j : Nat} (v : Half) (h : j ≠ i) : (f.put i v).word j = f.word j := by
  simp [Vpb.put, Vpb.word, List.getD_eq_getElem?_getD, Ne.symm h]

theorem Vpb.word_put_same (f : Vpb) {i : Nat} (v : Half) (h : i < f.length) : (f.put i v).word i = v := by
  simp [Vpb.put, Vpb.word, List.getD_eq_getElem?_getD, h]

/-- Writing the word that is there changes nothing. -/
theorem Vpb.put_word_self (f : Vpb) (i : Nat) : f.put i (f.word i) = f := by
  apply List.ext_getElem?
  intro j
  by_cases h : j = i
  · subst h
    by_cases hl : j < f.length
    · simp [Vpb.put, Vpb.word, hl]
    · simp [Vpb.put, hl]
  · simp [Vpb.put, Ne.symm h]

theorem Vpb.putAll_length (f : Vpb) (i : Nat) (vs : List Half) (h : i + vs.length ≤ f.length) :
    (f.putAll i vs).length = f.length := by
  simp [Vpb.putAll]
  omega

theorem Vpb.word_putAll_other (f : Vpb) {i j : Nat} (vs : List Half) (h : i + vs.length ≤ f.length)
    (hj : j < i ∨ i + vs.length ≤ j) : (f.putAll i vs).word j = f.word j := by
  unfold Vpb.putAll Vpb.word
  rw [List.getD_eq_getElem?_getD, List.getD_eq_getElem?_getD]
  congr 1
  rcases hj with hj | hj
  · rw [List.append_assoc, List.getElem?_append_left (by simp; omega), List.getElem?_take, if_pos hj]
  · rw [List.getElem?_append_right (by simp; omega), List.getElem?_drop]
    congr 1
    simp
    omega

theorem Vpb.word_putAll_same (f : Vpb) {i k : Nat} (vs : List Half) (h : i ≤ f.length)
    (hk : k < vs.length) : (f.putAll i vs).word (i + k) = vs.getD k 0 := by
  unfold Vpb.putAll Vpb.word
  rw [List.getD_eq_getElem?_getD, List.getD_eq_getElem?_getD, List.append_assoc,
    List.getElem?_append_right (by simp), List.getElem?_append_left (by simp; omega)]
  congr 2
  simp
  omega

/-! ### Which words an operation may change -/

/-- `g` is as long as `f` and differs from it only in the words listed. -/
def Vpb.Within (ws : List Nat) (f g : Vpb) : Prop :=
  g.length = f.length ∧ ∀ i, i ∉ ws → g.word i = f.word i

theorem Vpb.Within.refl (ws : List Nat) (f : Vpb) : Vpb.Within ws f f := ⟨rfl, fun _ _ => rfl⟩

theorem Vpb.Within.trans {ws : List Nat} {f g h : Vpb} (a : Vpb.Within ws f g) (b : Vpb.Within ws g h) :
    Vpb.Within ws f h :=
  ⟨b.1.trans a.1, fun i hi => (b.2 i hi).trans (a.2 i hi)⟩

theorem Vpb.Within.mono {ws us : List Nat} {f g : Vpb} (h : ∀ i ∈ ws, i ∈ us) (a : Vpb.Within ws f g) :
    Vpb.Within us f g :=
  ⟨a.1, fun i hi => a.2 i fun hw => hi (h i hw)⟩

theorem Vpb.within_put (f : Vpb) (i : Nat) (v : Half) : Vpb.Within [i] f (f.put i v) :=
  ⟨by simp, fun _ hj => Vpb.word_put_other f v (by simpa using hj)⟩

theorem Vpb.within_putPair (f : Vpb) (i : Nat) (v : Word) : Vpb.Within [i, i + 1] f (f.putPair i v) :=
  ((Vpb.within_put f i _).mono (by simp)).trans ((Vpb.within_put _ (i + 1) _).mono (by simp))

theorem Vpb.within_putAll (f : Vpb) (i : Nat) (vs : List Half) (h : i + vs.length ≤ f.length) :
    Vpb.Within ((List.range vs.length).map (i + ·)) f (f.putAll i vs) := by
  refine ⟨Vpb.putAll_length f i vs h, fun j hj => Vpb.word_putAll_other f vs h ?_⟩
  by_cases h1 : j < i
  · exact .inl h1
  · refine .inr ?_
    by_contra h2
    exact hj (List.mem_map.mpr ⟨j - i, List.mem_range.mpr (by omega), by omega⟩)

theorem Vpb.within_setYn (f : Vpb) (a b : Sample) : Vpb.Within [0x2C, 0x2D] f (f.setYn a b) :=
  ((Vpb.within_put f 0x2C a).mono (by simp)).trans ((Vpb.within_put _ 0x2D b).mono (by simp))

/-! ### Sources -/

theorem afcPredict_length (delta c1 c2 : Int) (qs : List Int) (y1 y2 : Sample) :
    (afcPredict delta c1 c2 qs y1 y2).1.length = qs.length := by
  induction qs generalizing y1 y2 with
  | nil => rfl
  | cons q qs ih => simp [afcPredict, ih]

theorem afcExpand_length (k : StreamKind) (y : Byte) :
    (afcExpand k y).length = if k = .afc4 then 2 else 4 := by
  unfold afcExpand
  split <;> rfl

theorem flatMap_afcExpand_length (k : StreamKind) (bs : List Byte) :
    (bs.flatMap (afcExpand k)).length = (if k = .afc4 then 2 else 4) * bs.length := by
  induction bs with
  | nil => simp
  | cons b bs ih => simp [List.flatMap_cons, afcExpand_length, ih]; split <;> omega

/-- A whole block decodes to sixteen samples (43_sources_resample.md R260). -/
theorem afcDecode_length (k : StreamKind) (coef : List Sample) (bytes : List Byte) (y1 y2 : Sample)
    (h : bytes.length = afcBlockBytes k) : (afcDecode k coef bytes y1 y2).1.length = 16 := by
  simp only [afcDecode, afcPredict_length, flatMap_afcExpand_length, List.length_tail, h, afcBlockBytes]
  split <;> rfl

/-- The words a stream fetch may change. -/
def streamWords : List Nat :=
  [0x01, 0x08, 0x09, 0x2C, 0x2D, 0x80, 0x81] ++ (List.range 16).map (0x30 + ·)

theorem decodeAfcBlock_within {f f' : Vpb} {k : StreamKind} {blk : Nat} {s t : State} (hf : 0x40 ≤ f.length)
    (h : decodeAfcBlock f k blk s = .ok f' t) :
    Vpb.Within ([0x2C, 0x2D] ++ (List.range 16).map (0x30 + ·)) f f' := by
  unfold decodeAfcBlock at h
  obtain ⟨bytes, u, hb, h⟩ := Act.bind_eq_ok.mp h
  rw [Act.get_bind, Act.pure_apply] at h
  cases h
  have hl : bytes.length = afcBlockBytes k := by
    unfold readSampleBytes ofRead at hb
    split at hb
    · rename_i v hv
      cases hb
      exact State.bytes?_length hv
    · cases hb
  have h16 := afcDecode_length k t.tables.afcCoef bytes f.yn1 f.yn2 hl
  refine Vpb.Within.trans ?_ ((Vpb.within_setYn _ _ _).mono (by simp))
  refine (Vpb.within_putAll f 0x30 _ (by omega)).mono ?_
  rw [h16]
  decide

theorem rawSample_within {f : Vpb} {k : StreamKind} {fresh : Bool} {s t : State} {r : Sample × Vpb}
    (hf : 0x40 ≤ f.length) (h : rawSample f k fresh s = .ok r t) :
    Vpb.Within ([0x2C, 0x2D] ++ (List.range 16).map (0x30 + ·)) f r.2 := by
  unfold rawSample at h
  cases k
  · obtain ⟨_, _, _, h⟩ := Act.bind_eq_ok.mp h
    cases h; exact .refl _ _
  · obtain ⟨_, _, _, h⟩ := Act.bind_eq_ok.mp h
    cases h; exact .refl _ _
  · dsimp only at h
    split at h
    · obtain ⟨_, _, hd, h⟩ := Act.bind_eq_ok.mp h
      cases h; exact decodeAfcBlock_within hf hd
    · cases h; exact .refl _ _
  · dsimp only at h
    split at h
    · obtain ⟨_, _, hd, h⟩ := Act.bind_eq_ok.mp h
      cases h; exact decodeAfcBlock_within hf hd
    · cases h; exact .refl _ _
  · obtain ⟨_, _, _, h⟩ := Act.bind_eq_ok.mp h
    cases h; exact .refl _ _

theorem fetchAt_within {f : Vpb} {k : StreamKind} {fresh : Bool} {s t : State} {r : Sample × Vpb}
    (hf : 0x40 ≤ f.length) (h : fetchAt f k fresh s = .ok r t) :
    Vpb.Within ([0x08, 0x09, 0x2C, 0x2D] ++ (List.range 16).map (0x30 + ·)) f r.2 := by
  unfold fetchAt at h
  obtain ⟨q, _, hq, h⟩ := Act.bind_eq_ok.mp h
  cases h
  exact ((rawSample_within hf hq).mono (by simp +contextual)).trans
    ((Vpb.within_putPair _ _ _).mono (by simp))

theorem restartLoop_within (f : Vpb) (k : StreamKind) :
    Vpb.Within [0x08, 0x09, 0x2C, 0x2D, 0x80, 0x81] f (f.restartLoop k) := by
  have h : Vpb.Within [0x08, 0x09, 0x2C, 0x2D, 0x80, 0x81] f
      ((f.putPair 0x80 f.loopAddress).setIndex (f.loopStart.extractLsb' 0 20)) :=
    ((Vpb.within_putPair f 0x80 _).mono (by simp)).trans ((Vpb.within_putPair _ 0x08 _).mono (by simp))
  unfold Vpb.restartLoop
  split
  · exact h.trans ((Vpb.within_setYn _ _ _).mono (by simp))
  · exact h

/-- What a fetch may change; the base address only where the stream loops (20_memory.md R71). -/
theorem nextSample_within {f : Vpb} {k : StreamKind} {s t : State} {r : Sample × Vpb}
    (hf : 0x40 ≤ f.length) (h : nextSample f k s = .ok r t) :
    Vpb.Within streamWords f r.2 ∧
      (f.loopEnable = 0 → Vpb.Within ([0x01, 0x08, 0x09, 0x2C, 0x2D] ++ (List.range 16).map (0x30 + ·)) f r.2) := by
  have hsub : ∀ i ∈ [0x01, 0x08, 0x09, 0x2C, 0x2D] ++ (List.range 16).map (0x30 + ·), i ∈ streamWords := by
    simp +contextual [streamWords]
  unfold nextSample at h
  split at h
  · have := (fetchAt_within hf h).mono
      (us := [0x01, 0x08, 0x09, 0x2C, 0x2D] ++ (List.range 16).map (0x30 + ·)) (by simp +contextual)
    exact ⟨this.mono hsub, fun _ => this⟩
  · split at h
    · cases h
      have := (Vpb.within_put f 0x01 1).mono
        (us := [0x01, 0x08, 0x09, 0x2C, 0x2D] ++ (List.range 16).map (0x30 + ·)) (by simp)
      exact ⟨this.mono hsub, fun _ => this⟩
    · rename_i hle
      refine ⟨?_, fun h0 => absurd h0 hle⟩
      have hr := (restartLoop_within f k).mono (us := streamWords) (by simp [streamWords])
      dsimp only at h
      split at h
      · exact hr.trans ((fetchAt_within (by rw [hr.1]; exact hf) h).mono (by simp +contextual [streamWords]))
      · cases h
        exact hr.trans ((Vpb.within_put _ 0x01 1).mono (by simp [streamWords]))

theorem nextSamples_within {k : StreamKind} {n : Nat} {f : Vpb} {s t : State} {r : List Sample × Vpb}
    (hf : 0x40 ≤ f.length) (h : nextSamples k n f s = .ok r t) :
    r.1.length = n ∧ Vpb.Within streamWords f r.2 ∧
      (f.loopEnable = 0 → Vpb.Within ([0x01, 0x08, 0x09, 0x2C, 0x2D] ++ (List.range 16).map (0x30 + ·)) f r.2) := by
  induction n generalizing f s r with
  | zero => cases h; exact ⟨rfl, .refl _ _, fun _ => .refl _ _⟩
  | succ n ih =>
    unfold nextSamples at h
    obtain ⟨a, u, ha, h⟩ := Act.bind_eq_ok.mp h
    obtain ⟨b, w, hb, h⟩ := Act.bind_eq_ok.mp h
    cases h
    obtain ⟨h1, h2⟩ := nextSample_within hf ha
    obtain ⟨i0, i1, i2⟩ := ih (f := a.2) (by rw [h1.1]; exact hf) hb
    refine ⟨by simp [i0], h1.trans i1, fun h0 => ?_⟩
    refine (h2 h0).trans (i2 ?_)
    have : a.2.word 0x84 = f.word 0x84 := h1.2 0x84 (by decide)
    exact this.trans h0

/-- The words step 1 of `AddVoice` may change. -/
def loadWords : List Nat := streamWords ++ [0x07, 0x28, 0x29, 0x2A, 0x2B, 0x2E]

/-- The words the resampler writes itself. -/
def resamplerWords : List Nat := [0x07, 0x08, 0x09, 0x28, 0x29, 0x2A, 0x2B]

theorem resampler_within (f : Vpb) {hist : List Sample} (frac : BitVec 12) (last : Sample)
    (hh : hist.length = 4) (hf : 0x40 ≤ f.length) :
    Vpb.Within resamplerWords f (((f.putAll 0x28 hist).setFrac frac).put 0x07 last) := by
  have h := Vpb.within_putAll f 0x28 hist (by omega)
  rw [hh] at h
  exact (h.mono (by decide)).trans (((Vpb.within_putPair _ 0x08 _).mono (by decide)).trans
    ((Vpb.within_put _ 0x07 _).mono (by decide)))

/-- The history kept has four samples. -/
theorem window_tail_length {f : Vpb} {new : List Sample} {n : Nat} (h : new.length = n) :
    (((f.hist ++ new).drop n).take 4).length = 4 := by
  simp [Vpb.hist, h]
  omega

/-- What the resampler does to the image, and how many samples it gives (43_sources_resample.md R270). -/
theorem resample_within {f : Vpb} {k : StreamKind} {s t : State} {r : List Sample × Vpb}
    (hf : 0x40 ≤ f.length) (h : resample f k s = .ok r t) :
    r.1.length = frameLen ∧ Vpb.Within loadWords f r.2 ∧
      (f.loopEnable = 0 → r.2.word 0x80 = f.word 0x80 ∧ r.2.word 0x81 = f.word 0x81) := by
  unfold resample at h
  obtain ⟨a, u, ha, h⟩ := Act.bind_eq_ok.mp h
  rw [Act.get_bind] at h
  obtain ⟨h0, h1, h2⟩ := nextSamples_within hf ha
  cases h
  have hq (frac : BitVec 12) (last : Sample) := resampler_within a.2 frac last (window_tail_length (f := f) h0)
    (by rw [h1.1]; exact hf)
  refine ⟨(List.length_map _).trans List.length_range, ?_, fun hl => ?_⟩
  · exact (h1.mono (by simp +contextual [loadWords])).trans ((hq _ _).mono (by decide))
  · exact ⟨((hq _ _).2 0x80 (by decide)).trans ((h2 hl).2 0x80 (by decide)),
      ((hq _ _).2 0x81 (by decide)).trans ((h2 hl).2 0x81 (by decide))⟩

/-- What step 1 of `AddVoice` may change; the base address only where the stream loops
(20_memory.md R71). -/
theorem loadVoiceSamples_within {f : Vpb} {s t : State} {r : List Sample × Vpb} (hf : 0x40 ≤ f.length)
    (h : loadVoiceSamples f s = .ok r t) :
    r.1.length = frameLen ∧ Vpb.Within loadWords f r.2 ∧
      (f.loopEnable = 0 → r.2.word 0x80 = f.word 0x80 ∧ r.2.word 0x81 = f.word 0x81) := by
  have hput (v : Half) : Vpb.Within loadWords f (f.put 0x2E v) ∧
      (f.loopEnable = 0 → (f.put 0x2E v).word 0x80 = f.word 0x80 ∧
        (f.put 0x2E v).word 0x81 = f.word 0x81) :=
    ⟨(Vpb.within_put f 0x2E v).mono (by decide),
      fun _ => ⟨Vpb.word_put_other f v (by decide), Vpb.word_put_other f v (by decide)⟩⟩
  unfold loadVoiceSamples at h
  split at h
  · cases h
    exact ⟨List.length_replicate, .refl _ _, fun _ => ⟨rfl, rfl⟩⟩
  · rcases hk : SourceKind.ofType f.sourceType with _ | (w | p | k) <;> simp only [hk] at h
    · cases h
    · cases h
      exact ⟨by simp [synthWave, frameLen], hput _⟩
    · rw [Act.get_bind] at h
      cases h
      exact ⟨by simp [synthPattern, frameLen], hput _⟩
    · exact resample_within hf h

/-! ### Mixing -/

/-- The words of the channels in use, at offset `o` in each. -/
def channelWords (n o : Nat) : List Nat := (List.range n).map fun c => o + 4 * c

theorem mem_channelWords {n o c : Nat} (h : c < n) : o + 4 * c ∈ channelWords n o :=
  List.mem_map.mpr ⟨c, List.mem_range.mpr h, rfl⟩

theorem halveTargets_within (n : Nat) (l : List Nat) (hl : ∀ c ∈ l, c < n) (f : Vpb) :
    Vpb.Within (channelWords n 0x11) f (l.foldl (fun f c => f.setTarget c (halve (f.target c))) f) := by
  induction l generalizing f with
  | nil => exact .refl _ _
  | cons c l ih =>
    have hc : c < n := hl c (by simp)
    refine Vpb.Within.trans ?_ (ih (fun d hd => hl d (by simp [hd])) _)
    exact (Vpb.within_put f (0x11 + 4 * c) _).mono fun i hi => by
      rw [List.mem_singleton.mp hi]; exact mem_channelWords hc

/-- What an end request may change, and that there is none to act on otherwise (42_voice_mix.md R205). -/
theorem endRequest_within (p : Platform) (f : Vpb) :
    Vpb.Within ([0x01, 0x0F] ++ channelWords p.channels 0x11) f (endRequest p f) := by
  unfold endRequest
  split
  · exact .refl _ _
  · split
    · unfold endDolby
      have h := (Vpb.within_put f 0x0F (halve f.dolbyTarget)).mono
        (us := [0x01, 0x0F] ++ channelWords p.channels 0x11) (by simp)
      dsimp only
      split
      · exact h.trans ((Vpb.within_put _ 0x01 1).mono (by simp))
      · exact h
    · unfold endChannels
      have h := (halveTargets_within p.channels (List.range p.channels) (by simp) f).mono
        (us := [0x01, 0x0F] ++ channelWords p.channels 0x11) (by simp +contextual)
      dsimp only
      split
      · exact h.trans ((Vpb.within_put _ 0x01 1).mono (by simp))
      · exact h

theorem mixChannel_within (p : Platform) (voice : List Sample) (fb : Vpb × Buses) {c : Nat}
    (h : c < p.channels) : Vpb.Within (channelWords p.channels 0x12) fb.1 (mixChannel p voice fb c).1 := by
  unfold mixChannel
  split
  · exact .refl _ _
  · exact (Vpb.within_put _ (0x12 + 4 * c) _).mono fun i hi => by
      rw [List.mem_singleton.mp hi]; exact mem_channelWords h

/-- What mixing may change in the image (42_voice_mix.md R210, R224). -/
theorem mixVoice_within (p : Platform) (t : Tables) (voice : List Sample) (f : Vpb) (b : Buses) :
    Vpb.Within ([0x0E] ++ channelWords p.channels 0x12) f (mixVoice p t voice f b).1 := by
  unfold mixVoice
  split
  · exact (Vpb.within_put f 0x0E f.dolbyTarget).mono (by simp)
  · have h (l : List Nat) (hl : ∀ c ∈ l, c < p.channels) (fb : Vpb × Buses) :
        Vpb.Within (channelWords p.channels 0x12) fb.1 (l.foldl (mixChannel p voice) fb).1 := by
      induction l generalizing fb with
      | nil => exact .refl _ _
      | cons c l ih =>
        exact (mixChannel_within p voice fb (hl c (by simp))).trans
          (ih (fun d hd => hl d (by simp [hd])) _)
    exact (h (List.range p.channels) (by simp) (f, b)).mono (by simp +contextual)

theorem clearReset_within (f : Vpb) : Vpb.Within [0x04] f (clearReset f) := by
  unfold clearReset
  split
  · exact Vpb.within_put f 0x04 0
  · exact .refl _ _

/-! ### Records -/

theorem uncompress_length {l : List Half} (h : l.length = 0x80) : (uncompress l).length = 0xC0 := by
  simp [uncompress, h]

theorem compress_length {f : Vpb} (h : f.length = 0xC0) : (compress f).length = 0x80 := by
  simp [compress, h]

/-- The image of a record that could be read has its 0xC0 words (20_memory.md R68, R72). -/
theorem expand_length {p : Platform} {ws : List Half} (h : ws.length = p.vpbWords) :
    (p.expand ws).length = 0xC0 := by
  unfold Platform.expand Platform.vpbWords at *
  split
  · rename_i hl
    rw [if_pos hl] at h
    exact uncompress_length h
  · rename_i hl
    rw [if_neg hl] at h
    exact h

/-- The record of an image has the words of its layout. -/
theorem pack_length {p : Platform} {f : Vpb} (h : f.length = 0xC0) : (p.pack f).length = p.vpbWords := by
  unfold Platform.pack Platform.vpbWords
  split
  · exact compress_length h
  · exact h

end Sys2Proof.Machine
end

