-- ==== Sys2Proof/Laws/PerInstr.lean ====
section
/-! SUPPORT. What holds of each instruction as syntax: its words in the port it is written to
(30_encoding.md R106, R110, R115). -/

namespace Sys2Proof.Laws.EncodeLength

/-- An instruction's encoding is one word, and behind a header exactly the operand words that header asks for
(30_encoding.md R106, R110). -/
def Statement (i : Instr) : Prop :=
  i.wellFormed = true → ∀ extra : Bool,
    ∃ h ops, encode extra i = h :: ops ∧ ops.length ≤ 5 ∧
      (i.context extra = .header extra → headerBit h = true ∧ ops.length = operandCount extra (headerOpcode h)) ∧
      (i.context extra ≠ .header extra → ops = [])

theorem nop (sync : BitVec 7) : Statement (.nop sync) := fun _ _ =>
  ⟨_, _, rfl, by simp, by simp [operandCount], by simp [Instr.context]⟩

theorem setup (sync : BitVec 7) (vpb resample pattern afc rpb : Addr) :
    Statement (.setup sync vpb resample pattern afc rpb) := fun _ _ =>
  ⟨_, _, rfl, by simp, by simp [operandCount], by simp [Instr.context]⟩

theorem startRender (sync : BitVec 7) (voices frames vol : Half) (outL outR : Addr) :
    Statement (.startRender sync voices frames vol outL outR) := fun _ extra =>
  ⟨_, _, rfl, by cases extra <;> simp, by cases extra <;> simp [operandCount], by simp [Instr.context]⟩

theorem setSampleBase (sync : BitVec 7) (base : Addr) : Statement (.setSampleBase sync base) := fun _ _ =>
  ⟨_, _, rfl, by simp, by simp [operandCount], by simp [Instr.context]⟩

theorem prepareFrame (sync : BitVec 7) : Statement (.prepareFrame sync) := fun _ _ =>
  ⟨_, _, rfl, by simp, by simp [operandCount], by simp [Instr.context]⟩

theorem addVoice (sync : BitVec 7) (voice : Half) : Statement (.addVoice sync voice) := fun _ _ =>
  ⟨_, _, rfl, by simp, by simp [operandCount], by simp [Instr.context]⟩

theorem finalizeFrame (sync : BitVec 7) : Statement (.finalizeFrame sync) := fun _ _ =>
  ⟨_, _, rfl, by simp, by simp [operandCount], by simp [Instr.context]⟩

theorem sync (batch : BitVec 4) (mask : Half) : Statement (.sync batch mask) := fun _ _ =>
  ⟨_, _, rfl, by simp, by simp [Instr.context], fun _ => rfl⟩

theorem sync2 (maskHi maskLo : Half) : Statement (.sync2 maskHi maskLo) := fun _ _ =>
  ⟨_, _, rfl, by simp, by simp [Instr.context], fun _ => rfl⟩

theorem sync0 : Statement .sync0 := fun _ _ =>
  ⟨_, _, rfl, by simp, by simp [Instr.context], fun _ => rfl⟩

theorem cont : Statement .cont := fun _ _ =>
  ⟨_, _, rfl, by simp, by simp [Instr.context], fun _ => rfl⟩

theorem reset : Statement .reset := fun _ _ =>
  ⟨_, _, rfl, by simp, by simp [Instr.context], fun _ => rfl⟩

theorem reserved (opcode sync : BitVec 7) (imm : Half) : Statement (.reserved opcode sync imm) := fun hw _ =>
  ⟨_, _, rfl, by simp, fun _ => ⟨by simp, by
    simp [Instr.wellFormed, definedOpcodes] at hw
    simp [operandCount, hw]⟩, by simp [Instr.context]⟩

end Sys2Proof.Laws.EncodeLength
end

