-- ==== Sys2Proof/Laws/Stream.lean ====
section
/-! SUPPORT. The image of a stream: its 32-bit fields and the two parts of its position, what a loop restart
leaves, what the resampler writes, and what the sources that read no stream give. -/

namespace Sys2Proof.Machine

/-! ### 32-bit fields -/

@[simp] theorem Vpb.putPair_length (f : Vpb) (i : Nat) (v : Word) : (f.putPair i v).length = f.length := by
  simp [Vpb.putPair]

theorem Vpb.pair_putPair_same (f : Vpb) {i : Nat} (v : Word) (h : i + 1 < f.length) :
    (f.putPair i v).pair i = v := by
  unfold Vpb.pair Vpb.putPair
  rw [Vpb.word_put_other _ _ (by omega), Vpb.word_put_same _ _ (by omega), Vpb.word_put_same _ _ (by simpa using h)]
  exact BitVec.extractLsb'_append_extractLsb'_eq_extractLsb' (by omega) |>.trans (by simp)

theorem Vpb.pair_putPair_other (f : Vpb) {i j : Nat} (v : Word) (h : j + 1 < i ∨ i + 1 < j) :
    (f.putPair i v).pair j = f.pair j := by
  have hw (l : Nat) (h0 : l ≠ i) (h1 : l ≠ i + 1) : (f.putPair i v).word l = f.word l := by
    unfold Vpb.putPair
    rw [Vpb.word_put_other _ _ h1, Vpb.word_put_other _ _ h0]
  unfold Vpb.pair
  rw [hw j (by omega) (by omega), hw (j + 1) (by omega) (by omega)]

theorem Vpb.word_putPair_other (f : Vpb) {i j : Nat} (v : Word) (h0 : j ≠ i) (h1 : j ≠ i + 1) :
    (f.putPair i v).word j = f.word j := by
  unfold Vpb.putPair
  rw [Vpb.word_put_other _ _ h1, Vpb.word_put_other _ _ h0]

/-- The later of two writes to a field stands. -/
theorem Vpb.putPair_putPair (f : Vpb) (i : Nat) (v w : Word) : (f.putPair i v).putPair i w = f.putPair i w := by
  unfold Vpb.putPair Vpb.put
  rw [List.set_comm (i := i + 1) (j := i) _ _ (by omega), List.set_set, List.set_set]

/-! ### The position (43_sources_resample.md R246) -/

@[simp] theorem Vpb.setIndex_length (f : Vpb) (i : BitVec 20) : (f.setIndex i).length = f.length := by
  simp [Vpb.setIndex]

theorem Vpb.index_setIndex (f : Vpb) (i : BitVec 20) (h : 9 < f.length) : (f.setIndex i).index = i := by
  unfold Vpb.index Vpb.position Vpb.setIndex
  rw [Vpb.pair_putPair_same _ _ h, BitVec.extractLsb'_append_eq_left]

theorem Vpb.frac_setIndex (f : Vpb) (i : BitVec 20) (h : 9 < f.length) : (f.setIndex i).frac = f.frac := by
  conv => lhs; unfold Vpb.frac Vpb.position Vpb.setIndex
  rw [Vpb.pair_putPair_same _ _ h, BitVec.extractLsb'_append_eq_right]

theorem Vpb.index_setFrac (f : Vpb) (r : BitVec 12) (h : 9 < f.length) : (f.setFrac r).index = f.index := by
  conv => lhs; unfold Vpb.index Vpb.position Vpb.setFrac
  rw [Vpb.pair_putPair_same _ _ h, BitVec.extractLsb'_append_eq_left]

theorem Vpb.frac_setFrac (f : Vpb) (r : BitVec 12) (h : 9 < f.length) : (f.setFrac r).frac = r := by
  unfold Vpb.frac Vpb.position Vpb.setFrac
  rw [Vpb.pair_putPair_same _ _ h, BitVec.extractLsb'_append_eq_right]

theorem Vpb.setIndex_setIndex (f : Vpb) (i j : BitVec 20) (h : 9 < f.length) :
    (f.setIndex i).setIndex j = f.setIndex j := by
  conv => lhs; unfold Vpb.setIndex
  rw [show (f.putPair 0x08 (i ++ f.frac)).frac = f.frac from Vpb.frac_setIndex f i h, Vpb.putPair_putPair]
  rfl

/-! ### A loop restart (43_sources_resample.md R250, R252) -/

/-- Where a restart leaves the base, the index, the length and an AFC stream's history. -/
theorem Vpb.restartLoop_fields (f : Vpb) (k : StreamKind) (h : f.length = 0xC0) :
    (f.restartLoop k).length = 0xC0 ∧ (f.restartLoop k).baseAddress = f.loopAddress ∧
      (f.restartLoop k).index = f.loopStart.extractLsb' 0 20 ∧
      (f.restartLoop k).streamLength = f.streamLength ∧
      (k = .afc4 ∨ k = .afc2 →
        (f.restartLoop k).yn1 = f.loopYn1 ∧ (f.restartLoop k).yn2 = f.loopYn2) := by
  let g := (f.putPair 0x80 f.loopAddress).setIndex (f.loopStart.extractLsb' 0 20)
  have hg : g.length = 0xC0 := by simp [g, h]
  have hw (l : Nat) (hl : l ∉ [0x2C, 0x2D]) : (f.restartLoop k).word l = g.word l := by
    unfold Vpb.restartLoop
    split
    · exact (Vpb.within_setYn _ _ _).2 l hl
    · rfl
  have hp (i : Nat) (hi : i ∉ [0x2B, 0x2C, 0x2D]) : (f.restartLoop k).pair i = g.pair i := by
    simp only [List.mem_cons, List.not_mem_nil, or_false, not_or] at hi
    unfold Vpb.pair
    rw [hw i (by simp; omega), hw (i + 1) (by simp; omega)]
  have hb : g.pair 0x80 = f.loopAddress :=
    (Vpb.pair_putPair_other _ _ (by omega)).trans (Vpb.pair_putPair_same _ _ (by omega))
  refine ⟨(restartLoop_within f k).1.trans h, (hp 0x80 (by decide)).trans hb, ?_, ?_, fun hk => ?_⟩
  · have := Vpb.index_setIndex (f.putPair 0x80 f.loopAddress) (f.loopStart.extractLsb' 0 20) (by simp [h])
    unfold Vpb.index Vpb.position at this ⊢
    rw [hp 0x08 (by decide)]
    exact this
  · exact (hp 0x82 (by decide)).trans
      ((Vpb.pair_putPair_other _ _ (by omega)).trans (Vpb.pair_putPair_other _ _ (by omega)))
  · unfold Vpb.restartLoop
    rw [if_pos hk]
    unfold Vpb.setYn Vpb.yn1 Vpb.yn2
    rw [Vpb.word_put_other _ _ (by omega), Vpb.word_put_same _ _ (by simp [h]),
      Vpb.word_put_same _ _ (by simp [h])]
    exact ⟨rfl, rfl⟩

/-! ### The resampler's own writes (43_sources_resample.md R270) -/

/-- Where the resampler's writes leave the history, the two parts of the position and the held sample. -/
theorem resampler_fields (g : Vpb) {hist : List Sample} (frac : BitVec 12) (last : Sample) (hh : hist.length = 4)
    (hg : 0x40 ≤ g.length) :
    (∀ j < 4, (((g.putAll 0x28 hist).setFrac frac).put 0x07 last).word (0x28 + j) = hist.getD j 0) ∧
      (((g.putAll 0x28 hist).setFrac frac).put 0x07 last).index = g.index ∧
      (((g.putAll 0x28 hist).setFrac frac).put 0x07 last).frac = frac ∧
      (((g.putAll 0x28 hist).setFrac frac).put 0x07 last).word 0x07 = last := by
  have hl : (g.putAll 0x28 hist).length = g.length := Vpb.putAll_length _ _ _ (by omega)
  have hp (q : Vpb) : (q.put 0x07 last).position = q.position := by
    unfold Vpb.position Vpb.pair
    rw [Vpb.word_put_other _ _ (by omega), Vpb.word_put_other _ _ (by omega)]
  refine ⟨fun j hj => ?_, ?_, ?_, Vpb.word_put_same _ _ (by simp [Vpb.setFrac]; omega)⟩
  · rw [Vpb.word_put_other _ _ (by omega)]
    unfold Vpb.setFrac
    rw [Vpb.word_putPair_other _ _ (by omega) (by omega), Vpb.word_putAll_same _ _ (by omega) (by omega)]
  · have := Vpb.index_setFrac (g.putAll 0x28 hist) frac (by omega)
    unfold Vpb.index at this ⊢
    rw [hp, this]
    unfold Vpb.position Vpb.pair
    rw [Vpb.word_putAll_other _ _ (by omega) (by omega), Vpb.word_putAll_other _ _ (by omega) (by omega)]
  · have := Vpb.frac_setFrac (g.putAll 0x28 hist) frac (by omega)
    unfold Vpb.frac at this ⊢
    rw [hp, this]

/-! ### The sources that read no stream -/

/-- A synthetic source gives its wave and its new phase, and leaves the state. -/
theorem loadVoiceSamples_wave {f : Vpb} {w : Wave} (s : State) (hf : f.useConstantSample = 0)
    (h : SourceKind.ofType f.sourceType = some (.wave w)) :
    loadVoiceSamples f s = .ok ((synthWave w f).1, f.put 0x2E (synthWave w f).2) s := by
  unfold loadVoiceSamples
  rw [if_neg (by simp [hf]), h]
  rfl

/-- A pattern source gives its samples and its new phase, and leaves the state. -/
theorem loadVoiceSamples_pattern {f : Vpb} {p : Fin 4} (s : State) (hf : f.useConstantSample = 0)
    (h : SourceKind.ofType f.sourceType = some (.pattern p)) :
    loadVoiceSamples f s =
      .ok ((synthPattern s.tables s.buses p f).1, f.put 0x2E (synthPattern s.tables s.buses p f).2) s := by
  unfold loadVoiceSamples
  rw [if_neg (by simp [hf]), h]
  rfl

end Sys2Proof.Machine
end

