-- ==== Sys2Proof/Tests/Slice0.lean ====
section
/-! SUPPORT. Tests: the refusals of WellFormed, decoding of words written out from 30_encoding.md, single steps
with values from 95_test_vectors.md, and for every obligation with hypotheses a concrete state and operands
that meet them. -/

namespace Sys2Proof.Tests

open Sys2Proof.Machine

-- Kernel evaluations are run one after another: side by side they ask for more thread stacks than memory has.
set_option Elab.async false

/-! ### WellFormed: the one check, refused for every opcode of the table (30_encoding.md R106) -/

theorem test_reserved_well_formed :
    (Instr.reserved 0x04 0x7F 0xFFFF).wellFormed = true ∧ (Instr.reserved 0x7F 0 0).wellFormed = true ∧
      (Instr.reserved 0x13 0 0).wellFormed = true := by decide

theorem test_reserved_ill_formed :
    ∀ op ∈ [0x00, 0x01, 0x02, 0x03, 0x10, 0x11, 0x12], (Instr.reserved op 0 0).wellFormed = false := by decide

/-! ### Decoding, one word for each constructor (30_encoding.md R101, R106 to R116, R122) -/

/-- 1 | 0000000 | 1 (ignored) | 1111111 | 0x1234 (ignored): V-ENC1. -/
theorem test_decode_nop :
    decode (.header false) [0b1000000011111111_0001001000110100] = .ok (.nop 0x7F, []) := by decide +kernel

/-- Header 1 | 0000001 | 0 | 0000001 | 0, then vpb_base, resampling, pattern, AFC, rpb_base (R107). -/
theorem test_decode_setup :
    decode (.header false) [0b10000001000000010000000000000000, 1, 2, 3, 4, 5, 6] =
      .ok (.setup 1 1 2 3 4 5, [6]) := by decide +kernel

/-- V-ENC3: frames in [31:16] of operand 1, volume in [15:0]; two more words with START_EXTRA_WORDS (R108). -/
theorem test_decode_start_render :
    decode (.header false) [0b10000010000000100000000000010000, 0x00011000, 0x8000, 0x9000, 7] =
        .ok (.startRender 2 16 1 0x1000 0x8000 0x9000, [7]) ∧
      decode (.header true) [0x82020010, 0x00011000, 0x8000, 0x9000, 7, 8, 9] =
        .ok (.startRender 2 16 1 0x1000 0x8000 0x9000, [9]) ∧
      decode (.header true) [0x82020010, 0x00011000, 0x8000, 0x9000, 7] = .error .missingOperand := by
  decide +kernel

theorem test_decode_set_sample_base :
    decode (.header false) [0b10000011000001010000000000000000, 0x00400000] =
      .ok (.setSampleBase 5 0x400000, []) := by decide +kernel

theorem test_decode_prepare_frame :
    decode (.header false) [0b10010000000000110000000000000000] = .ok (.prepareFrame 3, []) := by decide +kernel

/-- V-ENC row `VOICE 3 @1` = 0x91010003 (R122). -/
theorem test_decode_add_voice :
    decode (.header false) [0b10010001000000010000000000000011] = .ok (.addVoice 1 3, []) := by decide +kernel

theorem test_decode_finalize_frame :
    decode (.header false) [0b10010010000001110000000000000000] = .ok (.finalizeFrame 7, []) := by decide +kernel

/-- V-ENC4: bits [31:20] ignored, batch in [19:16], mask in [15:0] (R111). -/
theorem test_decode_sync :
    decode .syncDefault [0b00000000000000010000000000000101] = .ok (.sync 1 5, []) ∧
      decode .syncDefault [0xFFF0FFFF] = .ok (.sync 0 0xFFFF, []) := by decide +kernel

theorem test_decode_sync2 :
    decode .syncPerFrame [0b10000000000000010000000011111111] = .ok (.sync2 0x8001 0x00FF, []) := by
  decide +kernel

theorem test_decode_sync0 :
    decode .syncLight [0] = .ok (.sync0, []) ∧ decode .syncLight [5] = .error .nonzeroLightSync := by
  decide +kernel

/-- Bit 1 wins over bit 0; neither bit is no action (R115). -/
theorem test_decode_control :
    decode .control [1] = .ok (.cont, []) ∧ decode .control [2] = .ok (.reset, []) ∧
      decode .control [3] = .ok (.reset, []) ∧ decode .control [0xFFFFFFFC] = .error .noControlAction := by
  decide +kernel

/-- V-ENC2: opcodes 0x04 and 0x7F are reserved; a word without bit 31 is no header (R106, R116). -/
theorem test_decode_reserved :
    decode (.header false) [0x84000000] = .ok (.reserved 0x04 0 0, []) ∧
      decode (.header false) [0xFF7F0000] = .ok (.reserved 0x7F 0x7F 0, []) ∧
      decode (.header false) [0x7FFFFFFF] = .error .notHeader := by decide +kernel

theorem test_decode_table_word :
    decodeTableWord 32 0x81010000 = some (.setup 1 0 0 0 0 0) ∧ decodeTableWord 32 0x1 = some .cont ∧
      decodeTableWord 32 0x00010005 = some (.sync 1 5) ∧ decodeTableWord 32 0x0 = some .sync0 := by
  decide +kernel

/-! ### The fixture of 95_test_vectors.md -/

/-- Fixture F0 right after reset, strapped with `flags`, `MAIN` given. -/
def fixture (flags : BitVec 8) (main : Memory) : State :=
  { State.reset with cfg := ⟨flags, 0x4000, 0x8000, 0x4000, []⟩, main := main }

/-- The fixture as `SETUP0` leaves it, with tables of zeros. -/
def ready (flags : BitVec 8) (main : Memory) : State :=
  { fixture flags main with vpbBase := 0x10000, rpbBase := 0x3000, setupDone := true }

/-- Outputs set as `RENDER _, _, vol, 0x8000, 0x9000` sets them. -/
def output (vol : Half) (s : State) : State :=
  { s with outVol := vol, outL := 0x8000, outR := 0x9000, outValid := true }

/-- A 16-bit word in memory. -/
def put16 (m : Memory) (a : Nat) (v : Int) : Memory :=
  match halfBytes (BitVec.ofInt 16 v) with
  | [hi, lo] => (m.write a hi).write (a + 1) lo
  | _ => m

/-- Words of the VPB at `base`, by word number. -/
def vpb (base : Nat) (words : List (Nat × Int)) : Memory :=
  words.foldl (fun m w => put16 m (base + 2 * w.1) w.2) []

/-- The state after an outcome; where there is none, the state after reset. -/
def after (o : Host.Outcome State Fault Refusal) : State :=
  match o with
  | .next s => s
  | .fault _ => State.reset
  | .refused _ => State.reset

/-- The state after one access by the host. -/
def access (a : HostAccess) (s : State) : State := after (step { s with host := [a] })

/-- A word written to `CMD`. -/
def cmd (w : Word) : State → State := access (.regWrite .word 0x00 w)

/-- A word written to `CTRL`. -/
def ctrl (w : Word) : State → State := access (.regWrite .word 0x04 w)

/-! ### Single steps (95_test_vectors.md) -/

/-- V-ENC1: 0x80FF1234 after reset, event 0x1000007F. -/
theorem test_nop_step : (cmd 0x80FF1234 (fixture 0 [])).evt = [0x1000007F] := by decide +kernel

/-- V-CMD10: `MAIN` 0x2100..0x21FF does not answer: BUS_ERROR, not configured, no event. -/
theorem test_setup_bus_error :
    let s := { fixture 0 [] with cfg := ⟨0, 0, 0, 0, [⟨.main, 0x2100, 0x21FF⟩]⟩ }
    let t := after (exec (.setup 0 0x10000 0x2000 0x2200 0x2500 0x3000) s)
    t.statusWord = 0x00000807 ∧ t.evt = [] := by decide +kernel

/-- Fixture F0's tables: the sine table is 512 bytes behind the patterns (R141, 20_memory.md R79). -/
theorem test_setup_tables :
    let m := put16 (put16 (put16 (put16 [] 0x2000 32767) 0x220A 5) 0x2402 258) 0x2504 2048
    let t := after (exec (.setup 1 0x10000 0x2000 0x2200 0x2500 0x3000) (fixture 0 m))
    t.tables.resampleCoef.getD 0 0 = 32767 ∧ t.tables.pattern.getD 5 0 = 5 ∧ t.tables.sine.getD 1 0 = 258 ∧
      t.tables.afcCoef.getD 2 0 = 2048 ∧ t.evt = [0x10000001] ∧ t.statusWord = 0x00000034 := by
  decide +kernel

/-- V-CMD7: three frames without voices need no sync word. -/
theorem test_start_render_without_voices :
    let t := after (exec (.startRender 0 0 3 0x1000 0x8000 0x9000) (ready 0 []))
    t.evt = [0x20000000, 0x20000001, 0x20000002, 0x30000000] ∧ t.outL = 0x81E0 ∧
      t.cursorWord = 0x00030000 := by decide +kernel

/-- V-CMD11: START_RENDER before SETUP. -/
theorem test_start_render_not_configured :
    (after (exec (.startRender 0 0 1 0x1000 0x8000 0x9000) (fixture 0 []))).statusWord = 0x00000907 := by
  decide +kernel

/-- V-CMD9: SBASE with NO_ARAM, and without. -/
theorem test_set_sample_base :
    (after (exec (.setSampleBase 5 0x400000) (ready 1 []))).sampleBase = 0x400000 ∧
      (after (exec (.setSampleBase 5 0x400000) (ready 0 []))).statusWord = 0x00000117 := by decide +kernel

/-- V-FR1: clear, attenuate and fold back. -/
theorem test_prepare_frame :
    let z := Buses.zero
    let b : Buses :=
      { z with
        fl := z.fl.set 0 77, bl := (z.bl.set 0 1000).set 1 (BitVec.ofInt 16 (-1001))
        br := z.br.set 0 (BitVec.ofInt 16 (-1)), blRv := z.blRv.set 0 (BitVec.ofInt 16 (-300))
        brRv := z.brRv.set 0 (BitVec.ofInt 16 (-300)), flRv := z.flRv.set 0 55 }
    let t := after (exec (.prepareFrame 0) { ready 0 [] with buses := b })
    [t.buses.fl, t.buses.fr, t.buses.bl, t.buses.bl.drop 1, t.buses.br, t.buses.blRv, t.buses.brRv,
        t.buses.flRv].map (fun l => (l.headD 0).toInt) = [-300, -150, 500, -501, -1, 0, 0, 0] ∧
      t.statusWord = 0x0000003C := by decide +kernel

/-- V-AV3: constant-sample mode ramps from 0x7FFF to 0; a reserved source type is not examined. -/
theorem test_add_voice_constant :
    let m := vpb 0x10000 [(0, 1), (3, 77), (4, 1), (6, 1), (7, -2000), (8, 5), (9, 0x123), (0x10, 2), (0x12, 0x7FFF)]
    let t := after (exec (.addVoice 0 0) { ready 0 m with prepared := true })
    ([0, 1, 2, 3, 40, 78, 79].map fun k => (t.buses.fr.getD k 0).toInt) =
        [-2000, -1975, -1950, -1925, -1000, -50, -25] ∧
      t.read16? .main 0x10024 = some 0 ∧ t.read16? .main 0x10008 = some 1 := by decide +kernel

/-- V-SRC1: PCM8 with a loop that rebases, nearest samples. -/
theorem test_add_voice_loop :
    let m := vpb 0x10000 [(0, 1), (2, 0x4000), (3, 8), (0x10, 1), (0x11, 0x7FFF), (0x12, 0x7FFF), (0x81, 0x40),
      (0x83, 6), (0x84, 1), (0x89, 0x80), (0x8B, 2)]
    let sm : Memory := [(0x40, 1), (0x41, 0x7F), (0x42, 0x80), (0x43, 0xFF), (0x44, 0x10), (0x45, 0xF0),
      (0x80, 2), (0x81, 3), (0x82, 4), (0x83, 5)]
    let t := after (exec (.addVoice 0 0) { ready 0 m with prepared := true, sample := sm })
    (t.buses.fl.take 3).map BitVec.toInt = [0, 255, 4095] ∧
      [0x10012, 0x10054, 0x10056, 0x10102].map (fun a => t.read16? .main a) =
        [some 0x4000, some 0x0400, some 0x0500, some 0x0080] := by decide +kernel

/-- V-FR2: the frame scaled by 0.5, big-endian, the addresses advanced. -/
theorem test_finalize_frame :
    let z := Buses.zero
    let b : Buses :=
      { z with fl := (z.fl.set 0 1001).set 1 (BitVec.ofInt 16 (-3)), fr := z.fr.set 0 (BitVec.ofInt 16 (-32768)) }
    let t := after (exec (.finalizeFrame 0) { output 0x800 (ready 0 []) with buses := b, prepared := true })
    [0x8000, 0x8001, 0x8002, 0x8003, 0x9000, 0x9001].map (fun a => t.byteAt .main a) =
        [0x01, 0xF4, 0xFF, 0xFE, 0xC0, 0x00] ∧
      t.outL = 0x80A0 ∧ t.outR = 0x90A0 ∧ t.prepared = false := by decide +kernel

/-- V-FR4: no output set. -/
theorem test_finalize_frame_not_configured :
    (after (exec (.finalizeFrame 0)
      { ready 0 [] with prepared := true, evt := [0x10000000] })).statusWord = 0x0000093F := by decide +kernel

/-- A render of 40 voices of one frame (two for V-SYNC2), stopped at voice 0. -/
def rendering (flags : BitVec 8) (frames voices : Half) : State :=
  { output 0x1000 (ready flags []) with
    mode := .rendering, prepared := true, cur := ⟨frames, voices, 0, 0, List.replicate 16 0, 0, false⟩ }

/-- V-SYNC1: `SYNC 1, 5` opens the gate to voice 32. -/
theorem test_sync :
    let t := after (exec (.sync 1 5) (rendering 0 1 40))
    t.cursorWord = 0x00000020 ∧ t.cur.maxUnlocked = 32 ∧ t.statusWord = 0x0000001E := by decide +kernel

/-- V-SYNC2: the two sync words of a frame. -/
theorem test_sync2 :
    let t := after (exec (.sync2 0x8001 3) (rendering 0x20 2 40))
    let u := after (exec (.sync2 0x0080 0) t)
    t.cursorWord = 0x00000020 ∧ t.statusWord = 0x0000005E ∧ u.statusWord = 0x0000003E ∧
      u.cursorWord = 0x00010000 ∧ u.evt = [0x20000000] := by decide +kernel

/-- Program P3: the zero word renders the frame and yields in the next one; a pulse without an event. -/
theorem test_sync0 :
    let t := after (exec .sync0 (rendering 0x04 2 3))
    t.statusWord = 0x0000001E ∧ t.cursorWord = 0x00010000 ∧ t.irq = [.lightSync] := by decide +kernel

/-- V-SYNC3: a non-zero sync word under LIGHT. -/
theorem test_sync0_nonzero : (cmd 5 (rendering 0x04 2 3)).statusWord = 0x0000031F := by decide +kernel

/-- V-CMD5: two queued NOPs, then CONTINUE. -/
theorem test_continue :
    let s := cmd 0x80020000 (cmd 0x80010000 { ready 0 [] with canExecute := false })
    s.evt = [] ∧ (ctrl 1 s).evt = [0x10000001, 0x10000002] ∧ (ctrl 1 s).statusWord = 0x00000034 := by
  decide +kernel

/-- V-CMD2: only a reset leaves HALTED. -/
theorem test_reset :
    let s := cmd 0x0000FFFF (fixture 0 [])
    s.statusWord = 0x00000207 ∧ (ctrl 1 s).statusWord = 0x00000207 ∧ (cmd 0x80000000 s).evt = [] ∧
      (ctrl 2 s).statusWord = 0x00000004 := by decide +kernel

/-- V-ENC2: a reserved opcode halts when it is dispatched. -/
theorem test_reserved :
    (cmd 0x84000000 (fixture 0 [])).statusWord = 0x00000107 ∧
      (cmd 0xFF7F0000 (fixture 0 [])).statusWord = 0x00000107 := by decide +kernel

/-- `withFetchWord`: the next step runs the row's instruction (log 17). -/
theorem test_fetch_word :
    (after (step (State.reset.withFetchWord 32 0x80050000))).evt = [0x10000005] ∧
      (after (step (State.reset.withFetchWord 32 0x83070000))).evt = [0x10000007] ∧
      (after (step (State.reset.withFetchWord 32 0x84000000))).haltCause = .unknownOpcode := by
  decide +kernel

/-! ### Witnesses: a state and operands that meet the hypotheses of each obligation -/

/-- The host's accesses to come. -/
def asks (l : List HostAccess) (s : State) : State := { s with host := l }

theorem witness_DecodeEncode :
    (Instr.reserved 0x04 0x7F 0xFFFF).wellFormed = true ∧
      (Instr.startRender 0x7F 0xFFFF 0 0xFFFF 0 0xFFFFFFFF).wellFormed = true := by decide

/-- SETUP with its five operands and with one too few; START_RENDER with five; the words of each rejection. -/
theorem witness_CommandLength :
    (headerBit 0x81000000 = true ∧ operandCount false (headerOpcode 0x81000000) = 5 ∧
        operandCount false (headerOpcode 0x81000000) ≤ ([1, 2, 3, 4, 5] : List Word).length) ∧
      ([1, 2, 3, 4] : List Word).length < operandCount false (headerOpcode 0x81000000) ∧
      (headerBit 0x82000000 = true ∧ operandCount true (headerOpcode 0x82000000) = 5 ∧
        operandCount false (headerOpcode 0x82000000) = 3) ∧
      (headerBit 0x80000000 = true ∧
        operandCount false (headerOpcode 0x80000000) ≤ ([] : List Word).length) ∧
      headerBit 0x7FFFFFFF = false ∧ (1 : Word) ≠ 0 ∧
      ((0xFFFFFFFC : Word).getLsbD 0 = false ∧ (0xFFFFFFFC : Word).getLsbD 1 = false) := by decide +kernel

/-- Sync and control words; headers with other immediates and bit 23: FINALIZE_FRAME, and the reserved 0x7F. -/
theorem witness_IgnoredBits :
    (0xFFF10005 : Word).extractLsb' 0 20 = (0x00010005 : Word).extractLsb' 0 20 ∧
      (0xFFFFFFFD : Word).extractLsb' 0 2 = (0x00000001 : Word).extractLsb' 0 2 ∧
      (let h : Word := 0x92FF1234;
        let h' : Word := 0x927F0000;
        h.getLsbD 31 = h'.getLsbD 31 ∧ h.extractLsb' 24 7 = h'.extractLsb' 24 7 ∧
          h.extractLsb' 16 7 = h'.extractLsb' 16 7 ∧
          h.extractLsb' 24 7 ∈ ([0x00, 0x01, 0x03, 0x10, 0x12] : List (BitVec 7))) ∧
      (let h : Word := 0xFF81FFFF;
        let h' : Word := 0xFF010000;
        h.getLsbD 31 = h'.getLsbD 31 ∧ h.extractLsb' 24 7 = h'.extractLsb' 24 7 ∧
          h.extractLsb' 16 7 = h'.extractLsb' 16 7 ∧ h.getLsbD 31 = true ∧
          h.extractLsb' 24 7 ∉ ([0x00, 0x01, 0x02, 0x03, 0x10, 0x11, 0x12] : List (BitVec 7))) := by decide

theorem witness_StepRunsWord :
    (fixture 0 []).host = [] ∧
      ((asks [.regWrite .word 0x04 3] (fixture 0 [])).host = [.regWrite .word 0x04 3] ∧
        decode .control [3] = .ok (.reset, [])) ∧
      (let s := asks [.regWrite .word 0x00 0x80010003] (rendering 0x20 2 40);
        s.mode = .rendering ∧
          decode (if s.cfg.light then .syncLight else if s.cfg.syncPerFrame then .syncPerFrame else .syncDefault)
            [0x80010003] = .ok (.sync2 0x8001 3, [])) ∧
      (let s := asks [.regWrite .word 0x00 0] (rendering 0x24 2 3);
        s.mode = .rendering ∧
          decode (if s.cfg.light then .syncLight else if s.cfg.syncPerFrame then .syncPerFrame else .syncDefault)
            [0] = .ok (.sync0, [])) ∧
      ((asks [.regWrite .word 0x04 0xFFFFFFFC] (rendering 0 1 40)).host = [.regWrite .word 0x04 0xFFFFFFFC] ∧
        (0xFFFFFFFC : Word).getLsbD 0 = false ∧ (0xFFFFFFFC : Word).getLsbD 1 = false) := by decide +kernel

theorem witness_StepRunsCommand :
    let s := asks [.regWrite .word 0x00 0x91010003] (ready 0 []);
    s.host = [.regWrite .word 0x00 0x91010003] ∧ s.mode = .waiting ∧ s.canExecute = true ∧ s.cmd.words = 0 ∧
      s.cmd.pending = 0 ∧ s.bufferInv = true ∧
      decode (.header s.cfg.startExtraWords) [0x91010003] = .ok (.addVoice 1 3, []) := by decide +kernel

/-- RENDER's header and first two operands are in the buffer, at its wrap; the last operand comes. -/
theorem witness_StepRunsLastOperand :
    let h : Word := 0x82000010;
    let ops : List Word := [0x00011000, 0x00008000];
    let s := { ready 0 [] with
      host := [.regWrite .word 0x00 0x00009000]
      mode := .writingCmd
      cmd := ⟨((List.replicate 64 0).set 62 h |>.set 63 0x00011000).set 0 0x00008000, 1, 62, 3, 0, 1⟩ };
    s.mode = .writingCmd ∧ s.canExecute = true ∧ s.cmd.expected = 1 ∧ s.cmd.pending = 0 ∧
      s.bufferInv = true ∧ s.cmd.words < 64 ∧ s.cmd.contents = h :: ops ∧
      decode (.header s.cfg.startExtraWords) (h :: (ops ++ [0x00009000])) =
        .ok (.startRender 0 16 1 0x1000 0x8000 0x9000, []) := by decide +kernel

/-- A header into a buffer with one word of room; a first operand; a header without operands and a last operand
behind a pending command, dispatch blocked. -/
theorem witness_CommandAccumulates :
    (let s := { ready 0 [] with
        host := [.regWrite .word 0x00 0x83000000], cmd := ⟨List.replicate 64 0, 63, 0, 63, 63, 0⟩ };
      s.mode = .waiting ∧ headerBit 0x83000000 = true ∧ s.cmd.words < 64 ∧
        0 < operandCount s.cfg.startExtraWords (headerOpcode 0x83000000)) ∧
      (let s := { ready 0 [] with
        host := [.regWrite .word 0x00 0x80000000], mode := .writingCmd
        cmd := ⟨(List.replicate 64 0).set 0 0x82000000, 1, 0, 1, 0, 3⟩ };
      s.mode = .writingCmd ∧ 1 < s.cmd.expected ∧ s.cmd.words < 64) ∧
      (let s := { ready 0 [] with
        host := [.regWrite .word 0x00 0x80020000], canExecute := false
        cmd := ⟨List.replicate 64 0x80010000, 63, 0, 63, 63, 0⟩ };
      s.mode = .waiting ∧ headerBit 0x80020000 = true ∧ s.cmd.words < 64 ∧ s.canExecute = false ∧
        operandCount s.cfg.startExtraWords (headerOpcode 0x80020000) = 0) ∧
      (let s := { ready 0 [] with
        host := [.regWrite .word 0x00 0x10], mode := .writingCmd, canExecute := false
        cmd := ⟨((List.replicate 64 0).set 0 0x80010000).set 1 0x83000000, 2, 0, 2, 1, 1⟩ };
      s.mode = .writingCmd ∧ s.cmd.expected = 1 ∧ s.cmd.words < 64 ∧ s.canExecute = false ∧
        s.bufferInv = true) := by decide +kernel

/-- A word without bit 31 in WAITING; a non-zero light sync word; a full buffer in WAITING and in
WRITING_CMD. -/
theorem witness_PortHalts :
    (let s := asks [.regWrite .word 0x00 0x0000FFFF] (ready 0 []);
      s.mode = .waiting ∧ headerBit 0x0000FFFF = false) ∧
      (let s := asks [.regWrite .word 0x00 5] (rendering 0x04 2 3);
        s.mode = .rendering ∧ s.cfg.light = true ∧ (5 : Word) ≠ 0) ∧
      (let s := { ready 0 [] with
          host := [.regWrite .word 0x00 0x80000000]
          cmd := ⟨List.replicate 64 0x80000000, 0, 0, 64, 64, 0⟩ };
        s.cmd.words = 64 ∧ s.mode = .waiting ∧ headerBit 0x80000000 = true) ∧
      (let s := { ready 0 [] with
          host := [.regWrite .word 0x00 0], mode := .writingCmd
          cmd := ⟨(List.replicate 64 0x80000000).set 63 0x83000000, 0, 0, 64, 63, 1⟩ };
        s.cmd.words = 64 ∧ s.mode = .writingCmd) := by decide +kernel

theorem witness_StatusFields :
    (asks [.regRead .word 0x08] (ready 0 [])).host = [.regRead .word 0x08] ∧
      (asks [.regRead .word 0x10] (ready 0 [])).host = [.regRead .word 0x10] ∧
      (asks [.regRead .word 0x14] (ready 0 [])).host = [.regRead .word 0x14] := by decide

/-- The halted fixture. -/
def halted (l : List HostAccess) : State :=
  { ready 0 [] with mode := .halted, haltCause := .unknownOpcode, host := l }

theorem witness_HaltedStays :
    (∃ t, (halted [.memWrite .main 0 7]).host = [.memWrite .main 0 7] ∧
        (halted [.memWrite .main 0 7]).mode = .halted ∧
        (HostAccess.memWrite .main 0 7).resets = false ∧ step (halted [.memWrite .main 0 7]) = .next t) ∧
      (HostAccess.regWrite .word 0x04 1).resets = false ∧
      ((halted [.regWrite .word 0x00 0x80000000]).mode = .halted ∧
        (halted [.regWrite .word 0x00 0x80000000]).host = [.regWrite .word 0x00 0x80000000]) ∧
      ((halted [.regWrite .word 0x04 1]).mode = .halted ∧
        (halted [.regWrite .word 0x04 1]).host = [.regWrite .word 0x04 1] ∧ (1 : Word).getLsbD 1 = false) ∧
      ((halted [.regRead .word 0x0C]).mode = .halted ∧
        (halted [.regRead .word 0x0C]).host = [.regRead .word 0x0C] ∧ 0x0C ∈ [0x08, 0x0C, 0x10, 0x14]) :=
  ⟨⟨_, rfl, rfl, rfl, rfl⟩, rfl, ⟨rfl, rfl⟩, ⟨rfl, rfl, rfl⟩, rfl, rfl, by decide⟩

theorem witness_RegisterMap :
    (asks [.regRead .word 0x04] (ready 0 [])).host = [.regRead .word 0x04] ∧
      (asks [.regRead .word 0x08] (ready 0 [])).host = [.regRead .word 0x08] ∧
      (let s := asks [.regRead .word 0x0C] (ready 0 []);
        s.host = [.regRead .word 0x0C] ∧ s.evt = []) ∧
      (let s := { ready 0 [] with host := [.regRead .word 0x0C], evt := [0x30000000] };
        s.host = [.regRead .word 0x0C] ∧ s.evt = [0x30000000]) ∧
      (asks [.regRead .word 0x10] (ready 0 [])).host = [.regRead .word 0x10] ∧
      (asks [.regRead .word 0x14] (ready 0 [])).host = [.regRead .word 0x14] ∧
      (let s := asks [.regWrite .word 0x14 1] (ready 0 []);
        s.host = [.regWrite .word 0x14 1] ∧ 0x14 ∈ [0x08, 0x0C, 0x10, 0x14]) ∧
      (let s := asks [.regWrite .half 0x00 1] (ready 0 []);
        s.host = [.regWrite .half 0x00 1] ∧ Width.half ≠ .word) ∧
      (let s := asks [.regRead .word 0x18] (ready 0 []);
        s.host = [.regRead .word 0x18] ∧ 0x18 ∉ [0x00, 0x04, 0x08, 0x0C, 0x10, 0x14]) := by decide +kernel

/-- The last byte of SAMPLE, and a byte of MAIN with NO_ARAM. -/
theorem witness_HostMemory :
    (let s := asks [.memWrite .sample 0xFFFFFFFF 7, .memRead .sample 0xFFFFFFFF] (ready 0 []);
      s.host = [.memWrite .sample 0xFFFFFFFF 7, .memRead .sample 0xFFFFFFFF] ∧ s.memoryInv = true ∧
        s.cfg.mapped .sample 0xFFFFFFFF = true ∧ (s.cfg.noAram = true → Space.sample = .main)) ∧
      (let s := asks [.memWrite .main 0 7, .memRead .main 0] (ready 1 []);
        s.host = [.memWrite .main 0 7, .memRead .main 0] ∧ s.memoryInv = true ∧
          s.cfg.mapped .main 0 = true ∧ (s.cfg.noAram = true → Space.main = .main)) ∧
      (Memory.wf [(0, 1), (0xFFFFFFFF, 2)] = true ∧ ([3, 0] : List Byte).length ≤ 2 ^ 32) := by decide +kernel

/-- Two commands are pending, the first SETUP whole at the buffer's wrap. -/
theorem witness_FetchCommand :
    let buf : List Word := ((List.replicate 64 0).set 62 0x81000000).set 4 0x80000000;
    let s := { ready 0 [] with canExecute := false, cmd := ⟨buf, 5, 62, 7, 2, 0⟩ };
    s.bufferInv = true ∧ 0 < s.cmd.pending := by decide +kernel

/-- SETUP under either protocol, from a memory of zeros. -/
theorem witness_SetupResult :
    (let s := fixture 0 [];
      s.tables.full = true ∧ s.words? .main 256 0x2000 = some (List.replicate 256 0) ∧
        s.words? .main 256 0xFFFFFF00 = some (List.replicate 256 0) ∧
        (s.cfg.light = false → s.words? .main 128 (0xFFFFFF00 + 512) = some (List.replicate 128 0)) ∧
        s.words? .main 32 0x2500 = some (List.replicate 32 0)) ∧
      (let s := fixture 4 [];
        s.tables.full = true ∧ s.words? .main 256 0x2000 = some (List.replicate 256 0) ∧
          s.words? .main 256 0x2200 = some (List.replicate 256 0) ∧
          (s.cfg.light = false → s.words? .main 128 (0x2200 + 512) = some (List.replicate 128 0)) ∧
          s.words? .main 32 0x2500 = some (List.replicate 32 0)) := by decide +kernel

/-- The fixture right after reset, with a hole in `MAIN`. -/
def holed (flags : BitVec 8) (first last : Nat) : State :=
  { fixture flags [] with cfg := ⟨flags, 0, 0, 0, [⟨.main, first, last⟩]⟩ }

/-- The first word that does not answer: the 129th of the resampling table (V-CMD10), the first, the last; the
first of the patterns; the last of the sine table; the first and the last of the AFC table, under either
protocol. -/
theorem witness_SetupBusError :
    (let s := holed 0 0x2100 0x21FF;
      s.tables.full = true ∧
        (128 < 256 ∧ s.words? .main 128 0x2000 = some (List.replicate 128 0) ∧
          s.read16? .main (0x2000 + BitVec.ofNat 32 (2 * 128)) = none) ∧
        (0 < 256 ∧ s.words? .main 0 0x2100 = some [] ∧
          s.read16? .main (0x2100 + BitVec.ofNat 32 (2 * 0)) = none) ∧
        (255 < 256 ∧ s.words? .main 255 0x1F01 = some (List.replicate 255 0) ∧
          s.read16? .main (0x1F01 + BitVec.ofNat 32 (2 * 255)) = none)) ∧
      (let s := holed 0 0x2200 0x23FF;
        s.words? .main 256 0x2000 = some (List.replicate 256 0) ∧ 0 < 256 ∧
          s.words? .main 0 0x2200 = some [] ∧ s.read16? .main (0x2200 + BitVec.ofNat 32 (2 * 0)) = none) ∧
      (let s := holed 0 0x24FF 0x24FF;
        s.words? .main 256 0x2000 = some (List.replicate 256 0) ∧
          s.words? .main 256 0x2200 = some (List.replicate 256 0) ∧ s.cfg.light = false ∧ 127 < 128 ∧
          s.words? .main 127 (0x2200 + 512) = some (List.replicate 127 0) ∧
          s.read16? .main (0x2200 + 512 + BitVec.ofNat 32 (2 * 127)) = none) ∧
      (let s := holed 0 0x2500 0x2500;
        s.words? .main 256 0x2000 = some (List.replicate 256 0) ∧
          s.words? .main 256 0x2200 = some (List.replicate 256 0) ∧
          (s.cfg.light = false → s.words? .main 128 (0x2200 + 512) = some (List.replicate 128 0)) ∧
          0 < 32 ∧ s.words? .main 0 0x2500 = some [] ∧
          s.read16? .main (0x2500 + BitVec.ofNat 32 (2 * 0)) = none) ∧
      (let s := holed 4 0x253F 0x2600;
        s.words? .main 256 0x2000 = some (List.replicate 256 0) ∧
          s.words? .main 256 0x2200 = some (List.replicate 256 0) ∧
          (s.cfg.light = false → s.words? .main 128 (0x2200 + 512) = some (List.replicate 128 0)) ∧
          31 < 32 ∧ s.words? .main 31 0x2500 = some (List.replicate 31 0) ∧
          s.read16? .main (0x2500 + BitVec.ofNat 32 (2 * 31)) = none) := by decide +kernel

/-- A frame and a voice; two frames without a voice, the second opened by the machine itself. -/
theorem witness_StartRenderResult :
    (ready 0 []).setupDone = true ∧ (1 : Half) ≠ 0 ∧ (ready 0 []).canOpenFrame = true ∧
      ({ ready 0 [] with prepared := true } : State).canOpenFrame = true ∧
      (let s : State :=
        { output 0x1000 (ready 0 []) with
          cur := ⟨2, 0, 0, 0, List.replicate 16 0, 0, false⟩, mode := .rendering };
        ∀ j < (2 : Half).toNat,
          (State.voicelessFrame^[j] s).canOpenFrame = true ∧
            (State.voicelessFrame^[j] s).frameOpen.canCloseFrame = true) := by decide +kernel

/-- With NO_ARAM, two bytes read across the end of the address space, and one that does not answer; without it,
the same of SAMPLE. -/
theorem witness_SetSampleBaseResult :
    (let s := { ready 1 [] with sampleBase := 0x400000 };
      s.cfg.noAram = true ∧ s.bytes? .main 2 (s.sampleBase + 0xFFBFFFFF) = some [0, 0]) ∧
      (let s := { ready 1 [] with sampleBase := 0x400000, cfg := ⟨1, 0, 0, 0, [⟨.main, 0x400000, 0x400000⟩]⟩ };
        s.cfg.noAram = true ∧ s.bytes? .main 2 (s.sampleBase + 0xFFFFFFFF) = none) ∧
      (let s := { ready 0 [] with sample := [(0, 7)] };
        s.cfg.noAram = false ∧ s.bytes? .sample 2 0xFFFFFFFF = some [0, 7]) ∧
      (let s := { ready 0 [] with cfg := ⟨0, 0, 0, 0, [⟨.sample, 0, 0⟩]⟩ };
        s.cfg.noAram = false ∧ s.bytes? .sample 2 0xFFFFFFFF = none) := by decide +kernel

theorem witness_CommandHalts :
    (ready 0 []).cfg.noAram = false ∧ (fixture 0 []).setupDone = false ∧ (fixture 0 []).prepared = false ∧
      ({ ready 0 [] with prepared := true } : State).prepared = true ∧
      ({ ready 0 [] with prepared := true } : State).outValid = false := by decide

theorem witness_PrepareFrameResult :
    (ready 0 []).canOpenFrame = true ∧ (rendering 0 1 40).canOpenFrame = true ∧
      (rendering 0 1 40).prepared = true ∧ (ready 0 []).prepared = false ∧ (ready 0 []).setupDone = true := by
  decide +kernel

/-- A disabled voice, and one that is done. -/
theorem witness_AddVoiceSkips :
    (let s := ready 0 [];
      s.canOpenFrame = true ∧ s.words? .main s.cfg.vpbWords (s.vpbAddr 3) = some (List.replicate 0xC0 0) ∧
        (s.cfg.expand (List.replicate 0xC0 0)).enabled = 0) ∧
      (let s := ready 0 (vpb 0x10000 [(0, 1), (1, 1)]);
        s.canOpenFrame = true ∧
          s.words? .main s.cfg.vpbWords (s.vpbAddr 0) = some ([1, 1] ++ List.replicate 0xBE 0) ∧
          (s.cfg.expand ([1, 1] ++ List.replicate 0xBE 0)).done ≠ 0) := by decide +kernel

/-- The record of an enabled voice that holds its last sample, in either mode. -/
def held (dolby : Half) : List Half := [1, 0, 0, 77, 1, 0, 1, 500, 0, 0, dolby] ++ List.replicate 0xB5 0

/-- A memory with that record as voice 0. -/
def heldMemory (dolby : Int) : Memory := vpb 0x10000 [(0, 1), (3, 77), (4, 1), (6, 1), (7, 500), (10, dolby)]

theorem witness_AddVoiceMixes (dolby : Half) (h : dolby = 0 ∨ dolby = 1) :
    let s := ready 0 (heldMemory dolby.toNat);
    s.canOpenFrame = true ∧ s.words? .main s.cfg.vpbWords (s.vpbAddr 0) = some (held dolby) ∧
      (s.cfg.expand (held dolby)).enabled ≠ 0 ∧ (s.cfg.expand (held dolby)).done = 0 ∧
      voiceDefect s.cfg (s.cfg.expand (held dolby)) = none ∧
      loadVoiceSamples (s.cfg.expand (held dolby)) s.frameOpen =
        .ok (List.replicate 80 500, s.cfg.expand (held dolby)) s.frameOpen := by
  rcases h with rfl | rfl
  · exact ⟨by decide +kernel, by decide +kernel, by decide +kernel, by decide +kernel, by decide +kernel, rfl⟩
  · exact ⟨by decide +kernel, by decide +kernel, by decide +kernel, by decide +kernel, by decide +kernel, rfl⟩

/-- A PCM16 voice at ratio 1.0 whose stream does not answer. -/
theorem witness_AddVoiceMixes_load :
    let s := { ready 0 (vpb 0x10000 [(0, 1), (2, 0x1000), (3, 9), (0x83, 80)]) with
      cfg := ⟨0, 0x4000, 0x8000, 0x4000, [⟨.sample, 2, 2⟩]⟩ };
    let f : Vpb := [1, 0, 0x1000, 9] ++ List.replicate 0x7F 0 ++ [80] ++ List.replicate 0x3C 0;
    s.canOpenFrame = true ∧ s.words? .main s.cfg.vpbWords (s.vpbAddr 0) = some f ∧
      (s.cfg.expand f).enabled ≠ 0 ∧ (s.cfg.expand f).done = 0 ∧ voiceDefect s.cfg (s.cfg.expand f) = none ∧
      ∃ t, loadVoiceSamples (s.cfg.expand f) s.frameOpen = .error .busError t :=
  ⟨by decide +kernel, by decide +kernel, by decide +kernel, by decide +kernel, by decide +kernel, _, rfl⟩

/-- V-AV2 (b) and (c): a record that does not answer in its last byte, a reserved source type, then a
destination above 10 in the last channel of six and of four. -/
theorem witness_AddVoiceHalts :
    (let s := { ready 0 [] with cfg := ⟨0, 0x4000, 0x8000, 0x4000, [⟨.main, 0x1017F, 0x1017F⟩]⟩ };
      s.canOpenFrame = true ∧ s.words? .main s.cfg.vpbWords (s.vpbAddr 0) = none) ∧
    (let s := ready 0 (vpb 0x10000 [(0, 1), (3, 13)]);
      let f : Vpb := [1, 0, 0, 13] ++ List.replicate 0xBC 0;
      s.canOpenFrame = true ∧ s.words? .main s.cfg.vpbWords (s.vpbAddr 0) = some f ∧
        (s.cfg.expand f).enabled ≠ 0 ∧ (s.cfg.expand f).done = 0 ∧ (s.cfg.expand f).useConstantSample = 0 ∧
        (s.cfg.expand f).sourceType.toNat ∉ [0, 1, 2, 3, 4, 5, 8, 9, 10, 11, 12]) ∧
      (let s := ready 0 (vpb 0x10000 [(0, 1), (3, 12), (0x24, 11)]);
        let f : Vpb := [1, 0, 0, 12] ++ List.replicate 32 0 ++ [11] ++ List.replicate 0x9B 0;
        s.canOpenFrame = true ∧ s.words? .main s.cfg.vpbWords (s.vpbAddr 0) = some f ∧
          (s.cfg.expand f).enabled ≠ 0 ∧ (s.cfg.expand f).done = 0 ∧
          (s.cfg.expand f).sourceType.toNat ∈ [0, 1, 2, 3, 4, 5, 8, 9, 10, 11, 12] ∧
          (s.cfg.expand f).useDolby = 0 ∧ 5 < (if s.cfg.fourDests then 4 else 6) ∧
          10 < ((s.cfg.expand f).destId 5).toNat) ∧
      (let s := ready 8 (vpb 0x10000 [(0, 1), (3, 8), (0x1C, 11)]);
        let f : Vpb := [1, 0, 0, 8] ++ List.replicate 24 0 ++ [11] ++ List.replicate 0xA3 0;
        s.canOpenFrame = true ∧ s.words? .main s.cfg.vpbWords (s.vpbAddr 0) = some f ∧
          (s.cfg.expand f).enabled ≠ 0 ∧ (s.cfg.expand f).done = 0 ∧
          (s.cfg.expand f).sourceType.toNat ∈ [0, 1, 2, 3, 4, 5, 8, 9, 10, 11, 12] ∧
          (s.cfg.expand f).useDolby = 0 ∧ 3 < (if s.cfg.fourDests then 4 else 6) ∧
          10 < ((s.cfg.expand f).destId 3).toNat) ∧
      (let s := ready 0 (heldMemory 1);
        (s.cfg.expand (held 1)).useConstantSample ≠ 0 ∧ (s.cfg.expand (held 1)).useDolby ≠ 0 ∧
          s.cfg.light = false) ∧
      (let s := ready 0 (heldMemory 0);
        ∀ c < (if s.cfg.fourDests then 4 else 6), ((s.cfg.expand (held 0)).destId c).toNat ≤ 10) := by
  decide +kernel

/-- A byte just before and just behind what the voice's record may change. -/
theorem witness_AddVoiceFrame :
    let s := ready 0 (heldMemory 0);
    (s.memoryInv = true ∧ ∃ t, exec (.addVoice 0 0) s = .next t) ∧
      (∀ i < s.cfg.vpbWords, imageIndex s.cfg i ∈ mutableWords s.cfg →
        (0x10001 : Addr) ≠ s.vpbAddr 0 + BitVec.ofNat 32 (2 * i) ∧
          (0x10001 : Addr) ≠ s.vpbAddr 0 + BitVec.ofNat 32 (2 * i + 1)) ∧
      (∀ i < s.cfg.vpbWords, imageIndex s.cfg i ∈ mutableWords s.cfg →
        (0x10104 : Addr) ≠ s.vpbAddr 0 + BitVec.ofNat 32 (2 * i) ∧
          (0x10104 : Addr) ≠ s.vpbAddr 0 + BitVec.ofNat 32 (2 * i + 1)) :=
  ⟨⟨by decide +kernel, _, rfl⟩, by decide +kernel, by decide +kernel⟩

theorem witness_VoiceImage :
    (held 0).length = 0xC0 ∧
      loadVoiceSamples (held 0) (ready 0 []) = .ok (List.replicate 80 500, held 0) (ready 0 []) ∧
      Vpb.endRequested (held 0) = 0 ∧ Vpb.loopEnable (held 0) = 0 ∧ 0x0D ∉ mutableWords (ready 0 []).cfg :=
  ⟨by decide +kernel, rfl, by decide +kernel, by decide +kernel, by decide +kernel⟩

/-- A render of 16 voices, stopped at voice 0, where one byte of `MAIN` does not answer. -/
def torn (a : Nat) : State :=
  { rendering 0 1 16 with cfg := ⟨0, 0x4000, 0x8000, 0x4000, [⟨.main, a, a⟩]⟩ }

/-- No frame open; one open; the first byte of the left buffer and the last of the right one do not answer. -/
theorem witness_FinalizeFrameResult :
    (ready 0 []).prepared = false ∧ (rendering 0 1 40).canCloseFrame = true ∧
      ((torn 0x8000).prepared = true ∧ (torn 0x8000).outValid = true ∧ (torn 0x8000).buses.full = true ∧
        (torn 0x8000).breaksAt (torn 0x8000).outL 0 = true) ∧
      (torn 0x909F).answers (torn 0x909F).outL 160 = true ∧
      (torn 0x909F).breaksAt (torn 0x909F).outR 159 = true := by decide +kernel

/-- Left and right buffers at the fixture's addresses do not meet. -/
theorem witness_FinalizeOutput :
    (rendering 0 1 40).canCloseFrame = true ∧ (rendering 0 1 40).memoryInv = true ∧
      (∀ i < 160, ∀ j < 160,
        (rendering 0 1 40).outL + BitVec.ofNat 32 i ≠ (rendering 0 1 40).outR + BitVec.ofNat 32 j) ∧
      ∀ i < 160, (0x80A0 : Addr) ≠ (rendering 0 1 40).outL + BitVec.ofNat 32 i ∧
        (0x80A0 : Addr) ≠ (rendering 0 1 40).outR + BitVec.ofNat 32 i := by decide +kernel

/-- Batch 1 of V-SYNC1 and the first half of V-SYNC2, 40 voices. -/
theorem witness_SyncAdvances :
    (let s := rendering 0 1 40;
      let c : Cursors := { s.cur with skipFlags := s.cur.skipFlags.set 1 5, maxUnlocked := max s.cur.maxUnlocked 32 };
      s.mode = .rendering ∧ s.prepared = true ∧ s.cur.curFrame.toNat < s.cur.reqFrames.toNat ∧
        s.cur.curVoice.toNat < s.cur.voicesPerFrame.toNat ∧ c.maxUnlocked < s.cur.voicesPerFrame.toNat ∧
        ({ s with cur := c } : State).idleBelow c.maxUnlocked = true) ∧
      (let s := rendering 0x20 2 40;
        let c : Cursors :=
          { s.cur with
            skipFlags := (s.cur.skipFlags.set 0 0x8001).set 1 3, maxUnlocked := max s.cur.maxUnlocked 32
            syncHalf := true };
        s.cur.syncHalf = false ∧ c.maxUnlocked < s.cur.voicesPerFrame.toNat ∧
          ({ s with cur := c } : State).idleBelow c.maxUnlocked = true) := by decide +kernel

/-- 257 voices, the cursor at voice 255; 256 voices of the last frame, the cursor at voice 254. -/
theorem witness_Sync0Advances :
    (let s := { rendering 0x04 1 257 with cur := ⟨1, 257, 0, 255, List.replicate 16 0, 0, false⟩ };
      let c : Cursors := { s.cur with skipFlags := List.replicate 16 0xFFFF, maxUnlocked := 256 };
      s.mode = .rendering ∧ s.prepared = true ∧ s.cur.curFrame.toNat < s.cur.reqFrames.toNat ∧
        s.cur.curVoice.toNat < s.cur.voicesPerFrame.toNat ∧ 256 < s.cur.voicesPerFrame.toNat ∧
        ({ s with cur := c } : State).idleBelow 256 = true) ∧
      (let s := { rendering 0x04 2 256 with cur := ⟨2, 256, 1, 254, List.replicate 16 0, 0, false⟩ };
        let c : Cursors := { s.cur with skipFlags := List.replicate 16 0xFFFF, maxUnlocked := 256 };
        s.cfg.light = true ∧ s.canCloseFrame = true ∧ s.cur.curFrame.toNat + 1 = s.cur.reqFrames.toNat ∧
          s.cur.voicesPerFrame.toNat ≤ 256 ∧ s.cmd.pending = 0 ∧
          ({ s with cur := c } : State).idleBelow s.cur.voicesPerFrame.toNat = true) := by decide +kernel

/-- 16 voices, unlocked by batch 0; the same where the last byte of the left buffer does not answer. -/
theorem witness_SyncCompletesRender :
    (let s := torn 0x809F;
      s.mode = .rendering ∧ s.cfg.light = false ∧ s.cur.curFrame.toNat + 1 = s.cur.reqFrames.toNat ∧
        s.cur.voicesPerFrame.toNat ≤ max s.cur.maxUnlocked (16 * ((0 : BitVec 4).toNat + 1)) ∧
        ({ s with cur := { s.cur with skipFlags := s.cur.skipFlags.set (0 : BitVec 4).toNat 0xFFFF } } :
          State).idleBelow s.cur.voicesPerFrame.toNat = true ∧
        s.prepared = true ∧ s.outValid = true ∧ s.buses.full = true ∧ s.breaksAt s.outL 159 = true) ∧
    let s := rendering 0 1 16;
    let masks := s.cur.skipFlags.set (0 : BitVec 4).toNat 0xFFFF;
    s.mode = .rendering ∧ s.cfg.light = false ∧ s.canCloseFrame = true ∧
      s.cur.curFrame.toNat + 1 = s.cur.reqFrames.toNat ∧
      s.cur.voicesPerFrame.toNat ≤ max s.cur.maxUnlocked (16 * ((0 : BitVec 4).toNat + 1)) ∧
      ({ s with cur := { s.cur with skipFlags := masks } } : State).idleBelow s.cur.voicesPerFrame.toNat =
        true := by decide +kernel

theorem witness_RenderLoop : (ready 0 []).setupDone = true := rfl

theorem witness_ContinueResult :
    (halted []).mode = .halted ∧ (rendering 0 1 40).mode = .rendering ∧ (ready 0 []).mode = .waiting ∧
      (ready 0 []).cmd.pending = 0 := by decide +kernel

theorem witness_ResetResult : (halted [.resetInput]).host = [.resetInput] := rfl

theorem witness_CommandFrame :
    ∃ t, exec (.setup 1 0x10000 0x2000 0x2200 0x2500 0x3000) (fixture 0 []) = .next t := ⟨_, rfl⟩

theorem witness_RenderFrame :
    (∃ t, exec (.sync 0 0xFFFF) (rendering 0 1 16) = .next t) ∧ (rendering 0 1 16).cmd.pending = 0 ∧
      (rendering 0 1 16).tables.full = true := ⟨⟨_, rfl⟩, rfl, by decide +kernel⟩

theorem witness_MixRampSamples : (List.replicate 80 (5 : Sample)).length = 80 ∧ 79 < 80 := by decide

/-- The clamp and the wrap on both sides of each end of their range, the floor of a negative quotient
(00_scope.md R10). -/
theorem test_narrowing :
    [-32769, -32768, 32767, 32768].map (fun v => (clamp16 v).toInt) = [-32768, -32768, 32767, 32767] ∧
      [-32769, -32768, 32767, 32768].map (fun v => (wrap16 v).toInt) = [32767, -32768, 32767, -32768] ∧
      [-2147483649, 2147483647, 2147483648].map (fun v => (wrap32 v).toInt) =
        [2147483647, 2147483647, -2147483648] ∧
      [-4097, -1, 0, 4095].map (fun v => asr v 12) = [-2, -1, 0, 0] := by decide +kernel

theorem witness_RampSteps :
    (List.replicate 80 (5 : Sample)).length = (List.replicate 80 (7 : Sample)).length ∧
      (List.replicate 80 (5 : Sample)).length = 80 ∧ 79 < 80 ∧ 1 ≤ 1 := by decide +kernel

/-- No end request; one in Dolby mode; one in channel mode, by the word and by LIGHT. -/
theorem witness_EndRequestFades :
    (held 0).length = 0xC0 ∧ Vpb.endRequested (held 0) = 0 ∧
      (let f : Vpb := (held 1).set 5 1;
        f.length = 0xC0 ∧ f.endRequested ≠ 0 ∧ f.useDolby ≠ 0 ∧ (ready 0 []).cfg.light = false ∧
          (ready 4 []).cfg.light = true) ∧
      (let f : Vpb := (held 0).set 5 1;
        f.length = 0xC0 ∧ f.endRequested ≠ 0 ∧ f.useDolby = 0) := by decide +kernel

/-- Channel 0 without a destination; channel 0 and the first bus; channel 5, with VOLUME_STEP, and the last bus. -/
theorem witness_StepChannel :
    10 < (11 : Half).toNat ∧ Vpb.destId (held 0) 0 = 0 ∧ (ready 0 []).cfg.volumeStep = false ∧
      (ready 0x10 []).cfg.volumeStep = true ∧
      BusId.ofDest (Vpb.destId ((held 0).set 0x10 1) 0) = some .fl ∧ (Buses.zero.get .fl).length = 80 ∧
      BusId.ofDest (Vpb.destId ((held 0).set 0x24 10) 5) = some .auxbRv ∧
      (List.replicate 80 (5 : Sample)).length = 80 ∧ (Buses.zero.get .auxbRv).length = 80 := by decide +kernel

/-- A whole frame in either mode; the last feed bus; a reverb factor of 0. -/
theorem witness_DolbyMix :
    (List.replicate 80 (5 : Sample)).length = 80 ∧ Buses.zero.full = true ∧ Vpb.reverbFactor (held 1) = 0 ∧
      (Vpb.useDolby (held 1) ≠ 0 ∧ (ready 0 []).cfg.light = false) ∧ Vpb.useDolby (held 0) = 0 ∧
      (ready 4 []).cfg.light = true ∧ BusId.brRv ∈ [BusId.flRv, .frRv, .blRv, .brRv] := by decide +kernel

theorem witness_LegacyLayout :
    (List.replicate 0x80 (5 : Half)).length = 0x80 ∧ (List.replicate 0xC0 (5 : Half)).length = 0xC0 ∧
      0xBF < 0xC0 ∧ 0xBC + (List.replicate 4 (5 : Half)).length ≤ 0xC0 :=
  ⟨List.length_replicate .., List.length_replicate .., by decide, by decide⟩

/-- A stream image: index, length, loop flag and loop start. -/
def stream (index : BitVec 20) (length : Word) (loop : Half) (start : Word) : Vpb :=
  Vpb.putPair (Vpb.put (Vpb.putPair (Vpb.setIndex (List.replicate 0xC0 0) index) 0x82 length) 0x84 loop) 0x8A start

/-- Bytes of both spaces at addresses 4 and 5; address 6 does not answer. -/
def samples : State :=
  { ready 0 [] with
    cfg := ⟨0, 0x4000, 0x8000, 0x4000, [⟨.main, 6, 6⟩, ⟨.sample, 6, 6⟩]⟩
    sample := [(4, 7), (5, 9)], main := [(4, 1), (5, 2)] }

/-- At the last sample, and where it does not answer; past the end without a loop; with a loop to just past the
end; with a loop to the last sample, and where that does not answer. -/
theorem witness_StreamFetch :
    let s := samples;
    let at8 := fun n : Nat => s.bytes? s.sampleSpace 1 (s.sampleAddr (0 + BitVec.ofNat 32 n));
    let at16 := fun n : Nat => s.bytes? s.sampleSpace 2 (s.sampleAddr (0 + BitVec.ofNat 32 (2 * n)));
    let atMain := fun n : Nat => s.bytes? .main 2 (0 + BitVec.ofNat 32 (2 * n));
    let inside := fun f : Vpb => f.baseAddress = 0 ∧ f.index.toNat < f.streamLength.toNat;
    let loops := fun (f : Vpb) (n : Nat) =>
      f.length = 0xC0 ∧ f.streamLength.toNat ≤ f.index.toNat ∧ f.loopEnable ≠ 0 ∧ f.loopAddress = 0 ∧
        f.loopStart.toNat % 2 ^ 20 = n;
    (inside (stream 4 5 0 0) ∧ (stream 4 5 0 0).index.toNat = 4 ∧ at8 4 = some [7]) ∧
      (inside (stream 2 3 0 0) ∧ (stream 2 3 0 0).index.toNat = 2 ∧ at16 2 = some [7, 9] ∧
        atMain 2 = some [1, 2]) ∧
      (inside (stream 6 7 0 0) ∧ (stream 6 7 0 0).index.toNat = 6 ∧ at8 6 = none) ∧
      (inside (stream 3 4 0 0) ∧ (stream 3 4 0 0).index.toNat = 3 ∧ at16 3 = none ∧ atMain 3 = none) ∧
      ((stream 3 3 0 0).streamLength.toNat ≤ (stream 3 3 0 0).index.toNat ∧ (stream 3 3 0 0).loopEnable = 0) ∧
      (loops (stream 3 3 1 3) 3 ∧ (stream 3 3 1 3).streamLength.toNat ≤ 3) ∧
      (loops (stream 5 5 1 4) 4 ∧ 4 < (stream 5 5 1 4).streamLength.toNat) ∧
      (loops (stream 3 3 1 0x100002) 2 ∧ 2 < (stream 3 3 1 0x100002).streamLength.toNat) ∧
      (loops (stream 7 7 1 6) 6 ∧ 6 < (stream 7 7 1 6).streamLength.toNat) ∧
      loops (stream 4 4 1 3) 3 ∧ 3 < (stream 4 4 1 3).streamLength.toNat := by decide +kernel

/-- Blocks of both kinds; the last sample of a block, the first of one that answers and of one that does not; a
loop restart inside the one and the other. -/
theorem witness_AfcDecode :
    (StreamKind.afc4 = .afc4 ∧ (List.replicate 8 (5 : Byte)).length = 8) ∧
      (StreamKind.afc2 = .afc2 ∧ (List.replicate 4 (5 : Byte)).length = 4) ∧
      (let s := samples;
        let block := fun size n : Nat =>
          s.bytes? s.sampleSpace size (s.sampleAddr (0 + BitVec.ofNat 32 (size * (n / 16))));
        let f := stream 31 32 0 0;
        let g := stream 16 17 0 0;
        let h := stream 0 17 0 0;
        let l := stream 32 32 1 31;
        let m := stream 32 32 1 15;
        (f.length = 0xC0 ∧ f.index.toNat < f.streamLength.toNat ∧ f.index.toNat % 16 ≠ 0) ∧
          (g.baseAddress = 0 ∧ g.index.toNat = 16 ∧ 16 < g.streamLength.toNat ∧
            block 9 16 = some (List.replicate 9 0) ∧ block 5 16 = none) ∧
          (h.baseAddress = 0 ∧ h.index.toNat = 0 ∧ 0 < h.streamLength.toNat ∧
            block 9 0 = none ∧ block 5 0 = some [0, 0, 0, 0, 7]) ∧
          (l.streamLength.toNat ≤ l.index.toNat ∧ l.loopEnable ≠ 0 ∧ l.loopAddress = 0 ∧
            l.loopStart.toNat % 2 ^ 20 = 31 ∧ 31 < l.streamLength.toNat ∧
            block 9 31 = some (List.replicate 9 0) ∧ block 5 31 = none) ∧
          (m.streamLength.toNat ≤ m.index.toNat ∧ m.loopEnable ≠ 0 ∧ m.loopAddress = 0 ∧
            m.loopStart.toNat % 2 ^ 20 = 15 ∧ 15 < m.streamLength.toNat ∧
            block 9 15 = none ∧ block 5 15 = some [0, 0, 0, 0, 7])) := by decide +kernel

/-- Both sides of the ratio 4.0, the last fraction, the window's end. -/
theorem witness_ResamplerTap :
    (List.replicate 256 (1 : Sample)).length = 256 ∧ 3 + 4 ≤ (List.replicate 7 (1 : Sample)).length ∧
      4095 < 4096 ∧ 0x3FFF < 0x4000 ∧ 0x4000 ≤ 0x4000 := by decide +kernel

/-- Ratio 0; a small ratio over an ended stream, five fetches that complete; a fetch that does not answer; one
fetch after another. -/
theorem witness_ResampleFrame :
    let f : Vpb := Vpb.put (List.replicate 0xC0 0) 0x02 0x0100;
    let g : Vpb := Vpb.put (stream 3 4 0 0) 0x02 0x0400;
    let e (type : Half) : Vpb := [1, 0, 0, type] ++ List.replicate 0xBC 0;
    (Vpb.useConstantSample (e 8) = 0 ∧ (Vpb.sourceType (e 8)).toNat = 8 ∧ (Vpb.sourceType (e 12)).toNat = 12) ∧
      ((List.replicate 0xC0 0 : Vpb).length = 0xC0 ∧ Vpb.ratio (List.replicate 0xC0 0) = 0) ∧
      (f.length = 0xC0 ∧ (f.frac.toNat + 80 * f.ratio.toNat) / 4096 = 5 ∧
        ∃ new h, nextSamples .pcm16 5 f samples = .ok (new, h) samples) ∧
      (g.length = 0xC0 ∧ (g.frac.toNat + 80 * g.ratio.toNat) / 4096 = 20 ∧
        ∃ t, nextSamples .pcm16 20 g samples = .error .busError t) ∧
      ∃ x h, nextSample f .pcm16 samples = .ok (x, h) samples ∧
        nextSamples .pcm16 0 h samples = .ok ([], h) samples :=
  ⟨by decide +kernel, ⟨rfl, by decide +kernel⟩, ⟨by decide +kernel, by decide +kernel, _, _, rfl⟩,
    ⟨by decide +kernel, by decide +kernel, _, rfl⟩, _, _, rfl, rfl⟩

/-- Constant-sample mode; source types 5 and 1; two machines that agree on a pattern and the buses, and two images
that agree on nothing but the type, the phase and the ratio. -/
theorem witness_SourcesWithoutStream :
    Vpb.useConstantSample (held 0) ≠ 0 ∧
      (let f : Vpb := [1, 0, 0x800, 5] ++ List.replicate 0xBC 0;
        let g : Vpb := [1, 1, 0x800, 5, 0, 1, 0] ++ List.replicate 0xB9 7 |>.set 0x2E 0;
        f.useConstantSample = 0 ∧ g.useConstantSample = 0 ∧ f.sourceType.toNat ≤ 5 ∧
          f.sourceType.toNat = (3 : Fin 4).val + 2 ∧ g.sourceType = f.sourceType ∧
          g.synthPhase = f.synthPhase ∧ g.ratio = f.ratio) ∧
      (let f : Vpb := [1, 0, 0, 1] ++ List.replicate 0xBC 0;
        let g : Vpb := [1, 1, 0, 1, 0, 1, 0] ++ List.replicate 0xB9 7 |>.set 0x2E 0;
        f.useConstantSample = 0 ∧ g.useConstantSample = 0 ∧ f.sourceType.toNat ≤ 1 ∧
          g.sourceType = f.sourceType ∧ g.synthPhase = f.synthPhase ∧ g.ratio = f.ratio) ∧
      (let s := ready 0 [];
        let t := { s with tables := { s.tables with pattern := s.tables.pattern.set 0 9 } };
        t.buses = s.buses ∧
          (∀ i < 64, t.tables.pattern.getD (64 * (3 : Fin 4).val + i) 0 =
            s.tables.pattern.getD (64 * (3 : Fin 4).val + i) 0) ∧
          s.tables.full = true ∧ t.tables.full = true) := by decide +kernel

theorem witness_FirFilter :
    (List.replicate 8 (1 : Sample)).length = 8 ∧ (List.replicate 88 (1 : Sample)).length = 88 ∧ 79 < 80 := by
  decide +kernel

/-- The record of an enabled unit with both filters and `size` blocks at 0x4000, destinations 1 and 10. -/
def unit (enable size : Half) : List Half :=
  [enable, size, 0, 0x4000, 1, 0x8000, 10, 0x2000, 0, 0, 0, 0, 0, 0, 0x2000, 0x2000]

/-- A memory with such a record for the last unit. -/
def unitMemory (enable size : Half) : Memory :=
  ((unit enable size).foldl (fun m w => (put16 m.1 m.2 w.toNat, m.2 + 2)) ([], 0x3060)).1

/-- A machine with such a record for the last unit, one byte of whose block does not answer. -/
def tornUnit (enable size : Half) (a : Nat) : State :=
  { ready 0 (unitMemory enable size) with cfg := ⟨0, 0x4000, 0x8000, 0x4000, [⟨.main, a, a⟩]⟩ }

theorem witness_ReverbPre :
    (let s := tornUnit 7 2 0x409F;
      s.words? .main 16 (s.rpbBase + BitVec.ofNat 32 (0x20 * 3)) = some (unit 7 2) ∧
        Rpb.enabled (unit 7 2) = true ∧ Rpb.cbSize (unit 7 2) ≠ 0 ∧ (Rpb.destId (unit 7 2) 0).toNat ≤ 10 ∧
        (Rpb.destId (unit 7 2) 1).toNat ≤ 10 ∧
        s.words? .main 80 (Rpb.cbBase (unit 7 2) +
          BitVec.ofNat 32 (160 * ((s.reverbUnit 3).cursor % Rpb.cbSize (unit 7 2)).toNat)) = none) ∧
    let s := ready 0 (unitMemory 7 2);
    3 < 4 ∧ s.reverb.length = 4 ∧
      s.words? .main 16 (s.rpbBase + BitVec.ofNat 32 (0x20 * 3)) = some (unit 7 2) ∧
      Rpb.enabled (unit 7 2) = true ∧ Rpb.cbSize (unit 7 2) ≠ 0 ∧ (Rpb.destId (unit 7 2) 0).toNat ≤ 10 ∧
      (Rpb.destId (unit 7 2) 1).toNat ≤ 10 ∧
      s.words? .main 80 (Rpb.cbBase (unit 7 2) +
        BitVec.ofNat 32 (160 * ((s.reverbUnit 3).cursor % Rpb.cbSize (unit 7 2)).toNat)) =
          some (List.replicate 80 0) := by decide +kernel

theorem witness_ReverbPost :
    (let s := tornUnit 1 2 0x409F;
      let c := (s.reverbUnit 3).cursor % Rpb.cbSize (unit 1 2);
      s.buses.full = true ∧ s.words? .main 16 (s.rpbBase + BitVec.ofNat 32 (0x20 * 3)) = some (unit 1 2) ∧
        Rpb.enabled (unit 1 2) = true ∧ Rpb.cbSize (unit 1 2) ≠ 0 ∧ 159 < 160 ∧
        s.breaksAt (Rpb.cbBase (unit 1 2) + BitVec.ofNat 32 (160 * c.toNat)) 159 = true) ∧
    let s := ready 0 (unitMemory 1 2);
    let c := (s.reverbUnit 3).cursor % Rpb.cbSize (unit 1 2);
    s.buses.full = true ∧ s.words? .main 16 (s.rpbBase + BitVec.ofNat 32 (0x20 * 3)) = some (unit 1 2) ∧
      Rpb.enabled (unit 1 2) = true ∧ Rpb.cbSize (unit 1 2) ≠ 0 ∧
      s.answers (Rpb.cbBase (unit 1 2) + BitVec.ofNat 32 (160 * c.toNat)) 160 = true ∧
      (0xFFFE : Half).toNat < (0xFFFF : Half).toNat := by decide +kernel

/-- V-RV2: a record that does not answer in its last byte, a disabled unit, an enabled one without blocks, an
enabled one with a destination of 11. -/
theorem witness_ReverbChecks :
    ((unit 0 0).length = 16 ∧
      (tornUnit 0 0 0x307F).words? .main 16 ((tornUnit 0 0 0x307F).rpbBase + BitVec.ofNat 32 (0x20 * 3)) =
        none) ∧
    (let s := ready 0 (unitMemory 0 0);
      s.words? .main 16 (s.rpbBase + BitVec.ofNat 32 (0x20 * 3)) = some (unit 0 0) ∧
        Rpb.enabled (unit 0 0) = false) ∧
      (let s := ready 0 (unitMemory 1 0);
        s.words? .main 16 (s.rpbBase + BitVec.ofNat 32 (0x20 * 3)) = some (unit 1 0) ∧
          Rpb.enabled (unit 1 0) = true ∧ Rpb.cbSize (unit 1 0) = 0) ∧
      (let p : List Half := [1, 1, 0, 0, 11] ++ List.replicate 11 0;
        let s := ready 0 [(0x3001, 1), (0x3003, 1), (0x3009, 11)];
        s.words? .main 16 (s.rpbBase + BitVec.ofNat 32 (0x20 * 0)) = some p ∧ Rpb.enabled p = true ∧
          Rpb.cbSize p ≠ 0 ∧ 10 < (Rpb.destId p 0).toNat) := by decide +kernel

/-- The fixture with a queue, in the middle of a render that a sync word will finish. -/
def busy : State :=
  { rendering 0 1 16 with
    host := [.regWrite .word 0x00 0x0000FFFF], evt := [0x10000001]
    cmd := ⟨(List.replicate 64 0).set 0 0x80000000, 1, 0, 1, 1, 0⟩, canExecute := false }

theorem witness_step : ∃ t, step busy = .next t := ⟨_, rfl⟩

theorem witness_ConfigurationFixed : ∃ t, step busy = .next t := witness_step

theorem witness_EventsAndPulses : ∃ t, step busy = .next t := witness_step

theorem witness_EventWordsKept : busy.eventInv = true ∧ ∃ t, step busy = .next t :=
  ⟨by decide +kernel, witness_step⟩

theorem witness_MemoryKept : busy.memoryInv = true ∧ ∃ t, step busy = .next t :=
  ⟨by decide +kernel, witness_step⟩

theorem witness_ShapeKept : busy.shapeInv = true ∧ ∃ t, step busy = .next t :=
  ⟨by decide +kernel, witness_step⟩

theorem witness_ProtocolKept : busy.protocolInv = true ∧ ∃ t, step busy = .next t :=
  ⟨by decide +kernel, witness_step⟩

theorem witness_BufferKept : busy.bufferInv = true ∧ ∃ t, step busy = .next t :=
  ⟨by decide +kernel, witness_step⟩

end Sys2Proof.Tests
end

section
/-! What one access of the host can come to: the equations of `step` and of the two write ports, the cases of each
port, and from them what every step keeps (00_scope.md R15, R16; 10_state.md R37; 20_memory.md R60;
40_commands.md R130). -/

namespace Sys2Proof.Machine

/-! ### One access, one word -/

theorem step_nil {s : State} (h : s.host = []) : step s = .next s := by
  simp [step, h]

theorem step_cons {s : State} {a : HostAccess} {rest : List HostAccess} (h : s.host = a :: rest) :
    step s = hostAccess a { s with host := rest } := by
  simp [step, h]

theorem decode_control_noAction {w : Word} (h0 : w.getLsbD 0 = false) (h1 : w.getLsbD 1 = false) :
    decode .control [w] = .error .noControlAction := by
  have hd : decodeControl w = .error .noControlAction := by
    simp only [decodeControl, h0, h1, Bool.false_eq_true, if_false]
  exact congrArg (Except.map (·, [])) hd

theorem ctrlWrite_of_ok {w : Word} {i : Instr} {ws : List Word} (h : decode .control [w] = .ok (i, ws))
    (s : State) : ctrlWrite w s = exec i s := by
  simp [ctrlWrite, h]

theorem ctrlWrite_of_error {w : Word} {e : DecodeError} (h : decode .control [w] = .error e) (s : State) :
    ctrlWrite w s = .next s := by
  simp [ctrlWrite, h]

theorem syncWord_of_ok {s : State} {w : Word} {i : Instr} {ws : List Word}
    (h : decode s.cfg.syncContext [w] = .ok (i, ws)) : syncWord w s = exec i s := by
  simp [syncWord, h]

theorem syncWord_of_error {s : State} {w : Word} {e : DecodeError}
    (h : decode s.cfg.syncContext [w] = .error e) : syncWord w s = .next (s.haltWith .badLightSync) := by
  simp [syncWord, h, Act.outcome, Act.final]

theorem cmdWrite_of_rendering {s : State} (h : s.mode = .rendering) (w : Word) :
    cmdWrite w s = syncWord w s := by
  simp [cmdWrite, h]

/-! ### The cases of the ports -/

/-- A `CTRL` write runs the instruction it decodes to, or has no effect (30_encoding.md R115). -/
theorem ctrlWrite_cases (w : Word) (s : State) :
    (∃ i ws, decode .control [w] = .ok (i, ws) ∧ ctrlWrite w s = exec i s) ∨ ctrlWrite w s = .next s := by
  cases h : decode .control [w] with
  | ok r => exact .inl ⟨r.1, r.2, rfl, ctrlWrite_of_ok h s⟩
  | error e => exact .inr (ctrlWrite_of_error h s)

/-- A `CMD` write is ignored, halts at once, runs a sync word, or enters the command buffer, by the state it
meets (40_commands.md R130). -/
theorem cmdWrite_cases (w : Word) (s : State) :
    (s.mode = .halted ∧ cmdWrite w s = .next s) ∨
    (∃ c, c ≠ .none ∧ s.mode ≠ .halted ∧ cmdWrite w s = .next (s.haltWith c)) ∨
    (∃ i ws, s.mode = .rendering ∧ decode s.cfg.syncContext [w] = .ok (i, ws) ∧ cmdWrite w s = exec i s) ∨
    (s.mode = .writingCmd ∧ cmdWrite w s = (operandWord w).outcome s) ∨
    (s.mode = .waiting ∧ headerBit w = true ∧ cmdWrite w s = (headerWord w).outcome s) := by
  cases hm : s.mode with
  | halted => exact .inl ⟨rfl, by simp [cmdWrite, hm]⟩
  | writingCmd => exact .inr (.inr (.inr (.inl ⟨rfl, by simp [cmdWrite, hm]⟩)))
  | rendering =>
    have hw := cmdWrite_of_rendering hm w
    cases hd : decode s.cfg.syncContext [w] with
    | ok r => exact .inr (.inr (.inl ⟨r.1, r.2, rfl, rfl, hw.trans (syncWord_of_ok hd)⟩))
    | error e =>
      exact .inr (.inl ⟨.badLightSync, by decide, by decide, hw.trans (syncWord_of_error hd)⟩)
  | waiting =>
    cases hb : headerBit w with
    | true => exact .inr (.inr (.inr (.inr ⟨rfl, rfl, by simp [cmdWrite, hm, hb]⟩)))
    | false =>
      exact .inr (.inl ⟨.unexpectedSync, by decide, by decide, by
        simp [cmdWrite, hm, hb, Act.outcome, Act.final]⟩)

/-- A register write that answers is a `CMD` write, a `CTRL` write, or ignored (10_state.md R37). -/
theorem regWrite_cases {o : Nat} {w : Word} {s t : State} (h : regWrite o w s = .next t) :
    (o = 0x00 ∧ cmdWrite w s = .next t) ∨ (o = 0x04 ∧ ctrlWrite w s = .next t) ∨ t = s := by
  unfold regWrite at h
  split at h
  case h_1 => exact .inl ⟨rfl, h⟩
  case h_2 => exact .inr (.inl ⟨rfl, h⟩)
  case h_7 => cases h
  all_goals
    cases h
    exact .inr (.inr rfl)

/-- A register read that answers takes the head of the FIFO, or only replies (10_state.md R37). -/
theorem regRead_cases {o : Nat} {s t : State} (h : regRead o s = .next t) :
    (o = 0x0C ∧ t = s.popEvent) ∨ ∃ r, t = s.reply r := by
  unfold regRead at h
  split at h
  case h_4 => cases h; exact .inl ⟨rfl, rfl⟩
  case h_7 => cases h
  all_goals
    cases h
    exact .inr ⟨_, rfl⟩

/-- What an access that answers can be, with the state it leaves (00_scope.md R15). -/
theorem hostAccess_cases {a : HostAccess} {s t : State} (h : hostAccess a s = .next t) :
    (∃ o w, a = .regWrite .word o w ∧ regWrite o w s = .next t) ∨
    (a = .regRead .word 0x0C ∧ t = s.popEvent) ∨
    (∃ r, t = s.reply r) ∨
    (∃ sp x b, a = .memWrite sp x b ∧ t = s.setMem sp ((s.mem sp).write x.toNat b)) ∨
    (a = .resetInput ∧ t = s.resetAvm) := by
  cases a with
  | regWrite width o w =>
    cases width with
    | word => exact .inl ⟨o, w, rfl, h⟩
    | byte | half => cases h
  | regRead width o =>
    cases width with
    | word =>
      obtain ⟨rfl, ht⟩ | hr := regRead_cases h
      · exact .inr (.inl ⟨rfl, ht⟩)
      · exact .inr (.inr (.inl hr))
    | byte | half => cases h
  | memRead sp x =>
    simp only [hostAccess] at h
    split at h
    · cases h
    · cases h; exact .inr (.inr (.inl ⟨_, rfl⟩))
  | memWrite sp x b =>
    simp only [hostAccess] at h
    split at h
    · cases h
    · cases h; exact .inr (.inr (.inr (.inl ⟨sp, x, b, rfl, rfl⟩)))
  | resetInput => cases h; exact .inr (.inr (.inr (.inr ⟨rfl, rfl⟩)))

/-! ### What every step keeps -/

theorem exec_touchesAvm {i : Instr} {s t : State} (h : exec i s = .next t) : TouchesAvm s t := by
  obtain ⟨u, hu, hs⟩ := exec_touches i s
  cases hu.symm.trans h
  exact hs

theorem outcome_touchesAvm {act : Act Unit} {s t : State} (ha : Act.At TouchesAvm act s)
    (h : act.outcome s = .next t) : TouchesAvm s t := by
  cases h
  exact ha.touches

theorem ctrlWrite_touchesAvm {w : Word} {s t : State} (h : ctrlWrite w s = .next t) : TouchesAvm s t := by
  obtain ⟨i, _, -, hi⟩ | hi := ctrlWrite_cases w s
  · exact exec_touchesAvm (hi.symm.trans h)
  · cases hi.symm.trans h
    exact .refl s

theorem cmdWrite_touchesAvm {w : Word} {s t : State} (h : cmdWrite w s = .next t) : TouchesAvm s t := by
  obtain ⟨-, hc⟩ | ⟨c, -, -, hc⟩ | ⟨i, _, -, -, hc⟩ | ⟨-, hc⟩ | ⟨-, -, hc⟩ := cmdWrite_cases w s
  · cases hc.symm.trans h
    exact .refl s
  · cases hc.symm.trans h
    exact ⟨rfl, rfl, rfl, rfl⟩
  · exact exec_touchesAvm (hc.symm.trans h)
  · exact outcome_touchesAvm (operandWord_at w s) (hc.symm.trans h)
  · exact outcome_touchesAvm (headerWord_at w s) (hc.symm.trans h)

/-- No write to a register reaches the configuration, `SAMPLE` or the host's side. -/
theorem regWrite_touchesAvm {o : Nat} {w : Word} {s t : State} (h : regWrite o w s = .next t) :
    TouchesAvm s t := by
  obtain ⟨-, hc⟩ | ⟨-, hc⟩ | rfl := regWrite_cases h
  · exact cmdWrite_touchesAvm hc
  · exact ctrlWrite_touchesAvm hc
  · exact .refl _

/-- An access keeps the configuration, and all but a memory write of the host keep `SAMPLE`. -/
theorem hostAccess_keeps {a : HostAccess} {s t : State} (h : hostAccess a s = .next t) :
    t.cfg = s.cfg ∧ (t.sample = s.sample ∨ ∃ x b, a = .memWrite .sample x b) := by
  obtain ⟨o, w, -, hw⟩ | ⟨-, rfl⟩ | ⟨r, rfl⟩ | ⟨sp, x, b, rfl, rfl⟩ | ⟨-, rfl⟩ := hostAccess_cases h
  · obtain ⟨hcfg, hsample, -, -⟩ := regWrite_touchesAvm hw
    exact ⟨hcfg, .inl hsample⟩
  · exact ⟨rfl, .inl rfl⟩
  · exact ⟨rfl, .inl rfl⟩
  · cases sp with
    | main => exact ⟨rfl, .inl rfl⟩
    | sample => exact ⟨rfl, .inr ⟨x, b, rfl⟩⟩
  · exact ⟨rfl, .inl rfl⟩

/-! ### The obligations -/

/-- Settles O53, from what each access of the host keeps. -/
theorem configurationFixed : Obligations.ConfigurationFixed := by
  intro s t h
  cases hh : s.host with
  | nil =>
    cases (step_nil hh).symm.trans h
    exact ⟨rfl, .inl rfl⟩
  | cons a rest =>
    obtain ⟨hcfg, hsample | ⟨x, b, rfl⟩⟩ := hostAccess_keeps ((step_cons hh).symm.trans h)
    · exact ⟨hcfg, .inl hsample⟩
    · exact ⟨hcfg, .inr ⟨x, b, rest, rfl⟩⟩

/-- Settles O5, from the equations of the two write ports. -/
theorem stepRunsWord : Obligations.StepRunsWord := by
  refine ⟨fun s => step_nil, fun s w rest i hh hd => ?control, fun s w rest hh h0 h1 => ?noAction,
    fun s w rest i hh hm hd => ?sync⟩
  case control => exact (step_cons hh).trans (ctrlWrite_of_ok hd _)
  case noAction => exact (step_cons hh).trans (ctrlWrite_of_error (decode_control_noAction h0 h1) _)
  case sync =>
    calc step s = cmdWrite w { s with host := rest } := step_cons hh
      _ = syncWord w { s with host := rest } := cmdWrite_of_rendering (s := { s with host := rest }) hm w
      _ = exec i { s with host := rest } := syncWord_of_ok hd

end Sys2Proof.Machine
end

section
/-! How a relation between the state before and the state after passes through the pieces of an operation, and
through the parts of a frame, a render and a fetch (60_exceptions.md R311; 41_frame_ops.md R171, R174;
40_commands.md R135). Each walk is made once, for every relation. -/

namespace Sys2Proof.Machine

variable {α β : Type} {T : State → State → Prop} {s : State}

/-! ### Pieces -/

theorem Act.At.pure (a : α) (h : T s s) : Act.At T (Pure.pure a : Act α) s := .inl ⟨a, s, rfl, h⟩

theorem Act.At.get {f : State → Act β} (h : Act.At T (f s) s) : Act.At T (MonadState.get >>= f) s := h

theorem Act.At.modify {g : State → State} (h : T s (g s)) : Act.At T (modify g : Act PUnit) s :=
  .inl ⟨⟨⟩, g s, rfl, h⟩

theorem Act.At.set {t : State} (h : T s t) : Act.At T (MonadStateOf.set t : Act PUnit) s :=
  .inl ⟨⟨⟩, t, rfl, h⟩

/-- After an operation that only reads, the rest runs in the state it found. -/
theorem Act.At.read {act : Act α} {f : α → Act β} (hr : act.ReadsOnly) (refl : T s s)
    (hf : ∀ a, act s = .ok a s → Act.At T (f a) s) : Act.At T (act >>= f) s := by
  rcases hr s with ⟨a, ha⟩ | ha
  · unfold Act.At
    rw [Act.bind_ok ha]
    exact hf a ha
  · exact .inr ⟨.busError, s, by decide, Act.bind_error ha, refl⟩

theorem readWords_eq_ok {sp : Space} {n : Nat} {a : Addr} {ws : List Half} {t : State} :
    readWords sp n a s = .ok ws t ↔ s.words? sp n a = some ws ∧ t = s := by
  cases h : s.words? sp n a with
  | some v =>
    rw [readWords, ofRead_some h, EStateM.Result.ok.injEq, Option.some.injEq]
    exact and_congr_right fun _ => eq_comm
  | none =>
    rw [readWords, ofRead_none (read := fun s => s.words? sp n a) h]
    simp

/-- What an operation leaves satisfies a predicate that the relation reaches and that a halt keeps. -/
theorem Act.At.final_of {P : State → Prop} {act : Act α} (h : Act.At T act s) (hT : ∀ t, T s t → P t)
    (hhalt : ∀ t c, P t → P (t.haltWith c)) : P (act.final s) := by
  obtain h | ⟨c, t, -, hf, ht⟩ := h.final
  · exact hT _ h
  · rw [hf]
    exact hhalt t c (hT t ht)

/-! ### A frame opened, a render -/

/-- What the parts of `PrepareFrame` keep, it keeps (41_frame_ops.md R174). -/
theorem prepareFrame_of_parts (refl : ∀ s, T s s) (trans : ∀ a b c, T a b → T b c → T a c)
    (hbuses : ∀ s : State, T s { s with buses := prepareBuses s.cfg s.buses })
    (hunit : ∀ r s, Act.At T (preUnit r) s) (hclose : ∀ s : State, T s s.closePrepare) (s : State) :
    Act.At T prepareFrame s := by
  refine .get ?_
  split
  · exact .pure _ (refl s)
  · split
    · exact .halt (by decide) (refl s)
    · exact .after trans (hbuses s) (.bind trans (forUnits_at trans hunit _) fun _ t _ _ => .modify (hclose t))

/-- The parts of a render keep `T` (41_frame_ops.md R171 to R174, R178; 42_voice_mix.md R200). -/
structure RenderParts (T : State → State → Prop) : Prop where
  refl : ∀ s, T s s
  trans : ∀ a b c, T a b → T b c → T a c
  prepare : ∀ s, Act.At T prepareFrame s
  voice : ∀ v s, Act.At T (addVoice v) s
  finalize : ∀ s, Act.At T finalizeFrame s
  nextVoice : ∀ s, T s s.nextVoice
  frameDone : ∀ s, T s s.frameDone
  nextFrame : ∀ s, T s s.nextFrame
  renderDone : ∀ s, T s s.renderDone

theorem RenderParts.visitVoice (h : RenderParts T) (s : State) : Act.At T visitVoice s := by
  refine .get ?_
  split
  · exact h.voice _ s
  · exact .pure _ (h.refl s)

theorem RenderParts.renderVoices (h : RenderParts T) (n : Nat) (s : State) :
    Act.At T (renderVoices n) s := by
  induction n generalizing s with
  | zero => exact .pure _ (h.refl s)
  | succ n ih =>
    refine .get ?_
    split
    · exact .pure _ (h.refl s)
    · exact .bind h.trans (h.visitVoice s) fun _ t _ _ => .after h.trans (h.nextVoice t) (ih _)

theorem RenderParts.closeFrame (h : RenderParts T) (s : State) : Act.At T closeFrame s :=
  .after h.trans (h.frameDone s) (.bind h.trans (h.finalize _) fun _ t _ _ => .modify (h.nextFrame t))

theorem RenderParts.renderFrames (h : RenderParts T) (n : Nat) (s : State) :
    Act.At T (renderFrames n) s := by
  induction n generalizing s with
  | zero => exact .modify (h.renderDone s)
  | succ n ih =>
    refine .bind h.trans (h.prepare s) fun _ t _ _ => .get ?_
    refine .bind h.trans (h.renderVoices _ t) fun yielded u _ _ => ?_
    cases yielded with
    | true => exact .pure _ (h.refl u)
    | false => exact .bind h.trans (h.closeFrame u) fun _ v _ _ => ih v

/-- What the parts of a render keep, the rendering loop keeps (41_frame_ops.md R171). -/
theorem RenderParts.renderAudio (h : RenderParts T) (s : State) : Act.At T renderAudio s :=
  .get (h.renderFrames _ s)

/-! ### Commands fetched -/

/-- The parts of the dispatch loop keep `T` (40_commands.md R135). -/
structure FetchParts (T : State → State → Prop) : Prop where
  refl : ∀ s, T s s
  trans : ∀ a b c, T a b → T b c → T a c
  pop : ∀ s : State, T s { s with cmd := s.cmd.pop }
  pending : ∀ (s : State) (n : Nat), T s { s with cmd := { s.cmd with pending := n } }

theorem FetchParts.bufPop (h : FetchParts T) (s : State) : Act.At T bufPop s := by
  refine .get ?_
  split
  · exact .halt (by decide) (h.refl s)
  · exact .inl ⟨_, _, rfl, h.pop s⟩

theorem FetchParts.popHeader (h : FetchParts T) (n : Nat) (s : State) : Act.At T (popHeader n) s := by
  induction n generalizing s with
  | zero => exact .halt (by decide) (h.refl s)
  | succ n ih =>
    refine .bind h.trans (h.bufPop s) fun w t _ _ => ?_
    split
    · exact .pure _ (h.refl t)
    · exact ih t

theorem FetchParts.popOperands (h : FetchParts T) (n : Nat) (s : State) :
    Act.At T (popOperands n) s := by
  induction n generalizing s with
  | zero => exact .pure _ (h.refl s)
  | succ n ih =>
    exact .bind h.trans (h.bufPop s) fun w t _ _ => .bind h.trans (ih t) fun ws u _ _ => .pure _ (h.refl u)

theorem FetchParts.fetchCommand (h : FetchParts T) (s : State) : Act.At T fetchCommand s := by
  refine .get (.bind h.trans (h.popHeader _ s) fun w t _ _ => ?_)
  refine .bind h.trans (h.popOperands _ t) fun ops u _ _ => .after h.trans (h.pending u _) ?_
  split
  · exact .pure _ (h.refl _)
  · exact .halt (by decide) (h.refl _)

/-- What the fetch and every command keep, the dispatch loop keeps (40_commands.md R135). -/
theorem FetchParts.runPendingCommands (h : FetchParts T) (hcmd : ∀ i s, Act.At T (executeCommand i) s)
    (s : State) : Act.At T runPendingCommands s := by
  have hloop (n : Nat) (s : State) : Act.At T (dispatchLoop n) s := by
    induction n generalizing s with
    | zero => exact .pure _ (h.refl s)
    | succ n ih =>
      refine .get ?_
      split
      · exact .bind h.trans (h.fetchCommand s) fun i t _ _ =>
          .bind h.trans (hcmd i t) fun _ u _ _ => ih u
      · exact .pure _ (h.refl s)
  exact .get (hloop _ s)

end Sys2Proof.Machine
end

section
/-! Every array keeps its length (10_state.md R22, R25, R28, R30, R33): the buses through mixing, reverb and frames,
the tables through `SETUP` and `PatternRegen`, the reverb units, the skip masks and the command buffer. -/

namespace Sys2Proof.Machine

/-! ### Buses -/

theorem Buses.length_get {b : Buses} (h : b.full = true) (id : BusId) : (b.get id).length = frameLen :=
  (Buses.full_iff b).mp h id

theorem Buses.full_zero : Buses.zero.full = true :=
  (Buses.full_iff _).mpr fun id => by cases id <;> exact List.length_replicate

theorem Buses.full_foldl {γ : Type} {f : Buses → γ → Buses} (hf : ∀ b x, b.full = true → (f b x).full = true)
    (l : List γ) {b : Buses} (h : b.full = true) : (l.foldl f b).full = true := by
  induction l generalizing b with
  | nil => exact h
  | cons x l ih => exact ih (hf b x h)

theorem full_rampInto (voice : List Sample) {b : Buses} (h : b.full = true) (id : BusId) (cur tgt : Sample) :
    (rampInto voice b id cur tgt).full = true :=
  Buses.full_set h id (by rw [mixRamp_length]; exact Buses.length_get h id)

theorem full_mixDolby (p : Platform) (t : Tables) (voice : List Sample) (f : Vpb) {b : Buses}
    (h : b.full = true) : (mixDolby p t voice f b).2.full = true :=
  Buses.full_foldl (fun _ _ hb => full_rampInto voice (full_rampInto voice hb _ _ _) _ _ _) _ h

theorem full_mixChannel (p : Platform) (voice : List Sample) {fb : Vpb × Buses} (h : fb.2.full = true)
    (c : Nat) : (mixChannel p voice fb c).2.full = true := by
  unfold mixChannel
  split
  · exact h
  · exact Buses.full_set h _ (by rw [mixRamp_length]; exact Buses.length_get h _)

theorem full_mixChannels (p : Platform) (voice : List Sample) (f : Vpb) {b : Buses} (h : b.full = true) :
    (mixChannels p voice f b).2.full = true := by
  have hfold (l : List Nat) (fb : Vpb × Buses) (hfb : fb.2.full = true) :
      (l.foldl (mixChannel p voice) fb).2.full = true := by
    induction l generalizing fb with
    | nil => exact hfb
    | cons c l ih => exact ih _ (full_mixChannel p voice hfb c)
  exact hfold _ (f, b) h

/-- Both mixing modes keep every bus full (42_voice_mix.md R210, R220). -/
theorem full_mixVoice (p : Platform) (t : Tables) (voice : List Sample) (f : Vpb) {b : Buses}
    (h : b.full = true) : (mixVoice p t voice f b).2.full = true := by
  unfold mixVoice
  split
  · exact full_mixDolby p t voice f h
  · exact full_mixChannels p voice f h

theorem full_prepareBuses (p : Platform) {b : Buses} (h : b.full = true) : (prepareBuses p b).full = true := by
  have hfront := Buses.full_clear (Buses.full_clear h .fl) .fr
  have hback := Buses.full_scaleBus (Buses.full_scaleBus hfront .bl p.backDecayGain 15) .br p.backDecayGain 15
  exact Buses.full_clear (Buses.full_clear (Buses.full_clear (Buses.full_clear hback .flRv) .frRv) .auxaRv) .auxbRv

theorem full_foldBackReverb (p : Platform) {b : Buses} (h : b.full = true) :
    (foldBackReverb p b).full = true := by
  have hl := Buses.full_mixConst h .fl p.reverbFrontGainL (Buses.length_get h .blRv)
  have hr := Buses.full_mixConst hl .fr p.reverbFrontGainR (Buses.length_get hl .brRv)
  exact Buses.full_clear (Buses.full_clear hr .blRv) .brRv

/-! ### Reverb -/

theorem filterIf_length (on : Bool) (coef carry : List Sample) {x : List Sample} (h : x.length = frameLen) :
    (filterIf on coef carry x).length = frameLen := by
  unfold filterIf
  split
  · simp [fir8]
  · exact h

theorem full_rpbMix (p : Rpb) {x : List Sample} (hx : x.length = frameLen) {b : Buses} (h : b.full = true)
    (d : Nat) : (rpbMix p x b d).full = true := by
  unfold rpbMix
  split
  · exact h
  · exact Buses.full_mixConst h _ _ hx

/-- A block read keeps every bus full (44_reverb.md R291). -/
theorem full_reverbIn (p : Rpb) (r : Nat) (carry : List Sample) {raw : List Sample}
    (hraw : raw.length = frameLen) {b : Buses} (h : b.full = true) : (reverbIn p r carry raw b).full = true := by
  have hx := filterIf_length p.preFilter p.coef carry hraw
  exact Buses.full_set (full_rpbMix p hx (full_rpbMix p hx h 0) 1) (unitBus r)
    (filterIf_length p.postFilter p.coef carry hx)

theorem reverbFull_iff {us : List ReverbUnit} :
    reverbFull us = true ↔ us.length = 4 ∧ ∀ u ∈ us, u.carry.length = 8 := by
  simp [reverbFull]

theorem reverbFull_zero : reverbFull (List.replicate 4 ReverbUnit.zero) = true := by decide

theorem reverbFull_set {us : List ReverbUnit} (h : reverbFull us = true) (r : Nat) {u : ReverbUnit}
    (hu : u.carry.length = 8) : reverbFull (us.set r u) = true := by
  obtain ⟨hl, hc⟩ := reverbFull_iff.mp h
  refine reverbFull_iff.mpr ⟨by simpa using hl, fun v hv => ?_⟩
  obtain hv | rfl := List.mem_or_eq_of_mem_set hv
  · exact hc v hv
  · exact hu

theorem State.reverbUnit_carry_length {s : State} (h : reverbFull s.reverb = true) (r : Nat) :
    (s.reverbUnit r).carry.length = 8 := by
  unfold State.reverbUnit
  rw [List.getD_eq_getElem?_getD]
  cases hr : s.reverb[r]? with
  | none => rfl
  | some u => exact (reverbFull_iff.mp h).2 u (List.mem_of_getElem? hr)

/-! ### Tables -/

theorem Tables.full_iff (t : Tables) : t.full = true ↔
    t.resampleCoef.length = 256 ∧ t.pattern.length = 256 ∧ t.sine.length = 128 ∧ t.afcCoef.length = 32 := by
  simp [Tables.full, and_assoc]

theorem Tables.full_zero : Tables.zero.full = true :=
  (Tables.full_iff _).mpr
    ⟨List.length_replicate, List.length_replicate, List.length_replicate, List.length_replicate⟩

theorem regenPattern_length {pattern : List Sample} (h : pattern.length = 256) :
    (regenPattern pattern).length = 256 := by
  simp [regenPattern, h]

theorem regenPattern_take {pattern : List Sample} (h : pattern.length = 256) :
    (regenPattern pattern).take 128 = pattern.take 128 :=
  List.take_left' (by simp [h])

theorem overwrite_length {old new : List Sample} (h : new.length ≤ old.length) :
    (overwrite old new).length = old.length := by
  simp [overwrite]
  omega

theorem full_closePrepare {s : State} (h : s.tables.full = true) : s.closePrepare.tables.full = true := by
  obtain ⟨hr, hp, hs, ha⟩ := (Tables.full_iff _).mp h
  exact (Tables.full_iff _).mpr ⟨hr, regenPattern_length hp, hs, ha⟩

/-! ### The relation -/

/-- No array that has the length the spec gives it gets another (10_state.md R22, R25, R28, R30, R33). -/
structure KeepsLengths (s t : State) : Prop where
  buses : s.buses.full = true → t.buses.full = true
  tables : s.tables.full = true → t.tables.full = true
  reverb : reverbFull s.reverb = true → reverbFull t.reverb = true
  masks : s.cur.skipFlags.length = 16 → t.cur.skipFlags.length = 16
  words : s.cmd.buf.length = 64 → t.cmd.buf.length = 64

theorem KeepsLengths.refl (s : State) : KeepsLengths s s := ⟨id, id, id, id, id⟩

theorem KeepsLengths.seq (a b c : State) (h : KeepsLengths a b) (k : KeepsLengths b c) : KeepsLengths a c :=
  ⟨k.buses ∘ h.buses, k.tables ∘ h.tables, k.reverb ∘ h.reverb, k.masks ∘ h.masks, k.words ∘ h.words⟩

theorem State.shapeInv_iff (s : State) : s.shapeInv = true ↔
    s.buses.full = true ∧ s.tables.full = true ∧ reverbFull s.reverb = true ∧
      s.cur.skipFlags.length = 16 ∧ s.cmd.buf.length = 64 := by
  simp [State.shapeInv, and_assoc]

theorem KeepsLengths.shapeInv {s t : State} (h : KeepsLengths s t) (hs : s.shapeInv = true) :
    t.shapeInv = true := by
  obtain ⟨hb, ht, hr, hm, hw⟩ := s.shapeInv_iff.mp hs
  exact t.shapeInv_iff.mpr ⟨h.buses hb, h.tables ht, h.reverb hr, h.masks hm, h.words hw⟩

theorem KeepsLengths.ofBuses {s : State} {b : Buses} (h : s.buses.full = true → b.full = true) :
    KeepsLengths s { s with buses := b } := ⟨h, id, id, id, id⟩

theorem KeepsLengths.haltWith (s : State) (c : HaltCause) : KeepsLengths s (s.haltWith c) :=
  ⟨id, id, id, id, id⟩

theorem TouchesMain.keepsLengths {s t : State} : TouchesMain s t → KeepsLengths s t := by
  rintro ⟨m, rfl⟩
  exact ⟨id, id, id, id, id⟩

theorem storeWords_keepsLengths (a : Addr) (ws : List Half) (s : State) :
    Act.At KeepsLengths (storeWords a ws) s :=
  (storeWords_at a ws s).mono fun _ _ => TouchesMain.keepsLengths

theorem KeepsLengths.pushEvent (s : State) (w : Word) : KeepsLengths s (s.pushEvent w) := ⟨id, id, id, id, id⟩

theorem ack_keepsLengths (sync : BitVec 7) (s : State) : Act.At KeepsLengths (ack sync) s :=
  .modify (.pushEvent s _)

/-! ### Voices -/

theorem mixEnabledVoice_keepsLengths (v : Half) {f : Vpb} (s : State)
    (h : f.useConstantSample ≠ 0 ∨ SourceKind.ofType f.sourceType ≠ none) :
    Act.At KeepsLengths (mixEnabledVoice v f) s := by
  refine .read (loadVoiceSamples_readsOnly h) (.refl s) fun r _ => ?_
  refine .get (.bind KeepsLengths.seq (.set (.ofBuses (full_mixVoice _ _ _ _))) fun _ t _ _ => ?_)
  exact storeWords_keepsLengths _ _ t

theorem voiceDefect_eq_none {p : Platform} {f : Vpb} (h : voiceDefect p f = none) :
    f.useConstantSample ≠ 0 ∨ SourceKind.ofType f.sourceType ≠ none := by
  unfold voiceDefect at h
  split at h
  · cases h
  · exact Classical.not_and_iff_not_or_not.mp ‹_›

theorem addVoice_keepsLengths (v : Half) (s : State) : Act.At KeepsLengths (addVoice v) s := by
  refine .read (vpbFetch_readsOnly v) (.refl s) fun f _ => ?_
  split
  · exact .pure _ (.refl s)
  · refine .get ?_
    cases hd : voiceDefect s.cfg f with
    | some c => exact .halt (voiceDefect_ne_none hd) (.refl s)
    | none => exact mixEnabledVoice_keepsLengths v s (voiceDefect_eq_none hd)

/-! ### Frames -/

/-- What the pre-render phase of a reverb unit touches, the lengths kept (44_reverb.md R291). -/
def TouchesUnit (s t : State) : Prop :=
  ∃ b u, t = { s with buses := b, reverb := u } ∧ (s.buses.full = true → b.full = true) ∧
    (reverbFull s.reverb = true → reverbFull u = true)

theorem TouchesUnit.refl (s : State) : TouchesUnit s s := ⟨_, _, rfl, id, id⟩

theorem TouchesUnit.keepsLengths {s t : State} : TouchesUnit s t → KeepsLengths s t := by
  rintro ⟨b, u, rfl, hb, hu⟩
  exact ⟨hb, id, hu, id, id⟩

theorem preUnit_touchesUnit (r : Nat) (s : State) : Act.At TouchesUnit (preUnit r) s := by
  refine .read (rpbFetch_readsOnly r) (.refl s) fun p _ => ?_
  split
  · cases hd : rpbDefect p with
    | some c => exact .halt (rpbDefect_ne_none hd) (.refl s)
    | none =>
      refine .get (.read (readWords_readsOnly _ _ _) (.refl s) fun raw hraw => .set ?_)
      have hlen : raw.length = 80 := State.words?_length (readWords_eq_ok.mp hraw).1
      exact ⟨_, _, rfl, full_reverbIn p r _ hlen, fun hr => reverbFull_set hr r (by simp [hlen])⟩
  · exact .pure _ (.refl s)

theorem prepareFrame_keepsLengths (s : State) : Act.At KeepsLengths prepareFrame s := by
  refine prepareFrame_of_parts .refl .seq (fun s => .ofBuses (full_prepareBuses _))
    (fun r s => (preUnit_touchesUnit r s).mono fun _ _ => TouchesUnit.keepsLengths) (fun s => ?_) s
  exact ⟨full_foldBackReverb _, full_closePrepare, id, id, id⟩

theorem postUnit_keepsLengths (r : Nat) (s : State) : Act.At KeepsLengths (postUnit r) s := by
  refine .read (rpbFetch_readsOnly r) (.refl s) fun p _ => ?_
  split
  · split
    · exact .halt (by decide) (.refl s)
    · refine .get ?_
      obtain ⟨m, -, ⟨-, h⟩ | ⟨-, h⟩⟩ := storeWords_cases
        (p.blockAddr ((s.reverbUnit r).cursor % p.cbSize)) (s.buses.get (unitBus r)) s
      · refine .ok (Act.bind_ok h) ?_
        exact ⟨id, id, fun hr => reverbFull_set hr r (State.reverbUnit_carry_length (s := s) hr r), id, id⟩
      · exact .inr ⟨_, _, by decide, Act.bind_error h, id, id, id, id, id⟩
  · exact .pure _ (.refl s)

theorem writeFrame_keepsLengths (s : State) : Act.At KeepsLengths writeFrame s := by
  refine .after KeepsLengths.seq (.ofBuses fun h => Buses.full_scaleBus (Buses.full_scaleBus h _ _ _) _ _ _) (.get ?_)
  refine .bind KeepsLengths.seq (storeWords_keepsLengths _ _ _) fun _ t _ _ => ?_
  exact .bind KeepsLengths.seq (storeWords_keepsLengths _ _ _) fun _ u _ _ => .modify ⟨id, id, id, id, id⟩

theorem finalizeFrame_keepsLengths (s : State) : Act.At KeepsLengths finalizeFrame s := by
  refine .get ?_
  split
  · exact .pure _ (.refl s)
  · split
    · exact .halt (by decide) (.refl s)
    · refine .bind KeepsLengths.seq (writeFrame_keepsLengths s) fun _ t _ _ => ?_
      exact .bind KeepsLengths.seq (forUnits_at KeepsLengths.seq postUnit_keepsLengths t) fun _ u _ _ =>
        .modify ⟨id, id, id, id, id⟩

theorem renderParts_keepsLengths : RenderParts KeepsLengths where
  refl := .refl
  trans := .seq
  prepare := prepareFrame_keepsLengths
  voice := addVoice_keepsLengths
  finalize := finalizeFrame_keepsLengths
  nextVoice _ := ⟨id, id, id, id, id⟩
  frameDone s := by constructor <;> simp
  nextFrame _ := ⟨id, id, id, id, id⟩
  renderDone _ := ⟨id, id, id, id, id⟩

/-! ### Commands -/

/-- What `SETUP` touches; its loads keep the length of every table (40_commands.md R141). -/
def TouchesSetup (s t : State) : Prop :=
  ∃ v r tb d e i, t = { s with vpbBase := v, rpbBase := r, tables := tb, setupDone := d, evt := e, irq := i } ∧
    (s.tables.full = true → tb.full = true)

theorem TouchesSetup.seq (a b c : State) : TouchesSetup a b → TouchesSetup b c → TouchesSetup a c := by
  rintro ⟨_, _, _, _, _, _, rfl, h⟩ ⟨_, _, _, _, _, _, rfl, k⟩
  exact ⟨_, _, _, _, _, _, rfl, fun ha => k (h ha)⟩

/-- A table load where the table stored into keeps its length. -/
theorem loadTable_touchesSetup {n : Nat} {read : Tables → List Sample} {put : Tables → List Sample → Tables}
    (hput : ∀ t ws, t.full = true → ws.length ≤ n → (put t (overwrite (read t) ws)).full = true) (a : Addr)
    (s : State) : Act.At TouchesSetup (loadTable n a read put) s := by
  have hkeep := fun h => hput s.tables _ h (s.wordsUntil_length_le .main n a)
  obtain ⟨_, rfl, ⟨-, h⟩ | ⟨-, h⟩⟩ := loadTable_cases n a read put s
  · exact .ok h ⟨_, _, _, _, _, _, rfl, hkeep⟩
  · exact .inr ⟨_, _, by decide, h, _, _, _, _, _, _, rfl, hkeep⟩

theorem loadResample_touchesSetup (a : Addr) (s : State) : Act.At TouchesSetup (loadResample a) s :=
  loadTable_touchesSetup (fun t ws h hw => by
    obtain ⟨hr, hp, hs, ha⟩ := t.full_iff.mp h
    exact (Tables.full_iff _).mpr ⟨(overwrite_length (by omega)).trans hr, hp, hs, ha⟩) a s

theorem loadPattern_touchesSetup (a : Addr) (s : State) : Act.At TouchesSetup (loadPattern a) s :=
  loadTable_touchesSetup (fun t ws h hw => by
    obtain ⟨hr, hp, hs, ha⟩ := t.full_iff.mp h
    exact (Tables.full_iff _).mpr ⟨hr, (overwrite_length (by omega)).trans hp, hs, ha⟩) a s

theorem loadSineUnlessLight_touchesSetup (a : Addr) (s : State) :
    Act.At TouchesSetup (loadSineUnlessLight a) s := by
  refine .get ?_
  split
  · exact .pure _ ⟨_, _, _, _, _, _, rfl, id⟩
  · refine loadTable_touchesSetup (fun t ws h hw => ?_) _ s
    obtain ⟨hr, hp, hs, ha⟩ := t.full_iff.mp h
    exact (Tables.full_iff _).mpr ⟨hr, hp, (overwrite_length (by omega)).trans hs, ha⟩

theorem loadAfc_touchesSetup (a : Addr) (s : State) : Act.At TouchesSetup (loadAfc a) s :=
  loadTable_touchesSetup (fun t ws h hw => by
    obtain ⟨hr, hp, hs, ha⟩ := t.full_iff.mp h
    exact (Tables.full_iff _).mpr ⟨hr, hp, hs, (overwrite_length (by omega)).trans ha⟩) a s

theorem doSetup_touchesSetup (sync : BitVec 7) (vpb resample pattern afc rpb : Addr) (s : State) :
    Act.At TouchesSetup (doSetup sync vpb resample pattern afc rpb) s := by
  refine .after TouchesSetup.seq ⟨_, _, _, _, _, _, rfl, id⟩ ?_
  refine .bind TouchesSetup.seq (loadResample_touchesSetup _ _) fun _ t _ _ => ?_
  refine .bind TouchesSetup.seq (loadPattern_touchesSetup _ _) fun _ t _ _ => ?_
  refine .bind TouchesSetup.seq (loadSineUnlessLight_touchesSetup _ _) fun _ t _ _ => ?_
  refine .bind TouchesSetup.seq (loadAfc_touchesSetup _ _) fun _ t _ _ => ?_
  refine .after TouchesSetup.seq ⟨_, _, _, _, _, _, rfl, id⟩ (.modify ?_)
  exact ⟨_, _, _, _, _, _, rfl, id⟩

theorem TouchesSetup.keepsLengths {s t : State} : TouchesSetup s t → KeepsLengths s t := by
  rintro ⟨_, _, _, _, _, _, rfl, h⟩
  exact ⟨id, h, id, id, id⟩

theorem doStartRender_keepsLengths (voices frames vol : Half) (outL outR : Addr) (s : State) :
    Act.At KeepsLengths (doStartRender voices frames vol outL outR) s := by
  refine .get ?_
  split
  · exact .halt (by decide) (.refl s)
  · exact .after KeepsLengths.seq ⟨id, id, id, fun _ => rfl, id⟩ (renderParts_keepsLengths.renderAudio _)

theorem doSetSampleBase_keepsLengths (sync : BitVec 7) (base : Addr) (s : State) :
    Act.At KeepsLengths (doSetSampleBase sync base) s := by
  refine .get ?_
  split
  · exact .halt (by decide) (.refl s)
  · exact .after KeepsLengths.seq ⟨id, id, id, id, id⟩ (ack_keepsLengths _ _)

theorem executeCommand_keepsLengths (i : Instr) (s : State) : Act.At KeepsLengths (executeCommand i) s := by
  cases i with
  | nop sync => exact ack_keepsLengths sync s
  | setup sync vpb resample pattern afc rpb =>
    exact (doSetup_touchesSetup _ _ _ _ _ _ s).mono fun _ _ => TouchesSetup.keepsLengths
  | startRender _ voices frames vol outL outR => exact doStartRender_keepsLengths _ _ _ _ _ s
  | setSampleBase sync base => exact doSetSampleBase_keepsLengths _ _ s
  | prepareFrame sync =>
    exact .bind KeepsLengths.seq (prepareFrame_keepsLengths s) fun _ _ _ _ => ack_keepsLengths _ _
  | addVoice sync voice =>
    exact .bind KeepsLengths.seq (prepareFrame_keepsLengths s) fun _ _ _ _ =>
      .bind KeepsLengths.seq (addVoice_keepsLengths _ _) fun _ _ _ _ => ack_keepsLengths _ _
  | finalizeFrame sync =>
    exact .bind KeepsLengths.seq (finalizeFrame_keepsLengths s) fun _ _ _ _ => ack_keepsLengths _ _
  | reserved _ _ _ | sync _ _ | sync2 _ _ | sync0 | cont | reset => exact .halt (by decide) (.refl s)

theorem fetchParts_keepsLengths : FetchParts KeepsLengths where
  refl := .refl
  trans := .seq
  pop _ := ⟨id, id, id, id, id⟩
  pending _ _ := ⟨id, id, id, id, id⟩

theorem runPendingCommands_keepsLengths (s : State) : Act.At KeepsLengths runPendingCommands s :=
  fetchParts_keepsLengths.runPendingCommands executeCommand_keepsLengths s

/-! ### Ports -/

theorem bufPush_keepsLengths (w : Word) (s : State) : Act.At KeepsLengths (bufPush w) s := by
  refine .get ?_
  split
  · exact .halt (by decide) (.refl s)
  · exact .set ⟨id, id, id, id, fun h => (List.length_set ..).trans h⟩

theorem headerWord_keepsLengths (w : Word) (s : State) : Act.At KeepsLengths (headerWord w) s := by
  refine .bind KeepsLengths.seq (bufPush_keepsLengths w s) fun _ t _ _ => .get ?_
  dsimp only
  split
  · exact .after KeepsLengths.seq ⟨id, id, id, id, id⟩ (runPendingCommands_keepsLengths _)
  · exact .set ⟨id, id, id, id, id⟩

theorem operandWord_keepsLengths (w : Word) (s : State) : Act.At KeepsLengths (operandWord w) s := by
  refine .bind KeepsLengths.seq (bufPush_keepsLengths w s) fun _ t _ _ => ?_
  refine .after KeepsLengths.seq ⟨id, id, id, id, id⟩ (.get ?_)
  split
  · exact .after KeepsLengths.seq ⟨id, id, id, id, id⟩ (runPendingCommands_keepsLengths _)
  · exact .pure _ (.refl _)

theorem resumeRender_keepsLengths (s : State) : Act.At KeepsLengths resumeRender s := by
  refine .bind KeepsLengths.seq (renderParts_keepsLengths.renderAudio s) fun _ t _ _ => .get ?_
  split
  · exact runPendingCommands_keepsLengths t
  · exact .pure _ (.refl t)

theorem doContinue_keepsLengths (s : State) : Act.At KeepsLengths doContinue s := by
  refine .get ?_
  split
  · exact .pure _ (.refl s)
  · refine .bind KeepsLengths.seq (.set ⟨id, id, id, id, id⟩) fun _ t _ _ => ?_
    split
    · exact runPendingCommands_keepsLengths t
    · exact .pure _ (.refl t)

theorem outcome_keepsLengths {act : Act Unit} {s t : State} (ha : Act.At KeepsLengths act s)
    (h : act.outcome s = .next t) : KeepsLengths s t := by
  cases h
  exact ha.final_of (P := KeepsLengths s) (fun _ => id) fun t c ht => ht.seq _ _ _ (.haltWith t c)

theorem resetAvm_keepsLengths (s : State) : KeepsLengths s s.resetAvm where
  buses _ := Buses.full_zero
  tables _ := Tables.full_zero
  reverb _ := reverbFull_zero
  masks _ := rfl
  words _ := rfl

theorem exec_keepsLengths {i : Instr} {s t : State} (h : exec i s = .next t) : KeepsLengths s t := by
  by_cases hc : i.context false = .header false
  · exact outcome_keepsLengths (executeCommand_keepsLengths i s) ((exec_eq_executeCommand hc s).symm.trans h)
  · cases i with
    | sync batch mask =>
      exact outcome_keepsLengths (act := doSync batch mask)
        (.after KeepsLengths.seq ⟨id, id, id, fun hm => (List.length_set ..).trans hm, id⟩
          (resumeRender_keepsLengths _)) h
    | sync2 maskHi maskLo =>
      exact outcome_keepsLengths (act := doSync2 maskHi maskLo)
        (.after KeepsLengths.seq
          ⟨id, id, id, fun hm => (List.length_set ..).trans ((List.length_set ..).trans hm), id⟩
          (resumeRender_keepsLengths _)) h
    | sync0 =>
      exact outcome_keepsLengths (act := doSync0)
        (.after KeepsLengths.seq ⟨id, id, id, fun _ => rfl, id⟩ (resumeRender_keepsLengths _)) h
    | cont => exact outcome_keepsLengths (doContinue_keepsLengths s) h
    | reset => cases h; exact resetAvm_keepsLengths s
    | nop _ | setup _ _ _ _ _ _ | startRender _ _ _ _ _ _ | setSampleBase _ _ | prepareFrame _
    | addVoice _ _ | finalizeFrame _ | reserved _ _ _ => exact absurd rfl hc

theorem regWrite_keepsLengths {o : Nat} {w : Word} {s t : State} (h : regWrite o w s = .next t) :
    KeepsLengths s t := by
  obtain ⟨-, h⟩ | ⟨-, h⟩ | rfl := regWrite_cases h
  · obtain ⟨-, hc⟩ | ⟨c, -, -, hc⟩ | ⟨i, _, -, -, hc⟩ | ⟨-, hc⟩ | ⟨-, -, hc⟩ := cmdWrite_cases w s
    · cases hc.symm.trans h; exact .refl s
    · cases hc.symm.trans h; exact .haltWith s c
    · exact exec_keepsLengths (hc.symm.trans h)
    · exact outcome_keepsLengths (operandWord_keepsLengths w s) (hc.symm.trans h)
    · exact outcome_keepsLengths (headerWord_keepsLengths w s) (hc.symm.trans h)
  · obtain ⟨i, _, -, hc⟩ | hc := ctrlWrite_cases w s
    · exact exec_keepsLengths (hc.symm.trans h)
    · cases hc.symm.trans h; exact .refl s
  · exact .refl _

theorem hostAccess_keepsLengths {a : HostAccess} {s t : State} (h : hostAccess a s = .next t) :
    KeepsLengths s t := by
  obtain ⟨o, w, -, hw⟩ | ⟨-, rfl⟩ | ⟨r, rfl⟩ | ⟨sp, x, b, -, rfl⟩ | ⟨-, rfl⟩ := hostAccess_cases h
  · exact regWrite_keepsLengths hw
  · exact ⟨id, id, id, id, id⟩
  · exact ⟨id, id, id, id, id⟩
  · cases sp <;> exact ⟨id, id, id, id, id⟩
  · exact resetAvm_keepsLengths s

/-- Settles O57, from what each access of the host does to the length of every array. -/
theorem shapeKept : Obligations.ShapeKept := by
  intro s t hs h
  cases hh : s.host with
  | nil => cases (step_nil hh).symm.trans h; exact hs
  | cons a rest => exact (hostAccess_keepsLengths ((step_cons hh).symm.trans h)).shapeInv hs

end Sys2Proof.Machine
end

section
/-! What a command keeps outside rendering, and what a render keeps (10_state.md R25, R27; 20_memory.md R60;
41_frame_ops.md R171). -/

namespace Sys2Proof.Machine

/-- What an operation leaves, but for the halt: a state the relation allows. -/
theorem Act.At.final_but_halt {α : Type} {T : State → State → Prop} {act : Act α} {s : State}
    (h : Act.At T act s) : ∃ u c m, T s u ∧ act.final s = { u with haltCause := c, mode := m } := by
  obtain h | ⟨c, u, -, hf, h⟩ := h.final
  · exact ⟨_, _, _, h, rfl⟩
  · exact ⟨u, c, .halted, h, hf⟩

/-! ### Commands outside rendering -/

/-- What `SETUP` alone writes: the two bases, `setup_done`, three of the tables (40_commands.md R141). -/
def State.setupRegs (s : State) : Addr × Addr × Bool × List Sample × List Sample × List Sample :=
  (s.vpbBase, s.rpbBase, s.setupDone, s.tables.resampleCoef, s.tables.sine, s.tables.afcCoef)

/-- What no command but `START_RENDER` writes while it runs (10_state.md R27). -/
def State.commandKept (s : State) : Platform × Memory × Cursors × CmdBuffer × Mode × Bool × Half × Bool :=
  (s.cfg, s.sample, s.cur, s.cmd, s.mode, s.canExecute, s.outVol, s.outValid)

/-- What command `i`, not `START_RENDER`, keeps while it runs (10_state.md R27; 20_memory.md R60). -/
structure CommandKeeps (i : Instr) (s t : State) : Prop where
  kept : t.commandKept = s.commandKept
  sampleBase : (∀ y b, i ≠ .setSampleBase y b) → t.sampleBase = s.sampleBase
  setup : (∀ y a b c d e, i ≠ .setup y a b c d e) → t.setupRegs = s.setupRegs
  outputs : (∀ y, i ≠ .finalizeFrame y) → t.outL = s.outL ∧ t.outR = s.outR
  main : (∀ y, i ≠ .finalizeFrame y) → (∀ y v, i ≠ .addVoice y v) → t.main = s.main

theorem CommandKeeps.refl (i : Instr) (s : State) : CommandKeeps i s s :=
  ⟨rfl, fun _ => rfl, fun _ => rfl, fun _ => ⟨rfl, rfl⟩, fun _ _ => rfl⟩

theorem CommandKeeps.seq (i : Instr) (a b c : State) (h : CommandKeeps i a b) (k : CommandKeeps i b c) :
    CommandKeeps i a c where
  kept := k.kept.trans h.kept
  sampleBase n := (k.sampleBase n).trans (h.sampleBase n)
  setup n := (k.setup n).trans (h.setup n)
  outputs n := ⟨(k.outputs n).1.trans (h.outputs n).1, (k.outputs n).2.trans (h.outputs n).2⟩
  main n m := (k.main n m).trans (h.main n m)

theorem ack_commandKeeps (i : Instr) (sync : BitVec 7) (s : State) : Act.At (CommandKeeps i) (ack sync) s :=
  .modify ⟨rfl, fun _ => rfl, fun _ => rfl, fun _ => ⟨rfl, rfl⟩, fun _ _ => rfl⟩

theorem prepareFrame_commandKeeps (i : Instr) (s : State) : Act.At (CommandKeeps i) prepareFrame s := by
  refine (prepareFrame_at s).mono fun a b h => ?_
  obtain ⟨_, _, _, _, rfl⟩ := h
  exact ⟨rfl, fun _ => rfl, fun _ => rfl, fun _ => ⟨rfl, rfl⟩, fun _ _ => rfl⟩

theorem addVoice_commandKeeps (sync : BitVec 7) (v w : Half) (s : State) :
    Act.At (CommandKeeps (.addVoice sync v)) (addVoice w) s := by
  refine (addVoice_at w s).mono fun a b h => ?_
  obtain ⟨_, _, rfl⟩ := h
  exact ⟨rfl, fun _ => rfl, fun _ => rfl, fun _ => ⟨rfl, rfl⟩,
    fun _ n => absurd rfl (n sync v)⟩

theorem finalizeFrame_commandKeeps (sync : BitVec 7) (s : State) :
    Act.At (CommandKeeps (.finalizeFrame sync)) finalizeFrame s := by
  refine (finalizeFrame_at s).mono fun a b h => ?_
  obtain ⟨_, _, _, _, _, _, rfl⟩ := h
  exact ⟨rfl, fun _ => rfl, fun _ => rfl, fun n => absurd rfl (n sync),
    fun n _ => absurd rfl (n sync)⟩

theorem doSetup_commandKeeps (sync : BitVec 7) (vpb resample pattern afc rpb : Addr) (s : State) :
    Act.At (CommandKeeps (.setup sync vpb resample pattern afc rpb))
      (doSetup sync vpb resample pattern afc rpb) s := by
  refine (doSetup_touchesSetup sync vpb resample pattern afc rpb s).mono fun a b h => ?_
  obtain ⟨_, _, _, _, _, _, rfl, -⟩ := h
  exact ⟨rfl, fun _ => rfl,
    fun n => absurd rfl (n sync vpb resample pattern afc rpb), fun _ => ⟨rfl, rfl⟩, fun _ _ => rfl⟩

theorem doSetSampleBase_commandKeeps (sync : BitVec 7) (base : Addr) (s : State) :
    Act.At (CommandKeeps (.setSampleBase sync base)) (doSetSampleBase sync base) s := by
  refine .get ?_
  split
  · exact .halt (by decide) (.refl _ s)
  · refine .after (CommandKeeps.seq _) ?_ (ack_commandKeeps _ _ _)
    exact ⟨rfl, fun n => absurd rfl (n sync base), fun _ => rfl,
      fun _ => ⟨rfl, rfl⟩, fun _ _ => rfl⟩

theorem executeCommand_commandKeeps {i : Instr} (h : ∀ y v f o l r, i ≠ .startRender y v f o l r) (s : State) :
    Act.At (CommandKeeps i) (executeCommand i) s := by
  cases i with
  | nop sync => exact ack_commandKeeps _ sync s
  | setup sync vpb resample pattern afc rpb => exact doSetup_commandKeeps _ _ _ _ _ _ s
  | startRender y v f o l r => exact absurd rfl (h y v f o l r)
  | setSampleBase sync base => exact doSetSampleBase_commandKeeps _ _ s
  | prepareFrame sync =>
    exact .bind (CommandKeeps.seq _) (prepareFrame_commandKeeps _ s) fun _ _ _ _ => ack_commandKeeps _ _ _
  | addVoice sync voice =>
    exact .bind (CommandKeeps.seq _) (prepareFrame_commandKeeps _ s) fun _ _ _ _ =>
      .bind (CommandKeeps.seq _) (addVoice_commandKeeps _ _ _ _) fun _ _ _ _ => ack_commandKeeps _ _ _
  | finalizeFrame sync =>
    exact .bind (CommandKeeps.seq _) (finalizeFrame_commandKeeps _ s) fun _ _ _ _ => ack_commandKeeps _ _ _
  | reserved _ _ _ | sync _ _ | sync2 _ _ | sync0 | cont | reset => exact .halt (by decide) (.refl _ s)

/-! ### Renders -/

/-- What no part of a render writes (41_frame_ops.md R171). -/
def State.renderKept (s : State) :
    Platform × Memory × CmdBuffer × Addr × Addr × Addr × Bool × List Sample × List Sample × List Sample :=
  (s.cfg, s.sample, s.cmd, s.vpbBase, s.rpbBase, s.sampleBase, s.setupDone, s.tables.resampleCoef,
    s.tables.sine, s.tables.afcCoef)

/-- What a render keeps: the registers above, patterns 0 and 1 (41_frame_ops.md R176), and that no command is
being written. -/
structure RenderKeeps (s t : State) : Prop where
  kept : t.renderKept = s.renderKept
  patterns : s.tables.full = true →
    t.tables.full = true ∧ t.tables.pattern.take 128 = s.tables.pattern.take 128
  mode : s.mode ≠ .writingCmd → t.mode ≠ .writingCmd

theorem RenderKeeps.refl (s : State) : RenderKeeps s s := ⟨rfl, fun h => ⟨h, rfl⟩, id⟩

theorem RenderKeeps.seq (a b c : State) (h : RenderKeeps a b) (k : RenderKeeps b c) : RenderKeeps a c where
  kept := k.kept.trans h.kept
  patterns ha :=
    have ⟨hb, hab⟩ := h.patterns ha
    have ⟨hc, hbc⟩ := k.patterns hb
    ⟨hc, hbc.trans hab⟩
  mode := k.mode ∘ h.mode

theorem closePrepare_renderKeeps (s : State) : RenderKeeps s s.closePrepare where
  kept := rfl
  patterns h := ⟨full_closePrepare h, regenPattern_take ((Tables.full_iff _).mp h).2.1⟩
  mode := id

theorem prepareFrame_renderKeeps (s : State) : Act.At RenderKeeps prepareFrame s := by
  refine prepareFrame_of_parts .refl .seq (fun _ => ⟨rfl, fun h => ⟨h, rfl⟩, id⟩) (fun r s => ?_)
    closePrepare_renderKeeps s
  refine (preUnit_touchesUnit r s).mono fun a b h => ?_
  obtain ⟨_, _, rfl, -, -⟩ := h
  exact ⟨rfl, fun h => ⟨h, rfl⟩, id⟩

theorem addVoice_renderKeeps (v : Half) (s : State) : Act.At RenderKeeps (addVoice v) s := by
  refine (addVoice_at v s).mono fun a b h => ?_
  obtain ⟨_, _, rfl⟩ := h
  exact ⟨rfl, fun h => ⟨h, rfl⟩, id⟩

theorem finalizeFrame_renderKeeps (s : State) : Act.At RenderKeeps finalizeFrame s := by
  refine (finalizeFrame_at s).mono fun a b h => ?_
  obtain ⟨_, _, _, _, _, _, rfl⟩ := h
  exact ⟨rfl, fun h => ⟨h, rfl⟩, id⟩

theorem frameDone_renderKeeps (s : State) : RenderKeeps s s.frameDone where
  kept := by simp [State.renderKept]
  patterns h := by simp [h]
  mode h := by simpa using h

theorem renderParts_renderKeeps : RenderParts RenderKeeps where
  refl := .refl
  trans := .seq
  prepare := prepareFrame_renderKeeps
  voice := addVoice_renderKeeps
  finalize := finalizeFrame_renderKeeps
  nextVoice _ := ⟨rfl, fun h => ⟨h, rfl⟩, id⟩
  frameDone := frameDone_renderKeeps
  nextFrame _ := ⟨rfl, fun h => ⟨h, rfl⟩, id⟩
  renderDone _ := ⟨rfl, fun h => ⟨h, rfl⟩, fun _ => by simp⟩

theorem doStartRender_renderKeeps (voices frames vol : Half) (outL outR : Addr) (s : State) :
    Act.At RenderKeeps (doStartRender voices frames vol outL outR) s := by
  refine .get ?_
  split
  · exact .halt (by decide) (.refl s)
  · exact .after RenderKeeps.seq ⟨rfl, fun h => ⟨h, rfl⟩, fun _ => by simp⟩
      (renderParts_renderKeeps.renderAudio _)

theorem RenderKeeps.cmd_eq {s t : State} (h : RenderKeeps s t) : t.cfg = s.cfg ∧ t.cmd = s.cmd := by
  have hk := h.kept
  simp only [State.renderKept, Prod.mk.injEq] at hk
  obtain ⟨hcfg, -, hcmd, -⟩ := hk
  exact ⟨hcfg, hcmd⟩

theorem State.mayDispatch_of_pending_zero {s : State} (h : s.cmd.pending = 0) : s.mayDispatch = false := by
  simp [State.mayDispatch, h]

/-- With no command waiting, what follows a sync word is the render alone (40_commands.md R145). -/
theorem resumeRender_renderKeeps {s : State} (h : s.cmd.pending = 0) : Act.At RenderKeeps resumeRender s := by
  refine .bind RenderKeeps.seq (renderParts_renderKeeps.renderAudio s) fun _ t _ ht => .get ?_
  split
  · have hp : t.cmd.pending = 0 := by rw [ht.cmd_eq.2, h]
    exact .ok (runPendingCommands_idle (State.mayDispatch_of_pending_zero hp)) (.refl t)
  · exact .pure _ (.refl t)

/-- The instructions of the words a render takes (30_encoding.md R111 to R113). -/
def IsSyncWord (i : Instr) : Prop := (∃ b m, i = .sync b m) ∨ (∃ a b, i = .sync2 a b) ∨ i = .sync0

/-- A sync word moves the cursors, pulses or not, and resumes the render (40_commands.md R145 to R148). -/
theorem exec_syncWord {i : Instr} (h : IsSyncWord i) (s : State) :
    ∃ c p, exec i s = resumeRender.outcome { s with cur := c, irq := p } := by
  obtain ⟨b, m, rfl⟩ | ⟨a, b, rfl⟩ | rfl := h
  · exact ⟨s.cur.unlockBatch b m, s.irq, rfl⟩
  · exact ⟨s.cur.unlockHalf a b, s.irq, rfl⟩
  · exact ⟨s.cur.unlockAll, s.irq ++ [.lightSync], rfl⟩

theorem exec_syncWord_renderKeeps {i : Instr} {s t : State} (hi : IsSyncWord i)
    (hp : s.cmd.pending = 0) (h : exec i s = .next t) :
    ∃ u c m, RenderKeeps s u ∧ t = { u with haltCause := c, mode := m } := by
  obtain ⟨cur, irq, he⟩ := exec_syncWord hi s
  cases he.symm.trans h
  obtain ⟨u, c, m, k, hu⟩ :=
    (resumeRender_renderKeeps (s := { s with cur := cur, irq := irq }) hp).final_but_halt
  exact ⟨u, c, m, .seq s { s with cur := cur, irq := irq } u ⟨rfl, fun h => ⟨h, rfl⟩, id⟩ k, hu⟩

/-! ### The obligations -/

/-- Settles O36, from what each operation of the command keeps, a halt changing the state and its cause alone. -/
theorem commandFrame : Obligations.CommandFrame := by
  intro i s t h hsync hsync2 hsync0 hcont hreset hstart
  have hc : i.context false = .header false := by
    cases i with
    | sync b m => exact absurd rfl (hsync b m)
    | sync2 a b => exact absurd rfl (hsync2 a b)
    | sync0 => exact absurd rfl hsync0
    | cont => exact absurd rfl hcont
    | reset => exact absurd rfl hreset
    | nop _ | setup _ _ _ _ _ _ | startRender _ _ _ _ _ _ | setSampleBase _ _ | prepareFrame _
    | addVoice _ _ | finalizeFrame _ | reserved _ _ _ => rfl
  cases (exec_eq_executeCommand hc s).symm.trans h
  obtain ⟨u, c, m, k, hu⟩ := (executeCommand_commandKeeps hstart s).final_but_halt
  have hk := k.kept
  simp only [State.commandKept, Prod.mk.injEq] at hk
  obtain ⟨hcfg, hsample, hcur, hcmd, -, hexec, hvol, hvalid⟩ := hk
  rw [hu]
  refine ⟨hcur, hcmd, hexec, hvol, hvalid, hsample, hcfg, k.sampleBase, fun n => ?_, k.outputs, k.main⟩
  simpa [State.setupRegs] using k.setup n

/-- Settles O37, from what each part of a render keeps. -/
theorem renderFrame : Obligations.RenderFrame := by
  intro i s t h hp hfull hi
  have ⟨u, c, m, k, hu⟩ : ∃ u c m, RenderKeeps s u ∧ t = { u with haltCause := c, mode := m } := by
    obtain hb | ha | h0 | ⟨y, v, f, o, l, r, rfl⟩ := hi
    · exact exec_syncWord_renderKeeps (.inl hb) hp h
    · exact exec_syncWord_renderKeeps (.inr (.inl ha)) hp h
    · exact exec_syncWord_renderKeeps (.inr (.inr h0)) hp h
    · cases h
      exact (doStartRender_renderKeeps v f o l r s).final_but_halt
  have hk := k.kept
  simp only [State.renderKept, Prod.mk.injEq] at hk
  obtain ⟨hcfg, hsample, hcmd, hvpb, hrpb, hbase, hsetup, hres, hsine, hafc⟩ := hk
  rw [hu]
  exact ⟨hcmd, hvpb, hrpb, hbase, hsetup, hsample, hcfg, hres, hsine, hafc, (k.patterns hfull).2⟩

end Sys2Proof.Machine
end

section
/-! The command buffer holds whole commands (10_state.md R31): a command decodes from exactly its own words
(30_encoding.md R106 to R110), the fetch pops exactly those, and every access of the host keeps the invariant
(40_commands.md R131, R132, R135). -/

namespace Sys2Proof

/-! ### Words decoded -/

theorem operandCount_of_not_mem (extra : Bool) {op : BitVec 7} (h : op ∉ definedOpcodes) :
    operandCount extra op = 0 := by
  simp only [definedOpcodes, List.mem_cons, List.not_mem_nil, or_false, not_or] at h
  obtain ⟨-, h1, h2, h3, -⟩ := h
  unfold operandCount
  rw [if_neg h1, if_neg h2, if_neg h3]

/-- `START_RENDER` takes three operand words, or five with the two that are discarded (30_encoding.md R108). -/
theorem decodeStartRender_whole {extra : Bool} (sync : BitVec 7) (voices : Half) {ops : List Word}
    (hn : ops.length = operandCount extra 0x02) :
    ∃ i : Instr, i.wellFormed = true ∧
      ∀ rest, decodeStartRender extra sync voices (ops ++ rest) = .ok (i, rest) := by
  cases extra with
  | false =>
    match ops, hn with
    | [a, l, r], _ => exact ⟨_, rfl, fun rest => rfl⟩
  | true =>
    match ops, hn with
    | [a, l, r, _, _], _ => exact ⟨_, rfl, fun rest => rfl⟩

/-- A header and its operand words decode to a well-formed command, whatever follows them. -/
theorem decode_header_whole {extra : Bool} {h : Word} {ops : List Word} (hb : headerBit h = true)
    (hn : ops.length = operandCount extra (headerOpcode h)) :
    ∃ i : Instr, i.wellFormed = true ∧ ∀ rest, decode (.header extra) (h :: (ops ++ rest)) = .ok (i, rest) := by
  by_cases hd : headerOpcode h ∈ definedOpcodes
  · simp only [definedOpcodes, List.mem_cons, List.not_mem_nil, or_false] at hd
    obtain ho | ho | ho | ho | ho | ho | ho := hd <;> rw [ho] at hn
    · cases List.length_eq_zero_iff.mp hn
      exact ⟨.nop (headerSync h), rfl, fun rest => by simp [decode, decodeHeader, hb, ho]⟩
    · match ops, hn with
      | [a1, a2, a3, a4, a5], _ =>
        exact ⟨.setup (headerSync h) a1 a2 a3 a4 a5, rfl, fun rest => by simp [decode, decodeHeader, hb, ho]⟩
    · obtain ⟨i, hi, hdec⟩ := decodeStartRender_whole (headerSync h) (headerImm h) hn
      exact ⟨i, hi, fun rest => by simp [decode, decodeHeader, hb, ho, hdec]⟩
    · match ops, hn with
      | [a], _ =>
        exact ⟨.setSampleBase (headerSync h) a, rfl, fun rest => by simp [decode, decodeHeader, hb, ho]⟩
    · cases List.length_eq_zero_iff.mp hn
      exact ⟨.prepareFrame (headerSync h), rfl, fun rest => by simp [decode, decodeHeader, hb, ho]⟩
    · cases List.length_eq_zero_iff.mp hn
      exact ⟨.addVoice (headerSync h) (headerImm h), rfl, fun rest => by simp [decode, decodeHeader, hb, ho]⟩
    · cases List.length_eq_zero_iff.mp hn
      exact ⟨.finalizeFrame (headerSync h), rfl, fun rest => by simp [decode, decodeHeader, hb, ho]⟩
  · cases List.length_eq_zero_iff.mp (hn.trans (operandCount_of_not_mem extra hd))
    exact ⟨.reserved (headerOpcode h) (headerSync h) (headerImm h), by simp [Instr.wellFormed, hd],
      fun rest => decodeHeader_reserved hb hd⟩

theorem decode_control_ok {w : Word} {i : Instr} {ws : List Word} (h : decode .control [w] = .ok (i, ws)) :
    i = .reset ∨ i = .cont := by
  simp only [decode, decodeControl] at h
  split at h
  · cases h; exact .inl rfl
  · split at h <;> cases h
    exact .inr rfl

theorem decode_syncContext_ok {p : Machine.Platform} {w : Word} {i : Instr} {ws : List Word}
    (h : decode p.syncContext [w] = .ok (i, ws)) : Machine.IsSyncWord i := by
  unfold Machine.Platform.syncContext at h
  split at h
  · simp only [decode] at h
    split at h <;> cases h
    exact .inr (.inr rfl)
  · split at h <;> cases h
    · exact .inr (.inl ⟨_, _, rfl⟩)
    · exact .inl ⟨_, _, rfl⟩

namespace Machine

/-! ### Complete commands in a list of words -/

theorem afterCommands_succ {extra : Bool} {n : Nat} {ws rest : List Word}
    (h : afterCommands extra (n + 1) ws = some rest) :
    ∃ hd ops, ws = hd :: ops ∧ headerBit hd = true ∧ operandCount extra (headerOpcode hd) ≤ ops.length ∧
      afterCommands extra n (ops.drop (operandCount extra (headerOpcode hd))) = some rest := by
  cases ws with
  | nil => cases h
  | cons hd ops =>
    unfold afterCommands at h
    split at h
    · rename_i hc
      simp only [Bool.and_eq_true, decide_eq_true_eq] at hc
      exact ⟨hd, ops, rfl, hc.1, hc.2, h⟩
    · cases h

theorem afterCommands_cons {extra : Bool} {n : Nat} {hd : Word} {ops : List Word} (hb : headerBit hd = true)
    (hn : operandCount extra (headerOpcode hd) ≤ ops.length) :
    afterCommands extra (n + 1) (hd :: ops) =
      afterCommands extra n (ops.drop (operandCount extra (headerOpcode hd))) := by
  simp [afterCommands, hb, hn]

/-- Words behind the complete commands are left with the rest. -/
theorem afterCommands_append {extra : Bool} {n : Nat} {ws rest : List Word}
    (h : afterCommands extra n ws = some rest) (more : List Word) :
    afterCommands extra n (ws ++ more) = some (rest ++ more) := by
  induction n generalizing ws with
  | zero => cases h; rfl
  | succ n ih =>
    obtain ⟨hd, ops, rfl, hb, hn, hr⟩ := afterCommands_succ h
    rw [List.cons_append, afterCommands_cons hb (by rw [List.length_append]; omega),
      List.drop_append_of_le_length hn]
    exact ih hr

/-- A rest that is one complete command is one command more. -/
theorem afterCommands_complete {extra : Bool} {n : Nat} {ws ops : List Word} {hd : Word}
    (h : afterCommands extra n ws = some (hd :: ops)) (hb : headerBit hd = true)
    (hn : ops.length = operandCount extra (headerOpcode hd)) : afterCommands extra (n + 1) ws = some [] := by
  induction n generalizing ws with
  | zero =>
    cases h
    rw [afterCommands_cons hb (by omega), ← hn, List.drop_length]
    rfl
  | succ n ih =>
    obtain ⟨hd', ops', rfl, hb', hn', hr⟩ := afterCommands_succ h
    rw [afterCommands_cons hb' hn']
    exact ih hr

theorem openCommand_iff {extra : Bool} {expected : Nat} {rest : List Word} :
    openCommand extra expected rest = true ↔
      ∃ hd ops, rest = hd :: ops ∧ headerBit hd = true ∧ 0 < expected ∧
        ops.length + expected = operandCount extra (headerOpcode hd) := by
  cases rest with
  | nil => simp [openCommand]
  | cons hd ops =>
    simp only [openCommand, Bool.and_eq_true, decide_eq_true_eq, List.cons.injEq]
    constructor
    · rintro ⟨⟨hb, he⟩, hn⟩
      exact ⟨hd, ops, ⟨rfl, rfl⟩, hb, he, hn⟩
    · rintro ⟨_, _, ⟨rfl, rfl⟩, hb, he, hn⟩
      exact ⟨⟨hb, he⟩, hn⟩

/-! ### The invariant in two parts -/

/-- The counters agree, and the words are the pending commands and then `rest` (10_state.md R31). -/
structure State.QueueHolds (s : State) (rest : List Word) : Prop where
  length : s.cmd.buf.length = 64
  room : s.cmd.words ≤ 64
  cursors : s.cmd.wr = s.cmd.rd + BitVec.ofNat 6 s.cmd.words
  queue : afterCommands s.cfg.startExtraWords s.cmd.pending s.cmd.contents = some rest

/-- The words behind the pending commands are what the mode asks for: the command being written in
`WRITING_CMD`, none in `WAITING` and `RENDERING` (10_state.md R31). -/
def State.restFits (s : State) (rest : List Word) : Prop :=
  match s.mode with
  | .writingCmd => openCommand s.cfg.startExtraWords s.cmd.expected rest = true
  | .waiting | .rendering => rest = [] ∧ s.cmd.expected = 0
  | .halted => True

theorem State.bufferInv_iff {s : State} :
    s.bufferInv = true ↔ ∃ rest, s.QueueHolds rest ∧ s.restFits rest := by
  constructor
  · intro h
    simp only [State.bufferInv, Bool.and_eq_true, decide_eq_true_eq] at h
    obtain ⟨⟨⟨hl, hw⟩, hc⟩, hq⟩ := h
    cases ha : afterCommands s.cfg.startExtraWords s.cmd.pending s.cmd.contents with
    | none => simp [ha] at hq
    | some rest =>
      refine ⟨rest, ⟨hl, hw, hc, ha⟩, ?_⟩
      unfold State.restFits
      cases hm : s.mode with
      | writingCmd | waiting | rendering => simpa [ha, hm] using hq
      | halted => trivial
  · rintro ⟨rest, ⟨hl, hw, hc, hq⟩, hf⟩
    unfold State.restFits at hf
    cases hm : s.mode <;> simp_all [State.bufferInv]

theorem State.bufferInv_of_idle {s : State} (hq : s.QueueHolds []) (he : s.cmd.expected = 0)
    (hm : s.mode ≠ .writingCmd) : s.bufferInv = true := by
  refine State.bufferInv_iff.mpr ⟨[], hq, ?_⟩
  unfold State.restFits
  cases h : s.mode with
  | writingCmd => exact absurd h hm
  | waiting | rendering => exact ⟨rfl, he⟩
  | halted => trivial

/-- Between two commands the words are the pending commands. -/
theorem State.queueHolds_of_idle {s : State} (h : s.bufferInv = true)
    (hm : s.mode = .waiting ∨ s.mode = .rendering) : s.QueueHolds [] ∧ s.cmd.expected = 0 := by
  obtain ⟨rest, hq, hf⟩ := State.bufferInv_iff.mp h
  unfold State.restFits at hf
  obtain hm | hm := hm <;> rw [hm] at hf <;> obtain ⟨rfl, he⟩ := hf <;> exact ⟨hq, he⟩

theorem State.queueHolds_of_writing {s : State} (h : s.bufferInv = true) (hm : s.mode = .writingCmd) :
    ∃ hd ops, s.QueueHolds (hd :: ops) ∧ headerBit hd = true ∧ 0 < s.cmd.expected ∧
      ops.length + s.cmd.expected = operandCount s.cfg.startExtraWords (headerOpcode hd) := by
  obtain ⟨rest, hq, hf⟩ := State.bufferInv_iff.mp h
  unfold State.restFits at hf
  rw [hm] at hf
  obtain ⟨hd, ops, rfl, hb, he, hn⟩ := openCommand_iff.mp hf
  exact ⟨hd, ops, hq, hb, he, hn⟩

/-- A halt keeps the invariant: a halted machine may keep the command it was writing (10_state.md R31). -/
theorem State.bufferInv_haltWith (s : State) (c : HaltCause) (h : s.bufferInv = true) :
    (s.haltWith c).bufferInv = true := by
  obtain ⟨rest, ⟨hl, hw, hc, hq⟩, -⟩ := State.bufferInv_iff.mp h
  exact State.bufferInv_iff.mpr ⟨rest, ⟨hl, hw, hc, hq⟩, trivial⟩

/-! ### A word pushed, a command completed, a command fetched -/

theorem State.QueueHolds.push {s : State} {rest : List Word} (h : s.QueueHolds rest) (hw : s.cmd.words ≠ 64)
    (w : Word) : State.QueueHolds { s with cmd := s.cmd.push w } (rest ++ [w]) where
  length := (List.length_set ..).trans h.length
  room := by
    have := h.room
    show s.cmd.words + 1 ≤ 64
    omega
  cursors := by
    show s.cmd.wr + 1 = s.cmd.rd + BitVec.ofNat 6 (s.cmd.words + 1)
    rw [h.cursors, BitVec.ofNat_add, BitVec.add_assoc]
    rfl
  queue := by
    have := h.room
    have hc := s.cmd.contents_push w h.length (by omega) h.cursors
    show afterCommands _ _ (s.cmd.push w).contents = _
    rw [hc]
    exact afterCommands_append h.queue [w]

/-- A rest that is one complete command is counted among the pending commands (40_commands.md R131, R132). -/
theorem State.QueueHolds.complete {s : State} {hd : Word} {ops : List Word} (h : s.QueueHolds (hd :: ops))
    (hb : headerBit hd = true) (hn : ops.length = operandCount s.cfg.startExtraWords (headerOpcode hd)) :
    s.commandComplete.QueueHolds [] :=
  ⟨h.length, h.room, h.cursors, afterCommands_complete h.queue hb hn⟩

theorem State.QueueHolds.skip {s : State} {rest rest' : List Word} (h : s.QueueHolds rest) {n m : Nat}
    (hn : n ≤ s.cmd.words)
    (hq : afterCommands s.cfg.startExtraWords m (s.cmd.contents.drop n) = some rest') :
    State.QueueHolds { s with cmd := { s.cmd.skip n with pending := m } } rest' where
  length := h.length
  room := (Nat.sub_le ..).trans h.room
  cursors := by
    show s.cmd.wr = s.cmd.rd + BitVec.ofNat 6 n + BitVec.ofNat 6 (s.cmd.words - n)
    rw [h.cursors, BitVec.add_assoc, ← BitVec.ofNat_add, Nat.add_sub_cancel' hn]
  queue := by
    show afterCommands _ m (s.cmd.skip n).contents = _
    rw [CmdBuffer.contents_skip]
    exact hq

/-- Under the invariant with a command pending, the fetch pops the oldest command whole: its `n` words decode,
and the rest of the queue is what is left (40_commands.md R135). -/
theorem fetchCommand_queue {s : State} {rest : List Word} (h : s.QueueHolds rest) (hp : 0 < s.cmd.pending) :
    ∃ i n, i.wellFormed = true ∧ n ≤ s.cmd.words ∧
      decode (.header s.cfg.startExtraWords) s.cmd.contents = .ok (i, s.cmd.contents.drop n) ∧
      fetchCommand s = .ok i { s with cmd := { s.cmd.skip n with pending := s.cmd.pending - 1 } } ∧
      State.QueueHolds { s with cmd := { s.cmd.skip n with pending := s.cmd.pending - 1 } } rest := by
  have hq := h.queue
  rw [← Nat.sub_add_cancel hp] at hq
  obtain ⟨hd, ops, hc, hb, hn, hr⟩ := afterCommands_succ hq
  obtain ⟨i, hwf, hdec⟩ := decode_header_whole (extra := s.cfg.startExtraWords) hb
    (List.length_take_of_le hn)
  have hlen : s.cmd.words = ops.length + 1 := by
    rw [← CmdBuffer.contents_length, hc]; rfl
  have hwhole := hdec (ops.drop (operandCount s.cfg.startExtraWords (headerOpcode hd)))
  rw [List.take_append_drop] at hwhole
  have hown := hdec []
  rw [List.append_nil] at hown
  have hdrop : s.cmd.contents.drop (1 + operandCount s.cfg.startExtraWords (headerOpcode hd)) =
      ops.drop (operandCount s.cfg.startExtraWords (headerOpcode hd)) := by
    rw [hc, Nat.add_comm]; rfl
  refine ⟨i, 1 + operandCount s.cfg.startExtraWords (headerOpcode hd), hwf, by omega, ?_,
    fetchCommand_command hc hb hn hown, h.skip (by omega) (by rw [hdrop]; exact hr)⟩
  rw [hdrop, hc]
  exact hwhole

/-! ### Commands and renders leave the buffer alone -/

/-- The queue and what it is read by are kept, and no command comes to be written. -/
def KeepsQueue (s t : State) : Prop :=
  t.cfg = s.cfg ∧ t.cmd = s.cmd ∧ (s.mode ≠ .writingCmd → t.mode ≠ .writingCmd)

theorem RenderKeeps.keepsQueue {s t : State} (h : RenderKeeps s t) : KeepsQueue s t :=
  ⟨h.cmd_eq.1, h.cmd_eq.2, h.mode⟩

theorem CommandKeeps.keepsQueue {i : Instr} {s t : State} (h : CommandKeeps i s t) : KeepsQueue s t := by
  have hk := h.kept
  simp only [State.commandKept, Prod.mk.injEq] at hk
  obtain ⟨hcfg, -, -, hcmd, hmode, -⟩ := hk
  exact ⟨hcfg, hcmd, fun hm => hmode ▸ hm⟩

theorem executeCommand_keepsQueue (i : Instr) (s : State) : Act.At KeepsQueue (executeCommand i) s := by
  by_cases h : ∃ y v f o l r, i = .startRender y v f o l r
  · obtain ⟨y, v, f, o, l, r, rfl⟩ := h
    exact (doStartRender_renderKeeps v f o l r s).mono fun _ _ => RenderKeeps.keepsQueue
  · refine (executeCommand_commandKeeps (fun y v f o l r hi => h ⟨y, v, f, o, l, r, hi⟩) s).mono ?_
    exact fun _ _ => CommandKeeps.keepsQueue

theorem KeepsQueue.bufferInv {s t : State} (h : KeepsQueue s t) (hs : s.bufferInv = true)
    (hm : s.mode = .waiting ∨ s.mode = .rendering) : t.bufferInv = true := by
  obtain ⟨hcfg, hcmd, hmode⟩ := h
  obtain ⟨⟨hl, hw, hc, hq⟩, he⟩ := State.queueHolds_of_idle hs hm
  refine State.bufferInv_of_idle ?_ (hcmd ▸ he) (hmode ?_)
  · constructor <;> rw [hcmd]
    · exact hl
    · exact hw
    · exact hc
    · rw [hcfg]; exact hq
  · obtain hm | hm := hm <;> rw [hm] <;> decide

/-! ### Operations of the port -/

/-- The state an operation leaves, but for a halt, meets the invariant. -/
def LeavesBuffer (_ t : State) : Prop := t.bufferInv = true

theorem LeavesBuffer.seq (a b c : State) (_ : LeavesBuffer a b) (h : LeavesBuffer b c) : LeavesBuffer a c := h

theorem LeavesBuffer.after_ok {α β : Type} {act : Act α} {f : α → Act β} {a : α} {s t : State}
    (h : act s = .ok a t) (hf : Act.At LeavesBuffer (f a) t) : Act.At LeavesBuffer (act >>= f) s := by
  unfold Act.At
  rw [Act.bind_ok h]
  exact hf

theorem Act.At.imp {α : Type} {T U : State → State → Prop} {act : Act α} {s : State} (ha : Act.At T act s)
    (h : ∀ t, T s t → U s t) : Act.At U act s := by
  obtain ⟨a, t, ha, ht⟩ | ⟨c, t, hc, ha, ht⟩ := ha
  · exact .inl ⟨a, t, ha, h t ht⟩
  · exact .inr ⟨c, t, hc, ha, h t ht⟩

theorem dispatchLoop_leavesBuffer (n : Nat) {s : State} (h : s.bufferInv = true) :
    Act.At LeavesBuffer (dispatchLoop n) s := by
  induction n generalizing s with
  | zero => exact .pure _ h
  | succ n ih =>
    refine .get ?_
    split
    · rename_i hd
      simp only [State.mayDispatch, Bool.and_eq_true, decide_eq_true_eq] at hd
      obtain ⟨⟨hp, -⟩, hm⟩ := hd
      obtain ⟨hq, he⟩ := State.queueHolds_of_idle h (.inl hm)
      obtain ⟨i, k, -, -, -, hf, hq'⟩ := fetchCommand_queue hq hp
      have hs' := State.bufferInv_of_idle hq' he (by show s.mode ≠ _; rw [hm]; decide)
      refine .bind LeavesBuffer.seq (.ok hf hs') fun j t hj ht => ?_
      cases hf.symm.trans hj
      refine .bind LeavesBuffer.seq ((executeCommand_keepsQueue i _).imp fun u hu => ?_) fun _ u _ hu => ih hu
      exact hu.bufferInv hs' (.inl hm)
    · exact .pure _ h

theorem runPendingCommands_leavesBuffer {s : State} (h : s.bufferInv = true) :
    Act.At LeavesBuffer runPendingCommands s := .get (dispatchLoop_leavesBuffer _ h)

/-- A word pushed into the buffer of a state that meets the invariant: the queue has it at its end, or the AVM
halts and the word is lost (40_commands.md R134). -/
theorem bufPush_cases {s : State} {rest : List Word} (h : s.QueueHolds rest) (w : Word) :
    (bufPush w s = .error .cmdOverflow (s.haltWith .cmdOverflow)) ∨
      (bufPush w s = .ok ⟨⟩ { s with cmd := s.cmd.push w } ∧
        State.QueueHolds { s with cmd := s.cmd.push w } (rest ++ [w])) := by
  by_cases hw : s.cmd.words = 64
  · exact .inl (bufPush_full hw)
  · exact .inr ⟨bufPush_room hw, h.push hw w⟩

/-- A header pushed in `WAITING` is a complete command, or opens one (40_commands.md R131). -/
theorem headerWord_leavesBuffer {w : Word} {s : State} (h : s.bufferInv = true) (hm : s.mode = .waiting)
    (hb : headerBit w = true) : Act.At LeavesBuffer (headerWord w) s := by
  obtain ⟨hq, he⟩ := State.queueHolds_of_idle h (.inl hm)
  obtain hfull | ⟨hok, hq'⟩ := bufPush_cases hq w
  · exact .inr ⟨_, s, by decide, Act.bind_error hfull, h⟩
  · refine LeavesBuffer.after_ok hok (.get ?_)
    dsimp only
    split
    · rename_i h0
      refine LeavesBuffer.after_ok rfl (runPendingCommands_leavesBuffer ?_)
      exact State.bufferInv_of_idle (hq'.complete hb h0.symm) he (by simp)
    · rename_i h0
      refine .set (State.bufferInv_iff.mpr ⟨[w], ⟨hq'.length, hq'.room, hq'.cursors, hq'.queue⟩, ?_⟩)
      exact openCommand_iff.mpr ⟨w, [], rfl, hb, Nat.pos_of_ne_zero h0, Nat.zero_add _⟩

/-- An operand pushed in `WRITING_CMD` completes the command, or leaves it open (40_commands.md R132). -/
theorem operandWord_leavesBuffer {w : Word} {s : State} (h : s.bufferInv = true) (hm : s.mode = .writingCmd) :
    Act.At LeavesBuffer (operandWord w) s := by
  obtain ⟨hd, ops, hq, hb, he, hn⟩ := State.queueHolds_of_writing h hm
  obtain hfull | ⟨hok, hq'⟩ := bufPush_cases hq w
  · exact .inr ⟨_, s, by decide, Act.bind_error hfull, h⟩
  · have hq1 : State.QueueHolds { s with cmd := { s.cmd.push w with expected := s.cmd.expected - 1 } }
        (hd :: (ops ++ [w])) := ⟨hq'.length, hq'.room, hq'.cursors, hq'.queue⟩
    have hlen : (ops ++ [w]).length = ops.length + 1 := by simp
    refine LeavesBuffer.after_ok hok (LeavesBuffer.after_ok rfl (.get ?_))
    split
    · rename_i h0
      have h0' : s.cmd.expected - 1 = 0 := h0
      refine LeavesBuffer.after_ok rfl (runPendingCommands_leavesBuffer ?_)
      exact State.bufferInv_of_idle (hq1.complete hb (by simp only; omega)) h0 (by simp)
    · rename_i h0
      have h0' : s.cmd.expected - 1 ≠ 0 := h0
      refine .pure _ (State.bufferInv_iff.mpr ⟨_, hq1, ?_⟩)
      unfold State.restFits
      simp only [hm]
      have hpos : 0 < s.cmd.expected - 1 := by omega
      have hcount : (ops ++ [w]).length + (s.cmd.expected - 1) =
          operandCount s.cfg.startExtraWords (headerOpcode hd) := by omega
      exact openCommand_iff.mpr ⟨hd, _, rfl, hb, hpos, hcount⟩

theorem resumeRender_leavesBuffer {s : State} (h : s.bufferInv = true) (hm : s.mode = .rendering) :
    Act.At LeavesBuffer resumeRender s := by
  refine .bind LeavesBuffer.seq ((renderParts_renderKeeps.renderAudio s).imp fun t ht => ?_) fun _ t _ ht => .get ?_
  · exact ht.keepsQueue.bufferInv h (.inr hm)
  · split
    · exact runPendingCommands_leavesBuffer ht
    · exact .pure _ ht

theorem doContinue_leavesBuffer {s : State} (h : s.bufferInv = true) : Act.At LeavesBuffer doContinue s := by
  refine .get ?_
  split
  · exact .pure _ h
  · refine .bind LeavesBuffer.seq (T := LeavesBuffer) (.set h) fun _ t _ ht => ?_
    split
    · exact runPendingCommands_leavesBuffer ht
    · exact .pure _ ht

/-! ### Accesses -/

theorem outcome_bufferInv {act : Act Unit} {s t : State} (ha : Act.At LeavesBuffer act s)
    (h : act.outcome s = .next t) : t.bufferInv = true := by
  cases h
  exact ha.final_of (P := fun t => t.bufferInv = true) (fun _ => id) State.bufferInv_haltWith

theorem resetAvm_bufferInv (s : State) : s.resetAvm.bufferInv = true :=
  State.bufferInv_of_idle ⟨rfl, Nat.zero_le 64, rfl, rfl⟩ rfl (by simp [State.reset])

theorem cmdWrite_bufferInv {w : Word} {s t : State} (hs : s.bufferInv = true) (h : cmdWrite w s = .next t) :
    t.bufferInv = true := by
  obtain ⟨-, hc⟩ | ⟨c, -, -, hc⟩ | ⟨i, _, hm, hd, hc⟩ | ⟨hm, hc⟩ | ⟨hm, hb, hc⟩ := cmdWrite_cases w s
  · cases hc.symm.trans h; exact hs
  · cases hc.symm.trans h; exact State.bufferInv_haltWith s c hs
  · obtain ⟨cur, irq, he⟩ := exec_syncWord (decode_syncContext_ok hd) s
    exact outcome_bufferInv (resumeRender_leavesBuffer (s := { s with cur := cur, irq := irq }) hs hm)
      (he.symm.trans (hc.symm.trans h))
  · exact outcome_bufferInv (operandWord_leavesBuffer hs hm) (hc.symm.trans h)
  · exact outcome_bufferInv (headerWord_leavesBuffer hs hm hb) (hc.symm.trans h)

theorem ctrlWrite_bufferInv {w : Word} {s t : State} (hs : s.bufferInv = true) (h : ctrlWrite w s = .next t) :
    t.bufferInv = true := by
  obtain ⟨i, _, hd, hc⟩ | hc := ctrlWrite_cases w s
  · have hi := hc.symm.trans h
    obtain rfl | rfl := decode_control_ok hd
    · cases hi; exact resetAvm_bufferInv s
    · exact outcome_bufferInv (doContinue_leavesBuffer hs) hi
  · cases hc.symm.trans h; exact hs

theorem hostAccess_bufferInv {a : HostAccess} {s t : State} (hs : s.bufferInv = true)
    (h : hostAccess a s = .next t) : t.bufferInv = true := by
  obtain ⟨o, w, -, hw⟩ | ⟨-, rfl⟩ | ⟨r, rfl⟩ | ⟨sp, x, b, -, rfl⟩ | ⟨-, rfl⟩ := hostAccess_cases h
  · obtain ⟨-, hc⟩ | ⟨-, hc⟩ | rfl := regWrite_cases hw
    · exact cmdWrite_bufferInv hs hc
    · exact ctrlWrite_bufferInv hs hc
    · exact hs
  · exact hs
  · exact hs
  · cases sp <;> exact hs
  · exact resetAvm_bufferInv s

/-- Settles O59, from what each access of the host does to the queue of commands. -/
theorem bufferKept : Obligations.BufferKept := by
  intro s t hs h
  cases hh : s.host with
  | nil => cases (step_nil hh).symm.trans h; exact hs
  | cons a rest => exact hostAccess_bufferInv (s := { s with host := rest }) hs ((step_cons hh).symm.trans h)

end Machine

namespace Laws.State

open Machine

/-- Settles O15, from the fetch of the oldest command under the two parts of the invariant. -/
theorem fetchCommand : Obligations.FetchCommand := by
  intro s h hp
  obtain ⟨rest, hq, -⟩ := State.bufferInv_iff.mp h
  obtain ⟨i, n, hwf, hn, hdec, hfetch, -⟩ := fetchCommand_queue hq hp
  have hlen : (s.cmd.contents.drop n).length = s.cmd.words - n := by simp
  refine ⟨i, s.cmd.contents.drop n, n, hdec, hwf, by omega, ?_, ?_⟩
  · rw [hlen]
    exact hfetch
  · rw [hlen]
    exact s.cmd.contents_skip n

end Laws.State
end Sys2Proof
end

section
/-! The registers as the host reads and writes them, and the state after a reset (10_state.md R20, R21, R37, R38,
R42; 60_exceptions.md R312, R321; 70_reset_and_hazards.md R350, R351). -/

namespace Sys2Proof.Machine

/-! ### Register accesses -/

theorem step_regRead {s : State} {offset : Nat} {rest : List HostAccess}
    (h : s.host = .regRead .word offset :: rest) : step s = regRead offset { s with host := rest } :=
  step_cons h

theorem step_regWrite {s : State} {offset : Nat} {w : Word} {rest : List HostAccess}
    (h : s.host = .regWrite .word offset w :: rest) : step s = regWrite offset w { s with host := rest } :=
  step_cons h

/-- The offsets of the registers (10_state.md R37). -/
def registerOffsets : List Nat := [0x00, 0x04, 0x08, 0x0C, 0x10, 0x14]

theorem regWrite_refused {offset : Nat} (h : offset ∉ registerOffsets) (w : Word) (s : State) :
    regWrite offset w s = .refused .reservedRegisterAccess := by
  unfold regWrite
  split
  case h_7 => rfl
  all_goals exact absurd (by decide) h

theorem regRead_refused {offset : Nat} (h : offset ∉ registerOffsets) (s : State) :
    regRead offset s = .refused .reservedRegisterAccess := by
  unfold regRead
  split
  case h_7 => rfl
  all_goals exact absurd (by decide) h

theorem hostAccess_regWrite_refused {width : Width} {offset : Nat}
    (h : width ≠ .word ∨ offset ∉ registerOffsets) (w : Word) (s : State) :
    hostAccess (.regWrite width offset w) s = .refused .reservedRegisterAccess := by
  cases width with
  | word => exact regWrite_refused (h.resolve_left (absurd rfl)) w s
  | byte | half => rfl

theorem hostAccess_regRead_refused {width : Width} {offset : Nat}
    (h : width ≠ .word ∨ offset ∉ registerOffsets) (s : State) :
    hostAccess (.regRead width offset) s = .refused .reservedRegisterAccess := by
  cases width with
  | word => exact regRead_refused (h.resolve_left (absurd rfl)) s
  | byte | half => rfl

/-- `FLAGS` reads as the eight straps, zero-extended (10_state.md R20). -/
theorem State.flagsWord_eq (s : State) : s.flagsWord = s.cfg.flags.setWidth 32 := by
  apply BitVec.eq_of_getLsbD_eq
  intro k hk
  refine (BitVec.getLsbD_append (x := 0#24) (y := s.cfg.flags) (i := k)).trans ?_
  rw [BitVec.getLsbD_setWidth]
  by_cases h : k < 8
  · simp [h, hk]
  · simp [h, BitVec.getLsbD_of_ge s.cfg.flags k (Nat.le_of_not_lt h)]

/-- Settles O11, offset by offset. -/
theorem registerMap : Obligations.RegisterMap := by
  refine ⟨fun s offset rest h ho => ?reserved, fun s rest h => step_regRead h, fun s rest h he => ?empty,
    fun s w ws rest h he => ?event, fun s rest h => ?flags, fun s rest h => step_regRead h,
    fun s offset w rest h ho => ?readOnly, fun s width offset w rest h ho => ?refused, fun p => rfl⟩
  case reserved => obtain rfl | rfl := ho <;> exact step_regRead h
  case empty => rw [step_regRead h]; simp [regRead, State.popEvent, State.reply, he]
  case event => rw [step_regRead h]; simp [regRead, State.popEvent, State.reply, he]
  case flags => rw [step_regRead h, ← State.flagsWord_eq]; rfl
  case readOnly =>
    rw [step_regWrite h]
    simp only [List.mem_cons, List.not_mem_nil, or_false] at ho
    obtain rfl | rfl | rfl | rfl := ho <;> rfl
  case refused =>
    obtain h | h := h
    · rw [step_cons h, hostAccess_regWrite_refused ho]
    · rw [step_cons h, hostAccess_regRead_refused ho]

/-! ### `STATUS` -/

/-- Which field a bit of `STATUS` belongs to (10_state.md R38). -/
theorem State.statusWord_getLsbD (s : State) (k : Nat) : s.statusWord.getLsbD k =
    if k < 2 then s.mode.code.getLsbD k
    else if k - 2 < 1 then (BitVec.ofBool s.canExecute).getLsbD (k - 2)
    else if k - 3 < 1 then (BitVec.ofBool s.prepared).getLsbD (k - 3)
    else if k - 4 < 1 then (BitVec.ofBool s.setupDone).getLsbD (k - 4)
    else if k - 5 < 1 then (BitVec.ofBool !s.evt.isEmpty).getLsbD (k - 5)
    else if k - 6 < 1 then (BitVec.ofBool s.cur.syncHalf).getLsbD (k - 6)
    else if k - 7 < 1 then (0#1).getLsbD (k - 7)
    else if k - 8 < 4 then s.haltCause.code.getLsbD (k - 8)
    else (0#20).getLsbD (k - 12) := by
  show BitVec.getLsbD (w := 20 + 4 + 1 + 1 + 1 + 1 + 1 + 1 + 2) (0#20 ++ s.haltCause.code ++ 0#1 ++
    BitVec.ofBool s.cur.syncHalf ++ BitVec.ofBool (!s.evt.isEmpty) ++ BitVec.ofBool s.setupDone ++
    BitVec.ofBool s.prepared ++ BitVec.ofBool s.canExecute ++ s.mode.code) k = _
  simp only [BitVec.getLsbD_append, Nat.sub_sub]

theorem State.statusWord_state (s : State) : s.statusWord.extractLsb' 0 2 = s.mode.code := by
  apply BitVec.eq_of_getLsbD_eq
  intro k hk
  simp [State.statusWord_getLsbD, hk, -BitVec.getLsbD_eq_getElem]

theorem State.statusWord_haltCause (s : State) : s.statusWord.extractLsb' 8 4 = s.haltCause.code := by
  apply BitVec.eq_of_getLsbD_eq
  intro k hk
  interval_cases k <;> simp [State.statusWord_getLsbD, -BitVec.getLsbD_eq_getElem]

theorem State.statusWord_reserved (s : State) : s.statusWord.extractLsb' 12 20 = 0 := by
  apply BitVec.eq_of_getLsbD_eq
  intro k hk
  interval_cases k <;> simp [State.statusWord_getLsbD, -BitVec.getLsbD_eq_getElem]

theorem State.reset_statusWord : State.reset.statusWord = 0x00000004 := by decide

theorem State.reset_cursorWord : State.reset.cursorWord = 0 := by decide

/-- Settles O12: the fields bit by bit, the reads from the register map. -/
theorem statusFields : Obligations.StatusFields := by
  refine ⟨rfl, rfl, fun s => ⟨s.statusWord_state, ?_, ?_, ?_, ?_, ?_, ?_, s.statusWord_haltCause,
    s.statusWord_reserved⟩, State.reset_statusWord, fun s offset rest h ho => ?reads⟩
  case reads =>
    rw [step_regRead h]
    obtain rfl | rfl | rfl := ho
    · rfl
    · rw [if_neg (by decide), if_pos rfl, ← State.flagsWord_eq]; rfl
    · rfl
  all_goals simp [State.statusWord_getLsbD, -BitVec.getLsbD_eq_getElem]

/-! ### Reset -/

/-- Settles O35: every register after a reset is that of the reset state, or kept. -/
theorem resetResult : Obligations.ResetResult := by
  refine ⟨fun s => ⟨s.resetAvm, rfl, rfl, rfl, rfl, rfl, rfl, rfl, rfl, rfl, rfl, rfl, rfl, rfl, rfl, rfl,
    fun id => ?buses, rfl, rfl, rfl, rfl, rfl, rfl, rfl, State.reset_statusWord, State.reset_cursorWord⟩,
    fun s rest h => step_cons h⟩
  cases id <;> rfl

/-- Settles O60: nothing is queued, pending or listed, and the arrays have their lengths. -/
theorem resetInvariants : Obligations.ResetInvariants := by
  refine ⟨rfl, rfl, State.reset.shapeInv_iff.mpr ?shape, ?protocol, resetAvm_bufferInv State.reset⟩
  case shape => exact ⟨Buses.full_zero, Tables.full_zero, reverbFull_zero, rfl, rfl⟩
  case protocol => simp [State.protocolInv, State.reset, Cursors.zero]

/-! ### The pre-render phase of a reverb unit (44_reverb.md R290 to R292) -/

theorem State.reverbUnit_eq {s : State} (h : s.reverb.length = 4) {r : Nat} (hr : r < 4) :
    s.reverb[r]? = some (s.reverbUnit r) := by
  rw [State.reverbUnit, List.getD_eq_getElem?_getD, List.getElem?_eq_getElem (by omega)]
  rfl

theorem rpbFetch_ok {r : Nat} {s : State} {p : List Half} (h : s.words? .main 16 (s.rpbAddr r) = some p) :
    rpbFetch r s = .ok p s :=
  ofRead_some (read := fun s => s.words? .main 16 _) h

/-- A unit whose block passes the checks runs its phase (44_reverb.md R292). -/
theorem preUnit_enabled {r : Nat} {s : State} {p : List Half} (h : s.words? .main 16 (s.rpbAddr r) = some p)
    (hp : Rpb.enabled p = true) (hs : Rpb.cbSize p ≠ 0) (h0 : (Rpb.destId p 0).toNat ≤ 10)
    (h1 : (Rpb.destId p 1).toNat ≤ 10) : preUnit r s = preEnabled r p s := by
  have hd : rpbDefect p = none := by
    unfold rpbDefect
    rw [if_neg hs, if_neg (by omega)]
  unfold preUnit
  rw [Act.bind_ok (rpbFetch_ok h), if_pos hp, hd]

theorem preEnabled_ok {r : Nat} {s : State} {p : Rpb} {raw : List Half}
    (h : s.words? .main 80 (p.blockAddr ((s.reverbUnit r).cursor % p.cbSize)) = some raw) :
    preEnabled r p s = .ok ()
      ({ s with buses := reverbIn p r (s.reverbUnit r).carry raw s.buses }.setReverb r
        ⟨(s.reverbUnit r).cursor, raw.drop 72⟩) := by
  unfold preEnabled
  rw [Act.get_bind, Act.bind_ok (readWords_eq_ok.mpr ⟨h, rfl⟩)]
  rfl

theorem preEnabled_busError {r : Nat} {s : State} {p : Rpb}
    (h : s.words? .main 80 (p.blockAddr ((s.reverbUnit r).cursor % p.cbSize)) = none) :
    preEnabled r p s = .error .busError (s.haltWith .busError) := by
  unfold preEnabled
  rw [Act.get_bind]
  exact Act.bind_error (ofRead_none (read := fun s => s.words? .main 80 _) h)

/-- Settles O50: the unit passes its checks, and its block answers or does not. -/
theorem reverbPre : Obligations.ReverbPre := by
  refine ⟨rfl, fun r s hr hl => State.reverbUnit_eq hl hr, fun r s p h hp hs h0 h1 hraw => ?_,
    fun r s p raw _ _ h hp hs h0 h1 hraw => ?_⟩
  · rw [preUnit_enabled h hp hs h0 h1]
    exact preEnabled_busError hraw
  · dsimp only
    rw [preUnit_enabled h hp hs h0 h1]
    exact preEnabled_ok hraw

end Sys2Proof.Machine
end

section
/-! Channel mode in closed form (42_voice_mix.md R201, R210, R212): the accumulator of a ramp on exact integers, the
samples one by one, and the channels in increasing number; the destinations by number (10_state.md R22). -/

namespace Sys2Proof.Machine

/-! ### The accumulator on exact integers -/

/-- The high half of an accumulator is the floor of its exact value over 65536, modulo 65536 (42_voice_mix.md R201). -/
theorem highHalf_wrap32 (v : Int) : highHalf (wrap32 v) = BitVec.ofInt 16 (v / 65536) := by
  apply BitVec.eq_of_toNat_eq
  simp only [highHalf, wrap32, BitVec.extractLsb'_toNat, BitVec.toNat_ofInt, Nat.shiftRight_eq_div_pow]
  omega

theorem wrap32_add (v w : Int) : wrap32 v + wrap32 w = wrap32 (v + w) := (BitVec.ofInt_add v w).symm

/-- A ramp over as many samples as the bus has: the accumulator it leaves, and sample `k` mixed with the volume after
`k` increments (42_voice_mix.md R201). -/
theorem mixRamp_wrap32 (step : Int) {bus src : List Sample} (h : src.length = bus.length) (vol : Int) :
    (mixRamp bus src (wrap32 vol) (wrap32 step)).2 = wrap32 (vol + bus.length * step) ∧
      ∀ k < bus.length, (mixRamp bus src (wrap32 vol) (wrap32 step)).1.getD k 0 =
        mixSample (BitVec.ofInt 16 ((vol + k * step) / 65536)).toInt (bus.getD k 0) (src.getD k 0) := by
  induction bus generalizing src vol with
  | nil => exact ⟨by cases src <;> simp [mixRamp], fun k hk => absurd hk (by simp)⟩
  | cons b bus ih =>
    obtain _ | ⟨x, src⟩ := src
    · cases h
    obtain ⟨hacc, hsample⟩ := ih (src := src) (by simpa using h) (vol + step)
    refine ⟨?_, fun k hk => ?_⟩
    · simp only [mixRamp, wrap32_add, hacc, List.length_cons]
      congr 1
      push_cast
      ring
    · cases k with
      | zero => simp [mixRamp, highHalf_wrap32]
      | succ k =>
        have e : vol + step + k * step = vol + (k + 1 : Nat) * step := by push_cast; ring
        simpa [mixRamp, wrap32_add, e] using hsample k (by simpa using hk)

/-! ### The volume of a ramp stays between its ends -/

theorem mul_tdiv_eighty_le {d : Int} (hd : 0 ≤ d) {k : Nat} (hk : k ≤ 80) :
    0 ≤ k * d.tdiv 80 ∧ k * d.tdiv 80 ≤ d := by
  rw [Int.tdiv_eq_ediv_of_nonneg hd]
  have hq : 0 ≤ d / 80 := by omega
  have hle : (k : Int) * (d / 80) ≤ 80 * (d / 80) := Int.mul_le_mul_of_nonneg_right (by omega) hq
  exact ⟨Int.mul_nonneg (by omega) hq, by omega⟩

/-- After at most 80 increments the volume lies between the current and the target volume (42_voice_mix.md R201). -/
theorem rampVolume_between (cur tgt : Sample) {k : Nat} (hk : k ≤ 80) :
    min cur.toInt tgt.toInt ≤ rampVolume cur tgt k ∧ rampVolume cur tgt k ≤ max cur.toInt tgt.toInt := by
  unfold rampVolume
  obtain hd | hd := Int.le_total 0 ((tgt.toInt - cur.toInt) * 65536)
  · obtain ⟨hlo, hhi⟩ := mul_tdiv_eighty_le hd hk
    omega
  · obtain ⟨hlo, hhi⟩ := mul_tdiv_eighty_le (Int.neg_nonneg_of_nonpos hd) hk
    rw [Int.neg_tdiv, Int.mul_neg] at hlo hhi
    omega

theorem toInt_ofInt_rampVolume (cur tgt : Sample) {k : Nat} (hk : k ≤ 80) :
    (BitVec.ofInt 16 (rampVolume cur tgt k)).toInt = rampVolume cur tgt k := by
  obtain ⟨hlo, hhi⟩ := rampVolume_between cur tgt hk
  have hc := cur.toInt_lt; have hc' := cur.le_toInt
  have ht := tgt.toInt_lt; have ht' := tgt.le_toInt
  rw [BitVec.toInt_ofInt]
  apply Int.bmod_eq_of_le <;> omega

theorem mixSample_rampVolume (cur tgt : Sample) {k : Nat} (hk : k ≤ 80) (b x : Sample) :
    mixSample (BitVec.ofInt 16 (rampVolume cur tgt k)).toInt b x = rampedSample cur tgt k b x := by
  rw [toInt_ofInt_rampVolume cur tgt hk]
  simp only [mixSample, rampedSample, scale, asr, Int.shiftRight_eq_div_pow]
  rfl

/-- With `VOLUME_STEP` the volume is the current one and `k` steps, modulo 65536 (42_voice_mix.md R212). -/
theorem ofInt_steps (cur step : Sample) (k : Nat) :
    BitVec.ofInt 16 ((cur.toInt * 65536 + k * (step.toInt * 65536)) / 65536) = cur + BitVec.ofNat 16 k * step := by
  have e : (cur.toInt * 65536 + k * (step.toInt * 65536)) / 65536 = cur.toInt + k * step.toInt := by
    rw [← Int.mul_assoc, ← Int.add_mul]
    exact Int.mul_ediv_cancel _ (by decide)
  rw [e, BitVec.ofInt_add, BitVec.ofInt_mul, BitVec.ofInt_toInt, BitVec.ofInt_toInt, BitVec.ofInt_natCast]

/-! ### One channel -/

theorem BusId.ofDest_reserved {d : Half} (h : 10 < d.toNat) : BusId.ofDest d = none := by
  unfold BusId.ofDest
  split
  case h_11 => rfl
  all_goals omega

theorem Buses.get_set (b : Buses) (id id' : BusId) (v : List Sample) :
    (b.set id v).get id' = if id' = id then v else b.get id' := by
  split
  · rename_i h; rw [h, Buses.get_set_same]
  · exact Buses.get_set_other b v ‹_›

theorem mixChannel_none {p : Platform} {voice : List Sample} {f : Vpb} {b : Buses} {c : Nat}
    (h : BusId.ofDest (f.destId c) = none) : mixChannel p voice (f, b) c = (f, b) := by
  simp [mixChannel, h]

theorem mixChannel_some {p : Platform} {voice : List Sample} {f : Vpb} {b : Buses} {c : Nat} {id : BusId}
    (h : BusId.ofDest (f.destId c) = some id) :
    mixChannel p voice (f, b) c =
      (f.put (0x12 + 4 * c)
        (highHalf (mixRamp (b.get id) voice (accum (f.current c)) (channelStep p f c)).2),
      b.set id (mixRamp (b.get id) voice (accum (f.current c)) (channelStep p f c)).1) := by
  simp [mixChannel, h, Vpb.setCurrent]

/-- A channel whose step is `wrap32 step`, over 80 samples. -/
theorem mixChannel_ramp {p : Platform} {voice : List Sample} {f : Vpb} {b : Buses} {c : Nat} {id : BusId}
    (h : BusId.ofDest (f.destId c) = some id) (hv : voice.length = 80) (hb : (b.get id).length = 80) {step : Int}
    (hstep : channelStep p f c = wrap32 step) :
    ∃ out : List Sample,
      mixChannel p voice (f, b) c =
        (f.put (0x12 + 4 * c)
          (BitVec.ofInt 16 (((f.current c).toInt * 65536 + (80 : Nat) * step) / 65536)), b.set id out) ∧
      out.length = 80 ∧
      ∀ k < 80, out.getD k 0 =
        mixSample (BitVec.ofInt 16 (((f.current c).toInt * 65536 + k * step) / 65536)).toInt
          ((b.get id).getD k 0) (voice.getD k 0) := by
  obtain ⟨hacc, hsample⟩ := mixRamp_wrap32 step (hv.trans hb.symm) ((f.current c).toInt * 65536)
  rw [hb] at hacc hsample
  refine ⟨_, ?_, (mixRamp_length ..).trans hb, hsample⟩
  rw [mixChannel_some h, hstep, accum, hacc, highHalf_wrap32]

/-- Settles O41: the ramp on exact integers, with the step of each mode. -/
theorem stepChannel : Obligations.StepChannel := by
  refine ⟨rfl, fun d => BusId.ofDest_reserved, fun b => ⟨rfl, fun id id' bus => b.get_set id id' bus⟩,
    fun p voice => ⟨fun f b c => ⟨fun h0 => ?none, fun id h hv hb => ⟨fun hs => ?ramp, fun hs => ?step⟩⟩,
      fun f b => ?order⟩⟩
  case none => exact mixChannel_none (by rw [h0]; rfl)
  case ramp =>
    obtain ⟨out, hmix, hlen, hsample⟩ := mixChannel_ramp (p := p) h hv hb
      (step := (((f.target c).toInt - (f.current c).toInt) * 65536).tdiv 80) (by simp [channelStep, hs, rampStep])
    refine ⟨out, hmix, hlen, fun k hk => ?_⟩
    rw [hsample k hk]
    exact mixSample_rampVolume _ _ (Nat.le_of_lt hk) _ _
  case step =>
    obtain ⟨out, hmix, hlen, hsample⟩ := mixChannel_ramp (p := p) h hv hb
      (step := (f.target c).toInt * 65536) (by simp [channelStep, hs, accum])
    rw [ofInt_steps] at hmix
    refine ⟨out, hmix, hlen, fun k hk => ?_⟩
    rw [hsample k hk, ofInt_steps]
    rfl
  case order =>
    cases hd : p.fourDests <;> simp [mixChannels, Platform.channels, hd, List.range_succ]

end Sys2Proof.Machine
end

section
/-! The words of a voice's image that `AddVoice` may change (20_memory.md R71): those step 1 writes, then those of
the end request, of mixing and of the reset flag. -/

namespace Sys2Proof.Machine

/-! ### The list of the rule -/

theorem channels_le_six (p : Platform) : p.channels ≤ 6 := by
  unfold Platform.channels
  split <;> decide

theorem mem_channelWords_iff {n o i : Nat} : i ∈ channelWords n o ↔ ∃ c < n, i = o + 4 * c := by
  simp [channelWords, eq_comm]

/-- The words of the list outside the channel records (20_memory.md R71). -/
def plainMutableWords : List Nat :=
  [0x01, 0x04, 0x07, 0x08, 0x09, 0x0E, 0x0F] ++ [0x28, 0x29, 0x2A, 0x2B, 0x2C, 0x2D, 0x2E] ++
    (List.range 16).map (0x30 + ·) ++ [0x80, 0x81]

theorem mem_cacheWords_iff {i : Nat} : i ∈ (List.range 16).map (0x30 + ·) ↔ 0x30 ≤ i ∧ i < 0x40 := by
  simp only [List.mem_map, List.mem_range]
  exact ⟨fun ⟨n, hn, hi⟩ => by omega, fun h => ⟨i - 0x30, by omega, by omega⟩⟩

theorem mem_plainMutableWords_iff {i : Nat} : i ∈ plainMutableWords ↔
    i = 0x01 ∨ i = 0x04 ∨ 0x07 ≤ i ∧ i ≤ 0x09 ∨ i = 0x0E ∨ i = 0x0F ∨ 0x28 ≤ i ∧ i ≤ 0x2E ∨
      0x30 ≤ i ∧ i < 0x40 ∨ i = 0x80 ∨ i = 0x81 := by
  simp only [plainMutableWords, List.mem_append, mem_cacheWords_iff, List.mem_cons, List.not_mem_nil,
    or_false]
  omega

theorem mem_loadWords_iff {i : Nat} : i ∈ loadWords ↔
    i = 0x01 ∨ 0x07 ≤ i ∧ i ≤ 0x09 ∨ 0x28 ≤ i ∧ i ≤ 0x2E ∨ 0x30 ≤ i ∧ i < 0x40 ∨ i = 0x80 ∨ i = 0x81 := by
  simp only [loadWords, streamWords, List.mem_append, mem_cacheWords_iff, List.mem_cons, List.not_mem_nil,
    or_false]
  omega

theorem mem_mutableWords_iff {p : Platform} {i : Nat} : i ∈ mutableWords p ↔
    i ∈ plainMutableWords ∨ i ∈ channelWords p.channels 0x11 ∨ i ∈ channelWords p.channels 0x12 := by
  have hrecord : (i ∈ (List.range p.channels).flatMap fun c => [0x11 + 4 * c, 0x12 + 4 * c]) ↔
      i ∈ channelWords p.channels 0x11 ∨ i ∈ channelWords p.channels 0x12 := by
    simp only [mem_channelWords_iff, List.mem_flatMap, List.mem_range, List.mem_pair, and_or_left, exists_or]
  simp only [mutableWords, plainMutableWords, List.mem_append, hrecord]
  exact iff_of_eq (by ac_rfl)

theorem loadWords_mutable (p : Platform) : ∀ i ∈ loadWords, i ∈ mutableWords p := by
  intro i hi
  rw [mem_loadWords_iff] at hi
  exact mem_mutableWords_iff.mpr (.inl (mem_plainMutableWords_iff.mpr (by omega)))

/-! ### Steps 2 to 5 of `AddVoice` -/

/-- The words the mixing and the reset flag may change (42_voice_mix.md R210, R224, R225). -/
def mixWords (p : Platform) : List Nat := [0x04, 0x0E] ++ channelWords p.channels 0x12

theorem mem_mixWords_iff {p : Platform} {i : Nat} :
    i ∈ mixWords p ↔ i = 0x04 ∨ i = 0x0E ∨ ∃ c < p.channels, i = 0x12 + 4 * c := by
  simp [mixWords, mem_channelWords_iff]

theorem mixWords_mutable (p : Platform) : ∀ i ∈ mixWords p, i ∈ mutableWords p := by
  intro i hi
  rw [mem_mutableWords_iff, mem_plainMutableWords_iff]
  obtain rfl | rfl | hi := mem_mixWords_iff.mp hi
  · exact .inl (by omega)
  · exact .inl (by omega)
  · exact .inr (.inr (mem_channelWords_iff.mpr hi))

theorem mixed_within (p : Platform) (t : Tables) (voice : List Sample) (f : Vpb) (b : Buses) :
    Vpb.Within (mixWords p) f (clearReset (mixVoice p t voice f b).1) :=
  ((mixVoice_within p t voice f b).mono (by simp +contextual [mixWords])).trans
    ((clearReset_within _).mono (by simp [mixWords]))

theorem endRequest_within_mutable (p : Platform) (f : Vpb) : Vpb.Within (mutableWords p) f (endRequest p f) := by
  refine (endRequest_within p f).mono fun i hi => ?_
  obtain hi | hi := List.mem_append.mp hi
  · rw [List.mem_pair] at hi
    exact mem_mutableWords_iff.mpr (.inl (mem_plainMutableWords_iff.mpr (by omega)))
  · exact mem_mutableWords_iff.mpr (.inr (.inl hi))

theorem endRequest_of_not_requested (p : Platform) {f : Vpb} (h : f.endRequested = 0) : endRequest p f = f := by
  rw [endRequest, if_pos h]

/-- The image that is stored differs from the one fetched in the words of the list only (20_memory.md R71). -/
theorem storedImage_within {p : Platform} {t : Tables} {f f' : Vpb} {voice : List Sample} {b : Buses}
    {s u : State} (hf : f.length = 0xC0) (h : loadVoiceSamples f s = .ok (voice, f') u) :
    Vpb.Within (mutableWords p) f (clearReset (mixVoice p t voice (endRequest p f') b).1) := by
  obtain ⟨-, hload, -⟩ := loadVoiceSamples_within (by omega) h
  exact (hload.mono (loadWords_mutable p)).trans
    ((endRequest_within_mutable p f').trans ((mixed_within p t voice _ b).mono (mixWords_mutable p)))

/-- Mixing writes no volume target (42_voice_mix.md R210, R224). -/
theorem target_not_mem_mixWords (p : Platform) (c : Nat) : 0x11 + 4 * c ∉ mixWords p := by
  rw [mem_mixWords_iff]
  rintro (h | h | ⟨d, -, h⟩) <;> omega

theorem dolbyTarget_not_mem_mixWords (p : Platform) : 0x0F ∉ mixWords p := by
  rw [mem_mixWords_iff]
  rintro (h | h | ⟨d, -, h⟩) <;> omega

/-- Past the channel records no word of steps 2 to 5 is left. -/
theorem not_mem_mixWords_of_le (p : Platform) {i : Nat} (h : 0x28 ≤ i) : i ∉ mixWords p := by
  have := channels_le_six p
  rw [mem_mixWords_iff]
  rintro (h | h | ⟨d, hd, h⟩) <;> omega

theorem endRequest_word_of_le (p : Platform) (f : Vpb) {i : Nat} (h : 0x28 ≤ i) :
    (endRequest p f).word i = f.word i := by
  refine (endRequest_within p f).2 i ?_
  have := channels_le_six p
  rw [List.mem_append, mem_channelWords_iff, List.mem_pair]
  rintro ((h | h) | ⟨d, hd, h⟩) <;> omega

/-- Settles O27: what each step may write, and that the end request and the loop are the only ones to write the
targets and the base address. -/
theorem voiceImage : Obligations.VoiceImage := by
  intro s f f' voice hf h
  obtain ⟨-, hload, hloop⟩ := loadVoiceSamples_within (by omega) h
  have hall := storedImage_within (p := s.cfg) (t := s.tables) (b := s.buses) hf h
  have hmix := mixed_within s.cfg s.tables voice (endRequest s.cfg f') s.buses
  refine ⟨hall.1.trans hf, hall.2, fun hend => ?targets, fun hno => ?base⟩
  case targets =>
    have hend' : f'.endRequested = 0 := (hload.2 0x05 (by rw [mem_loadWords_iff]; omega)).trans hend
    rw [endRequest_of_not_requested s.cfg hend'] at hmix ⊢
    exact ⟨(hmix.2 0x0F (dolbyTarget_not_mem_mixWords _)).trans (hload.2 0x0F (by rw [mem_loadWords_iff]; omega)),
      fun c hc => (hmix.2 _ (target_not_mem_mixWords _ c)).trans (hload.2 _ (by rw [mem_loadWords_iff]; omega))⟩
  case base =>
    have hkept (i : Nat) (hi : 0x28 ≤ i) (hl : f'.word i = f.word i) :=
      (hmix.2 i (not_mem_mixWords_of_le _ hi)).trans ((endRequest_word_of_le _ f' hi).trans hl)
    obtain ⟨h80, h81⟩ := hloop hno
    exact congrArg₂ (· ++ ·) (hkept 0x80 (by decide) h80) (hkept 0x81 (by decide) h81)

end Sys2Proof.Machine
end

section
/-! What the parts of the port keep, every access of the host keeps (00_scope.md R15; 40_commands.md R130, R135,
R145, R150): the walk over the command port, the sync words and the control writes, made once for every relation. -/

namespace Sys2Proof.Machine

variable {T : State → State → Prop}

/-- The parts of the port keep `T`: the commands, the render, and the AVM's own bookkeeping around them. -/
structure PortParts (T : State → State → Prop) : Prop where
  trans : ∀ a b c, T a b → T b c → T a c
  command : ∀ i s, Act.At T (executeCommand i) s
  render : ∀ s, Act.At T renderAudio s
  bookkeeping : ∀ (s : State) cmd mode cause execute cur irq,
    T s { s with
      cmd := cmd, mode := mode, haltCause := cause, canExecute := execute, cur := cur, irq := irq }

theorem PortParts.refl (h : PortParts T) (s : State) : T s s :=
  h.bookkeeping s s.cmd s.mode s.haltCause s.canExecute s.cur s.irq

theorem PortParts.haltWith (h : PortParts T) (s : State) (c : HaltCause) : T s (s.haltWith c) :=
  h.bookkeeping s s.cmd .halted c s.canExecute s.cur s.irq

theorem PortParts.setCmd (h : PortParts T) (s : State) (cmd : CmdBuffer) (mode : Mode) :
    T s { s with cmd := cmd, mode := mode } :=
  h.bookkeeping s cmd mode s.haltCause s.canExecute s.cur s.irq

theorem PortParts.fetchParts (h : PortParts T) : FetchParts T where
  refl := h.refl
  trans := h.trans
  pop s := h.setCmd s _ s.mode
  pending s _ := h.setCmd s _ s.mode

theorem PortParts.dispatch (h : PortParts T) (s : State) : Act.At T runPendingCommands s :=
  h.fetchParts.runPendingCommands h.command s

theorem PortParts.bufPush (h : PortParts T) (w : Word) (s : State) : Act.At T (bufPush w) s := by
  refine .get ?_
  split
  · exact .halt (by decide) (h.refl s)
  · exact .set (h.setCmd s _ s.mode)

theorem PortParts.headerWord (h : PortParts T) (w : Word) (s : State) : Act.At T (headerWord w) s := by
  refine .bind h.trans (h.bufPush w s) fun _ t _ _ => .get ?_
  dsimp only
  split
  · exact .after h.trans (h.setCmd t _ _) (h.dispatch _)
  · exact .set (h.setCmd t _ _)

theorem PortParts.operandWord (h : PortParts T) (w : Word) (s : State) : Act.At T (operandWord w) s := by
  refine .bind h.trans (h.bufPush w s) fun _ t _ _ => .after h.trans (h.setCmd t _ t.mode) (.get ?_)
  split
  · exact .after h.trans (h.setCmd _ _ _) (h.dispatch _)
  · exact .pure _ (h.refl _)

theorem PortParts.resumeRender (h : PortParts T) (s : State) : Act.At T resumeRender s := by
  refine .bind h.trans (h.render s) fun _ t _ _ => .get ?_
  split
  · exact h.dispatch t
  · exact .pure _ (h.refl t)

theorem PortParts.doContinue (h : PortParts T) (s : State) : Act.At T doContinue s := by
  refine .get ?_
  split
  · exact .pure _ (h.refl s)
  · refine .bind h.trans (.set (h.bookkeeping s s.cmd s.mode s.haltCause true s.cur s.irq)) fun _ t _ _ => ?_
    split
    · exact h.dispatch t
    · exact .pure _ (h.refl t)

theorem PortParts.outcome (h : PortParts T) {act : Act Unit} {s t : State} (ha : Act.At T act s)
    (ht : act.outcome s = .next t) : T s t := by
  cases ht
  exact ha.final_of (fun _ => id) fun t c hst => h.trans s t _ hst (h.haltWith t c)

/-- An instruction keeps what its parts keep, or it is the reset (40_commands.md R151). -/
theorem PortParts.exec (h : PortParts T) {i : Instr} {s t : State} (ht : exec i s = .next t) :
    T s t ∨ t = s.resetAvm := by
  have hsync (hi : IsSyncWord i) : T s t := by
    obtain ⟨cur, irq, he⟩ := exec_syncWord hi s
    exact h.trans s _ t (h.bookkeeping s s.cmd s.mode s.haltCause s.canExecute cur irq)
      (h.outcome (h.resumeRender _) (he.symm.trans ht))
  by_cases hc : i.context false = .header false
  · exact .inl (h.outcome (h.command i s) ((exec_eq_executeCommand hc s).symm.trans ht))
  · cases i with
    | sync b m => exact .inl (hsync (.inl ⟨b, m, rfl⟩))
    | sync2 a b => exact .inl (hsync (.inr (.inl ⟨a, b, rfl⟩)))
    | sync0 => exact .inl (hsync (.inr (.inr rfl)))
    | cont => exact .inl (h.outcome (h.doContinue s) ht)
    | reset => cases ht; exact .inr rfl
    | nop _ | setup _ _ _ _ _ _ | startRender _ _ _ _ _ _ | setSampleBase _ _ | prepareFrame _
    | addVoice _ _ | finalizeFrame _ | reserved _ _ _ => exact absurd rfl hc

/-- So does a write to a register (10_state.md R37; 40_commands.md R130). -/
theorem PortParts.regWrite (h : PortParts T) {o : Nat} {w : Word} {s t : State}
    (ht : regWrite o w s = .next t) : T s t ∨ t = s.resetAvm := by
  obtain ⟨-, ht⟩ | ⟨-, ht⟩ | rfl := regWrite_cases ht
  · obtain ⟨-, hc⟩ | ⟨c, -, -, hc⟩ | ⟨i, _, -, -, hc⟩ | ⟨-, hc⟩ | ⟨-, -, hc⟩ := cmdWrite_cases w s
    · cases hc.symm.trans ht; exact .inl (h.refl s)
    · cases hc.symm.trans ht; exact .inl (h.haltWith s c)
    · exact h.exec (hc.symm.trans ht)
    · exact .inl (h.outcome (h.operandWord w s) (hc.symm.trans ht))
    · exact .inl (h.outcome (h.headerWord w s) (hc.symm.trans ht))
  · obtain ⟨i, _, -, hc⟩ | hc := ctrlWrite_cases w s
    · exact h.exec (hc.symm.trans ht)
    · cases hc.symm.trans ht; exact .inl (h.refl s)
  · exact .inl (h.refl _)

end Sys2Proof.Machine
end

section
/-! What `AddVoice` stores, and that every step keeps both memories in canonical form (20_memory.md R60, R62, R65,
R69): the AVM writes memory by `AddVoice` and `FinalizeFrame` alone, in runs of byte stores. -/

namespace Sys2Proof.Machine

/-! ### What `AddVoice` stores -/

/-- `AddVoice` leaves the state as it is, or mixes and stores the packed image back to the voice's record: an image
that differs from the one fetched in mutable words only (20_memory.md R69, R71). -/
def StoresVoice (v : Half) (s t : State) : Prop :=
  t = s ∨ ∃ ws g buses, s.words? .main s.cfg.vpbWords (s.vpbAddr v) = some ws ∧
    Vpb.Within (mutableWords s.cfg) (s.cfg.expand ws) g ∧
    t = { s with
      buses := buses
      main := (storeBytes (s.cfg.mapped .main) s.main (s.vpbAddr v) ((s.cfg.pack g).flatMap halfBytes)).1 }

theorem vpbFetch_eq_ok {v : Half} {s t : State} {f : Vpb} (h : vpbFetch v s = .ok f t) :
    ∃ ws, s.words? .main s.cfg.vpbWords (s.vpbAddr v) = some ws ∧ f = s.cfg.expand ws := by
  unfold vpbFetch at h
  rw [Act.get_bind] at h
  obtain ⟨ws, u, hws, h⟩ := Act.bind_eq_ok.mp h
  cases h
  exact ⟨ws, (readWords_eq_ok.mp hws).1, rfl⟩

theorem mixEnabledVoice_storesVoice {v : Half} {ws : List Half} {s : State}
    (hws : s.words? .main s.cfg.vpbWords (s.vpbAddr v) = some ws)
    (hsource : (s.cfg.expand ws).useConstantSample ≠ 0 ∨ SourceKind.ofType (s.cfg.expand ws).sourceType ≠ none) :
    Act.At (StoresVoice v) (mixEnabledVoice v (s.cfg.expand ws)) s := by
  refine .read (loadVoiceSamples_readsOnly hsource) (.inl rfl) fun r hr => ?_
  have hg := storedImage_within (p := s.cfg) (t := s.tables) (b := s.buses)
    (expand_length (State.words?_length hws)) hr
  let mixed := mixVoice s.cfg s.tables r.1 (endRequest s.cfg r.2) s.buses
  obtain ⟨m, rfl, ⟨-, h⟩ | ⟨-, h⟩⟩ := storeWords_cases (s.vpbAddr v) (s.cfg.pack (clearReset mixed.1))
    { s with buses := mixed.2 }
  · exact .ok h (.inr ⟨ws, _, _, hws, hg, rfl⟩)
  · exact .inr ⟨_, _, by decide, h, .inr ⟨ws, _, _, hws, hg, rfl⟩⟩

theorem addVoice_storesVoice (v : Half) (s : State) : Act.At (StoresVoice v) (addVoice v) s := by
  refine .read (vpbFetch_readsOnly v) (.inl rfl) fun f hf => ?_
  obtain ⟨ws, hws, rfl⟩ := vpbFetch_eq_ok hf
  split
  · exact .pure _ (.inl rfl)
  · refine .get ?_
    cases hd : voiceDefect s.cfg (s.cfg.expand ws) with
    | some c => exact .halt (voiceDefect_ne_none hd) (.inl rfl)
    | none => exact mixEnabledVoice_storesVoice hws (voiceDefect_eq_none hd)

/-! ### The canonical form -/

/-- Canonical memories stay canonical. -/
def KeepsMemory (s t : State) : Prop := s.memoryInv = true → t.memoryInv = true

theorem KeepsMemory.seq (a b c : State) (h : KeepsMemory a b) (k : KeepsMemory b c) : KeepsMemory a c := k ∘ h

theorem State.memoryInv_iff (s : State) :
    s.memoryInv = true ↔ s.main.wf = true ∧ s.sample.wf = true := Bool.and_eq_true_iff

/-- Where neither memory is written they stay canonical. -/
theorem KeepsMemory.of_eq {s t : State} (hm : t.main = s.main) (hs : t.sample = s.sample) : KeepsMemory s t := by
  intro h
  rw [State.memoryInv_iff, hm, hs]
  exact s.memoryInv_iff.mp h

theorem storeBytes_keepsMemory (s : State) (answers : Addr → Bool) (a : Addr) (bs : List Byte) :
    KeepsMemory s { s with main := (storeBytes answers s.main a bs).1 } := fun h =>
  have ⟨hm, hs⟩ := s.memoryInv_iff.mp h
  (State.memoryInv_iff _).mpr ⟨storeBytes_wf answers bs s.main a hm, hs⟩

/-- A byte the host writes keeps the form (20_memory.md R65). -/
theorem hostWrite_keepsMemory (s : State) (sp : Space) (a : Addr) (b : Byte) :
    KeepsMemory s (s.setMem sp ((s.mem sp).write a.toNat b)) := by
  intro h
  obtain ⟨hm, hs⟩ := s.memoryInv_iff.mp h
  cases sp with
  | main => exact (State.memoryInv_iff _).mpr ⟨Memory.write_wf _ a b hm, hs⟩
  | sample => exact (State.memoryInv_iff _).mpr ⟨hm, Memory.write_wf _ a b hs⟩

theorem storeWords_keepsMemory (a : Addr) (ws : List Half) (s : State) :
    Act.At KeepsMemory (storeWords a ws) s := by
  obtain ⟨_, rfl, ⟨-, h⟩ | ⟨-, h⟩⟩ := storeWords_cases a ws s
  · exact .ok h (storeBytes_keepsMemory s _ a _)
  · exact .inr ⟨_, _, by decide, h, storeBytes_keepsMemory s _ a _⟩

theorem StoresVoice.keepsMemory {v : Half} {s t : State} : StoresVoice v s t → KeepsMemory s t := by
  rintro (rfl | ⟨_, _, _, -, -, rfl⟩)
  · exact id
  · exact storeBytes_keepsMemory s _ _ _

theorem addVoice_keepsMemory (v : Half) (s : State) : Act.At KeepsMemory (addVoice v) s :=
  (addVoice_storesVoice v s).mono fun _ _ => StoresVoice.keepsMemory

theorem prepareFrame_keepsMemory (s : State) : Act.At KeepsMemory prepareFrame s := by
  refine (prepareFrame_at s).mono fun a b h => ?_
  obtain ⟨_, _, _, _, rfl⟩ := h
  exact .of_eq rfl rfl

theorem writeFrame_keepsMemory (s : State) : Act.At KeepsMemory writeFrame s := by
  refine .after KeepsMemory.seq (.of_eq rfl rfl) (.get ?_)
  refine .bind KeepsMemory.seq (storeWords_keepsMemory _ _ _) fun _ t _ _ => ?_
  exact .bind KeepsMemory.seq (storeWords_keepsMemory _ _ t) fun _ u _ _ => .modify (.of_eq rfl rfl)

theorem postUnit_keepsMemory (r : Nat) (s : State) : Act.At KeepsMemory (postUnit r) s := by
  refine .read (rpbFetch_readsOnly r) (.of_eq rfl rfl) fun p _ => ?_
  split
  · split
    · exact .halt (by decide) (.of_eq rfl rfl)
    · exact .get (.bind KeepsMemory.seq (storeWords_keepsMemory _ _ s) fun _ t _ _ => .modify (.of_eq rfl rfl))
  · exact .pure _ (.of_eq rfl rfl)

theorem finalizeFrame_keepsMemory (s : State) : Act.At KeepsMemory finalizeFrame s := by
  refine .get ?_
  split
  · exact .pure _ (.of_eq rfl rfl)
  · split
    · exact .halt (by decide) (.of_eq rfl rfl)
    · refine .bind KeepsMemory.seq (writeFrame_keepsMemory s) fun _ t _ _ => ?_
      exact .bind KeepsMemory.seq (forUnits_at KeepsMemory.seq postUnit_keepsMemory t) fun _ u _ _ =>
        .modify (.of_eq rfl rfl)

theorem renderParts_keepsMemory : RenderParts KeepsMemory where
  refl _ := id
  trans := KeepsMemory.seq
  prepare := prepareFrame_keepsMemory
  voice := addVoice_keepsMemory
  finalize := finalizeFrame_keepsMemory
  nextVoice _ := .of_eq rfl rfl
  frameDone s := .of_eq (by simp) (by simp)
  nextFrame _ := .of_eq rfl rfl
  renderDone _ := .of_eq rfl rfl

theorem ack_keepsMemory (sync : BitVec 7) (s : State) : Act.At KeepsMemory (ack sync) s :=
  .modify (.of_eq rfl rfl)

/-- A command but `ADD_VOICE`, `FINALIZE_FRAME` and `START_RENDER` writes no memory at all. -/
theorem CommandKeeps.keepsMemory {i : Instr} {s t : State} (hf : ∀ y, i ≠ .finalizeFrame y)
    (ha : ∀ y v, i ≠ .addVoice y v) (h : CommandKeeps i s t) : KeepsMemory s t := by
  have hk := h.kept
  simp only [State.commandKept, Prod.mk.injEq] at hk
  obtain ⟨-, hsample, -⟩ := hk
  exact .of_eq (h.main hf ha) hsample

theorem executeCommand_keepsMemory (i : Instr) (s : State) : Act.At KeepsMemory (executeCommand i) s := by
  cases i with
  | startRender _ voices frames vol outL outR =>
    refine .get ?_
    split
    · exact .halt (by decide) (.of_eq rfl rfl)
    · exact .after KeepsMemory.seq (.of_eq rfl rfl) (renderParts_keepsMemory.renderAudio _)
  | addVoice sync voice =>
    exact .bind KeepsMemory.seq (prepareFrame_keepsMemory s) fun _ _ _ _ =>
      .bind KeepsMemory.seq (addVoice_keepsMemory _ _) fun _ _ _ _ => ack_keepsMemory _ _
  | finalizeFrame sync =>
    exact .bind KeepsMemory.seq (finalizeFrame_keepsMemory s) fun _ _ _ _ => ack_keepsMemory _ _
  | nop _ | setup _ _ _ _ _ _ | setSampleBase _ _ | prepareFrame _ | reserved _ _ _ | sync _ _ | sync2 _ _
  | sync0 | cont | reset =>
    exact (executeCommand_commandKeeps (by simp) s).mono fun _ _ => CommandKeeps.keepsMemory (by simp) (by simp)

theorem portParts_keepsMemory : PortParts KeepsMemory where
  trans := KeepsMemory.seq
  command := executeCommand_keepsMemory
  render := renderParts_keepsMemory.renderAudio
  bookkeeping _ _ _ _ _ _ _ := .of_eq rfl rfl

theorem hostAccess_keepsMemory {a : HostAccess} {s t : State} (h : hostAccess a s = .next t) :
    KeepsMemory s t := by
  obtain ⟨o, w, -, hw⟩ | ⟨-, rfl⟩ | ⟨r, rfl⟩ | ⟨sp, x, b, -, rfl⟩ | ⟨-, rfl⟩ := hostAccess_cases h
  · obtain hw | rfl := portParts_keepsMemory.regWrite hw
    · exact hw
    · exact .of_eq rfl rfl
  · exact .of_eq rfl rfl
  · exact .of_eq rfl rfl
  · exact hostWrite_keepsMemory s sp x b
  · exact .of_eq rfl rfl

/-- Settles O56, from what each access of the host stores. -/
theorem memoryKept : Obligations.MemoryKept := by
  intro s t hs h
  cases hh : s.host with
  | nil => cases (step_nil hh).symm.trans h; exact hs
  | cons a rest => exact hostAccess_keepsMemory ((step_cons hh).symm.trans h) hs

end Sys2Proof.Machine
end

section
/-! Memory is storage (20_memory.md R62, R63, R65, R66): what a read of a byte, a word or a run gives, and what a
byte the host writes leaves. -/

namespace Sys2Proof.Machine

/-! ### Reads -/

theorem State.read8?_eq (s : State) (sp : Space) (a : Addr) :
    s.read8? sp a = if s.cfg.mapped sp a then some (s.byteAt sp a) else none := rfl

theorem State.byteAt_of_read8? {s : State} {sp : Space} {a : Addr} {b : Byte} (h : s.read8? sp a = some b) :
    s.byteAt sp a = b := by
  rw [State.read8?_eq] at h
  split at h
  · exact Option.some.inj h
  · cases h

/-- A word is its high byte and then its low byte. -/
theorem append_eq_iff_extract {hi lo : Byte} {w : Half} :
    hi ++ lo = w ↔ hi = w.extractLsb' 8 8 ∧ lo = w.extractLsb' 0 8 := by
  constructor
  · rintro rfl
    exact ⟨BitVec.extractLsb'_append_eq_left.symm, BitVec.extractLsb'_append_eq_right.symm⟩
  · rintro ⟨rfl, rfl⟩
    exact (BitVec.extractLsb'_append_extractLsb'_eq_extractLsb' (by omega)).trans (by simp)

theorem State.read16?_eq_some_iff {s : State} {sp : Space} {a : Addr} {w : Half} :
    s.read16? sp a = some w ↔
      s.read8? sp a = some (w.extractLsb' 8 8) ∧ s.read8? sp (a + 1) = some (w.extractLsb' 0 8) := by
  unfold State.read16?
  cases s.read8? sp a with
  | none => simp
  | some hi =>
    cases s.read8? sp (a + 1) with
    | none => simp
    | some lo => simp only [Option.some.injEq, append_eq_iff_extract]

/-- A run of `n + 1` reads that gives a list gives its head, and then its tail. -/
theorem reads_cons_iff {α : Type} {d : α} {read : Nat → Option α} {n : Nat} {l : List α} :
    (l.length = n + 1 ∧ ∀ i < n + 1, read i = some (l.getD i d)) ↔
      ∃ x xs, l = x :: xs ∧ read 0 = some x ∧ xs.length = n ∧ ∀ i < n, read (i + 1) = some (xs.getD i d) := by
  constructor
  · rintro ⟨hl, hr⟩
    obtain ⟨x, xs, rfl⟩ := List.exists_cons_of_length_eq_add_one hl
    exact ⟨x, xs, rfl, hr 0 (by omega), by simpa using hl, fun i hi => hr (i + 1) (by omega)⟩
  · rintro ⟨x, xs, rfl, h0, hl, hr⟩
    refine ⟨by simpa using hl, fun i hi => ?_⟩
    cases i with
    | zero => exact h0
    | succ i => exact hr i (by omega)

theorem State.bytes?_succ (s : State) (sp : Space) (n : Nat) (a : Addr) :
    s.bytes? sp (n + 1) a = (s.read8? sp a).bind fun b => (s.bytes? sp n (a + 1)).map (b :: ·) := by
  conv => lhs; unfold State.bytes?
  cases s.read8? sp a with
  | none => rfl
  | some b => cases s.bytes? sp n (a + 1) <;> rfl

theorem State.bytes?_eq_some_iff {s : State} {sp : Space} {n : Nat} {a : Addr} {bs : List Byte} :
    s.bytes? sp n a = some bs ↔
      bs.length = n ∧ ∀ i < n, s.read8? sp (a + BitVec.ofNat 32 i) = some (bs.getD i 0) := by
  induction n generalizing a bs with
  | zero => simp [State.bytes?, eq_comm (a := ([] : List Byte))]
  | succ n ih =>
    rw [reads_cons_iff (read := fun i => s.read8? sp (a + BitVec.ofNat 32 i)), State.bytes?_succ]
    simp only [BitVec.add_zero, ← addr_succ, ← ih, Option.bind_eq_some_iff, Option.map_eq_some_iff]
    exact ⟨fun ⟨b, hb, bs', hbs, h⟩ => ⟨b, bs', h.symm, hb, hbs⟩,
      fun ⟨b, bs', h, hb, hbs⟩ => ⟨b, hb, bs', hbs, h.symm⟩⟩

theorem addr_add_two (a : Addr) (i : Nat) :
    a + 2 + BitVec.ofNat 32 (2 * i) = a + BitVec.ofNat 32 (2 * (i + 1)) := by
  rw [BitVec.add_assoc]
  congr 1
  apply BitVec.eq_of_toNat_eq
  simp
  omega

theorem State.words?_succ (s : State) (sp : Space) (n : Nat) (a : Addr) :
    s.words? sp (n + 1) a = (s.read16? sp a).bind fun w => (s.words? sp n (a + 2)).map (w :: ·) := by
  conv => lhs; unfold State.words?
  cases s.read16? sp a with
  | none => rfl
  | some w => cases s.words? sp n (a + 2) <;> rfl

theorem State.words?_eq_some_iff {s : State} {sp : Space} {n : Nat} {a : Addr} {ws : List Half} :
    s.words? sp n a = some ws ↔
      ws.length = n ∧ ∀ i < n, s.read16? sp (a + BitVec.ofNat 32 (2 * i)) = some (ws.getD i 0) := by
  induction n generalizing a ws with
  | zero => simp [State.words?, eq_comm (a := ([] : List Half))]
  | succ n ih =>
    rw [reads_cons_iff (read := fun i => s.read16? sp (a + BitVec.ofNat 32 (2 * i))), State.words?_succ]
    simp only [Nat.mul_zero, BitVec.add_zero, ← addr_add_two, ← ih, Option.bind_eq_some_iff,
      Option.map_eq_some_iff]
    exact ⟨fun ⟨w, hw, ws', hws, h⟩ => ⟨w, ws', h.symm, hw, hws⟩,
      fun ⟨w, ws', h, hw, hws⟩ => ⟨w, hw, ws', hws, h.symm⟩⟩

/-! ### The host's accesses -/

theorem State.mem_setMem_same (s : State) (sp : Space) (m : Memory) : (s.setMem sp m).mem sp = m := by
  cases sp <;> rfl

theorem State.mem_setMem_other (s : State) {sp sp' : Space} (m : Memory) (h : sp' ≠ sp) :
    (s.setMem sp m).mem sp' = s.mem sp' := by
  cases sp with
  | main =>
    cases sp' with
    | main => exact absurd rfl h
    | sample => rfl
  | sample =>
    cases sp' with
    | main => rfl
    | sample => exact absurd rfl h

theorem State.mem_wf {s : State} (h : s.memoryInv = true) (sp : Space) : (s.mem sp).wf = true := by
  obtain ⟨hm, hs⟩ := s.memoryInv_iff.mp h
  cases sp
  · exact hm
  · exact hs

theorem State.hostFault_eq_none {s : State} {sp : Space} {a : Addr} (hm : s.cfg.mapped sp a = true)
    (ha : s.cfg.noAram = true → sp = .main) : s.hostFault sp a = none := by
  have hspace : ¬(s.cfg.noAram = true ∧ sp = .sample) := fun ⟨h, hsp⟩ => by
    cases hsp.symm.trans (ha h)
  rw [State.hostFault, if_neg hspace, if_pos hm]

/-- The state after the host wrote byte `b` (20_memory.md R65). -/
def State.byteWritten (s : State) (sp : Space) (a : Addr) (b : Byte) : State :=
  s.setMem sp ((s.mem sp).write a.toNat b)

theorem step_memWrite {s : State} {sp : Space} {a : Addr} {b : Byte} {rest : List HostAccess}
    (hh : s.host = .memWrite sp a b :: rest) (h : s.hostFault sp a = none) :
    step s = .next ({ s with host := rest }.byteWritten sp a b) := by
  have hrest : ({ s with host := rest } : State).hostFault sp a = none := h
  rw [step_cons hh]
  simp only [hostAccess, hrest, State.byteWritten]

theorem step_memRead {s : State} {sp : Space} {a : Addr} {rest : List HostAccess}
    (hh : s.host = .memRead sp a :: rest) (h : s.hostFault sp a = none) :
    step s = .next { s with host := rest, replies := s.replies ++ [.byte (s.byteAt sp a)] } := by
  have hrest : ({ s with host := rest } : State).hostFault sp a = none := h
  rw [step_cons hh]
  simp only [hostAccess, hrest]
  rfl

@[simp] theorem State.byteWritten_cfg (s : State) (sp : Space) (a : Addr) (b : Byte) :
    (s.byteWritten sp a b).cfg = s.cfg := by cases sp <;> rfl

@[simp] theorem State.byteWritten_host (s : State) (sp : Space) (a : Addr) (b : Byte) :
    (s.byteWritten sp a b).host = s.host := by cases sp <;> rfl

@[simp] theorem State.byteWritten_replies (s : State) (sp : Space) (a : Addr) (b : Byte) :
    (s.byteWritten sp a b).replies = s.replies := by cases sp <;> rfl

theorem State.byteAt_byteWritten_same {s : State} (h : s.memoryInv = true) (sp : Space) (a : Addr) (b : Byte) :
    (s.byteWritten sp a b).byteAt sp a = b := by
  rw [State.byteAt, State.byteWritten, State.mem_setMem_same]
  exact Memory.read_write_same _ _ _ (State.mem_wf h sp)

theorem State.byteAt_byteWritten_other (s : State) {sp sp' : Space} {a x : Addr} (b : Byte)
    (h : sp' ≠ sp ∨ x ≠ a) : (s.byteWritten sp a b).byteAt sp' x = s.byteAt sp' x := by
  unfold State.byteAt State.byteWritten
  by_cases hsp : sp' = sp
  · subst hsp
    have hx : x.toNat ≠ a.toNat := fun hx => (h.resolve_left (absurd rfl)) (BitVec.eq_of_toNat_eq hx)
    rw [State.mem_setMem_same]
    exact Memory.read_write_other _ _ _ _ hx
  · rw [State.mem_setMem_other _ _ hsp]

theorem storeBytes_all_true (m : Memory) (a : Addr) (bs : List Byte) :
    (storeBytes (fun _ => true) m a bs).2 = true := storeBytes_ok _ bs m a fun _ _ => rfl

/-- Settles O13: the reads are equivalences, a run stored reads back, and the host's byte is the one it reads. -/
theorem hostMemory : Obligations.HostMemory := by
  refine ⟨fun s sp a => ?reads, fun w => rfl, fun m a bs hm hl => ?runs,
    fun s sp a b rest hh hinv hmap haram => ?host⟩
  case reads =>
    exact ⟨s.read8?_eq sp a, fun w => State.read16?_eq_some_iff, fun n bs => State.bytes?_eq_some_iff,
      fun n ws => State.words?_eq_some_iff⟩
  case runs =>
    exact ⟨fun i hi => storeBytes_read_inside _ bs m a i hm hl (storeBytes_all_true m a bs) hi,
      fun x hx => storeBytes_read_outside _ bs m a x hx⟩
  case host =>
    let before : State := { s with host := .memRead sp a :: rest }
    let t : State := before.byteWritten sp a b
    have hbyte : t.byteAt sp a = b := State.byteAt_byteWritten_same (s := before) hinv sp a b
    have hfault : t.hostFault sp a = none :=
      State.hostFault_eq_none (by simpa [t, before] using hmap) (by simpa [t, before] using haram)
    have hread := step_memRead (rest := rest) (by simp [t, before]) hfault
    rw [hbyte, State.byteWritten_replies] at hread
    exact ⟨t, step_memWrite hh (State.hostFault_eq_none hmap haram), hread,
      fun _ _ hx => State.byteAt_byteWritten_other before b hx⟩

end Sys2Proof.Machine
end

section
/-! A voice's record (20_memory.md R67 to R72): where the words of each layout stand in the other, and what writing
the image leaves (20_memory.md R70; 43_sources_resample.md R246). -/

namespace Sys2Proof.Machine

/-! ### The two layouts -/

theorem compress_getD_low {f : Vpb} (hf : f.length = 0xC0) {i : Nat} (hi : i < 0x60) :
    (compress f).getD i 0 = f.word i := by
  simp only [compress, Vpb.word, List.getD_eq_getElem?_getD]
  rw [List.getElem?_append_left (by simp [hf]; omega), List.getElem?_take_of_lt hi]

theorem compress_getD_high {f : Vpb} (hf : f.length = 0xC0) {i : Nat} (hi : i < 0x20) :
    (compress f).getD (0x60 + i) 0 = f.word (0x80 + i) := by
  simp only [compress, Vpb.word, List.getD_eq_getElem?_getD]
  rw [List.getElem?_append_right (by simp [hf]), List.getElem?_take_of_lt (by simp [hf]; omega), List.getElem?_drop]
  simp [hf]

section
variable {l : List Half} (hl : l.length = 0x80) {i : Nat}
include hl

theorem uncompress_getD_low (hi : i < 0x60) : (uncompress l).getD i 0 = l.getD i 0 := by
  simp only [uncompress, List.append_assoc, List.getD_eq_getElem?_getD]
  rw [List.getElem?_append_left (by simp [hl]; omega), List.getElem?_take_of_lt hi]

theorem uncompress_getD_gap (hi : i < 0x20) : (uncompress l).getD (0x60 + i) 0 = 0 := by
  simp only [uncompress, List.append_assoc, List.getD_eq_getElem?_getD]
  rw [List.getElem?_append_right (by simp [hl]), List.getElem?_append_left (by simp [hl]; omega)]
  simp [hl, hi, -List.reduceReplicate]

theorem uncompress_getD_high (hi : i < 0x20) : (uncompress l).getD (0x80 + i) 0 = l.getD (0x60 + i) 0 := by
  simp only [uncompress, List.getD_eq_getElem?_getD]
  rw [List.getElem?_append_left (by simp [hl]; omega), List.getElem?_append_right (by simp [hl]),
    List.getElem?_take_of_lt (by simp [hl]; omega), List.getElem?_drop]
  simp [hl]

theorem uncompress_getD_tail (hi : i < 0x20) : (uncompress l).getD (0xA0 + i) 0 = 0 := by
  simp only [uncompress, List.getD_eq_getElem?_getD]
  rw [List.getElem?_append_right (by simp [hl])]
  simp [hl, hi, -List.reduceReplicate]

/-- The legacy layout loses nothing (20_memory.md R72). -/
theorem compress_uncompress : compress (uncompress l) = l := by
  have hlen : (compress (uncompress l)).length = l.length := by
    rw [compress_length (uncompress_length hl), hl]
  refine List.ext_getElem hlen fun i h1 h2 => ?_
  rw [← List.getD_eq_getElem _ 0 h1, ← List.getD_eq_getElem _ 0 h2]
  by_cases hi : i < 0x60
  · rw [compress_getD_low (uncompress_length hl) hi]
    exact uncompress_getD_low hl hi
  · obtain ⟨j, rfl⟩ := Nat.exists_eq_add_of_le (Nat.not_lt.mp hi)
    rw [compress_getD_high (uncompress_length hl) (by omega)]
    exact uncompress_getD_high hl (by omega)

end

/-- Word `i` of the record stored is the word of the image that it holds (20_memory.md R69, R72). -/
theorem pack_getD {p : Platform} {f : Vpb} (hf : f.length = 0xC0) {i : Nat} (hi : i < p.vpbWords) :
    (p.pack f).getD i 0 = f.word (imageIndex p i) := by
  unfold Platform.vpbWords at hi
  unfold Platform.pack imageIndex
  by_cases hp : p.legacyVpb = true
  · rw [if_pos hp] at hi ⊢
    by_cases hlow : i < 0x60
    · rw [if_neg (by omega), compress_getD_low hf hlow]
    · obtain ⟨j, rfl⟩ := Nat.exists_eq_add_of_le (Nat.not_lt.mp hlow)
      rw [if_pos ⟨hp, by omega⟩, compress_getD_high hf (by omega)]
      congr 1
      omega
  · rw [if_neg hp, if_neg fun h => hp h.1]
    rfl

/-- Word `i` of the record fetched is the word of the image that it holds (20_memory.md R69, R72). -/
theorem word_expand {p : Platform} {ws : List Half} (hws : ws.length = p.vpbWords) {i : Nat} (hi : i < p.vpbWords) :
    (p.expand ws).word (imageIndex p i) = ws.getD i 0 := by
  unfold Platform.vpbWords at hi hws
  unfold Platform.expand imageIndex
  by_cases hp : p.legacyVpb = true
  · rw [if_pos hp] at hi hws ⊢
    by_cases hlow : i < 0x60
    · rw [if_neg (by omega)]
      exact uncompress_getD_low hws hlow
    · obtain ⟨j, rfl⟩ := Nat.exists_eq_add_of_le (Nat.not_lt.mp hlow)
      rw [if_pos ⟨hp, by omega⟩, show 0x60 + j + 0x20 = 0x80 + j by omega]
      exact uncompress_getD_high hws (by omega)
  · rw [if_neg hp, if_neg fun h => hp h.1]
    rfl

/-! ### Words written -/

theorem Vpb.word_put (f : Vpb) {i : Nat} (hi : i < f.length) (v : Half) (j : Nat) :
    (f.put i v).word j = if j = i then v else f.word j := by
  split
  · rename_i h
    rw [h, Vpb.word_put_same f v hi]
  · rename_i h
    exact Vpb.word_put_other f v h

theorem Vpb.word_putAll (f : Vpb) {i : Nat} {vs : List Half} (h : i + vs.length ≤ f.length) (j : Nat) :
    (f.putAll i vs).word j = if i ≤ j ∧ j < i + vs.length then vs.getD (j - i) 0 else f.word j := by
  split
  · rename_i hj
    obtain ⟨k, rfl⟩ := Nat.exists_eq_add_of_le hj.1
    rw [Vpb.word_putAll_same f vs (by omega) (by omega), Nat.add_sub_cancel_left]
  · exact Vpb.word_putAll_other f vs h (by omega)

/-- Settles O43: each field is a word by definition, and the layouts agree word by word. -/
theorem legacyLayout : Obligations.LegacyLayout := by
  refine ⟨fun s v => rfl, fun p => ⟨rfl, fun ws => rfl, fun f => rfl⟩,
    fun f => ⟨rfl, rfl, rfl, rfl, rfl, fun c => ⟨rfl, rfl, rfl⟩⟩, fun f hf => ?writes,
    fun f hf => ?packed, fun l hl => ?expanded⟩
  case writes =>
    refine ⟨fun i hi v j => ⟨by simpa using hf, f.word_put (by omega) v j⟩,
      fun i vs h => ⟨(f.putAll_length i vs (by omega)).trans hf, fun j => f.word_putAll (by omega) j⟩,
      fun i v => rfl, fun a b => rfl, fun x => ?_⟩
    exact ⟨f.index_setIndex x (by omega), f.frac_setIndex x (by omega), by simpa using hf,
      fun j h8 h9 => f.word_putPair_other _ h8 h9⟩
  case packed =>
    exact ⟨compress_length hf, fun i hi => compress_getD_low hf hi, fun i hi => compress_getD_high hf hi⟩
  case expanded =>
    exact ⟨compress_uncompress hl, uncompress_length hl, fun i hi => uncompress_getD_low hl hi,
      fun i hi => ⟨uncompress_getD_gap hl hi, uncompress_getD_high hl hi, uncompress_getD_tail hl hi⟩⟩

end Sys2Proof.Machine
end

section
/-! The frame of `ADD_VOICE` (20_memory.md R69, R71; 42_voice_mix.md R200): a run of stores that puts back the byte
an address holds leaves that byte, and the record is put back but for its mutable words. -/

namespace Sys2Proof.Machine

/-! ### Bytes put back -/

/-- A run of byte stores that stores at an address only the byte that is there leaves it. -/
theorem storeBytes_read_kept (answers : Addr → Bool) (bs : List Byte) (m : Memory) (a x : Addr) (hm : m.wf = true)
    (h : ∀ i < bs.length, x = a + BitVec.ofNat 32 i → bs.getD i 0 = m.read x.toNat) :
    (storeBytes answers m a bs).1.read x.toNat = m.read x.toNat := by
  induction bs generalizing m a with
  | nil => rfl
  | cons b bs ih =>
    have hwrite : (m.write a.toNat b).read x.toNat = m.read x.toNat := by
      by_cases hx : x = a
      · subst hx
        rw [Memory.read_write_same m _ b hm]
        exact h 0 (by simp) (by simp)
      · exact Memory.read_write_other m _ _ b fun hn => hx (BitVec.eq_of_toNat_eq hn)
    unfold storeBytes
    split
    · refine (ih _ _ (Memory.write_wf m a b hm) fun i hi hx => ?_).trans hwrite
      rw [addr_succ] at hx
      exact (h (i + 1) (by simpa using hi) hx).trans hwrite.symm
    · rfl

theorem flatMap_halfBytes_getD (ws : List Half) (i : Nat) :
    (ws.flatMap halfBytes).getD (2 * i) 0 = (ws.getD i 0).extractLsb' 8 8 ∧
      (ws.flatMap halfBytes).getD (2 * i + 1) 0 = (ws.getD i 0).extractLsb' 0 8 := by
  induction ws generalizing i with
  | nil => simp
  | cons w ws ih =>
    cases i with
    | zero => exact ⟨rfl, rfl⟩
    | succ i => exact ih i

/-- The two bytes of a word that was read. -/
theorem State.byteAt_of_words? {s : State} {sp : Space} {n : Nat} {a : Addr} {ws : List Half}
    (h : s.words? sp n a = some ws) {i : Nat} (hi : i < n) :
    s.byteAt sp (a + BitVec.ofNat 32 (2 * i)) = (ws.getD i 0).extractLsb' 8 8 ∧
      s.byteAt sp (a + BitVec.ofNat 32 (2 * i + 1)) = (ws.getD i 0).extractLsb' 0 8 := by
  obtain ⟨hhi, hlo⟩ := State.read16?_eq_some_iff.mp ((State.words?_eq_some_iff.mp h).2 i hi)
  have e : a + BitVec.ofNat 32 (2 * i) + 1 = a + BitVec.ofNat 32 (2 * i + 1) := by
    rw [BitVec.add_assoc]
    congr 1
    apply BitVec.eq_of_toNat_eq
    simp
  rw [e] at hlo
  exact ⟨State.byteAt_of_read8? hhi, State.byteAt_of_read8? hlo⟩

/-! ### The record put back -/

/-- The address is no byte of a word of voice `v`'s record that mixing may change (20_memory.md R71). -/
def State.OutsideMutable (s : State) (v : Half) (a : Addr) : Prop :=
  ∀ i < s.cfg.vpbWords, imageIndex s.cfg i ∈ mutableWords s.cfg →
    a ≠ s.vpbAddr v + BitVec.ofNat 32 (2 * i) ∧ a ≠ s.vpbAddr v + BitVec.ofNat 32 (2 * i + 1)

/-- A word outside the list is stored back as it was fetched. -/
theorem pack_getD_of_within {p : Platform} {ws : List Half} {g : Vpb} (hws : ws.length = p.vpbWords)
    (hg : Vpb.Within (mutableWords p) (p.expand ws) g) {i : Nat} (hi : i < p.vpbWords)
    (hm : imageIndex p i ∉ mutableWords p) : (p.pack g).getD i 0 = ws.getD i 0 :=
  calc (p.pack g).getD i 0 = g.word (imageIndex p i) := pack_getD (hg.1.trans (expand_length hws)) hi
    _ = (p.expand ws).word (imageIndex p i) := hg.2 _ hm
    _ = ws.getD i 0 := word_expand hws hi

/-- Storing the packed image back leaves every byte outside the mutable words. -/
theorem StoresVoice.byteAt {v : Half} {s t : State} (hs : s.memoryInv = true) {a : Addr}
    (ha : s.OutsideMutable v a) (h : StoresVoice v s t) : t.byteAt .main a = s.byteAt .main a := by
  obtain rfl | ⟨ws, g, buses, hws, hg, rfl⟩ := h
  · rfl
  have hlen := State.words?_length hws
  have hpack : (s.cfg.pack g).length = s.cfg.vpbWords := pack_length (hg.1.trans (expand_length hlen))
  refine storeBytes_read_kept _ _ s.main (s.vpbAddr v) a (s.memoryInv_iff.mp hs).1 fun k hk hak => ?_
  rw [flatMap_halfBytes_length, hpack] at hk
  have hi : k / 2 < s.cfg.vpbWords := by omega
  obtain ⟨hhi, hlo⟩ := flatMap_halfBytes_getD (s.cfg.pack g) (k / 2)
  obtain ⟨bhi, blo⟩ := State.byteAt_of_words? hws hi
  have hsame (hm : imageIndex s.cfg (k / 2) ∉ mutableWords s.cfg) := pack_getD_of_within hlen hg hi hm
  subst hak
  obtain hk2 | hk2 : k = 2 * (k / 2) ∨ k = 2 * (k / 2) + 1 := by omega
  · have hm : imageIndex s.cfg (k / 2) ∉ mutableWords s.cfg := fun hm => (ha _ hi hm).1 (by rw [← hk2])
    rw [← hk2] at hhi bhi
    exact hhi.trans ((congrArg _ (hsame hm)).trans bhi.symm)
  · have hm : imageIndex s.cfg (k / 2) ∉ mutableWords s.cfg := fun hm => (ha _ hi hm).2 (by rw [← hk2])
    rw [← hk2] at hlo blo
    exact hlo.trans ((congrArg _ (hsame hm)).trans blo.symm)

/-! ### The frame -/

/-- What the parts of `ADD_VOICE` for voice `v` keep (41_frame_ops.md R181; 42_voice_mix.md R200). -/
structure VoiceKeeps (v : Half) (s t : State) : Prop where
  registers : ∃ main buses reverb pattern prepared evt irq,
    t = { s with
      main := main, buses := buses, reverb := reverb
      tables := { s.tables with pattern := pattern }
      prepared := prepared, evt := evt, irq := irq }
  opened : s.prepared = true → t.reverb = s.reverb ∧ t.tables = s.tables ∧ t.prepared = true
  memory : KeepsMemory s t
  bytes : s.memoryInv = true → ∀ a, s.OutsideMutable v a → t.byteAt .main a = s.byteAt .main a

theorem VoiceKeeps.seq (v : Half) (a b c : State) (h : VoiceKeeps v a b) (k : VoiceKeeps v b c) :
    VoiceKeeps v a c where
  registers := by
    obtain ⟨_, _, _, _, _, _, _, rfl⟩ := h.registers
    obtain ⟨_, _, _, _, _, _, _, rfl⟩ := k.registers
    exact ⟨_, _, _, _, _, _, _, rfl⟩
  opened hp := by
    obtain ⟨hr, ht, hb⟩ := h.opened hp
    obtain ⟨kr, kt, kb⟩ := k.opened hb
    exact ⟨kr.trans hr, kt.trans ht, kb⟩
  memory := h.memory.seq _ _ _ k.memory
  bytes ha x hx := by
    have hout : b.OutsideMutable v x := by
      obtain ⟨_, _, _, _, _, _, _, rfl⟩ := h.registers
      exact hx
    exact (k.bytes (h.memory ha) x hout).trans (h.bytes ha x hx)

theorem prepareFrame_voiceKeeps (v : Half) (s : State) : Act.At (VoiceKeeps v) prepareFrame s := by
  by_cases hp : s.prepared = true
  · exact .ok (prepareFrame_open hp)
      ⟨⟨_, _, _, _, _, _, _, rfl⟩, fun h => ⟨rfl, rfl, h⟩, id, fun _ _ _ => rfl⟩
  · refine (prepareFrame_at s).imp fun t h => ?_
    obtain ⟨_, _, _, _, rfl⟩ := h
    exact ⟨⟨_, _, _, _, _, _, _, rfl⟩, fun h => absurd h hp, .of_eq rfl rfl, fun _ _ _ => rfl⟩

theorem addVoice_voiceKeeps (v : Half) (s : State) : Act.At (VoiceKeeps v) (addVoice v) s := by
  refine (addVoice_storesVoice v s).mono fun a b h => ⟨?_, ?_, h.keepsMemory, fun hs x hx => h.byteAt hs hx⟩
  · obtain rfl | ⟨_, _, _, -, -, rfl⟩ := h <;> exact ⟨_, _, _, _, _, _, _, rfl⟩
  · intro hp
    obtain rfl | ⟨_, _, _, -, -, rfl⟩ := h <;> exact ⟨rfl, rfl, hp⟩

theorem ack_voiceKeeps (v : Half) (sync : BitVec 7) (s : State) : Act.At (VoiceKeeps v) (ack sync) s :=
  .modify ⟨⟨_, _, _, _, _, _, _, rfl⟩, fun h => ⟨rfl, rfl, h⟩, .of_eq rfl rfl, fun _ _ _ => rfl⟩

theorem doAddVoice_voiceKeeps (sync : BitVec 7) (v : Half) (s : State) :
    Act.At (VoiceKeeps v) (doAddVoice sync v) s :=
  .bind (VoiceKeeps.seq v) (prepareFrame_voiceKeeps v s) fun _ t _ _ =>
    .bind (VoiceKeeps.seq v) (addVoice_voiceKeeps v t) fun _ u _ _ => ack_voiceKeeps v sync u

/-- Settles O26, from what its three parts keep, a halt changing the state and its cause alone. -/
theorem addVoiceFrame : Obligations.AddVoiceFrame := by
  intro sync v s t hs h
  have ht : t = (doAddVoice sync v).final s := by cases h; rfl
  obtain ⟨u, c, m, k, hu⟩ := (doAddVoice_voiceKeeps sync v s).final_but_halt
  rw [ht, hu]
  refine ⟨fun a ha => k.bytes hs a ha, ?_, k.opened⟩
  obtain ⟨_, _, _, _, _, _, _, rfl⟩ := k.registers
  exact ⟨_, _, _, _, _, _, _, _, _, rfl⟩

end Sys2Proof.Machine
end

section
/-! The checks on a reverb unit (20_memory.md R76; 44_reverb.md R290, R292). -/

namespace Sys2Proof.Machine

theorem rpbFetch_busError {r : Nat} {s : State} (h : s.words? .main 16 (s.rpbAddr r) = none) :
    rpbFetch r s = .error .busError (s.haltWith .busError) :=
  ofRead_none (read := fun s => s.words? .main 16 _) h

/-- An enabled unit with a defect halts before its phase (44_reverb.md R292). -/
theorem preUnit_defect {r : Nat} {s : State} {p : List Half} {c : HaltCause}
    (h : s.words? .main 16 (s.rpbAddr r) = some p) (hp : Rpb.enabled p = true) (hd : rpbDefect p = some c) :
    preUnit r s = .error c (s.haltWith c) := by
  unfold preUnit
  rw [Act.bind_ok (rpbFetch_ok h), if_pos hp, hd]
  rfl

theorem postUnit_badGeometry {r : Nat} {s : State} {p : List Half}
    (h : s.words? .main 16 (s.rpbAddr r) = some p) (hp : Rpb.enabled p = true) (hs : Rpb.cbSize p = 0) :
    postUnit r s = .error .badRpbGeometry (s.haltWith .badRpbGeometry) := by
  unfold postUnit
  rw [Act.bind_ok (rpbFetch_ok h), if_pos hp, if_pos hs]
  rfl

theorem rpbDefect_badGeometry {p : Rpb} (h : p.cbSize = 0) : rpbDefect p = some .badRpbGeometry := if_pos h

theorem rpbDefect_badDest {p : Rpb} (h : p.cbSize ≠ 0) (hd : 10 < (p.destId 0).toNat ∨ 10 < (p.destId 1).toNat) :
    rpbDefect p = some .badDestId := by
  rw [rpbDefect, if_neg h, if_pos hd]

/-- The coefficients are the last eight words of the block (20_memory.md R76). -/
theorem Rpb.coef_eq {p : Rpb} (h : p.length = 16) : p.coef = (List.range 8).map fun j => p.word (8 + j) := by
  refine List.ext_getElem (by simp [Rpb.coef, h]) fun i h1 h2 => ?_
  have hi : 8 + i < p.length := by simp at h2; omega
  simp [Rpb.coef, Rpb.word, hi]

/-- Settles O52: the fetch of the record, then the two checks in their order. -/
theorem reverbChecks : Obligations.ReverbChecks := by
  refine ⟨fun p hp => ?fields, fun r s h => ?unreadable, fun r s p h => ⟨?disabled, ?geometry, ?dest⟩⟩
  case fields => exact ⟨rfl, rfl, rfl, rfl, rfl, rfl, rfl, rfl, rfl, Rpb.coef_eq hp⟩
  case unreadable => exact ⟨Act.bind_error (rpbFetch_busError h), Act.bind_error (rpbFetch_busError h)⟩
  case disabled => exact fun hp => ⟨preUnit_disabled h hp, postUnit_disabled h hp⟩
  case geometry =>
    exact fun hp hs => ⟨preUnit_defect h hp (rpbDefect_badGeometry hs), postUnit_badGeometry h hp hs⟩
  case dest => exact fun hp hs hd => preUnit_defect h hp (rpbDefect_badDest hs hd)

end Sys2Proof.Machine
end

section
/-! The encodings read back (30_encoding.md R101, R106 to R116): every instruction from its own words, a command's
length from its header, and the bits that carry no field. -/

namespace Sys2Proof

/-! ### Rejections (30_encoding.md R110, R113, R115) -/

/-- `START_RENDER` without all its operand words (30_encoding.md R108, R110). -/
theorem decodeStartRender_missing {extra : Bool} (sync : BitVec 7) (voices : Half) {ops : List Word}
    (hn : ops.length < operandCount extra 0x02) :
    decodeStartRender extra sync voices ops = .error .missingOperand := by
  cases extra with
  | false =>
    match ops, hn with
    | [], _ | [_], _ | [_, _], _ => rfl
  | true =>
    match ops, hn with
    | [], _ | [_], _ | [_, _], _ | [_, _, _], _ | [_, _, _, _], _ => rfl

/-- A command whose operand words are not all there is rejected: only three opcodes have any
(30_encoding.md R106, R110). -/
theorem decodeHeader_missing {extra : Bool} {h : Word} {ops : List Word} (hb : headerBit h = true)
    (hn : ops.length < operandCount extra (headerOpcode h)) :
    decodeHeader extra h ops = .error .missingOperand := by
  by_cases h1 : headerOpcode h = 0x01
  · rw [h1] at hn
    match ops, hn with
    | [], _ | [_], _ | [_, _], _ | [_, _, _], _ | [_, _, _, _], _ => simp [decodeHeader, hb, h1]
  by_cases h2 : headerOpcode h = 0x02
  · have hs := decodeStartRender_missing (headerSync h) (headerImm h) (h2 ▸ hn)
    simp [decodeHeader, hb, h2, hs]
  by_cases h3 : headerOpcode h = 0x03
  · rw [h3] at hn
    match ops, hn with
    | [], _ => simp [decodeHeader, hb, h3]
  have h0 : operandCount extra (headerOpcode h) = 0 := by
    simp only [operandCount, h1, h2, h3, if_false]
  omega

theorem decodeHeader_notHeader {h : Word} (hb : headerBit h = false) (extra : Bool) (ops : List Word) :
    decodeHeader extra h ops = .error .notHeader := by
  simp [decodeHeader, hb]

theorem decodeControl_noAction {w : Word} (h0 : w.getLsbD 0 = false) (h1 : w.getLsbD 1 = false) :
    decodeControl w = .error .noControlAction := by
  simp only [decodeControl, h0, h1, Bool.false_eq_true, if_false]

/-! ### Bits without a field (30_encoding.md R101, R111, R115) -/

/-- The bit of a header that no field covers (30_encoding.md R101). -/
theorem headerFields_flip (h : Word) :
    headerBit (h ^^^ 0x00800000) = headerBit h ∧ headerOpcode (h ^^^ 0x00800000) = headerOpcode h ∧
      headerSync (h ^^^ 0x00800000) = headerSync h ∧ headerImm (h ^^^ 0x00800000) = headerImm h := by
  refine ⟨?bit, ?opcode, ?sync, ?imm⟩
  case bit => simp [headerBit, -BitVec.getLsbD_eq_getElem]
  case opcode => simp [headerOpcode, BitVec.extractLsb'_xor]
  case sync => simp [headerSync, BitVec.extractLsb'_xor]
  case imm => simp [headerImm, BitVec.extractLsb'_xor]

/-- A command is decoded from its header's fields alone, and from `imm16` only where the opcode gives it a meaning
or keeps it (30_encoding.md R101, R106). -/
theorem decodeHeader_congr {h h' : Word} (hb : headerBit h = headerBit h') (ho : headerOpcode h = headerOpcode h')
    (hs : headerSync h = headerSync h')
    (hi : headerOpcode h ∉ ([0x00, 0x01, 0x03, 0x10, 0x12] : List (BitVec 7)) → headerImm h = headerImm h')
    (extra : Bool) (ops : List Word) : decodeHeader extra h ops = decodeHeader extra h' ops := by
  by_cases hm : headerOpcode h ∈ ([0x00, 0x01, 0x03, 0x10, 0x12] : List (BitVec 7))
  · simp only [List.mem_cons, List.not_mem_nil, or_false] at hm
    obtain hm | hm | hm | hm | hm := hm <;> simp [decodeHeader, ← hb, ← ho, ← hs, hm]
  · simp only [decodeHeader, hb, ho, hs, hi hm]

/-- A field inside a range of bits is a field of that range. -/
theorem extractLsb'_eq_of_range {w w' : Word} {n k len : Nat} (hk : k + len ≤ n)
    (h : w.extractLsb' 0 n = w'.extractLsb' 0 n) : w.extractLsb' k len = w'.extractLsb' k len := by
  rw [← BitVec.extractLsb'_extractLsb'_of_le hk, h, BitVec.extractLsb'_extractLsb'_of_le hk]

theorem getLsbD_eq_of_range {w w' : Word} {n k : Nat} (hk : k < n) (h : w.extractLsb' 0 n = w'.extractLsb' 0 n) :
    w.getLsbD k = w'.getLsbD k := by
  simpa [hk] using congrArg (BitVec.getLsbD · k) h

theorem decodeControl_congr {w w' : Word} (h : w.extractLsb' 0 2 = w'.extractLsb' 0 2) :
    decodeControl w = decodeControl w' := by
  unfold decodeControl
  rw [getLsbD_eq_of_range (by decide : 0 < 2) h, getLsbD_eq_of_range (by decide : 1 < 2) h]

/-! ### The obligations -/

/-- Settles O1, instruction by instruction, from the fields of a word put together. -/
theorem decodeEncode : Obligations.DecodeEncode := by
  intro i extra rest hw
  cases i with
  | startRender sync voices frames vol outL outR =>
    cases extra <;>
      simp [Instr.context, encode, decode, decodeHeader, decodeStartRender, extract_append_low, extract_append_high]
  | sync batch mask => simp [Instr.context, encode, decode, extract_sync_batch, extract_sync_mask]
  | sync2 maskHi maskLo => simp [Instr.context, encode, decode, extract_append_low, extract_append_high]
  | reserved opcode sync imm =>
    have hop : opcode ∉ definedOpcodes := by simpa [Instr.wellFormed] using hw
    have hdec := decodeHeader_reserved (extra := extra) (ops := rest) (headerBit_encodeHeader opcode sync imm)
      (by rwa [headerOpcode_encodeHeader])
    simpa [Instr.context, encode, decode] using hdec
  | sync0 | cont | reset => rfl
  | nop _ | setup _ _ _ _ _ _ | setSampleBase _ _ | prepareFrame _ | addVoice _ _ | finalizeFrame _ =>
    simp [Instr.context, encode, decode, decodeHeader]

/-- Settles O2: the operand words a header asks for, split off from what follows them, or missing. -/
theorem commandLength : Obligations.CommandLength := by
  refine ⟨fun extra h ops => ⟨?whole, ?notHeader, ?missing⟩, fun w rest hw => ?light,
    fun w rest h0 h1 => ?control⟩
  case whole =>
    rintro ⟨hb, hn⟩
    obtain ⟨i, hi, hdec⟩ := decode_header_whole hb (List.length_take_of_le hn)
    have hops := hdec (ops.drop (operandCount extra (headerOpcode h)))
    rw [List.take_append_drop] at hops
    exact ⟨i, hi, hops⟩
  case notHeader => exact fun hb => decodeHeader_notHeader hb extra ops
  case missing => exact fun hb hn => decodeHeader_missing hb hn
  case light => exact if_neg hw
  case control => exact congrArg (Except.map (·, rest)) (decodeControl_noAction h0 h1)

/-- Settles O4: no decoder reads the ignored bits, and a reserved opcode halts whatever its `imm16`. -/
theorem ignoredBits : Obligations.IgnoredBits := by
  refine ⟨fun extra h ops => ?flip, fun w w' rest hw => ?sync, fun w w' rest hw => ?control,
    fun extra h h' ops hb ho hs => ⟨fun hm => ?imm, fun hset hm => ?reserved⟩⟩
  case flip =>
    obtain ⟨hb, ho, hs, hi⟩ := headerFields_flip h
    exact decodeHeader_congr hb ho hs (fun _ => hi) extra ops
  case sync =>
    have hbatch := extractLsb'_eq_of_range (k := 16) (len := 4) (by decide) hw
    have hmask := extractLsb'_eq_of_range (k := 0) (len := 16) (by decide) hw
    simp only [decode, hbatch, hmask]
  case control => exact congrArg (Except.map (·, rest)) (decodeControl_congr hw)
  case imm => exact decodeHeader_congr hb ho hs (fun hn => absurd hm hn) extra ops
  case reserved =>
    exact ⟨_, _, decodeHeader_reserved hset hm,
      decodeHeader_reserved (hb.symm.trans hset) (fun hm' => hm (ho ▸ hm')), fun _ => rfl⟩

/-- Settles O3: each worked encoding is the encoder's, so it reads back. -/
theorem workedEncodings : Obligations.WorkedEncodings :=
  ⟨decodeEncode (.nop 5) false [] rfl,
    decodeEncode (.setup 0 0x1000 0x2000 0x2200 0x2500 0x3000) false [] rfl,
    decodeEncode (.startRender 0 16 1 0x1000 0x8000 0x9000) false [] rfl,
    decodeEncode (.addVoice 1 3) false [] rfl,
    decodeEncode (.sync 0 0xFFFF) false [] rfl,
    decodeEncode (.sync 2 0x0005) false [] rfl,
    decodeEncode (.sync2 0x8001 0x00FF) false [] rfl⟩

end Sys2Proof
end

section
/-! Every word of the event FIFO is an event word (30_encoding.md R118; 60_exceptions.md R320, R321): the AVM pushes
acknowledgments, `FRAME_DONE` and `RENDER_DONE` and nothing else. -/

namespace Sys2Proof.Machine

/-! ### The three kinds of event word -/

/-- An event word as a number: a kind, and 16 bits of payload (30_encoding.md R118). -/
theorem eventWord_of_toNat {w : Word} {kind payload : Nat} (hw : w.toNat = kind * 2 ^ 28 + payload)
    (hk : kind = 1 ∨ kind = 2 ∨ kind = 3) (hp : payload < 2 ^ 16) : eventWord w = true := by
  have hkind : w.extractLsb' 28 4 = BitVec.ofNat 4 kind := by
    apply BitVec.eq_of_toNat_eq
    simp only [BitVec.extractLsb'_toNat, BitVec.toNat_ofNat, Nat.shiftRight_eq_div_pow, hw]
    omega
  have hzero : w.extractLsb' 16 12 = 0#12 := by
    apply BitVec.eq_of_toNat_eq
    simp only [BitVec.extractLsb'_toNat, BitVec.toNat_ofNat, Nat.shiftRight_eq_div_pow, hw]
    omega
  obtain rfl | rfl | rfl := hk <;> simp [eventWord, hkind, hzero]

theorem eventWord_ackWord (sync : BitVec 7) : eventWord (ackWord sync) = true := by
  have hs := sync.isLt
  refine eventWord_of_toNat (kind := 1) (payload := sync.toNat) ?_ (.inl rfl) (by omega)
  simp only [ackWord, BitVec.toNat_add, BitVec.toNat_setWidth, BitVec.ofNat_eq_ofNat, BitVec.toNat_ofNat]
  omega

theorem eventWord_frameDoneWord (frame : Half) : eventWord (frameDoneWord frame) = true := by
  have hf := frame.isLt
  refine eventWord_of_toNat (kind := 2) (payload := frame.toNat) ?_ (.inr (.inl rfl)) hf
  simp only [frameDoneWord, BitVec.toNat_add, BitVec.toNat_setWidth, BitVec.ofNat_eq_ofNat, BitVec.toNat_ofNat]
  omega

theorem eventWord_renderDoneWord : eventWord renderDoneWord = true :=
  eventWord_of_toNat (kind := 3) (payload := 0) rfl (.inr (.inr rfl)) (by decide)

/-! ### What keeps the FIFO's words event words -/

/-- A FIFO of event words stays one. -/
def KeepsEvents (s t : State) : Prop := s.eventInv = true → t.eventInv = true

theorem KeepsEvents.seq (a b c : State) (h : KeepsEvents a b) (k : KeepsEvents b c) : KeepsEvents a c := k ∘ h

theorem KeepsEvents.of_eq {s t : State} (h : t.evt = s.evt) : KeepsEvents s t := by
  unfold KeepsEvents State.eventInv
  rw [h]
  exact id

theorem KeepsEvents.of_append {s t : State} {w : Word} (hw : eventWord w = true) (h : t.evt = s.evt ++ [w]) :
    KeepsEvents s t := by
  intro hs
  unfold State.eventInv at hs ⊢
  simp [h, List.all_append, hs, hw]

/-- An `EVT` read takes the head of the FIFO (60_exceptions.md R321). -/
theorem popEvent_keepsEvents (s : State) : KeepsEvents s s.popEvent := fun hs =>
  List.all_eq_true.mpr fun w hw => List.all_eq_true.mp hs w (List.mem_of_mem_tail hw)

theorem ack_keepsEvents (sync : BitVec 7) (s : State) : Act.At KeepsEvents (ack sync) s :=
  .modify (.of_append (eventWord_ackWord sync) rfl)

theorem frameDone_keepsEvents (s : State) : KeepsEvents s s.frameDone := by
  unfold State.frameDone
  split
  · exact id
  · exact .of_append (eventWord_frameDoneWord _) rfl

theorem prepareFrame_keepsEvents (s : State) : Act.At KeepsEvents prepareFrame s := by
  refine (prepareFrame_at s).mono fun a b h => ?_
  obtain ⟨_, _, _, _, rfl⟩ := h
  exact .of_eq rfl

theorem addVoice_keepsEvents (v : Half) (s : State) : Act.At KeepsEvents (addVoice v) s := by
  refine (addVoice_at v s).mono fun a b h => ?_
  obtain ⟨_, _, rfl⟩ := h
  exact .of_eq rfl

theorem finalizeFrame_keepsEvents (s : State) : Act.At KeepsEvents finalizeFrame s := by
  refine (finalizeFrame_at s).mono fun a b h => ?_
  obtain ⟨_, _, _, _, _, _, rfl⟩ := h
  exact .of_eq rfl

theorem renderParts_keepsEvents : RenderParts KeepsEvents where
  refl _ := id
  trans := KeepsEvents.seq
  prepare := prepareFrame_keepsEvents
  voice := addVoice_keepsEvents
  finalize := finalizeFrame_keepsEvents
  nextVoice _ := .of_eq rfl
  frameDone := frameDone_keepsEvents
  nextFrame _ := .of_eq rfl
  renderDone s := .of_append eventWord_renderDoneWord s.renderDone_evt

/-! ### Commands -/

theorem loadTable_keepsEvents (n : Nat) (a : Addr) (read : Tables → List Sample)
    (put : Tables → List Sample → Tables) (s : State) : Act.At KeepsEvents (loadTable n a read put) s := by
  obtain ⟨_, -, ⟨-, h⟩ | ⟨-, h⟩⟩ := loadTable_cases n a read put s
  · exact .ok h (.of_eq rfl)
  · exact .inr ⟨_, _, by decide, h, .of_eq rfl⟩

theorem loadSineUnlessLight_keepsEvents (a : Addr) (s : State) :
    Act.At KeepsEvents (loadSineUnlessLight a) s := by
  refine .get ?_
  split
  · exact .pure _ id
  · exact loadTable_keepsEvents _ _ _ _ s

theorem doSetup_keepsEvents (sync : BitVec 7) (vpb resample pattern afc rpb : Addr) (s : State) :
    Act.At KeepsEvents (doSetup sync vpb resample pattern afc rpb) s := by
  refine .after KeepsEvents.seq (.of_eq rfl) ?_
  refine .bind KeepsEvents.seq (loadTable_keepsEvents _ _ _ _ _) fun _ t _ _ => ?_
  refine .bind KeepsEvents.seq (loadTable_keepsEvents _ _ _ _ _) fun _ t _ _ => ?_
  refine .bind KeepsEvents.seq (loadSineUnlessLight_keepsEvents _ _) fun _ t _ _ => ?_
  refine .bind KeepsEvents.seq (loadTable_keepsEvents _ _ _ _ _) fun _ t _ _ => ?_
  exact .after KeepsEvents.seq (.of_eq rfl) (ack_keepsEvents _ _)

theorem executeCommand_keepsEvents (i : Instr) (s : State) : Act.At KeepsEvents (executeCommand i) s := by
  cases i with
  | nop sync => exact ack_keepsEvents sync s
  | setup sync vpb resample pattern afc rpb => exact doSetup_keepsEvents _ _ _ _ _ _ s
  | startRender _ voices frames vol outL outR =>
    refine .get ?_
    split
    · exact .halt (by decide) id
    · exact .after KeepsEvents.seq (.of_eq rfl) (renderParts_keepsEvents.renderAudio _)
  | setSampleBase sync base =>
    refine .get ?_
    split
    · exact .halt (by decide) id
    · exact .after KeepsEvents.seq (.of_eq rfl) (ack_keepsEvents _ _)
  | prepareFrame sync =>
    exact .bind KeepsEvents.seq (prepareFrame_keepsEvents s) fun _ _ _ _ => ack_keepsEvents _ _
  | addVoice sync voice =>
    exact .bind KeepsEvents.seq (prepareFrame_keepsEvents s) fun _ _ _ _ =>
      .bind KeepsEvents.seq (addVoice_keepsEvents _ _) fun _ _ _ _ => ack_keepsEvents _ _
  | finalizeFrame sync =>
    exact .bind KeepsEvents.seq (finalizeFrame_keepsEvents s) fun _ _ _ _ => ack_keepsEvents _ _
  | reserved _ _ _ | sync _ _ | sync2 _ _ | sync0 | cont | reset => exact .halt (by decide) id

/-! ### Steps -/

theorem portParts_keepsEvents : PortParts KeepsEvents where
  trans := KeepsEvents.seq
  command := executeCommand_keepsEvents
  render := renderParts_keepsEvents.renderAudio
  bookkeeping _ _ _ _ _ _ _ := .of_eq rfl

/-- A reset empties the FIFO (60_exceptions.md R321). -/
theorem resetAvm_keepsEvents (s : State) : KeepsEvents s s.resetAvm := fun _ => rfl

theorem hostAccess_keepsEvents {a : HostAccess} {s t : State} (h : hostAccess a s = .next t) :
    KeepsEvents s t := by
  obtain ⟨o, w, -, hw⟩ | ⟨-, rfl⟩ | ⟨r, rfl⟩ | ⟨sp, x, b, -, rfl⟩ | ⟨-, rfl⟩ := hostAccess_cases h
  · obtain hw | rfl := portParts_keepsEvents.regWrite hw
    · exact hw
    · exact resetAvm_keepsEvents s
  · exact popEvent_keepsEvents s
  · exact .of_eq rfl
  · cases sp <;> exact .of_eq rfl
  · exact resetAvm_keepsEvents s

/-- Settles O55, from what each access of the host pushes. -/
theorem eventWordsKept : Obligations.EventWordsKept := by
  intro s t hs h
  cases hh : s.host with
  | nil => cases (step_nil hh).symm.trans h; exact hs
  | cons a rest => exact hostAccess_keepsEvents ((step_cons hh).symm.trans h) hs

end Sys2Proof.Machine
end

section
/-! A render as the state machine sees it: how far each part of the rendering loop moves the cursors
(40_commands.md R153; 41_frame_ops.md R171, R174, R178). -/

namespace Sys2Proof.Machine

variable {α β : Type}

/-! ### Pieces -/

theorem Act.At.of_ok {T : State → State → Prop} {act : Act α} {s t : State} {a : α} (h : Act.At T act s)
    (ha : act s = .ok a t) : T s t := by
  obtain ⟨b, u, hb, hu⟩ | ⟨c, u, -, hb, -⟩ := h
  · cases hb.symm.trans ha
    exact hu
  · cases hb.symm.trans ha

/-- Two sequences with the same first part agree where their second parts agree on what it leaves. -/
theorem Act.bind_congr {act : Act α} {f g : α → Act β} {s : State}
    (h : ∀ a t, act s = .ok a t → f a t = g a t) : (act >>= f) s = (act >>= g) s := by
  rw [Act.bind_apply, Act.bind_apply]
  cases ha : act s with
  | ok a t => exact h a t ha
  | error c t => rfl

theorem Act.bind_congr_left {act act' : Act α} {f : α → Act β} {s : State} (h : act s = act' s) :
    (act >>= f) s = (act' >>= f) s := by
  rw [Act.bind_apply, Act.bind_apply, h]

/-! ### The voices of a frame -/

/-- A cursor below its end goes on by one without wrapping. -/
theorem toNat_add_one_of_lt {x y : Half} (h : x.toNat < y.toNat) : (x + 1).toNat = x.toNat + 1 := by
  have hy := y.isLt
  rw [BitVec.toNat_add]
  exact Nat.mod_eq_of_lt (by simp; omega)

/-- What the loop over the voices touches: what mixing does, and the voice cursor (41_frame_ops.md R171). -/
def TouchesVoices (s t : State) : Prop :=
  ∃ b m v, t = { s with buses := b, main := m, cur := { s.cur with curVoice := v } }

theorem TouchesVoices.refl (s : State) : TouchesVoices s s := ⟨_, _, _, rfl⟩

theorem TouchesVoices.seq (a b c : State) : TouchesVoices a b → TouchesVoices b c → TouchesVoices a c := by
  rintro ⟨_, _, _, rfl⟩ ⟨_, _, _, rfl⟩
  exact ⟨_, _, _, rfl⟩

theorem TouchesVoices.prepared_eq {s t : State} (h : TouchesVoices s t) : t.prepared = s.prepared := by
  obtain ⟨_, _, _, rfl⟩ := h
  rfl

theorem visitVoice_touchesVoices (s : State) : Act.At TouchesVoices visitVoice s :=
  (visitVoice_at s).mono fun _ _ ⟨b, m, h⟩ => ⟨b, m, _, h⟩

theorem renderVoices_touchesVoices (n : Nat) (s : State) : Act.At TouchesVoices (renderVoices n) s := by
  induction n generalizing s with
  | zero => exact .pure _ (.refl s)
  | succ n ih =>
    refine .get ?_
    split
    · exact .pure _ (.refl s)
    · exact .bind TouchesVoices.seq (visitVoice_touchesVoices s) fun _ t _ _ =>
        .after TouchesVoices.seq ⟨_, _, _, rfl⟩ (ih _)

/-- The voices of a frame yield at a locked voice of the frame (41_frame_ops.md R171). -/
theorem renderVoices_yielded {n : Nat} {s t : State} (hn : n ≤ s.cur.voicesLeft)
    (h : renderVoices n s = .ok true t) :
    t.cur.maxUnlocked ≤ t.cur.curVoice.toNat ∧ t.cur.curVoice.toNat < t.cur.voicesPerFrame.toNat := by
  induction n generalizing s with
  | zero => cases h
  | succ n ih =>
    have hleft : n + 1 ≤ s.cur.voicesPerFrame.toNat - s.cur.curVoice.toNat := hn
    have hv : s.cur.curVoice.toNat < s.cur.voicesPerFrame.toNat := by omega
    unfold renderVoices at h
    rw [Act.get_bind] at h
    split at h
    · rename_i hg
      cases h
      exact ⟨hg, hv⟩
    · obtain ⟨_, u, hu, h⟩ := Act.bind_eq_ok.mp h
      obtain ⟨b, m, rfl⟩ := (visitVoice_at s).of_ok hu
      refine ih ?_ h
      have hnext := toNat_add_one_of_lt hv
      show n ≤ s.cur.voicesPerFrame.toNat - (s.cur.curVoice + 1).toNat
      omega

/-! ### A frame opened and closed -/

theorem prepareFrame_prepared {s t : State} {a : Unit} (h : prepareFrame s = .ok a t) : t.prepared = true := by
  unfold prepareFrame at h
  rw [Act.get_bind] at h
  split at h
  · rename_i hp
    cases h
    exact hp
  · split at h
    · cases h
    · obtain ⟨_, u, -, h⟩ := Act.bind_eq_ok.mp h
      obtain ⟨_, v, -, h⟩ := Act.bind_eq_ok.mp h
      cases h
      rfl

/-- A frame that was closed is finalized, then the cursors go to the next (41_frame_ops.md R171). -/
theorem closeFrame_ok {s t : State} {a : Unit} (h : closeFrame s = .ok a t) :
    ∃ u, TouchesFinalize s.frameDone u ∧ t = u.nextFrame := by
  unfold closeFrame at h
  rw [Act.modify_bind] at h
  obtain ⟨_, u, hu, h⟩ := Act.bind_eq_ok.mp h
  cases h
  exact ⟨u, (finalizeFrame_at _).of_ok hu, rfl⟩

end Sys2Proof.Machine
end

section
/-! Every step keeps the invariant of the state machine (40_commands.md R153; 10_state.md R33, R35): a command runs
between two renders, a render ends in `WAITING` or yields, and a halt leaves no more than the gate to look at. -/

namespace Sys2Proof.Machine

variable {α β : Type}

/-! ### The invariant by states -/

/-- Between two renders: what the invariant asks of `WAITING` and `WRITING_CMD` (40_commands.md R153). -/
structure State.Between (s : State) : Prop where
  frames : s.cur.curFrame = s.cur.reqFrames
  cause : s.haltCause = .none
  gate : s.cur.maxUnlocked ≤ 256

theorem State.Between.keep {s t : State} (h : s.Between) (hcur : t.cur = s.cur) (hcause : t.haltCause = s.haltCause) :
    t.Between :=
  ⟨hcur ▸ h.frames, hcause.trans h.cause, hcur ▸ h.gate⟩

theorem State.protocolInv_between {s : State} (hm : s.mode = .waiting ∨ s.mode = .writingCmd) :
    s.protocolInv = true ↔ s.Between := by
  have hand : s.Between ↔ s.cur.curFrame = s.cur.reqFrames ∧ s.haltCause = .none ∧ s.cur.maxUnlocked ≤ 256 :=
    ⟨fun h => ⟨h.frames, h.cause, h.gate⟩, fun ⟨hf, hc, hg⟩ => ⟨hf, hc, hg⟩⟩
  obtain hm | hm := hm <;> simp [State.protocolInv, hm, hand, and_assoc]

theorem State.protocolInv_gate {s : State} (h : s.protocolInv = true) : s.cur.maxUnlocked ≤ 256 := by
  simp only [State.protocolInv, Bool.and_eq_true, decide_eq_true_eq] at h
  exact h.2

/-- A halt asks nothing of the cursors but the gate's bound (10_state.md R33, R35). -/
theorem State.protocolInv_haltWith {s : State} {c : HaltCause} (hc : c ≠ .none) (hg : s.cur.maxUnlocked ≤ 256) :
    (s.haltWith c).protocolInv = true := by
  simp [State.protocolInv, hc, hg]

/-- A render with `k` frames left, its current one included: what holds of it wherever it stands
(41_frame_ops.md R171). -/
structure State.Renders (s : State) (k : Nat) : Prop where
  mode : s.mode = .rendering
  cause : s.haltCause = .none
  setup : s.setupDone = true
  output : s.outValid = true
  gate : s.cur.maxUnlocked ≤ 256
  frames : s.cur.curFrame.toNat + k = s.cur.reqFrames.toNat

theorem State.renders_of_protocolInv {s : State} (h : s.protocolInv = true) (hm : s.mode = .rendering) :
    s.Renders s.cur.framesLeft := by
  simp only [State.protocolInv, hm, Bool.and_eq_true, decide_eq_true_eq, reduceCtorEq, false_iff, ne_eq,
    Decidable.not_not] at h
  obtain ⟨⟨⟨⟨⟨⟨⟨hf, -⟩, hs⟩, ho⟩, -⟩, -⟩, hc⟩, hg⟩ := h
  exact ⟨hm, hc, hs, ho, hg, Nat.add_sub_cancel' (Nat.le_of_lt hf)⟩

/-- A render that yielded at a locked voice of an open frame meets the invariant (41_frame_ops.md R171). -/
theorem State.Renders.protocolInv_yielded {s : State} {k : Nat} (h : s.Renders (k + 1)) (hp : s.prepared = true)
    (hg : s.cur.maxUnlocked ≤ s.cur.curVoice.toNat) (hv : s.cur.curVoice.toNat < s.cur.voicesPerFrame.toNat) :
    s.protocolInv = true := by
  have hf := h.frames
  have hlt : s.cur.curFrame.toNat < s.cur.reqFrames.toNat := by omega
  simp [State.protocolInv, h.mode, h.cause, h.setup, h.output, h.gate, hp, hg, hv, hlt]

/-- With no frame left the render is done, and the machine waits (41_frame_ops.md R173). -/
theorem State.Renders.protocolInv_done {s : State} (h : s.Renders 0) : s.renderDone.protocolInv = true :=
  (State.protocolInv_between (.inl rfl)).mpr ⟨BitVec.eq_of_toNat_eq h.frames, h.cause, h.gate⟩

/-- The parts of a frame keep the render where it stands, but for the voice. -/
theorem State.Renders.prepared {s t : State} {k : Nat} (h : s.Renders k) (ht : TouchesPrepare s t) : t.Renders k := by
  obtain ⟨_, _, _, _, rfl⟩ := ht
  exact ⟨h.mode, h.cause, h.setup, h.output, h.gate, h.frames⟩

theorem State.Renders.voices {s t : State} {k : Nat} (h : s.Renders k) (ht : TouchesVoices s t) : t.Renders k := by
  obtain ⟨_, _, _, rfl⟩ := ht
  exact ⟨h.mode, h.cause, h.setup, h.output, h.gate, h.frames⟩

/-- A frame closed is a frame less to render (41_frame_ops.md R171). -/
theorem State.Renders.closed {s t : State} {k : Nat} {a : Unit} (h : s.Renders (k + 1))
    (ht : closeFrame s = .ok a t) : t.Renders k := by
  obtain ⟨_, ⟨_, _, _, _, _, _, rfl⟩, rfl⟩ := closeFrame_ok ht
  have hf := h.frames
  have hnext := toNat_add_one_of_lt (x := s.cur.curFrame) (y := s.cur.reqFrames) (by omega)
  refine ⟨?_, ?_, ?_, ?_, Nat.zero_le _, ?_⟩
  · simpa using h.mode
  · simpa using h.cause
  · simpa using h.setup
  · simpa using h.output
  · simp only [State.nextFrame_cur, State.frameDone_cur, hnext]
    omega

/-! ### What an operation leaves -/

/-- The state an operation leaves, halted or not, meets the invariant. -/
def LeavesProtocol (_ t : State) : Prop := t.protocolInv = true

theorem LeavesProtocol.seq (a b c : State) (_ : LeavesProtocol a b) (h : LeavesProtocol b c) : LeavesProtocol a c := h

/-- The gate's bound is kept, which is all that a halt asks for. -/
def KeepsGate (s t : State) : Prop := s.cur.maxUnlocked ≤ 256 → t.cur.maxUnlocked ≤ 256

theorem KeepsGate.seq (a b c : State) (h : KeepsGate a b) (k : KeepsGate b c) : KeepsGate a c := k ∘ h

/-- A halt leaves the invariant where the gate has its bound. -/
theorem LeavesProtocol.halted {act : Act α} {s t : State} {c : HaltCause} (hc : c ≠ .none)
    (h : act s = .error c (t.haltWith c)) (hg : t.cur.maxUnlocked ≤ 256) : Act.At LeavesProtocol act s :=
  .inr ⟨c, t.haltWith c, hc, h, State.protocolInv_haltWith hc hg⟩

/-- An operation in the middle of a rule may break the invariant, as long as the rest of the rule restores it and a
halt finds the gate in its bound. -/
theorem LeavesProtocol.bind {T : State → State → Prop} {act : Act α} {f : α → Act β} {s : State}
    (h : Act.At T act s) (hgate : ∀ t, T s t → t.cur.maxUnlocked ≤ 256)
    (hf : ∀ a t, act s = .ok a t → T s t → Act.At LeavesProtocol (f a) t) :
    Act.At LeavesProtocol (act >>= f) s := by
  obtain ⟨a, t, ha, ht⟩ | ⟨c, t, hc, ha, ht⟩ := h
  · unfold Act.At
    rw [Act.bind_ok ha]
    exact hf a t ha ht
  · exact LeavesProtocol.halted hc (Act.bind_error ha) (hgate t ht)

/-! ### The render -/

theorem closeFrame_keepsGate (s : State) : Act.At KeepsGate closeFrame s := by
  refine .after KeepsGate.seq (fun h => by simpa using h) (.bind KeepsGate.seq ?_ fun _ t _ _ => .modify ?_)
  · exact (finalizeFrame_at _).mono fun a b ⟨_, _, _, _, _, _, h⟩ hg => h ▸ hg
  · exact fun _ => Nat.zero_le _

theorem renderFrames_leavesProtocol (n : Nat) {s : State} (h : s.Renders n) :
    Act.At LeavesProtocol (renderFrames n) s := by
  induction n generalizing s with
  | zero => exact .modify h.protocolInv_done
  | succ n ih =>
    refine LeavesProtocol.bind (prepareFrame_at s) (fun t ht => (h.prepared ht).gate) fun _ t hok ht => .get ?_
    have ht' := h.prepared ht
    refine LeavesProtocol.bind (renderVoices_touchesVoices _ t) (fun u hu => (ht'.voices hu).gate)
      fun yielded u hyield hu => ?_
    have hu' := ht'.voices hu
    cases yielded with
    | true =>
      have hp : u.prepared = true := hu.prepared_eq.trans (prepareFrame_prepared hok)
      obtain ⟨hg, hv⟩ := renderVoices_yielded (Nat.le_refl _) hyield
      exact .pure _ (hu'.protocolInv_yielded hp hg hv)
    | false =>
      exact LeavesProtocol.bind (closeFrame_keepsGate u) (fun v hv => hv hu'.gate) fun _ v hv _ => ih (hu'.closed hv)

/-- The rendering loop ends in `WAITING`, yields, or halts (41_frame_ops.md R171). -/
theorem renderAudio_leavesProtocol {s : State} (h : s.Renders s.cur.framesLeft) :
    Act.At LeavesProtocol renderAudio s := .get (renderFrames_leavesProtocol _ h)

/-! ### Commands -/

/-- The cursors, the state and the cause are kept. -/
def KeepsProgress (s t : State) : Prop := t.mode = s.mode ∧ t.cur = s.cur ∧ t.haltCause = s.haltCause

theorem KeepsProgress.refl (s : State) : KeepsProgress s s := ⟨rfl, rfl, rfl⟩

theorem KeepsProgress.seq (a b c : State) : KeepsProgress a b → KeepsProgress b c → KeepsProgress a c :=
  fun ⟨hm, hc, hh⟩ ⟨km, kc, kh⟩ => ⟨km.trans hm, kc.trans hc, kh.trans hh⟩

/-- What keeps the progress keeps the invariant in `WAITING`. -/
theorem KeepsProgress.waiting {s t : State} (h : KeepsProgress s t) (hs : s.protocolInv = true)
    (hm : s.mode = .waiting) : t.protocolInv = true ∧ t.mode = .waiting := by
  obtain ⟨km, kc, kh⟩ := h
  have hb := (State.protocolInv_between (.inl hm)).mp hs
  exact ⟨(State.protocolInv_between (.inl (km.trans hm))).mpr (hb.keep kc kh), km.trans hm⟩

theorem ack_keepsProgress (sync : BitVec 7) (s : State) : Act.At KeepsProgress (ack sync) s := .modify (.refl s)

theorem prepareFrame_keepsProgress (s : State) : Act.At KeepsProgress prepareFrame s :=
  (prepareFrame_at s).mono fun _ _ ⟨_, _, _, _, h⟩ => h ▸ .refl _

theorem addVoice_keepsProgress (v : Half) (s : State) : Act.At KeepsProgress (addVoice v) s :=
  (addVoice_at v s).mono fun _ _ ⟨_, _, h⟩ => h ▸ .refl _

theorem finalizeFrame_keepsProgress (s : State) : Act.At KeepsProgress finalizeFrame s :=
  (finalizeFrame_at s).mono fun _ _ ⟨_, _, _, _, _, _, h⟩ => h ▸ .refl _

/-- Every command but `START_RENDER` keeps the cursors and the state it meets (40_commands.md R153). -/
theorem executeCommand_keepsProgress {i : Instr} (h : ∀ y v f o l r, i ≠ .startRender y v f o l r) (s : State) :
    Act.At KeepsProgress (executeCommand i) s := by
  cases i with
  | nop sync => exact ack_keepsProgress sync s
  | setup sync vpb resample pattern afc rpb =>
    exact (doSetup_touchesSetup _ _ _ _ _ _ s).mono fun _ _ ⟨_, _, _, _, _, _, h, _⟩ => h ▸ .refl _
  | startRender y v f o l r => exact absurd rfl (h y v f o l r)
  | setSampleBase sync base =>
    refine .get ?_
    split
    · exact .halt (by decide) (.refl s)
    · exact .after KeepsProgress.seq (.refl s) (ack_keepsProgress _ _)
  | prepareFrame sync =>
    exact .bind KeepsProgress.seq (prepareFrame_keepsProgress s) fun _ _ _ _ => ack_keepsProgress _ _
  | addVoice sync voice =>
    exact .bind KeepsProgress.seq (prepareFrame_keepsProgress s) fun _ _ _ _ =>
      .bind KeepsProgress.seq (addVoice_keepsProgress _ _) fun _ _ _ _ => ack_keepsProgress _ _
  | finalizeFrame sync =>
    exact .bind KeepsProgress.seq (finalizeFrame_keepsProgress s) fun _ _ _ _ => ack_keepsProgress _ _
  | reserved _ _ _ | sync _ _ | sync2 _ _ | sync0 | cont | reset => exact .halt (by decide) (.refl s)

/-- A command executed in `WAITING` leaves the invariant: `START_RENDER` by its render, the others by what they
keep. -/
theorem executeCommand_leavesProtocol (i : Instr) {s : State} (h : s.protocolInv = true) (hm : s.mode = .waiting) :
    Act.At LeavesProtocol (executeCommand i) s := by
  have hb := (State.protocolInv_between (.inl hm)).mp h
  by_cases hi : ∃ y v f o l r, i = .startRender y v f o l r
  · obtain ⟨y, v, f, o, l, r, rfl⟩ := hi
    refine .get ?_
    split
    · exact LeavesProtocol.halted (by decide) rfl hb.gate
    · rename_i hs
      have hs' : s.setupDone = true := by simpa using hs
      have hr : (s.startRender v f o l r).Renders f.toNat := ⟨rfl, hb.cause, hs', rfl, Nat.zero_le _, Nat.zero_add _⟩
      exact renderAudio_leavesProtocol hr
  · refine (executeCommand_keepsProgress (fun y v f o l r hn => hi ⟨y, v, f, o, l, r, hn⟩) s).imp ?_
    exact fun t ht => (ht.waiting h hm).1

/-- The fetch of a command touches the buffer alone (40_commands.md R135). -/
theorem fetchParts_keepsProgress : FetchParts KeepsProgress where
  refl := .refl
  trans := .seq
  pop := .refl
  pending s _ := .refl s

theorem dispatchLoop_leavesProtocol (n : Nat) {s : State} (h : s.protocolInv = true) :
    Act.At LeavesProtocol (dispatchLoop n) s := by
  induction n generalizing s with
  | zero => exact .pure _ h
  | succ n ih =>
    refine .get ?_
    split
    · rename_i hd
      simp only [State.mayDispatch, Bool.and_eq_true, decide_eq_true_eq] at hd
      obtain ⟨-, hm⟩ := hd
      refine LeavesProtocol.bind (fetchParts_keepsProgress.fetchCommand s)
        (fun t ht => State.protocolInv_gate (ht.waiting h hm).1) fun i t _ ht => ?_
      obtain ⟨ht, hm'⟩ := ht.waiting h hm
      exact .bind LeavesProtocol.seq (executeCommand_leavesProtocol i ht hm') fun _ u _ hu => ih hu
    · exact .pure _ h

theorem runPendingCommands_leavesProtocol {s : State} (h : s.protocolInv = true) :
    Act.At LeavesProtocol runPendingCommands s := .get (dispatchLoop_leavesProtocol _ h)

/-! ### Words and accesses -/

theorem bufPush_keepsProgress (w : Word) (s : State) : Act.At KeepsProgress (bufPush w) s := by
  refine .get ?_
  split
  · exact .halt (by decide) (.refl s)
  · exact .set (.refl s)

/-- A word into the buffer: the rest of the rule runs from the same cursors and the same state. -/
theorem LeavesProtocol.afterPush {f : Unit → Act β} {w : Word} {s : State} (hg : s.cur.maxUnlocked ≤ 256)
    (hf : ∀ t, KeepsProgress s t → Act.At LeavesProtocol (f ()) t) :
    Act.At LeavesProtocol (bufPush w >>= f) s :=
  LeavesProtocol.bind (bufPush_keepsProgress w s) (fun _ ⟨_, hc, _⟩ => hc ▸ hg) fun _ t _ ht => hf t ht

theorem headerWord_leavesProtocol (w : Word) {s : State} (h : s.Between) :
    Act.At LeavesProtocol (headerWord w) s := by
  refine LeavesProtocol.afterPush h.gate fun t ⟨_, hc, hh⟩ => .get ?_
  have ht : t.Between := h.keep hc hh
  dsimp only
  split
  · exact runPendingCommands_leavesProtocol (s := t.commandComplete)
      ((State.protocolInv_between (.inl rfl)).mpr (ht.keep rfl rfl))
  · exact .set ((State.protocolInv_between (.inr rfl)).mpr (ht.keep rfl rfl))

theorem operandWord_leavesProtocol (w : Word) {s : State} (h : s.Between) (hm : s.mode = .writingCmd) :
    Act.At LeavesProtocol (operandWord w) s := by
  refine LeavesProtocol.afterPush h.gate fun t ⟨km, hc, hh⟩ => ?_
  have ht : t.Between := h.keep hc hh
  refine .bind LeavesProtocol.seq
    (.modify ((State.protocolInv_between (.inr (km.trans hm))).mpr ht)) fun _ u hu _ => .get ?_
  cases hu
  split
  · exact runPendingCommands_leavesProtocol (s := State.commandComplete _)
      ((State.protocolInv_between (.inl rfl)).mpr (ht.keep rfl rfl))
  · exact .pure _ ((State.protocolInv_between (.inr (km.trans hm))).mpr ht)

theorem doContinue_leavesProtocol {s : State} (h : s.protocolInv = true) : Act.At LeavesProtocol doContinue s := by
  refine .get ?_
  split
  · exact .pure _ h
  · refine .bind LeavesProtocol.seq (T := LeavesProtocol) (.set h) fun _ t _ ht => ?_
    split
    · exact runPendingCommands_leavesProtocol ht
    · exact .pure _ ht

theorem resumeRender_leavesProtocol {s : State} (h : s.Renders s.cur.framesLeft) :
    Act.At LeavesProtocol resumeRender s := by
  refine .bind LeavesProtocol.seq (renderAudio_leavesProtocol h) fun _ t _ ht => .get ?_
  split
  · exact runPendingCommands_leavesProtocol ht
  · exact .pure _ ht

/-- A sync word moves masks and gate alone, and the gate no further than its bound (40_commands.md R146 to R148;
10_state.md R33). -/
theorem exec_syncWord_gate {i : Instr} (h : IsSyncWord i) {s : State} (hg : s.cur.maxUnlocked ≤ 256) :
    ∃ masks gate half irq, gate ≤ 256 ∧ exec i s = resumeRender.outcome
      { s with
        cur := { s.cur with skipFlags := masks, maxUnlocked := gate, syncHalf := half }
        irq := irq } := by
  obtain ⟨b, m, rfl⟩ | ⟨a, b, rfl⟩ | rfl := h
  · have hb := b.isLt
    exact ⟨_, _, _, s.irq, by omega, rfl⟩
  · have hh := s.cur.syncHalf.toNat_le
    exact ⟨_, _, _, s.irq, by omega, rfl⟩
  · exact ⟨_, _, _, s.irq ++ [.lightSync], Nat.le_refl 256, rfl⟩

theorem outcome_protocolInv {act : Act Unit} {s t : State} (ha : Act.At LeavesProtocol act s)
    (h : act.outcome s = .next t) : t.protocolInv = true := by
  cases h
  obtain h | ⟨c, t, hc, hf, h⟩ := ha.final
  · exact h
  · rw [hf]
    exact State.protocolInv_haltWith hc (State.protocolInv_gate h)

theorem resetAvm_protocolInv (s : State) : s.resetAvm.protocolInv = true :=
  (State.protocolInv_between (.inl rfl)).mpr ⟨rfl, rfl, Nat.zero_le 256⟩

theorem cmdWrite_protocolInv {w : Word} {s t : State} (hs : s.protocolInv = true) (h : cmdWrite w s = .next t) :
    t.protocolInv = true := by
  obtain ⟨-, hc⟩ | ⟨c, hn, -, hc⟩ | ⟨i, _, hm, hd, hc⟩ | ⟨hm, hc⟩ | ⟨hm, -, hc⟩ := cmdWrite_cases w s
  · cases hc.symm.trans h; exact hs
  · cases hc.symm.trans h; exact State.protocolInv_haltWith hn (State.protocolInv_gate hs)
  · obtain ⟨masks, gate, half, irq, hg, he⟩ :=
      exec_syncWord_gate (decode_syncContext_ok hd) (State.protocolInv_gate hs)
    have hr := State.renders_of_protocolInv hs hm
    have hr' : State.Renders { s with
        cur := { s.cur with skipFlags := masks, maxUnlocked := gate, syncHalf := half }
        irq := irq } s.cur.framesLeft := ⟨hr.mode, hr.cause, hr.setup, hr.output, hg, hr.frames⟩
    exact outcome_protocolInv (resumeRender_leavesProtocol hr') (he.symm.trans (hc.symm.trans h))
  · exact outcome_protocolInv (operandWord_leavesProtocol w ((State.protocolInv_between (.inr hm)).mp hs) hm)
      (hc.symm.trans h)
  · exact outcome_protocolInv (headerWord_leavesProtocol w ((State.protocolInv_between (.inl hm)).mp hs))
      (hc.symm.trans h)

theorem ctrlWrite_protocolInv {w : Word} {s t : State} (hs : s.protocolInv = true) (h : ctrlWrite w s = .next t) :
    t.protocolInv = true := by
  obtain ⟨i, _, hd, hc⟩ | hc := ctrlWrite_cases w s
  · have hi := hc.symm.trans h
    obtain rfl | rfl := decode_control_ok hd
    · cases hi; exact resetAvm_protocolInv s
    · exact outcome_protocolInv (doContinue_leavesProtocol hs) hi
  · cases hc.symm.trans h; exact hs

theorem hostAccess_protocolInv {a : HostAccess} {s t : State} (hs : s.protocolInv = true)
    (h : hostAccess a s = .next t) : t.protocolInv = true := by
  obtain ⟨o, w, -, hw⟩ | ⟨-, rfl⟩ | ⟨r, rfl⟩ | ⟨sp, x, b, -, rfl⟩ | ⟨-, rfl⟩ := hostAccess_cases h
  · obtain ⟨-, hc⟩ | ⟨-, hc⟩ | rfl := regWrite_cases hw
    · exact cmdWrite_protocolInv hs hc
    · exact ctrlWrite_protocolInv hs hc
    · exact hs
  · exact hs
  · exact hs
  · cases sp <;> exact hs
  · exact resetAvm_protocolInv s

/-- Settles O58, from what each access of the host leaves of a render, of a command and of a halt. -/
theorem protocolKept : Obligations.ProtocolKept := by
  intro s t hs h
  cases hh : s.host with
  | nil => cases (step_nil hh).symm.trans h; exact hs
  | cons a rest => exact hostAccess_protocolInv (s := { s with host := rest }) hs ((step_cons hh).symm.trans h)

end Sys2Proof.Machine
end

section
/-! The command port (40_commands.md R130 to R135, R150, R152): what each word written to it does, the loop that runs
the pending commands, and the halts. -/

namespace Sys2Proof.Machine

/-! ### The dispatch loop (40_commands.md R135) -/

/-- The number of pending commands is kept. -/
def KeepsPending (s t : State) : Prop := t.cmd.pending = s.cmd.pending

theorem KeepsPending.seq (a b c : State) (h : KeepsPending a b) (k : KeepsPending b c) : KeepsPending a c := k.trans h

theorem bufPop_keepsPending (s : State) : Act.At KeepsPending bufPop s := by
  refine .get ?_
  split
  · exact .halt (by decide) rfl
  · exact .inl ⟨_, _, rfl, rfl⟩

theorem popHeader_keepsPending (n : Nat) (s : State) : Act.At KeepsPending (popHeader n) s := by
  induction n generalizing s with
  | zero => exact .halt (by decide) rfl
  | succ n ih =>
    refine .bind KeepsPending.seq (bufPop_keepsPending s) fun w t _ _ => ?_
    split
    · exact .pure _ rfl
    · exact ih t

theorem popOperands_keepsPending (n : Nat) (s : State) : Act.At KeepsPending (popOperands n) s := by
  induction n generalizing s with
  | zero => exact .pure _ rfl
  | succ n ih =>
    exact .bind KeepsPending.seq (bufPop_keepsPending s) fun w t _ _ =>
      .bind KeepsPending.seq (ih t) fun ws u _ _ => .pure _ rfl

/-- A command fetched is a command less to run, in any state of the buffer. -/
theorem fetchCommand_pending {s t : State} {i : Instr} (h : fetchCommand s = .ok i t) :
    t.cmd.pending = s.cmd.pending - 1 := by
  unfold fetchCommand at h
  rw [Act.get_bind] at h
  obtain ⟨w, u, hu, h⟩ := Act.bind_eq_ok.mp h
  obtain ⟨ops, v, hv, h⟩ := Act.bind_eq_ok.mp h
  have hp : v.cmd.pending = s.cmd.pending :=
    ((popOperands_keepsPending _ u).of_ok hv).trans ((popHeader_keepsPending _ s).of_ok hu)
  rw [Act.modify_bind] at h
  cases hd : decode (.header s.cfg.startExtraWords) (w :: ops) with
  | ok r => rw [hd] at h; cases h; exact congrArg (· - 1) hp
  | error e => rw [hd] at h; cases h

theorem executeCommand_pending {i : Instr} {s t : State} {a : Unit} (h : executeCommand i s = .ok a t) :
    t.cmd.pending = s.cmd.pending := by
  obtain ⟨-, hcmd, -⟩ := (executeCommand_keepsQueue i s).of_ok h
  rw [hcmd]

/-- A command that may be run is fetched and executed, and the loop goes on with one command less. -/
theorem runPendingCommands_dispatch {s : State} (h : s.mayDispatch = true) :
    runPendingCommands s = (do let i ← fetchCommand; executeCommand i; runPendingCommands : Act Unit) s := by
  have hp : 0 < s.cmd.pending := by
    simp only [State.mayDispatch, Bool.and_eq_true, decide_eq_true_eq] at h
    exact h.1.1
  obtain ⟨n, hn⟩ := Nat.exists_eq_succ_of_ne_zero hp.ne'
  conv => lhs; unfold runPendingCommands
  rw [Act.get_bind, hn]
  unfold dispatchLoop
  rw [Act.get_bind, if_pos h]
  refine Act.bind_congr fun i t ht => Act.bind_congr fun _ u hu => ?_
  have hu' : u.cmd.pending = n := by
    rw [executeCommand_pending hu, fetchCommand_pending ht, hn]
    rfl
  rw [runPendingCommands, Act.get_bind, hu']

/-- Where dispatch is blocked the loop does nothing. -/
theorem runPendingCommands_blocked {s : State} (h : s.canExecute = false) : runPendingCommands s = .ok () s :=
  runPendingCommands_idle (by simp [State.mayDispatch, h])

/-! ### Words that fill the buffer (40_commands.md R131, R132, R134) -/

/-- A header with operands opens `WRITING_CMD`. -/
theorem headerWord_opens {s : State} {w : Word} (hw : s.cmd.words ≠ 64)
    (hn : operandCount s.cfg.startExtraWords (headerOpcode w) ≠ 0) :
    headerWord w s = .ok ⟨⟩
      { s with
        mode := .writingCmd
        cmd := { s.cmd.push w with expected := operandCount s.cfg.startExtraWords (headerOpcode w) } } := by
  unfold headerWord
  rw [Act.bind_ok (bufPush_room hw), Act.get_bind]
  exact congrFun (if_neg hn) _

/-- A header without operands is a complete command. -/
theorem headerWord_completes {s : State} {w : Word} (hw : s.cmd.words ≠ 64)
    (hn : operandCount s.cfg.startExtraWords (headerOpcode w) = 0) :
    headerWord w s = runPendingCommands (State.commandComplete { s with cmd := s.cmd.push w }) := by
  unfold headerWord
  rw [Act.bind_ok (bufPush_room hw), Act.get_bind]
  exact congrFun (if_pos hn) _

/-- An operand that is not the last is counted down. -/
theorem operandWord_counts {s : State} {w : Word} (hw : s.cmd.words ≠ 64) (hn : s.cmd.expected - 1 ≠ 0) :
    operandWord w s = .ok ⟨⟩ { s with cmd := { s.cmd.push w with expected := s.cmd.expected - 1 } } := by
  unfold operandWord
  rw [Act.bind_ok (bufPush_room hw), Act.modify_bind, Act.get_bind]
  exact congrFun (if_neg hn) _

/-- The last operand completes its command. -/
theorem operandWord_completes {s : State} {w : Word} (hw : s.cmd.words ≠ 64) (hn : s.cmd.expected = 1) :
    operandWord w s =
      runPendingCommands (State.commandComplete { s with cmd := { s.cmd.push w with expected := 0 } }) := by
  unfold operandWord
  rw [Act.bind_ok (bufPush_room hw), Act.modify_bind, Act.get_bind]
  have e : (s.cmd.push w).expected - 1 = 0 := by
    show s.cmd.expected - 1 = 0
    omega
  rw [e]
  exact congrFun (if_pos rfl) _

/-! ### A word written to `CMD` (40_commands.md R130) -/

theorem step_headerWord {s : State} {w : Word} {rest : List HostAccess}
    (hh : s.host = .regWrite .word 0x00 w :: rest) (hm : s.mode = .waiting) (hb : headerBit w = true) :
    step s = (headerWord w).outcome { s with host := rest } := by
  rw [step_regWrite hh]
  simp [regWrite, cmdWrite, hm, hb]

theorem step_operandWord {s : State} {w : Word} {rest : List HostAccess}
    (hh : s.host = .regWrite .word 0x00 w :: rest) (hm : s.mode = .writingCmd) :
    step s = (operandWord w).outcome { s with host := rest } := by
  rw [step_regWrite hh]
  simp [regWrite, cmdWrite, hm]

/-- An operation that completes is the step to the state it leaves. -/
theorem Act.outcome_ok {act : Act Unit} {s t : State} {a : Unit} (h : act s = .ok a t) : act.outcome s = .next t := by
  rw [Act.outcome_eq, Act.final_ok h]

theorem Act.outcome_error {act : Act Unit} {s t : State} {c : HaltCause} (h : act s = .error c t) :
    act.outcome s = .next t := by
  rw [Act.outcome_eq, Act.final_error h]

theorem Act.outcome_congr {act act' : Act Unit} {s s' : State} (h : act s = act' s') :
    act.outcome s = act'.outcome s' := by
  rw [Act.outcome_eq, Act.outcome_eq, Act.final, Act.final, h]

/-- Settles O8, word by word, from what each leaves in the buffer; a blocked loop does nothing. -/
theorem commandAccumulates : Obligations.CommandAccumulates := by
  refine ⟨fun s w rest hh hm hb hw hn => ?opens, fun s w rest hh hm he hw => ?counts,
    fun s w rest hh hm hb hw hn => ?header, fun s w rest hh hm he hw => ?operand⟩
  case opens =>
    rw [step_headerWord hh hm hb]
    exact Act.outcome_ok (headerWord_opens (s := { s with host := rest }) hw.ne hn.ne')
  case counts =>
    rw [step_operandWord hh hm]
    exact Act.outcome_ok (operandWord_counts (s := { s with host := rest }) hw.ne (Nat.sub_ne_zero_of_lt he))
  case header =>
    intro queued
    have hq : State.commandComplete { s with host := rest, cmd := s.cmd.push w } = queued := by
      simp only [queued, State.commandComplete, hm]
      rfl
    have hstep : step s = .next (runPendingCommands.final queued) := by
      rw [step_headerWord hh hm hb, ← hq]
      exact Act.outcome_congr (headerWord_completes (s := { s with host := rest }) hw.ne hn)
    exact ⟨hstep, fun hx => hstep.trans (congrArg _ (Act.final_ok (runPendingCommands_blocked hx)))⟩
  case operand =>
    intro queued
    have hstep : step s = .next (runPendingCommands.final queued) := by
      rw [step_operandWord hh hm]
      exact Act.outcome_congr (operandWord_completes (s := { s with host := rest }) hw.ne he)
    exact ⟨hstep, fun hx => hstep.trans (congrArg _ (Act.final_ok (runPendingCommands_blocked hx)))⟩

/-! ### A command run at once (40_commands.md R135) -/

/-- The decoder answers a command where it reads headers (30_encoding.md R106). -/
theorem decode_header_context {extra : Bool} {h : Word} {ops rest : List Word} {i : Instr}
    (hd : decode (.header extra) (h :: ops) = .ok (i, rest)) : i.context extra = .header extra := by
  simp only [decode, decodeHeader, decodeStartRender] at hd
  repeat' split at hd
  all_goals cases hd <;> rfl

/-- A command that decodes whole has its header bit and exactly the operand words its header asks for
(30_encoding.md R106, R110). -/
theorem decode_header_operands {extra : Bool} {h : Word} {ops : List Word} {i : Instr}
    (hd : decode (.header extra) (h :: ops) = .ok (i, [])) :
    headerBit h = true ∧ ops.length = operandCount extra (headerOpcode h) := by
  obtain ⟨hwhole, hbit, hmissing⟩ := commandLength.1 extra h ops
  have hb : headerBit h = true := by
    cases hb : headerBit h with
    | true => rfl
    | false => cases (hbit hb).symm.trans hd
  have hle : operandCount extra (headerOpcode h) ≤ ops.length := by
    by_contra hlt
    cases (hmissing hb (Nat.lt_of_not_le hlt)).symm.trans hd
  obtain ⟨j, -, hj⟩ := hwhole ⟨hb, hle⟩
  have hdrop : ops.drop (operandCount extra (headerOpcode h)) = [] :=
    congrArg Prod.snd (Except.ok.inj (hj.symm.trans hd))
  exact ⟨hb, Nat.le_antisymm (List.drop_eq_nil_iff.mp hdrop) hle⟩

/-- After the last of the pending commands nothing runs. -/
theorem executeCommand_last (i : Instr) {s : State} (h : s.cmd.pending = 0) :
    (do executeCommand i; runPendingCommands : Act Unit).outcome s = (executeCommand i).outcome s := by
  rw [Act.outcome_eq, Act.outcome_eq, Act.final_bind]
  cases he : executeCommand i s with
  | ok a t =>
    have ht : t.cmd.pending = 0 := (executeCommand_pending he).trans h
    rw [Act.final_ok he]
    exact congrArg _ (Act.final_ok (runPendingCommands_idle (State.mayDispatch_of_pending_zero ht)))
  | error c t => rw [Act.final_error he]

/-- The one command of the buffer is popped whole and executed, and the loop is at its end. -/
theorem runPendingCommands_single {s : State} {h : Word} {ops : List Word} {i : Instr} (hp : s.cmd.pending = 1)
    (hx : s.canExecute = true) (hm : s.mode = .waiting) (hc : s.cmd.contents = h :: ops)
    (hd : decode (.header s.cfg.startExtraWords) (h :: ops) = .ok (i, [])) :
    runPendingCommands.outcome s = exec i
      { s with cmd := { s.cmd with rd := s.cmd.rd + BitVec.ofNat 6 (1 + ops.length), words := 0, pending := 0 } } := by
  obtain ⟨hb, hn⟩ := decode_header_operands hd
  have hwords : s.cmd.words - (1 + ops.length) = 0 := by
    rw [← CmdBuffer.contents_length, hc, List.length_cons, Nat.add_comm, Nat.sub_self]
  have hfetch := fetchCommand_command hc hb hn.symm.le (by rw [← hn, List.take_length]; exact hd)
  rw [← hn, hp, CmdBuffer.skip, hwords] at hfetch
  have hdispatch := runPendingCommands_dispatch (s := s) (by simp [State.mayDispatch, hp, hx, hm])
  rw [exec_eq_executeCommand (decode_header_context hd), Act.outcome_congr (hdispatch.trans (Act.bind_ok hfetch))]
  exact executeCommand_last i rfl

/-- Settles O6: the word is the one command of the buffer. -/
theorem stepRunsCommand : Obligations.StepRunsCommand := by
  intro s w rest i hh hm hx hw hp hinv hd
  obtain ⟨hb, hn⟩ := decode_header_operands hd
  obtain ⟨hq, -⟩ := State.queueHolds_of_idle hinv (.inl hm)
  have hc : (s.cmd.push w).contents = [w] := by
    rw [CmdBuffer.contents_push s.cmd w hq.length (by omega) hq.cursors, CmdBuffer.contents_eq, hw]
    rfl
  rw [step_headerWord hh hm hb,
    Act.outcome_congr (headerWord_completes (s := { s with host := rest }) (by simp [hw]) hn.symm)]
  refine (runPendingCommands_single (s := State.commandComplete { s with host := rest, cmd := s.cmd.push w })
    (congrArg (· + 1) hp) hx rfl hc hd).trans ?_
  simp [State.commandComplete, CmdBuffer.push, hm, hw, hp]

/-- Settles O7: the words are the one command of the buffer. -/
theorem stepRunsLastOperand : Obligations.StepRunsLastOperand := by
  intro s w h ops rest i hh hm hx he hp hinv hw hcont hd
  obtain ⟨_, _, hq, -, -, -⟩ := State.queueHolds_of_writing hinv hm
  have hc : (s.cmd.push w).contents = h :: (ops ++ [w]) := by
    rw [CmdBuffer.contents_push s.cmd w hq.length hw hq.cursors, hcont]
    rfl
  rw [step_operandWord hh hm, Act.outcome_congr (operandWord_completes (s := { s with host := rest }) hw.ne he)]
  refine (runPendingCommands_single
    (s := State.commandComplete { s with host := rest, cmd := { s.cmd.push w with expected := 0 } })
    (congrArg (· + 1) hp) hx rfl hc hd).trans ?_
  have hrd : s.cmd.rd + BitVec.ofNat 6 (1 + (ops ++ [w]).length) = s.cmd.wr + 1 := by
    have hlen : s.cmd.words = ops.length + 1 := by rw [← CmdBuffer.contents_length, hcont]; rfl
    rw [hq.cursors, hlen, List.length_append, List.length_singleton, Nat.add_comm, BitVec.ofNat_add,
      BitVec.add_assoc]
    rfl
  simp only [State.commandComplete, CmdBuffer.push, hp, hrd]

/-! ### Halts (40_commands.md R133, R134, R146; 60_exceptions.md R311) -/

theorem headerWord_overflows {s : State} {w : Word} (hw : s.cmd.words = 64) :
    headerWord w s = .error .cmdOverflow (s.haltWith .cmdOverflow) := Act.bind_error (bufPush_full hw)

theorem operandWord_overflows {s : State} {w : Word} (hw : s.cmd.words = 64) :
    operandWord w s = .error .cmdOverflow (s.haltWith .cmdOverflow) := Act.bind_error (bufPush_full hw)

/-- Settles O9, by the state the word meets. -/
theorem portHalts : Obligations.PortHalts := by
  refine ⟨fun s w rest hh hm hb => ?unexpected, fun s w rest hh hm hl hw => ?light, fun s w rest hh hw hm => ?overflow⟩
  case unexpected =>
    rw [step_regWrite hh]
    simp [regWrite, cmdWrite, hm, hb, Act.outcome, Act.final, State.haltWith]
  case light =>
    have hd : decode s.cfg.syncContext [w] = .error .nonzeroLightSync := by
      rw [Platform.syncContext, if_pos hl]
      exact commandLength.2.1 w [] hw
    rw [step_regWrite hh]
    exact (cmdWrite_of_rendering (s := { s with host := rest }) hm w).trans (syncWord_of_error hd)
  case overflow =>
    obtain ⟨hm, hb⟩ | hm := hm
    · rw [step_headerWord hh hm hb]
      exact Act.outcome_error (headerWord_overflows (s := { s with host := rest }) hw)
    · rw [step_operandWord hh hm]
      exact Act.outcome_error (operandWord_overflows (s := { s with host := rest }) hw)

/-! ### `CONTINUE` and the halted machine (40_commands.md R150, R152) -/

theorem doContinue_halted {s : State} (hm : s.mode = .halted) : doContinue s = .ok ⟨⟩ s := by
  simp [doContinue, hm]

theorem doContinue_busy {s : State} (hm : s.mode = .writingCmd ∨ s.mode = .rendering) :
    doContinue s = .ok ⟨⟩ { s with canExecute := true } := by
  obtain hm | hm := hm <;> simp [doContinue, hm]

theorem doContinue_waiting {s : State} (hm : s.mode = .waiting) :
    doContinue s = runPendingCommands { s with canExecute := true } := by
  simp [doContinue, hm]

/-- Settles O34, state by state. -/
theorem continueResult : Obligations.ContinueResult := by
  refine ⟨fun s hm => Act.outcome_ok (doContinue_halted hm), fun s hm => ?_,
    fun s hm => Act.outcome_congr (doContinue_waiting hm)⟩
  obtain hm | hm | ⟨hm, hp⟩ := hm
  · exact Act.outcome_ok (doContinue_busy (.inl hm))
  · exact Act.outcome_ok (doContinue_busy (.inr hm))
  · exact Act.outcome_ok
      ((doContinue_waiting hm).trans (runPendingCommands_idle (State.mayDispatch_of_pending_zero hp)))

theorem cmdWrite_halted {s : State} (hm : s.mode = .halted) (w : Word) : cmdWrite w s = .next s := by
  simp [cmdWrite, hm]

/-- A control write that is no reset has no effect in `HALTED`. -/
theorem ctrlWrite_halted {s : State} (hm : s.mode = .halted) {w : Word} (hw : w.getLsbD 1 = false) :
    ctrlWrite w s = .next s := by
  cases h0 : w.getLsbD 0 with
  | false => exact ctrlWrite_of_error (decode_control_noAction h0 hw) s
  | true =>
    have hd : decode .control [w] = .ok (.cont, []) := by
      simp only [decode, decodeControl, h0, hw, Bool.false_eq_true, if_false, if_true]
      rfl
    exact (ctrlWrite_of_ok hd s).trans (continueResult.1 s hm)

/-- An access that is no reset leaves a halted AVM as it is, but for the event FIFO. -/
theorem hostAccess_halted {a : HostAccess} {s t : State} (hm : s.mode = .halted) (ha : a.resets = false)
    (h : hostAccess a s = .next t) :
    ∃ main sample evt replies, t = { s with main := main, sample := sample, evt := evt, replies := replies } := by
  obtain ⟨o, w, rfl, hw⟩ | ⟨-, rfl⟩ | ⟨r, rfl⟩ | ⟨sp, x, b, -, rfl⟩ | ⟨rfl, -⟩ := hostAccess_cases h
  · obtain ⟨rfl, hc⟩ | ⟨rfl, hc⟩ | rfl := regWrite_cases hw
    · cases (cmdWrite_halted hm w).symm.trans hc
      exact ⟨_, _, _, _, rfl⟩
    · cases (ctrlWrite_halted hm ha).symm.trans hc
      exact ⟨_, _, _, _, rfl⟩
    · exact ⟨_, _, _, _, rfl⟩
  · exact ⟨_, _, _, _, rfl⟩
  · exact ⟨_, _, _, _, rfl⟩
  · cases sp <;> exact ⟨_, _, _, _, rfl⟩
  · cases ha

/-- Settles O10, from what each access does in `HALTED`. -/
theorem haltedStays : Obligations.HaltedStays := by
  refine ⟨fun s t a rest hh hm ha ht => ?_, fun s w rest hm hh => ?_, fun s w rest hm hh hw => ?_,
    fun s offset rest hm hh ho => ?reads⟩
  · exact hostAccess_halted (s := { s with host := rest }) hm ha ((step_cons hh).symm.trans ht)
  · exact (step_regWrite hh).trans (cmdWrite_halted (s := { s with host := rest }) hm w)
  · exact (step_regWrite hh).trans (ctrlWrite_halted (s := { s with host := rest }) hm hw)
  case reads =>
    rw [step_regRead hh]
    simp only [List.mem_cons, List.not_mem_nil, or_false] at ho
    obtain rfl | rfl | rfl | rfl := ho
    · rfl
    · rfl
    · rw [← State.flagsWord_eq]; rfl
    · rfl

end Sys2Proof.Machine

namespace Sys2Proof.Laws.Port

open Sys2Proof.Machine

/-- Settles O14: the bound of the model's loop is the number of pending commands, which each round lowers by one. -/
theorem dispatchLoop : Obligations.DispatchLoop := by
  intro s
  by_cases h : s.mayDispatch = true
  · rw [runPendingCommands_dispatch h, if_pos (by simpa [State.mayDispatch, and_assoc] using h)]
  · rw [runPendingCommands_idle (by simpa using h), if_neg (by simpa [State.mayDispatch, and_assoc] using h)]

end Sys2Proof.Laws.Port
end

section
/-! The configuration commands (40_commands.md R137, R140 to R143; 20_memory.md R61, R79): what each writes where its
words answer, and what it leaves where one does not. -/

namespace Sys2Proof.Machine

/-! ### NOP -/

/-- Settles O16: the acknowledgment is one event and its pulse. -/
theorem nopResult : Obligations.NopResult := fun _ _ => rfl

/-! ### SETUP (40_commands.md R141) -/

/-- `SETUP` on its way: the VPB base written, the tables loaded so far, all else as it found it. -/
def State.setupTables (s : State) (vpb : Addr) (t : Tables) : State := { s with vpbBase := vpb, tables := t }

/-- Word `k` of the `n` words from `a` on is the first that does not answer; `ws` are the words before it. -/
def State.TableBreaks (s : State) (n : Nat) (a : Addr) (k : Nat) (ws : List Sample) : Prop :=
  k < n ∧ s.words? .main k a = some ws ∧ s.read16? .main (a + BitVec.ofNat 32 (2 * k)) = none

section
variable {s : State} {vpb a : Addr} {t : Tables} {n k : Nat} {ws : List Sample} {read : Tables → List Sample}
  {put : Tables → List Sample → Tables}

theorem State.words?_setupTables : (s.setupTables vpb t).words? .main n a = s.words? .main n a :=
  State.words?_congr (s := s) (t := s.setupTables vpb t) rfl rfl n a

theorem loadTable_setup (h : s.words? .main n a = some ws) (hl : (read t).length = n) :
    loadTable n a read put (s.setupTables vpb t) = .ok () (s.setupTables vpb (put t ws)) :=
  loadTable_ok (s := s.setupTables vpb t) (State.words?_setupTables.trans h) hl

theorem loadTable_setup_breaks (h : s.TableBreaks n a k ws) :
    loadTable n a read put (s.setupTables vpb t) = .error .busError
      ((s.setupTables vpb (put t (ws ++ (read t).drop k))).haltWith .busError) := by
  obtain ⟨hk, hws, hb⟩ := h
  exact loadTable_error (s := s.setupTables vpb t) hk (State.words?_setupTables.trans hws) hb

theorem loadSineUnlessLight_of_light (h : s.cfg.light = true) : loadSineUnlessLight a s = .ok ⟨⟩ s := by
  simp [loadSineUnlessLight, h]

theorem loadSineUnlessLight_of_default (h : s.cfg.light = false) : loadSineUnlessLight a s = loadSine a s := by
  simp [loadSineUnlessLight, h]

/-- The sine table is loaded whole, or kept under `LIGHT`. -/
theorem loadSineUnlessLight_setup (hl : t.sine.length = 128)
    (h : s.cfg.light = false → s.words? .main 128 (a + 512) = some ws) :
    loadSineUnlessLight a (s.setupTables vpb t) =
      .ok () (s.setupTables vpb { t with sine := if s.cfg.light then t.sine else ws }) := by
  cases hlight : s.cfg.light with
  | true => exact loadSineUnlessLight_of_light (s := s.setupTables vpb t) hlight
  | false =>
    rw [loadSineUnlessLight_of_default (s := s.setupTables vpb t) hlight]
    exact loadTable_setup (h hlight) hl

end

section
variable {s : State} {sync : BitVec 7} {vpb resample pattern afc rpb : Addr} {rc pt sn ac : List Sample}
  (hfull : s.tables.full = true) (hrc : s.words? .main 256 resample = some rc)
  (hpt : s.words? .main 256 pattern = some pt)
  (hsn : s.cfg.light = false → s.words? .main 128 (pattern + 512) = some sn)

include hfull hrc

/-- `SETUP` past its first table. -/
theorem doSetup_afterResample : doSetup sync vpb resample pattern afc rpb s =
    (do
      loadPattern pattern
      loadSineUnlessLight pattern
      loadAfc afc
      modify fun s => { s with rpbBase := rpb, setupDone := true }
      ack sync : Act Unit) (s.setupTables vpb { s.tables with resampleCoef := rc }) :=
  Act.bind_ok (loadTable_setup (t := s.tables) (vpb := vpb) hrc ((Tables.full_iff _).mp hfull).1)

include hpt

/-- `SETUP` past its second table. -/
theorem doSetup_afterPattern : doSetup sync vpb resample pattern afc rpb s =
    (do
      loadSineUnlessLight pattern
      loadAfc afc
      modify fun s => { s with rpbBase := rpb, setupDone := true }
      ack sync : Act Unit) (s.setupTables vpb { s.tables with resampleCoef := rc, pattern := pt }) :=
  (doSetup_afterResample hfull hrc).trans
    (Act.bind_ok (loadTable_setup (vpb := vpb) hpt ((Tables.full_iff _).mp hfull).2.1))

include hsn

/-- `SETUP` past its third table, which it does not load under `LIGHT`. -/
theorem doSetup_afterSine : doSetup sync vpb resample pattern afc rpb s =
    (do
      loadAfc afc
      modify fun s => { s with rpbBase := rpb, setupDone := true }
      ack sync : Act Unit) (s.setupTables vpb
        { s.tables with resampleCoef := rc, pattern := pt, sine := if s.cfg.light then s.tables.sine else sn }) :=
  (doSetup_afterPattern hfull hrc hpt).trans
    (Act.bind_ok (loadSineUnlessLight_setup (vpb := vpb) ((Tables.full_iff _).mp hfull).2.2.1 hsn))

end

/-- Settles O17: the four tables one after another, then the RPB base and the acknowledgment. -/
theorem setupResult : Obligations.SetupResult := by
  intro sync vpb resample pattern afc rpb s rc pt sn ac hfull hrc hpt hsn hac
  refine Act.outcome_ok ((doSetup_afterSine hfull hrc hpt hsn).trans
    (Act.bind_ok (loadTable_setup (vpb := vpb) hac ?_)))
  exact ((Tables.full_iff _).mp hfull).2.2.2

/-- Settles O18: the table that breaks ends the command, the tables before it being loaded. -/
theorem setupBusError : Obligations.SetupBusError := by
  intro sync vpb resample pattern afc rpb s hfull stops breaks
  refine ⟨fun k ws h => ?resample, fun rc hrc => ⟨fun k ws h => ?pattern, fun pt hpt => ⟨fun k ws hl h => ?sine,
    fun sn hsn k ws h => ?afc⟩⟩⟩
  case resample =>
    refine Act.outcome_error (c := .busError) ((Act.modify_bind ..).trans (Act.bind_error ?_))
    exact loadTable_setup_breaks (t := s.tables) (vpb := vpb) h
  case pattern =>
    exact Act.outcome_error
      ((doSetup_afterResample hfull hrc).trans (Act.bind_error (loadTable_setup_breaks (vpb := vpb) h)))
  case sine =>
    refine Act.outcome_error (c := .busError) 
      ((doSetup_afterPattern hfull hrc hpt).trans (Act.bind_error ?_))
    exact (loadSineUnlessLight_of_default (s := s.setupTables vpb _) hl).trans (loadTable_setup_breaks (vpb := vpb) h)
  case afc =>
    exact Act.outcome_error
      ((doSetup_afterSine hfull hrc hpt hsn).trans (Act.bind_error (loadTable_setup_breaks (vpb := vpb) h)))

/-! ### SET_SAMPLE_BASE (40_commands.md R143; 20_memory.md R61) -/

theorem doSetSampleBase_noAram {s : State} (h : s.cfg.noAram = true) (sync : BitVec 7) (base : Addr) :
    doSetSampleBase sync base s = .ok ⟨⟩ ({ s with sampleBase := base }.pushEvent (ackWord sync)) := by
  simp [doSetSampleBase, ack, h]

theorem doSetSampleBase_aram {s : State} (h : s.cfg.noAram = false) (sync : BitVec 7) (base : Addr) :
    doSetSampleBase sync base s = .error .unknownOpcode (s.haltWith .unknownOpcode) := by
  simp [doSetSampleBase, h]

theorem State.sampleSpace_noAram {s : State} (h : s.cfg.noAram = true) : s.sampleSpace = .main := if_pos h

theorem State.sampleAddr_noAram {s : State} (h : s.cfg.noAram = true) (a : Addr) :
    s.sampleAddr a = s.sampleBase + a := if_pos h

theorem State.sampleSpace_aram {s : State} (h : s.cfg.noAram = false) : s.sampleSpace = .sample :=
  if_neg (Bool.eq_false_iff.mp h)

theorem State.sampleAddr_aram {s : State} (h : s.cfg.noAram = false) (a : Addr) : s.sampleAddr a = a :=
  if_neg (Bool.eq_false_iff.mp h)

theorem readSampleBytes_ok {n : Nat} {a : Addr} {s : State} {bs : List Byte}
    (h : s.bytes? s.sampleSpace n (s.sampleAddr a) = some bs) : readSampleBytes n a s = .ok bs s :=
  ofRead_some (read := fun s => s.bytes? s.sampleSpace n (s.sampleAddr a)) h

theorem readSampleBytes_busError {n : Nat} {a : Addr} {s : State}
    (h : s.bytes? s.sampleSpace n (s.sampleAddr a) = none) :
    readSampleBytes n a s = .error .busError (s.haltWith .busError) :=
  ofRead_none (read := fun s => s.bytes? s.sampleSpace n (s.sampleAddr a)) h

/-- Reading bytes depends on the configuration and the memory of the space alone. -/
theorem State.bytes?_congr {s t : State} (hc : t.cfg = s.cfg) {sp : Space} (hm : t.mem sp = s.mem sp) (n : Nat)
    (a : Addr) : t.bytes? sp n a = s.bytes? sp n a := by
  induction n generalizing a with
  | zero => rfl
  | succ n ih => simp [State.bytes?, State.read8?, State.byteAt, hc, hm, ih]

/-- Settles O20, by `NO_ARAM`. -/
theorem setSampleBaseResult : Obligations.SetSampleBaseResult := by
  intro sync base s
  refine ⟨fun h => Act.outcome_ok (doSetSampleBase_noAram h sync base),
    fun h => Act.outcome_error (doSetSampleBase_aram h sync base),
    fun h => ⟨State.sampleSpace_noAram h, fun a => ⟨State.sampleAddr_noAram h a, fun n => ?noAram⟩⟩,
    fun h => ⟨State.sampleSpace_aram h, fun a => ⟨State.sampleAddr_aram h a, fun n => ?aram⟩⟩⟩
  case noAram =>
    have hread : s.bytes? s.sampleSpace n (s.sampleAddr a) = s.bytes? .main n (s.sampleBase + a) := by
      rw [State.sampleSpace_noAram h, State.sampleAddr_noAram h]
    exact ⟨fun bs hb => readSampleBytes_ok (hread.trans hb), fun hb => readSampleBytes_busError (hread.trans hb)⟩
  case aram =>
    have hread (t : State) (ht : t.cfg = s.cfg) (hm : t.sample = s.sample) :
        t.bytes? t.sampleSpace n (t.sampleAddr a) = s.bytes? .sample n a := by
      rw [State.sampleSpace_aram (ht ▸ h), State.sampleAddr_aram (ht ▸ h)]
      exact State.bytes?_congr (sp := .sample) ht hm n a
    exact ⟨fun bs hb => ⟨readSampleBytes_ok ((hread s rfl rfl).trans hb), fun b =>
      readSampleBytes_ok ((hread { s with sampleBase := b } rfl rfl).trans hb)⟩,
      fun hb => readSampleBytes_busError ((hread s rfl rfl).trans hb)⟩

/-! ### The halts of the commands (40_commands.md R137, R142; 41_frame_ops.md R174, R178) -/

theorem doStartRender_notConfigured {s : State} (h : s.setupDone = false) (voices frames vol : Half)
    (outL outR : Addr) :
    doStartRender voices frames vol outL outR s = .error .notConfigured (s.haltWith .notConfigured) := by
  simp [doStartRender, h]

theorem prepareFrame_notConfigured {s : State} (hp : s.prepared = false) (hs : s.setupDone = false) :
    prepareFrame s = .error .notConfigured (s.haltWith .notConfigured) := by
  simp [prepareFrame, hp, hs]

theorem finalizeFrame_notConfigured {s : State} (hp : s.prepared = true) (ho : s.outValid = false) :
    finalizeFrame s = .error .notConfigured (s.haltWith .notConfigured) := by
  simp [finalizeFrame, hp, ho]

/-- Settles O21: what each command checks first. -/
theorem commandHalts : Obligations.CommandHalts :=
  ⟨fun _ _ _ _ => rfl,
    fun sync base _ h => Act.outcome_error (doSetSampleBase_aram h sync base),
    fun _ voices frames vol outL outR _ h =>
      Act.outcome_error (doStartRender_notConfigured h voices frames vol outL outR),
    fun _ _ _ hp hs =>
      ⟨Act.outcome_error (Act.bind_error (prepareFrame_notConfigured hp hs)),
        Act.outcome_error (Act.bind_error (prepareFrame_notConfigured hp hs))⟩,
    fun _ _ hp ho => Act.outcome_error (Act.bind_error (finalizeFrame_notConfigured hp ho))⟩

end Sys2Proof.Machine
end

section
/-! Rendering (40_commands.md R142, R145 to R148; 41_frame_ops.md R171 to R173): the loop of the rule, and where a
`START_RENDER` and each sync word leave it when the reverb is silent and the voices are passed over. -/

namespace Sys2Proof.Machine

/-! ### The loop of the rule (41_frame_ops.md R171, R173) -/

theorem doStartRender_configured {s : State} (h : s.setupDone = true) (voices frames vol : Half) (outL outR : Addr) :
    doStartRender voices frames vol outL outR s = renderAudio (s.startRender voices frames vol outL outR) := by
  simp [doStartRender, h]

theorem Cursors.unlockHalf_eq (c : Cursors) (maskHi maskLo : Half) :
    c.unlockHalf maskHi maskLo =
      { c with
        skipFlags := (c.skipFlags.set (2 * if c.syncHalf then 1 else 0) maskHi).set
          ((2 * if c.syncHalf then 1 else 0) + 1) maskLo
        maxUnlocked := max c.maxUnlocked (32 * ((if c.syncHalf then 1 else 0) + 1))
        syncHalf := !c.syncHalf } := by
  cases h : c.syncHalf <;> simp [Cursors.unlockHalf, h]

theorem renderAudio_done {s : State} (h : s.cur.framesLeft = 0) : renderAudio s = .ok ⟨⟩ s.renderDone := by
  unfold renderAudio
  rw [Act.get_bind, h]
  rfl

theorem State.framesLeft_nextFrame {s : State} {n : Nat} (h : s.cur.framesLeft = n + 1) :
    s.nextFrame.cur.framesLeft = n := by
  have hf : s.cur.reqFrames.toNat - s.cur.curFrame.toNat = n + 1 := h
  have hnext := toNat_add_one_of_lt (x := s.cur.curFrame) (y := s.cur.reqFrames) (by omega)
  show s.cur.reqFrames.toNat - (s.cur.curFrame + 1).toNat = n
  omega

theorem closeFrame_bind {α : Type} (f : Unit → Act α) (s : State) :
    (closeFrame >>= f) s =
      (do finalizeFrame; modify State.nextFrame; f ⟨⟩ : Act α) s.frameDone := by
  rw [Act.bind_apply, Act.bind_apply, closeFrame, Act.modify_bind, Act.bind_apply]
  cases finalizeFrame s.frameDone <;> rfl

/-- With a frame left, the loop prepares it, visits its voices, and, where they do not yield, closes it and goes on:
the bound of the model's loop is the number of frames left. -/
theorem renderAudio_frame {s : State} (h : s.cur.curFrame.toNat < s.cur.reqFrames.toNat) :
    renderAudio s =
      (do
        prepareFrame
        let u ← get
        let yielded ← renderVoices u.cur.voicesLeft
        if yielded then pure ()
        else do
          closeFrame
          renderAudio : Act Unit) s := by
  obtain ⟨n, hn⟩ : ∃ n, s.cur.framesLeft = n + 1 := ⟨s.cur.framesLeft - 1, by unfold Cursors.framesLeft; omega⟩
  conv => lhs; unfold renderAudio
  rw [Act.get_bind, hn]
  unfold renderFrames
  refine Act.bind_congr fun _ t ht => ?_
  rw [Act.get_bind, Act.get_bind]
  refine Act.bind_congr fun yielded u hu => ?_
  cases yielded with
  | true => rfl
  | false =>
    refine Act.bind_congr fun _ v hv => ?_
    have hleft : v.cur.framesLeft = n := by
      obtain ⟨_, _, _, _, rfl⟩ := (prepareFrame_at s).of_ok ht
      obtain ⟨_, _, _, rfl⟩ := (renderVoices_touchesVoices _ _).of_ok hu
      obtain ⟨_, ⟨_, _, _, _, _, _, rfl⟩, rfl⟩ := closeFrame_ok hv
      refine State.framesLeft_nextFrame ?_
      simpa [Cursors.framesLeft] using hn
    rw [renderAudio, Act.get_bind, hleft]

theorem renderVoices_succ (n : Nat) (s : State) :
    renderVoices (n + 1) s =
      if s.cur.maxUnlocked ≤ s.cur.curVoice.toNat then .ok true s
      else (do visitVoice; modify State.nextVoice; renderVoices n : Act Bool) s := by
  conv => lhs; unfold renderVoices
  rw [Act.get_bind]
  split <;> rfl

theorem visitVoice_selected {s : State} (h : s.cur.voiceSelected s.cur.curVoice = true) :
    visitVoice s = addVoice s.cur.curVoice s := by
  simp [visitVoice, h]

theorem visitVoice_masked {s : State} (h : ¬ s.cur.voiceSelected s.cur.curVoice = true) :
    visitVoice s = .ok ⟨⟩ s := by
  simp [visitVoice, h]

/-- Settles O33: each loop turn by turn, and each entry into the loop. -/
theorem renderLoop : Obligations.RenderLoop := by
  refine ⟨fun _ voices frames vol outL outR s h => ?start, fun s => ?sync,
    fun n s => ⟨rfl, ?voices⟩, fun s => ?frames⟩
  case start => exact Act.outcome_congr (doStartRender_configured h voices frames vol outL outR)
  case sync =>
    intro resume h
    refine ⟨fun _ _ => rfl, fun maskHi maskLo => ?_, rfl⟩
    show Act.outcome resumeRender { s with cur := s.cur.unlockHalf maskHi maskLo } = _
    rw [Cursors.unlockHalf_eq]
    rfl
  case voices =>
    rw [renderVoices_succ]
    split
    · rfl
    · by_cases hv : s.cur.voiceSelected s.cur.curVoice = true
      · exact (Act.bind_congr_left (visitVoice_selected hv)).trans (congrFun (if_pos hv).symm s)
      · exact (Act.bind_ok (visitVoice_masked hv)).trans (congrFun (if_neg hv).symm s)
  case frames =>
    by_cases hf : s.cur.curFrame.toNat < s.cur.reqFrames.toNat
    · rw [if_pos hf, renderAudio_frame hf]
      refine Act.bind_congr fun _ t _ => ?_
      rw [Act.get_bind, Act.get_bind]
      refine Act.bind_congr fun yielded u _ => ?_
      cases yielded with
      | true => rfl
      | false => exact closeFrame_bind _ u
    · rw [if_neg hf, renderAudio_done (by unfold Cursors.framesLeft; omega)]
      cases hl : s.cfg.light <;> simp [State.renderDone, State.pushEvent, renderDoneWord, hl]

/-! ### What does not depend on the cursors and the events -/

/-- Whether voices are passed over depends on the configuration, `MAIN`, the VPB base, the masks and the voice
cursor alone. -/
theorem State.idleBelow_congr {s t : State} (hc : t.cfg = s.cfg) (hm : t.main = s.main) (hv : t.vpbBase = s.vpbBase)
    (hmasks : t.cur.skipFlags = s.cur.skipFlags) (hvoice : t.cur.curVoice = s.cur.curVoice) (n : Nat) :
    t.idleBelow n = s.idleBelow n := by
  have hidle (v : Half) : t.voiceIdle v = s.voiceIdle v := by
    unfold State.voiceIdle State.vpbAddr Cursors.voiceSelected
    rw [hc, hv, hmasks, State.words?_congr (s := s) (t := t) hc (sp := .main) hm]
  unfold State.idleBelow
  rw [hvoice]
  simp only [hidle]

/-- Whether the frame can be closed does not depend on the cursors and the events (41_frame_ops.md R178). -/
theorem State.canCloseFrame_progress (s : State) (cur : Cursors) (evt : List Word) (irq : List Pulse) :
    State.canCloseFrame { s with cur := cur, evt := evt, irq := irq } = s.canCloseFrame := by
  have e : State.reverbSilent (State.frameWritten { s with cur := cur, evt := evt, irq := irq }) =
      s.frameWritten.reverbSilent := State.reverbSilent_congr rfl rfl rfl
  unfold State.canCloseFrame
  rw [e]
  rfl

/-- A frame can be opened when `START_RENDER` has written its registers where it could before (41_frame_ops.md
R174). -/
theorem State.canOpenFrame_startRender (s : State) (voices frames vol : Half) (outL outR : Addr) :
    (s.startRender voices frames vol outL outR).canOpenFrame = s.canOpenFrame := by
  have e : (s.startRender voices frames vol outL outR).reverbSilent = s.reverbSilent :=
    State.reverbSilent_congr rfl rfl rfl
  unfold State.canOpenFrame
  rw [e]
  rfl

theorem State.prepared_of_canCloseFrame {s : State} (h : s.canCloseFrame = true) : s.prepared = true := by
  simp only [State.canCloseFrame, Bool.and_eq_true] at h
  exact h.1.1.1.1.1

/-! ### The sync words (40_commands.md R146 to R148) -/

/-- Settles O30: the words move the gate, then the loop passes over the idle voices and yields there. -/
theorem syncAdvances : Obligations.SyncAdvances := by
  intro s hm hp hf hv
  constructor
  · intro batch mask c hg hi
    exact Act.outcome_ok (resumeRender_yield (s := { s with cur := c }) hm hp hf hv hg hi)
  · intro maskHi maskLo h c hg hi
    have hc : s.cur.unlockHalf maskHi maskLo = c := Cursors.unlockHalf_eq ..
    show Act.outcome resumeRender { s with cur := s.cur.unlockHalf maskHi maskLo } = _
    rw [hc]
    exact Act.outcome_ok (resumeRender_yield (s := { s with cur := c }) hm hp hf hv hg hi)

/-- In the last frame of a render, its voices idle and unlocked, the loop closes the frame, and the render is done
(41_frame_ops.md R171, R173). -/
theorem renderAudio_last {s : State} (hp : s.prepared = true)
    (hf : s.cur.curFrame.toNat + 1 = s.cur.reqFrames.toNat)
    (hg : s.cur.voicesPerFrame.toNat ≤ s.cur.maxUnlocked)
    (hi : s.idleBelow s.cur.voicesPerFrame.toNat = true) :
    renderAudio s =
      (do finalizeFrame; modify fun u => u.nextFrame.renderDone : Act Unit)
        (s.atVoice (max s.cur.curVoice.toNat s.cur.voicesPerFrame.toNat)).frameDone := by
  have hleft : s.cur.framesLeft = 1 := by
    unfold Cursors.framesLeft
    omega
  have ha : s.atVoice s.cur.curVoice.toNat = s := by simp [State.atVoice]
  have hvoices : renderVoices s.cur.voicesLeft s =
      .ok false (s.atVoice (max s.cur.curVoice.toNat s.cur.voicesPerFrame.toNat)) := by
    have hsum : s.cur.curVoice.toNat + s.cur.voicesLeft = max s.cur.curVoice.toNat s.cur.voicesPerFrame.toNat := by
      unfold Cursors.voicesLeft
      omega
    have hv := s.cur.curVoice.isLt
    have hn := s.cur.voicesPerFrame.isLt
    have h := renderVoices_idle (s := s) s.cur.voicesLeft s.cur.curVoice.toNat (by omega)
      (fun w h1 h2 h3 => State.idleBelow_iff.mp hi w (by omega) h1)
    rwa [ha, if_pos (by omega), hsum] at h
  unfold renderAudio
  rw [Act.get_bind, hleft]
  unfold renderFrames
  rw [Act.bind_ok (prepareFrame_open hp), Act.get_bind, Act.bind_ok hvoices]
  exact closeFrame_bind _ _

theorem resumeRender_idle {s t : State} (h : renderAudio s = .ok ⟨⟩ t) (ht : t.mayDispatch = false) :
    resumeRender s = .ok ⟨⟩ t := by
  unfold resumeRender
  rw [Act.bind_ok h, Act.get_bind]
  split
  · exact runPendingCommands_idle ht
  · rfl

/-- The state once the last frame of a render is closed and the render is done, dispatch blocked unless `LIGHT`
(41_frame_ops.md R171 to R173). -/
def State.lastFrame (s : State) : State :=
  State.renderDone
    { s.frameDone.frameWritten with
      prepared := false
      cur := { s.cur with curVoice := 0, maxUnlocked := 0, syncHalf := false, curFrame := s.cur.reqFrames } }

theorem State.frameDone_light {s : State} (h : s.cfg.light = true) : s.frameDone = s := if_pos h

theorem State.frameDone_default {s : State} (h : s.cfg.light = false) :
    s.frameDone = s.pushEvent (frameDoneWord s.cur.curFrame) := if_neg (Bool.eq_false_iff.mp h)

theorem State.curFrame_last {s : State} (hf : s.cur.curFrame.toNat + 1 = s.cur.reqFrames.toNat) :
    s.cur.curFrame + 1 = s.cur.reqFrames :=
  BitVec.eq_of_toNat_eq ((toNat_add_one_of_lt (x := s.cur.curFrame) (y := s.cur.reqFrames) (by omega)).trans hf)

theorem renderAudio_lastFrame {s : State} (hclose : s.canCloseFrame = true)
    (hf : s.cur.curFrame.toNat + 1 = s.cur.reqFrames.toNat)
    (hg : s.cur.voicesPerFrame.toNat ≤ s.cur.maxUnlocked)
    (hi : s.idleBelow s.cur.voicesPerFrame.toNat = true) : renderAudio s = .ok ⟨⟩ s.lastFrame := by
  have hnext := State.curFrame_last hf
  rw [renderAudio_last (State.prepared_of_canCloseFrame hclose) hf hg hi]
  cases hl : s.cfg.light with
  | true =>
    rw [State.lastFrame, State.frameDone_light hl, State.frameDone_light (s := s.atVoice _) hl, ← hnext]
    exact Act.bind_ok (finalizeFrame_quiet ((State.canCloseFrame_progress s _ s.evt s.irq).trans hclose))
  | false =>
    rw [State.lastFrame, State.frameDone_default hl, State.frameDone_default (s := s.atVoice _) hl, ← hnext]
    exact Act.bind_ok (finalizeFrame_quiet ((State.canCloseFrame_progress s _ _ _).trans hclose))

/-- Where a byte of the left output buffer does not answer, the last frame ends there, its event pushed already
(41_frame_ops.md R172, R178). -/
theorem renderAudio_lastBroken {s : State} {j : Nat} (hl : s.cfg.light = false) (hp : s.prepared = true)
    (ho : s.outValid = true) (hb : s.buses.full = true) (hf : s.cur.curFrame.toNat + 1 = s.cur.reqFrames.toNat)
    (hg : s.cur.voicesPerFrame.toNat ≤ s.cur.maxUnlocked) (hi : s.idleBelow s.cur.voicesPerFrame.toNat = true)
    (hj : j < 160) (hbreak : s.breaksAt s.outL j = true) :
    renderAudio s = .error .busError (State.leftBroken
      ((s.atVoice (max s.cur.curVoice.toNat s.cur.voicesPerFrame.toNat)).pushEvent
        (frameDoneWord s.cur.curFrame)) j) := by
  rw [renderAudio_last hp hf hg hi, State.frameDone_default (by exact hl)]
  exact Act.bind_error (finalizeFrame_leftBroken (s := (s.atVoice _).pushEvent _) hp ho hb hj hbreak)

/-- Settles O31: past 256 voices the loop yields, else the last frame is closed without an event of its own. -/
theorem sync0Advances : Obligations.Sync0Advances := by
  intro s hm hp c
  have hidle (n : Nat) : State.idleBelow { s with cur := c, irq := s.irq ++ [.lightSync] } n =
      State.idleBelow { s with cur := c } n :=
    State.idleBelow_congr (s := { s with cur := c }) (t := { s with cur := c, irq := s.irq ++ [.lightSync] })
      rfl rfl rfl rfl rfl n
  refine ⟨fun hf hv hg hi => ?yields, fun hl hclose hf hg hpend hi => ?done⟩
  case yields =>
    exact Act.outcome_ok (resumeRender_yield (s := { s with cur := c, irq := s.irq ++ [.lightSync] }) hm hp hf hv hg
      ((hidle 256).trans hi))
  case done =>
    have hlast := renderAudio_lastFrame (s := { s with cur := c, irq := s.irq ++ [.lightSync] })
      ((State.canCloseFrame_progress s _ _ _).trans hclose) hf hg ((hidle _).trans hi)
    have hidle : (State.lastFrame { s with cur := c, irq := s.irq ++ [.lightSync] }).mayDispatch = false :=
      State.mayDispatch_of_pending_zero (by simpa [State.lastFrame, State.frameWritten] using hpend)
    refine (Act.outcome_ok (act := resumeRender) (resumeRender_idle hlast hidle)).trans ?_
    simp [State.lastFrame, State.frameDone, State.frameWritten, State.renderDone, State.pushEvent, renderDoneWord,
      hl, c]

/-- Settles O32: the frame's event is pushed before the output is written, the render's once the frame is closed. -/
theorem syncCompletesRender : Obligations.SyncCompletesRender := by
  intro s batch mask hm hl hf hg masks hi
  have hi' := (State.idleBelow_congr (s := { s with cur := { s.cur with skipFlags := masks } })
    (t := { s with cur := s.cur.unlockBatch batch mask }) rfl rfl rfl rfl rfl _).trans hi
  constructor
  · intro hclose
    have hlast := renderAudio_lastFrame (s := { s with cur := s.cur.unlockBatch batch mask })
      ((State.canCloseFrame_progress s _ s.evt s.irq).trans hclose) hf hg hi'
    have hdone := resumeRender_idle hlast (by simp [State.mayDispatch, State.lastFrame, State.frameWritten, hl])
    refine (Act.outcome_ok (act := resumeRender) hdone).trans ?_
    simp [State.lastFrame, State.frameDone, State.frameWritten, State.renderDone, State.pushEvent, renderDoneWord,
      frameDoneWord, Cursors.unlockBatch, hl, masks]
  · intro hp ho hb j hj hbreak
    exact Act.outcome_error (act := resumeRender) (Act.bind_error
      (renderAudio_lastBroken (s := { s with cur := s.cur.unlockBatch batch mask }) hl hp ho hb hf hg hi' hj hbreak))

/-! ### START_RENDER (40_commands.md R142) -/

/-- A fresh gate locks every voice: the render opens its first frame and stops at its first voice. -/
theorem renderAudio_first {s : State} (ho : s.canOpenFrame = true)
    (hf : s.cur.curFrame.toNat < s.cur.reqFrames.toNat) (hv : s.cur.curVoice.toNat < s.cur.voicesPerFrame.toNat)
    (hg : s.cur.maxUnlocked = 0) : renderAudio s = .ok ⟨⟩ s.frameOpen := by
  have hyield : renderVoices s.frameOpen.cur.voicesLeft s.frameOpen = .ok true s.frameOpen := by
    obtain ⟨n, hn⟩ : ∃ n, s.frameOpen.cur.voicesLeft = n + 1 :=
      ⟨s.cur.voicesLeft - 1, by show s.cur.voicesLeft = _; unfold Cursors.voicesLeft; omega⟩
    have hg' : s.frameOpen.cur.maxUnlocked = 0 := hg
    rw [hn, renderVoices_succ, if_pos (by omega)]
  rw [renderAudio_frame hf, Act.bind_ok (prepareFrame_quiet ho), Act.get_bind, Act.bind_ok hyield]
  rfl

/-- Frames without voices, each of which can be opened and closed, are rendered one after another. -/
theorem renderFrames_voicelessAll {n : Nat} {s : State} (hv : s.cur.voicesPerFrame = 0)
    (h : ∀ j < n, (State.voicelessFrame^[j] s).canOpenFrame = true ∧
      (State.voicelessFrame^[j] s).frameOpen.canCloseFrame = true) :
    renderFrames n s = .ok ⟨⟩ (State.voicelessFrame^[n] s).renderDone := by
  induction n generalizing s with
  | zero => rfl
  | succ n ih =>
    obtain ⟨ho, hc⟩ := h 0 (Nat.succ_pos n)
    have hleft : s.cur.voicesLeft = 0 := by
      rw [Cursors.voicesLeft, hv]
      exact Nat.zero_sub _
    rw [renderFrames_voiceless (s := s) ho hc hleft]
    exact ih (s := s.voicelessFrame) hv fun j hj => h (j + 1) (Nat.succ_lt_succ hj)

/-- What `j` frames without voices leave of a render that began in `s`: the cursors, the output addresses, the
events, and the registers that decide on dispatch (41_frame_ops.md R171, R172, R178). -/
structure State.VoicelessAfter (s t : State) (j : Nat) : Prop where
  cfg : t.cfg = s.cfg
  canExecute : t.canExecute = s.canExecute
  cur : t.cur = { s.cur with curFrame := BitVec.ofNat 16 j }
  outL : t.outL = s.outL + 160 * BitVec.ofNat 32 j
  outR : t.outR = s.outR + 160 * BitVec.ofNat 32 j
  evt : t.evt = s.evt ++ (if s.cfg.light then [] else (List.range j).map fun i => 0x20000000 + BitVec.ofNat 32 i)
  prepared : j ≠ 0 → t.prepared = false

theorem State.voicelessAfter_zero {s : State} (h : s.cur.curFrame = 0) : s.VoicelessAfter s 0 where
  cfg := rfl
  canExecute := rfl
  cur := congrArg (fun f => ({ s.cur with curFrame := f } : Cursors)) h
  outL := by simp
  outR := by simp
  evt := by simp
  prepared := fun h => absurd rfl h

theorem addr_add_block (a : Addr) (j : Nat) :
    a + 160 * BitVec.ofNat 32 j + 160 = a + 160 * BitVec.ofNat 32 (j + 1) := by
  rw [BitVec.ofNat_add, BitVec.mul_add, BitVec.add_assoc]
  rfl

/-- One frame more. -/
theorem State.VoicelessAfter.succ {s t : State} {j : Nat} (h : s.VoicelessAfter t j) (hj : j < 2 ^ 16)
    (hs : s.cur = { s.cur with curVoice := 0, maxUnlocked := 0, syncHalf := false }) :
    s.VoicelessAfter t.voicelessFrame (j + 1) where
  cfg := h.cfg
  canExecute := h.canExecute
  cur := by
    show ({ t.cur with
      curVoice := 0, maxUnlocked := 0, syncHalf := false, curFrame := t.cur.curFrame + 1 } : Cursors) = _
    rw [h.cur, hs, BitVec.ofNat_add]
    rfl
  outL := (congrArg (· + 160) h.outL).trans (addr_add_block _ j)
  outR := (congrArg (· + 160) h.outR).trans (addr_add_block _ j)
  evt := by
    have hword : t.cur.curFrame.setWidth 32 = BitVec.ofNat 32 j := by
      rw [h.cur]
      apply BitVec.eq_of_toNat_eq
      simp
      omega
    show (if t.cfg.light then t.evt else t.evt ++ [0x20000000 + t.cur.curFrame.setWidth 32]) = _
    rw [h.cfg, h.evt, hword]
    cases s.cfg.light <;> simp [List.range_succ]
  prepared := fun _ => rfl

theorem State.voicelessAfter_iterate {s : State}
    (hs : s.cur = { s.cur with curFrame := 0, curVoice := 0, maxUnlocked := 0, syncHalf := false }) {j : Nat}
    (hj : j ≤ 2 ^ 16) : s.VoicelessAfter (State.voicelessFrame^[j] s) j := by
  induction j with
  | zero => exact State.voicelessAfter_zero (by rw [hs])
  | succ j ih =>
    rw [Function.iterate_succ_apply']
    exact (ih (by omega)).succ hj (by rw [hs])

/-- Settles O19: where the loop stops from fresh cursors. -/
theorem startRenderResult : Obligations.StartRenderResult := by
  intro sync voices frames vol outL outR s hs
  have hexec : exec (.startRender sync voices frames vol outL outR) s =
      Act.outcome renderAudio (s.startRender voices frames vol outL outR) :=
    Act.outcome_congr (doStartRender_configured hs voices frames vol outL outR)
  have hpos {x : Half} (hx : x ≠ 0) : (0 : Half).toNat < x.toNat :=
    Nat.pos_of_ne_zero fun h => hx (BitVec.eq_of_toNat_eq h)
  refine ⟨fun hf hv ho => ?first, fun hf => ?none, fun hv => ?voiceless⟩
  case first =>
    have h := renderAudio_first ((s.canOpenFrame_startRender voices frames vol outL outR).trans ho) (hpos hf)
      (hpos hv) rfl
    exact hexec.trans (Act.outcome_ok h)
  case none =>
    subst hf
    exact hexec.trans (Act.outcome_ok (renderAudio_done rfl))
  case voiceless =>
    intro s₀ hall t
    subst hv
    have ha := State.voicelessAfter_iterate (s := s₀) (j := frames.toNat) rfl frames.isLt.le
    have hrun : renderAudio s₀ = .ok ⟨⟩ t.renderDone := renderFrames_voicelessAll (n := frames.toNat) rfl hall
    have hwide : BitVec.ofNat 32 frames.toNat = frames.setWidth 32 := BitVec.ofNat_toNat ..
    refine ⟨hexec.trans ((Act.outcome_ok (act := renderAudio) hrun).trans ?_), ?_, hwide ▸ ha.outL,
      hwide ▸ ha.outR, ha.evt, fun hf => ha.prepared ?_⟩
    · have hx : (t.canExecute && t.cfg.light) = (s.canExecute && s.cfg.light) := by rw [ha.canExecute, ha.cfg]
      rw [State.renderDone, hx]
      rfl
    · rw [ha.cur, BitVec.ofNat_toNat, BitVec.setWidth_eq]
    · exact fun h => hf (BitVec.eq_of_toNat_eq h)

end Sys2Proof.Machine
end

section
/-! The direct frame commands (41_frame_ops.md R170, R174, R176, R178, R180 to R182; 44_reverb.md R290): what opens
and what closes a frame, with silent reverb and around the four reverb units. -/

namespace Sys2Proof.Machine

/-! ### Operations in sequence -/

/-- What follows the four units runs after unit 3 (44_reverb.md R290). -/
theorem forUnits_bind {α : Type} (unit : Nat → Act Unit) (f : Unit → Act α) :
    forUnits unit >>= f = (do unit 0; unit 1; unit 2; unit 3; f ⟨⟩) := by
  simp only [forUnits, bind_assoc]

/-- An operation that completes is acknowledged in the state it leaves (40_commands.md R138). -/
theorem Act.outcome_acknowledged {act : Act Unit} {s t : State} {a : Unit} (h : act s = .ok a t) (sync : BitVec 7) :
    (do act; ack sync : Act Unit).outcome s = .next (t.pushEvent (ackWord sync)) :=
  Act.outcome_ok (a := ⟨⟩) (Act.bind_ok h)

/-! ### `PREPARE_FRAME` (41_frame_ops.md R174, R180) -/

/-- Where no frame is open, the rule's steps around the four units. -/
theorem prepareFrame_units {s : State} (hp : s.prepared = false) (hs : s.setupDone = true) :
    prepareFrame s =
      (do
        modify fun u => { u with buses := prepareBuses u.cfg u.buses }
        preUnit 0
        preUnit 1
        preUnit 2
        preUnit 3
        modify State.closePrepare : Act Unit) s := by
  have hsteps : prepareFrame s =
      (do modify fun u => { u with buses := prepareBuses u.cfg u.buses }
          applyReverbPre
          modify State.closePrepare : Act Unit) s := by
    simp [prepareFrame, hp, hs]
  rw [hsteps, applyReverbPre]
  simp only [forUnits_bind]

/-- Settles O22: the quiet frame by `prepareFrame_quiet`, the order around the units by `prepareFrame_units`. -/
theorem prepareFrameResult : Obligations.PrepareFrameResult :=
  ⟨fun sync _ ho => Act.outcome_acknowledged (prepareFrame_quiet ho) sync,
    fun _ hp => prepareFrame_open hp,
    fun _ hp hs => prepareFrame_units hp hs,
    fun _ _ => rfl⟩

/-! ### `FINALIZE_FRAME` (41_frame_ops.md R178, R182) -/

theorem finalizeFrame_closed {s : State} (h : s.prepared = false) : finalizeFrame s = .ok ⟨⟩ s := by
  simp [finalizeFrame, h]

/-- Where a frame is open and an output is set, the rule's steps up to the four units and behind them. -/
theorem finalizeFrame_units {s : State} (hp : s.prepared = true) (ho : s.outValid = true) :
    finalizeFrame s =
      (do
        modify State.scaleFront
        let u ← get
        storeWords u.outL u.buses.fl
        storeWords u.outR u.buses.fr
        modify State.advanceOut
        postUnit 0
        postUnit 1
        postUnit 2
        postUnit 3
        modify fun u => { u with prepared := false } : Act Unit) s := by
  have hsteps : finalizeFrame s =
      (do writeFrame
          applyReverbPost
          modify fun u => { u with prepared := false } : Act Unit) s := by
    simp [finalizeFrame, hp, ho]
  rw [hsteps, applyReverbPost]
  simp only [forUnits_bind, writeFrame, bind_assoc]

/-- Settles O28: nothing to close, a quiet frame, the order around the units, and the first byte that breaks. -/
theorem finalizeFrameResult : Obligations.FinalizeFrameResult := by
  intro sync s
  refine ⟨fun hp => Act.outcome_acknowledged (finalizeFrame_closed hp) sync,
    fun hc => Act.outcome_acknowledged (finalizeFrame_quiet hc) sync, rfl,
    fun hp ho => finalizeFrame_units hp ho, fun hp ho hb j hj => ⟨fun hl => ?left, fun hl hr => ?right⟩⟩
  case left => exact Act.outcome_error (Act.bind_error (finalizeFrame_leftBroken hp ho hb hj hl))
  case right => exact Act.outcome_error (Act.bind_error (finalizeFrame_rightBroken hp ho hb hj hl hr))

end Sys2Proof.Machine
end

section
/-! What the host finds in the two output buffers of a closed frame (41_frame_ops.md R178; 20_memory.md R63, R78). -/

namespace Sys2Proof.Machine

/-! ### A run of words in memory -/

theorem addr_odd (a : Addr) (k : Nat) : a + BitVec.ofNat 32 (2 * k) + 1 = a + BitVec.ofNat 32 (2 * k + 1) := by
  rw [BitVec.add_assoc, BitVec.ofNat_add]
  rfl

/-- Words whose bytes stand in memory one after another, every address answering, read back big-endian. -/
theorem State.read16?_of_bytes {s : State} {a : Addr} {ws : List Half} {n : Nat} (ha : s.answers a (2 * n) = true)
    (hb : ∀ i < 2 * n, s.byteAt .main (a + BitVec.ofNat 32 i) = (ws.flatMap halfBytes).getD i 0)
    {k : Nat} (hk : k < n) : s.read16? .main (a + BitVec.ofNat 32 (2 * k)) = some (ws.getD k 0) := by
  have hread : ∀ i < 2 * n, s.read8? .main (a + BitVec.ofNat 32 i) = some ((ws.flatMap halfBytes).getD i 0) :=
    fun i hi => by rw [State.read8?_eq_some (State.answers_iff.mp ha i hi), hb i hi]
  obtain ⟨hhi, hlo⟩ := flatMap_halfBytes_getD ws k
  rw [State.read16?_eq_some_iff, addr_odd, ← hhi, ← hlo]
  exact ⟨hread (2 * k) (by omega), hread (2 * k + 1) (by omega)⟩

/-- A run of stores at addresses that all answer reads back. -/
theorem storeBytes_read_of_answers {s : State} {m : Memory} {a : Addr} {bs : List Byte} (hm : m.wf = true)
    (hlen : bs.length = 160) (ha : s.answers a 160 = true) {i : Nat} (hi : i < 160) :
    (storeBytes (s.cfg.mapped .main) m a bs).1.read (a + BitVec.ofNat 32 i).toNat = bs.getD i 0 :=
  storeBytes_read_inside _ bs m a i hm (by omega)
    (storeBytes_ok _ bs m a (by rw [hlen]; exact State.answers_iff.mp ha)) (by omega)

/-! ### The samples stored -/

theorem scale_eq_div (g v : Int) (n : Nat) : scale g v n = clamp16 (v * g / 2 ^ n) := by
  rw [scale, asr, Int.shiftRight_eq_div_pow, Int.mul_comm]
  rfl

/-- A sample of a bus scaled by a 4.12 volume: floored and clamped (41_frame_ops.md R170). -/
theorem scaledBus_getD (vol : Half) {bus : List Sample} {k : Nat} (hk : k < bus.length) :
    (bus.map fun x => scale vol.toNat x.toInt 12).getD k 0 =
      clamp16 (((bus.getD k 0).toInt * vol.toNat) / 4096) := by
  simp [List.getD_eq_getElem?_getD, hk, scale_eq_div]

/-- A buffer that holds a scaled bus, as the host reads it. -/
theorem State.read16?_scaledBus {s : State} {a : Addr} {vol : Half} {bus : List Sample} (hbus : bus.length = 80)
    (ha : s.answers a 160 = true)
    (hb : ∀ i < 160, s.byteAt .main (a + BitVec.ofNat 32 i) =
      ((bus.map fun x => scale vol.toNat x.toInt 12).flatMap halfBytes).getD i 0) {k : Nat} (hk : k < 80) :
    s.read16? .main (a + BitVec.ofNat 32 (2 * k)) =
      some (clamp16 (((bus.getD k 0).toInt * vol.toNat) / 4096)) := by
  rw [State.read16?_of_bytes (n := 80) ha hb hk, scaledBus_getD vol (hk.trans_eq hbus.symm)]

/-! ### The two buffers -/

/-- The bytes of the left output buffer (20_memory.md R63, R78). -/
def State.leftBytes (s : State) : List Byte := s.scaledFront.fl.flatMap halfBytes

/-- The bytes of the right output buffer (20_memory.md R63, R78). -/
def State.rightBytes (s : State) : List Byte := s.scaledFront.fr.flatMap halfBytes

theorem State.outputBytes_length {s : State} (hb : s.buses.full = true) :
    s.leftBytes.length = 160 ∧ s.rightBytes.length = 160 := by
  have hl : s.buses.fl.length = 80 := Buses.length_get hb .fl
  have hr : s.buses.fr.length = 80 := Buses.length_get hb .fr
  simp only [State.leftBytes, State.rightBytes, State.scaledFront, flatMap_halfBytes_length, List.length_map, hl, hr,
    and_self]

section
variable {s : State} (hb : s.buses.full = true)
include hb

/-- A byte outside the right buffer is as the left store left it. -/
theorem State.frameWritten_byteAt_notRight {a : Addr} (ha : ∀ j < 160, a ≠ s.outR + BitVec.ofNat 32 j) :
    s.frameWritten.byteAt .main a =
      (storeBytes (s.cfg.mapped .main) s.main s.outL s.leftBytes).1.read a.toNat :=
  storeBytes_read_outside _ s.rightBytes _ s.outR a (by rw [(State.outputBytes_length hb).2]; exact ha)

theorem State.frameWritten_byteAt_outside {a : Addr}
    (ha : ∀ i < 160, a ≠ s.outL + BitVec.ofNat 32 i ∧ a ≠ s.outR + BitVec.ofNat 32 i) :
    s.frameWritten.byteAt .main a = s.byteAt .main a :=
  (State.frameWritten_byteAt_notRight hb fun i hi => (ha i hi).2).trans
    (storeBytes_read_outside _ s.leftBytes s.main s.outL a
      (by rw [(State.outputBytes_length hb).1]; exact fun i hi => (ha i hi).1))

variable (hm : s.memoryInv = true)
include hm

theorem State.frameWritten_byteAt_right (hr : s.answers s.outR 160 = true) {j : Nat} (hj : j < 160) :
    s.frameWritten.byteAt .main (s.outR + BitVec.ofNat 32 j) = s.rightBytes.getD j 0 :=
  storeBytes_read_of_answers (storeBytes_wf _ _ _ _ (s.memoryInv_iff.mp hm).1) (State.outputBytes_length hb).2 hr hj

/-- The store of the right buffer leaves the left one, where the two do not meet. -/
theorem State.frameWritten_byteAt_left (hl : s.answers s.outL 160 = true)
    (hd : ∀ i < 160, ∀ j < 160, s.outL + BitVec.ofNat 32 i ≠ s.outR + BitVec.ofNat 32 j) {i : Nat} (hi : i < 160) :
    s.frameWritten.byteAt .main (s.outL + BitVec.ofNat 32 i) = s.leftBytes.getD i 0 :=
  (State.frameWritten_byteAt_notRight hb (hd i hi)).trans
    (storeBytes_read_of_answers (s.memoryInv_iff.mp hm).1 (State.outputBytes_length hb).1 hl hi)

end

/-- Settles O29: the right store leaves the left buffer as it was stored, and each buffer reads back. -/
theorem finalizeOutput : Obligations.FinalizeOutput := by
  intro sync s hc hm hd
  have hopen := hc
  simp only [State.canCloseFrame, Bool.and_eq_true] at hopen
  obtain ⟨⟨⟨⟨⟨-, -⟩, hb⟩, hl⟩, hr⟩, -⟩ := hopen
  refine ⟨_, Act.outcome_ok (Act.bind_ok (finalizeFrame_quiet hc)), rfl, rfl, fun k hk => ⟨?left, ?right⟩,
    fun a ha => State.frameWritten_byteAt_outside hb ha⟩
  case left =>
    exact State.read16?_scaledBus (s := s.frameWritten) (Buses.length_get hb .fl) hl
      (fun i hi => State.frameWritten_byteAt_left hb hm hl hd hi) hk
  case right =>
    exact State.read16?_scaledBus (s := s.frameWritten) (Buses.length_get hb .fr) hr
      (fun j hj => State.frameWritten_byteAt_right hb hm hr hj) hk

end Sys2Proof.Machine
end

section
/-! `ADD_VOICE` (41_frame_ops.md R181; 42_voice_mix.md R200, R204, R225; 20_memory.md R69): the frame opened, then a
voice passed over, one whose samples halt, and one that is mixed and stored. -/

namespace Sys2Proof.Machine

/-! ### A record that was read -/

/-- Every byte of a run of words that was read answers (20_memory.md R66). -/
theorem State.mapped_of_words? {s : State} {sp : Space} {n : Nat} {a : Addr} {ws : List Half}
    (h : s.words? sp n a = some ws) {j : Nat} (hj : j < 2 * n) : s.cfg.mapped sp (a + BitVec.ofNat 32 j) = true := by
  have hmapped {b : Addr} {x : Byte} (hr : s.read8? sp b = some x) : s.cfg.mapped sp b = true := by
    by_contra hb
    cases (if_neg hb).symm.trans hr
  obtain ⟨hhi, hlo⟩ := State.read16?_eq_some_iff.mp ((State.words?_eq_some_iff.mp h).2 (j / 2) (by omega))
  rw [addr_odd] at hlo
  obtain hk | hk : j = 2 * (j / 2) ∨ j = 2 * (j / 2) + 1 := by omega
  · rw [hk]; exact hmapped hhi
  · rw [hk]; exact hmapped hlo

/-- Storing as many words as were read completes, and stores all of them (20_memory.md R69). -/
theorem storeWords_of_words? {s : State} {n : Nat} {a : Addr} {old ws : List Half}
    (h : s.words? .main n a = some old) (hlen : ws.length = n) :
    storeWords a ws s = .ok ⟨⟩ { s with main := (storeBytes (fun _ => true) s.main a (ws.flatMap halfBytes)).1 } := by
  have hans : ∀ i < 2 * ws.length, s.cfg.mapped .main (a + BitVec.ofNat 32 i) = true :=
    fun i hi => State.mapped_of_words? h (by omega)
  rw [storeWords_ok hans, storeBytes_all _ _ _ _ (by rw [flatMap_halfBytes_length]; exact hans)]

/-- Opening a frame leaves every voice's record alone. -/
theorem State.words?_frameOpen (s : State) (n : Nat) (a : Addr) :
    s.frameOpen.words? .main n a = s.words? .main n a :=
  State.words?_congr (sp := .main) (s := s) (t := s.frameOpen) rfl rfl n a

/-! ### The steps of `AddVoice` (42_voice_mix.md R200) -/

theorem addVoice_enabled {s : State} {v : Half} {ws : List Half}
    (h : s.words? .main s.cfg.vpbWords (s.vpbAddr v) = some ws) (he : (s.cfg.expand ws).enabled ≠ 0)
    (hdone : (s.cfg.expand ws).done = 0) (hd : voiceDefect s.cfg (s.cfg.expand ws) = none) :
    addVoice v s = mixEnabledVoice v (s.cfg.expand ws) s := by
  unfold addVoice
  rw [Act.bind_ok (vpbFetch_ok h), if_neg (not_or.mpr ⟨he, not_not.mpr hdone⟩), Act.get_bind, hd]

/-- Loading the samples of a valid voice halts with `BUS_ERROR` only, nothing done (60_exceptions.md R312). -/
theorem loadVoiceSamples_error {p : Platform} {f : Vpb} (hd : voiceDefect p f = none) {s t : State} {cause : HaltCause}
    (h : loadVoiceSamples f s = .error cause t) : cause = .busError ∧ t = s.haltWith .busError := by
  obtain ⟨r, hr⟩ | hr := loadVoiceSamples_readsOnly (voiceDefect_eq_none hd) s
  · cases hr.symm.trans h
  · cases hr.symm.trans h
    exact ⟨rfl, rfl⟩

/-- The mode is Dolby where the voice asks for it and `LIGHT` is off (42_voice_mix.md R204). -/
theorem mixVoice_eq (p : Platform) (t : Tables) (voice : List Sample) (f : Vpb) (b : Buses) :
    mixVoice p t voice f b =
      if f.useDolby ≠ 0 ∧ p.light = false then mixDolby p t voice f b else mixChannels p voice f b := by
  have hmode : p.dolbyActive f = true ↔ f.useDolby ≠ 0 ∧ p.light = false := by simp [Platform.dolbyActive]
  simp only [mixVoice, hmode]

theorem State.words?_buses (s : State) (b : Buses) (n : Nat) (a : Addr) :
    State.words? { s with buses := b } .main n a = s.words? .main n a :=
  State.words?_congr (s := s) (t := { s with buses := b }) (sp := .main) rfl rfl n a

/-- A voice whose samples were loaded is mixed, and its record stored. -/
theorem mixEnabledVoice_loaded {s : State} {v : Half} {ws : List Half} {voice : List Sample} {f : Vpb}
    {m : Vpb × Buses} (h : s.words? .main s.cfg.vpbWords (s.vpbAddr v) = some ws)
    (hr : loadVoiceSamples (s.cfg.expand ws) s = .ok (voice, f) s)
    (hm : mixVoice s.cfg s.tables voice (endRequest s.cfg f) s.buses = m) :
    mixEnabledVoice v (s.cfg.expand ws) s = .ok ⟨⟩
      { s with
        buses := m.2
        main := (storeBytes (fun _ => true) s.main (s.vpbAddr v)
          ((s.cfg.pack (clearReset m.1)).flatMap halfBytes)).1 } := by
  have hlen := expand_length (State.words?_length h)
  have hstored : (clearReset m.1).length = 0xC0 := hm ▸ (storedImage_within (p := s.cfg) hlen hr).1.trans hlen
  have hrecord := (s.words?_buses m.2 s.cfg.vpbWords (s.vpbAddr v)).trans h
  unfold mixEnabledVoice
  rw [Act.bind_ok hr]
  dsimp only
  rw [Act.get_bind, hm]
  exact storeWords_of_words? hrecord (pack_length hstored)

/-! ### The command -/

/-- `ADD_VOICE` where the frame opens: the voice is added in the open frame, then acknowledged. -/
theorem execAddVoice_open {s : State} (ho : s.canOpenFrame = true) (sync : BitVec 7) (v : Half) :
    exec (.addVoice sync v) s = (do addVoice v; ack sync : Act Unit).outcome s.frameOpen :=
  Act.outcome_congr (act := doAddVoice sync v) (Act.bind_ok (prepareFrame_quiet ho))

/-- Settles O23: in the open frame the voice is passed over. -/
theorem addVoiceSkips : Obligations.AddVoiceSkips := by
  intro sync v s ws ho hws hskip
  have hadd : addVoice v s.frameOpen = .ok () s.frameOpen := addVoice_skip ((s.words?_frameOpen _ _).trans hws) hskip
  exact (execAddVoice_open ho sync v).trans (Act.outcome_acknowledged hadd sync)

/-- Settles O24: the order is the command's own; the rest is the voice in the open frame. -/
theorem addVoiceMixes : Obligations.AddVoiceMixes := by
  refine ⟨fun _ _ _ => rfl, fun sync v s t ws cause ho hws he hdone hd hload => ?halts,
    fun sync v s ws voice f ho hws he hdone hd hload => ?mixes⟩
  case halts =>
    have hhalt : addVoice v s.frameOpen = .error cause t :=
      (addVoice_enabled ((s.words?_frameOpen _ _).trans hws) he hdone hd).trans (Act.bind_error hload)
    exact ⟨(execAddVoice_open ho sync v).trans (Act.outcome_error (Act.bind_error hhalt)),
      loadVoiceSamples_error hd hload⟩
  case mixes =>
    have hopen := (s.words?_frameOpen s.cfg.vpbWords (s.vpbAddr v)).trans hws
    have hadd := (addVoice_enabled hopen he hdone hd).trans (mixEnabledVoice_loaded hopen hload (mixVoice_eq ..))
    exact (execAddVoice_open ho sync v).trans (Act.outcome_acknowledged hadd sync)

end Sys2Proof.Machine
end

section
/-! The gain ramp over whole buses (42_voice_mix.md R201, R202) and the arithmetic it is written in (00_scope.md R10):
the ramp on words for any volume and step, the ramp from one volume to another, and the ramps that stand still. -/

namespace Sys2Proof.Machine

/-! ### Narrowing (00_scope.md R10) -/

theorem toInt_clamp16 (v : Int) : (clamp16 v).toInt = max (-32768) (min 32767 v) := by
  unfold clamp16
  split
  · have hv : max (-32768) (min 32767 v) = -32768 := by omega
    rw [hv]
    rfl
  · split
    · have hv : max (-32768) (min 32767 v) = 32767 := by omega
      rw [hv]
      rfl
    · rw [BitVec.toInt_ofInt, Int.bmod_eq_of_le (by omega) (by omega)]
      omega

theorem asr_eq_div (v : Int) (n : Nat) : asr v n = v / 2 ^ n := by
  rw [asr, Int.shiftRight_eq_div_pow]
  rfl

/-! ### Volumes as accumulators (42_voice_mix.md R210) -/

theorem wrap32_toInt (v : Word) : wrap32 v.toInt = v := BitVec.ofInt_toInt

theorem toInt_accum (c : Sample) : (accum c).toInt = c.toInt * 65536 := by
  have hlo := c.le_toInt
  have hhi := c.toInt_lt
  rw [accum, wrap32, BitVec.toInt_ofInt, Int.bmod_eq_of_le (by omega) (by omega)]

theorem toInt_highHalf (v : Word) : (highHalf v).toInt = v.toInt / 65536 := by
  have hlo := v.le_toInt
  have hhi := v.toInt_lt
  have hv := highHalf_wrap32 v.toInt
  rw [wrap32_toInt] at hv
  rw [hv, BitVec.toInt_ofInt, Int.bmod_eq_of_le (by omega) (by omega)]

theorem toInt_sshiftRight_sixteen (v : Word) : (v.sshiftRight 16).toInt = (highHalf v).toInt := by
  rw [toInt_highHalf, BitVec.toInt_sshiftRight, Int.shiftRight_eq_div_pow]
  rfl

theorem highHalf_accum (c : Sample) : highHalf (accum c) = c := by
  apply BitVec.eq_of_toInt_eq
  rw [toInt_highHalf, toInt_accum]
  exact Int.mul_ediv_cancel _ (by decide)

/-! ### The step (42_voice_mix.md R201) -/

/-- The largest delta is 65535 volumes, so the quotient is far from the ends of 32 bits. -/
theorem natAbs_rampQuotient_le (cur tgt : Sample) :
    (((tgt.toInt - cur.toInt) * 65536).tdiv 80).natAbs ≤ 53686272 := by
  have hc := cur.le_toInt; have hc' := cur.toInt_lt
  have ht := tgt.le_toInt; have ht' := tgt.toInt_lt
  rw [Int.natAbs_tdiv]
  exact Nat.div_le_of_le_mul (by omega)

theorem toInt_rampStep (cur tgt : Sample) :
    (rampStep cur tgt).toInt = ((tgt.toInt - cur.toInt) * 65536).tdiv 80 := by
  have hq := natAbs_rampQuotient_le cur tgt
  rw [rampStep, wrap32, BitVec.toInt_ofInt, Int.bmod_eq_of_le (by omega) (by omega)]

theorem rampStep_self (c : Sample) : rampStep c c = 0 := by
  rw [rampStep, Int.sub_self]
  rfl

/-! ### A ramp over a bus -/

theorem wrap32_increments (vol step : Word) (k : Nat) :
    wrap32 (vol.toInt + k * step.toInt) = vol + BitVec.ofNat 32 k * step := by
  rw [wrap32, BitVec.ofInt_add, BitVec.ofInt_mul, BitVec.ofInt_toInt, BitVec.ofInt_toInt, BitVec.ofInt_natCast]

/-- A ramp of any volume and step: the accumulator it leaves, and sample `k` mixed with the volume after `k`
increments, both modulo 2^32 (42_voice_mix.md R201). -/
theorem mixRamp_words {bus src : List Sample} (h : src.length = bus.length) (vol step : Word) :
    (mixRamp bus src vol step).2 = vol + BitVec.ofNat 32 bus.length * step ∧
      ∀ k < bus.length, (mixRamp bus src vol step).1.getD k 0 =
        mixSample (highHalf (vol + BitVec.ofNat 32 k * step)).toInt (bus.getD k 0) (src.getD k 0) := by
  obtain ⟨hacc, hsample⟩ := mixRamp_wrap32 step.toInt h vol.toInt
  rw [wrap32_toInt, wrap32_toInt] at hacc hsample
  refine ⟨hacc.trans (wrap32_increments vol step _), fun k hk => ?_⟩
  rw [hsample k hk, ← highHalf_wrap32, wrap32_increments]

/-- A ramp from one volume to another over a whole bus (42_voice_mix.md R201). -/
theorem mixRamp_volumes {bus src : List Sample} (hbus : bus.length = 80) (hsrc : src.length = 80) (cur tgt : Sample) :
    (mixRamp bus src (accum cur) (rampStep cur tgt)).2 =
        wrap32 (cur.toInt * 65536 + 80 * ((tgt.toInt - cur.toInt) * 65536).tdiv 80) ∧
      ∀ k < 80, (mixRamp bus src (accum cur) (rampStep cur tgt)).1.getD k 0 =
        rampedSample cur tgt k (bus.getD k 0) (src.getD k 0) := by
  obtain ⟨hacc, hsample⟩ := mixRamp_wrap32 (((tgt.toInt - cur.toInt) * 65536).tdiv 80) (hsrc.trans hbus.symm)
    (cur.toInt * 65536)
  rw [hbus] at hacc hsample
  exact ⟨hacc, fun k hk => (hsample k hk).trans (mixSample_rampVolume cur tgt (Nat.le_of_lt hk) _ _)⟩

theorem mixRamp_cons_still (b x : Sample) (bus src : List Sample) (vol : Word) :
    mixRamp (b :: bus) (x :: src) vol 0 =
      (mixSample (highHalf vol).toInt b x :: (mixRamp bus src vol 0).1, (mixRamp bus src vol 0).2) := by
  rw [mixRamp, show vol + 0 = vol from BitVec.add_zero vol]

/-- A ramp that stands still scales every sample by the same volume (42_voice_mix.md R202). -/
theorem mixRamp_still {bus src : List Sample} (h : bus.length = src.length) (vol : Word) :
    mixRamp bus src vol 0 = (List.zipWith (mixSample (highHalf vol).toInt) bus src, vol) := by
  induction bus generalizing src with
  | nil => rfl
  | cons b bus ih =>
    obtain _ | ⟨x, src⟩ := src
    · cases h
    · rw [mixRamp_cons_still, ih (by simpa using h)]
      rfl

theorem scale_zero_left (v : Int) (n : Nat) : scale 0 v n = 0 := by
  rw [scale_eq_div, Int.mul_zero, Int.zero_ediv]
  rfl

theorem scale_zero_right (g : Int) (n : Nat) : scale g 0 n = 0 := by
  rw [scale_eq_div, Int.zero_mul, Int.zero_ediv]
  rfl

theorem mixSample_zero (b x : Sample) : mixSample 0 b x = b := by
  rw [mixSample, scale_zero_left]
  simp [wrap16_toInt]

/-- A ramp that stands at volume zero leaves the bus, however long the source is (42_voice_mix.md R202). -/
theorem mixRamp_silent (bus src : List Sample) : mixRamp bus src (accum 0) 0 = (bus, accum 0) := by
  have hg : (highHalf (accum 0)).toInt = 0 := by decide
  induction bus generalizing src with
  | nil => cases src <;> rfl
  | cons b bus ih =>
    cases src with
    | nil => rfl
    | cons x src => rw [mixRamp_cons_still, ih, hg, mixSample_zero]

/-! ### The obligations -/

/-- Settles O38: the narrowings by their ranges, the ramp from its closed form on words. -/
theorem mixRampSamples : Obligations.MixRampSamples := by
  refine ⟨fun v => ⟨toInt_clamp16 v, BitVec.toInt_ofInt .., BitVec.toInt_ofInt .., asr_eq_div v⟩,
    fun cur tgt => ⟨toInt_rampStep cur tgt, ?bound⟩, fun bus src vol step hbus hsrc => ?ramp⟩
  case bound =>
    rw [toInt_rampStep]
    exact natAbs_rampQuotient_le cur tgt
  case ramp =>
    obtain ⟨hacc, hsample⟩ := mixRamp_words (hsrc.trans hbus.symm) vol step
    rw [hbus] at hacc hsample
    refine ⟨(mixRamp_length ..).trans hbus, fun k hk => ?_, hacc⟩
    rw [hsample k hk, toInt_sshiftRight_sixteen]
    rfl

/-- From the second sample on, the ramp from 0 to -1 is at -1 (42_voice_mix.md R202). -/
theorem rampVolume_zero_negOne {k : Nat} (hk : k < 80) (h1 : 1 ≤ k) : rampVolume 0 (-1) k = -1 := by
  have hstep : (((-1 : Sample).toInt - (0 : Sample).toInt) * 65536).tdiv 80 = -819 := by decide
  have hcur : (0 : Sample).toInt = 0 := by decide
  rw [rampVolume, hstep, hcur]
  omega

/-- Settles O39: a zero delta stands still; every other end is the closed form of the ramp at its two volumes. -/
theorem rampSteps : Obligations.RampSteps := by
  refine ⟨toInt_accum, toInt_highHalf, rampStep_self, fun c bus src h => ?still, mixRamp_silent,
    by decide, by decide, by decide, by decide, by decide, fun bus src hbus hsrc => ?ends⟩
  case still =>
    rw [mixRamp_still h, highHalf_accum]
    rfl
  case ends =>
    have hend (cur tgt : Sample) := (mixRamp_volumes hbus hsrc cur tgt).1
    refine ⟨?_, ?_, ?_, ?_, fun k hk h1 => ?down, ?_, ?_, ?_, ?_⟩
    case down =>
      rw [(mixRamp_volumes hbus hsrc 0 (-1)).2 k hk, rampedSample, rampVolume_zero_negOne hk h1, asr_eq_div]
      rfl
    all_goals
      rw [hend]
      decide

end Sys2Proof.Machine
end

section
/-! What halts a voice before it is mixed (42_voice_mix.md R203; 60_exceptions.md R312), and the end request that fades
one out (42_voice_mix.md R205). -/

namespace Sys2Proof.Machine

/-! ### Validation (42_voice_mix.md R203) -/

/-- The source types that are not reserved (43_sources_resample.md R240). -/
def sourceTypes : List Nat := [0, 1, 2, 3, 4, 5, 8, 9, 10, 11, 12]

theorem SourceKind.ofType_eq_none_iff (t : Half) : SourceKind.ofType t = none ↔ t.toNat ∉ sourceTypes := by
  unfold SourceKind.ofType
  split <;> simp_all [sourceTypes]

/-- The mode is Dolby where the voice asks for it and `LIGHT` is off (42_voice_mix.md R204). -/
theorem dolbyActive_iff {p : Platform} {f : Vpb} :
    p.dolbyActive f = true ↔ f.useDolby ≠ 0 ∧ p.light = false := by
  simp [Platform.dolbyActive]

theorem dolbyActive_eq_false_iff {p : Platform} {f : Vpb} :
    p.dolbyActive f = false ↔ f.useDolby = 0 ∨ p.light = true := by
  rw [← Bool.not_eq_true, dolbyActive_iff, not_and_or, not_not, Bool.not_eq_false]

theorem voiceDefect_sourceType {p : Platform} {f : Vpb} (hc : f.useConstantSample = 0)
    (ht : f.sourceType.toNat ∉ sourceTypes) : voiceDefect p f = some .badSourceType :=
  if_pos ⟨hc, (SourceKind.ofType_eq_none_iff _).mpr ht⟩

/-- The destinations are checked where the source type passes, and in channel mode only. -/
theorem voiceDefect_of_source {p : Platform} {f : Vpb}
    (ht : f.useConstantSample ≠ 0 ∨ f.sourceType.toNat ∈ sourceTypes) :
    voiceDefect p f =
      if p.dolbyActive f = false ∧ ∃ c < p.channels, 10 < (f.destId c).toNat then some .badDestId else none := by
  have hs : ¬(f.useConstantSample = 0 ∧ SourceKind.ofType f.sourceType = none) := by
    rw [SourceKind.ofType_eq_none_iff]
    tauto
  rw [voiceDefect, if_neg hs]
  simp

/-! ### The halts -/

theorem addVoice_busError {s : State} {v : Half} (h : s.words? .main s.cfg.vpbWords (s.vpbAddr v) = none) :
    addVoice v s = .error .busError (s.haltWith .busError) := by
  have hread : readWords .main s.cfg.vpbWords (s.vpbAddr v) s = .error .busError (s.haltWith .busError) := ofRead_none h
  refine Act.bind_error ?_
  rw [vpbFetch, Act.get_bind]
  exact Act.bind_error hread

theorem addVoice_defect {s : State} {v : Half} {ws : List Half} {cause : HaltCause}
    (h : s.words? .main s.cfg.vpbWords (s.vpbAddr v) = some ws) (he : (s.cfg.expand ws).enabled ≠ 0)
    (hdone : (s.cfg.expand ws).done = 0) (hd : voiceDefect s.cfg (s.cfg.expand ws) = some cause) :
    addVoice v s = .error cause (s.haltWith cause) := by
  unfold addVoice
  rw [Act.bind_ok (vpbFetch_ok h), if_neg (not_or.mpr ⟨he, not_not.mpr hdone⟩), Act.get_bind, hd]
  rfl

/-- `ADD_VOICE` where the frame opens and the voice halts there: nothing but the halt is left of it. -/
theorem execAddVoice_halts {s : State} (ho : s.canOpenFrame = true) (sync : BitVec 7) {v : Half} {cause : HaltCause}
    (h : addVoice v s.frameOpen = .error cause (s.frameOpen.haltWith cause)) :
    exec (.addVoice sync v) s = .next { s.frameOpen with mode := .halted, haltCause := cause } :=
  (execAddVoice_open ho sync v).trans (Act.outcome_error (Act.bind_error h))

/-- Settles O25: the checks in their order, each of them in the open frame. -/
theorem addVoiceHalts : Obligations.AddVoiceHalts := by
  refine ⟨fun sync v s ho hws => ?record, fun sync v s ws ho hws he hdone =>
    ⟨fun hc ht => ?source, fun ht hm hd => ?dest, fun ht hm => ?valid⟩⟩
  case record => exact execAddVoice_halts ho sync (addVoice_busError ((s.words?_frameOpen _ _).trans hws))
  case source =>
    exact execAddVoice_halts ho sync
      (addVoice_defect ((s.words?_frameOpen _ _).trans hws) he hdone (voiceDefect_sourceType hc ht))
  case dest =>
    have hdefect : voiceDefect s.cfg (s.cfg.expand ws) = some .badDestId :=
      (voiceDefect_of_source ht).trans (if_pos ⟨dolbyActive_eq_false_iff.mpr hm, hd⟩)
    exact execAddVoice_halts ho sync (addVoice_defect ((s.words?_frameOpen _ _).trans hws) he hdone hdefect)
  case valid =>
    rw [voiceDefect_of_source ht]
    refine if_neg fun ⟨hch, c, hc, hd⟩ => ?_
    obtain ⟨hdolby, hlight⟩ | hall := hm
    · rw [dolbyActive_eq_false_iff, hlight] at hch
      exact hdolby (hch.resolve_right (by decide))
    · exact absurd hd (Nat.not_lt.mpr (hall c hc))

/-! ### Halving (42_voice_mix.md R205) -/

theorem toInt_halve (v : Sample) : (halve v).toInt = v.toInt.tdiv 2 := by
  have hlo := v.le_toInt
  have hhi := v.toInt_lt
  have habs : (v.toInt.tdiv 2).natAbs = v.toInt.natAbs / 2 := Int.natAbs_tdiv v.toInt 2
  rw [halve, BitVec.toInt_ofInt]
  apply Int.bmod_eq_of_le <;> omega

/-- Halving toward zero halves the magnitude, so `n` frames divide it by `2^n`. -/
theorem natAbs_iterate_halve (n : Nat) (v : Sample) : (halve^[n] v).toInt.natAbs = v.toInt.natAbs / 2 ^ n := by
  induction n with
  | zero => simp
  | succ n ih =>
    rw [Function.iterate_succ_apply', toInt_halve, Int.natAbs_tdiv, ih, Nat.pow_succ, ← Nat.div_div_eq_div_mul]
    rfl

/-- A volume's magnitude is at most 2^15, so 16 frames leave nothing of it. -/
theorem iterate_halve_sixteen (v : Sample) : halve^[16] v = 0 := by
  have hlo := v.le_toInt
  have hhi := v.toInt_lt
  have habs := natAbs_iterate_halve 16 v
  rw [Nat.div_eq_of_lt (by omega)] at habs
  exact BitVec.eq_of_toInt_eq (Int.natAbs_eq_zero.mp habs)

/-! ### The end request (42_voice_mix.md R205) -/

theorem endRequest_dolby {p : Platform} {f : Vpb} (he : f.endRequested ≠ 0) (hd : p.dolbyActive f = true) :
    endRequest p f = endDolby f := by
  rw [endRequest, if_neg he, if_pos hd]

theorem endRequest_channels {p : Platform} {f : Vpb} (he : f.endRequested ≠ 0) (hd : p.dolbyActive f = false) :
    endRequest p f = endChannels p.channels f := by
  rw [endRequest, if_neg he, hd]
  rfl

/-- The image with the first `n` channels' targets halved. -/
def Vpb.halveTargets (f : Vpb) (n : Nat) : Vpb :=
  (List.range n).foldl (fun f c => f.setTarget c (halve (f.target c))) f

/-- `done` set where a condition holds, as both modes of the end request do. -/
def Vpb.doneIf (f : Vpb) (c : Prop) [Decidable c] : Vpb := if c then f.setDone else f

theorem Vpb.halveTargets_succ (f : Vpb) (n : Nat) :
    f.halveTargets (n + 1) = (f.halveTargets n).setTarget n (halve ((f.halveTargets n).target n)) := by
  simp [Vpb.halveTargets, List.range_succ]

theorem Vpb.halveTargets_length (f : Vpb) (n : Nat) : (f.halveTargets n).length = f.length :=
  (halveTargets_within n (List.range n) (by simp) f).1

theorem Vpb.word_halveTargets_other (f : Vpb) {n i : Nat} (h : ∀ c < n, i ≠ 0x11 + 4 * c) :
    (f.halveTargets n).word i = f.word i :=
  (halveTargets_within n (List.range n) (by simp) f).2 i fun hi =>
    let ⟨c, hc, e⟩ := mem_channelWords_iff.mp hi
    h c hc e

/-- Each channel's target is halved once. -/
theorem Vpb.target_halveTargets {f : Vpb} (hf : f.length = 0xC0) {n : Nat} (hn : n ≤ 6) {c : Nat} (hc : c < n) :
    (f.halveTargets n).target c = halve (f.target c) := by
  induction n with
  | zero => exact absurd hc (Nat.not_lt_zero c)
  | succ n ih =>
    have hlen := f.halveTargets_length n
    rw [halveTargets_succ, target, setTarget, word_put _ (by omega)]
    split
    · have hcn : c = n := by omega
      rw [hcn, target, word_halveTargets_other f fun d hd => by omega]
      rfl
    · exact ih (by omega) (by omega)

theorem endDolby_eq (f : Vpb) :
    endDolby f = (f.put 0x0F (halve f.dolbyTarget)).doneIf (halve f.dolbyTarget = 0) := rfl

theorem endChannels_eq (n : Nat) (f : Vpb) :
    endChannels n f = (f.halveTargets n).doneIf (∀ c < n, (f.halveTargets n).target c = 0) := by
  have hall : ((List.range n).all fun c => decide ((f.halveTargets n).target c = 0)) = true ↔
      ∀ c < n, (f.halveTargets n).target c = 0 := by simp
  by_cases h : ∀ c < n, (f.halveTargets n).target c = 0
  · exact (if_pos (hall.mpr h)).trans (if_pos h).symm
  · exact (if_neg (mt hall.mp h)).trans (if_neg h).symm

section
variable {f : Vpb} {c : Prop} [Decidable c]

theorem Vpb.word_doneIf_other {i : Nat} (h : i ≠ 0x01) : (f.doneIf c).word i = f.word i := by
  unfold doneIf
  split
  · exact word_put_other f 1 h
  · rfl

theorem Vpb.done_doneIf (hf : f.length = 0xC0) : (f.doneIf c).done = if c then 1 else f.done := by
  unfold doneIf
  split
  · exact word_put_same f 1 (by omega)
  · rfl

end

/-- The end request of a voice in Dolby mode (42_voice_mix.md R205). -/
theorem endDolby_fades {f : Vpb} (hf : f.length = 0xC0) :
    (endDolby f).dolbyTarget = halve f.dolbyTarget ∧
      (endDolby f).done = (if halve f.dolbyTarget = 0 then 1 else f.done) ∧
      ∀ i, i ≠ 0x01 → i ≠ 0x0F → (endDolby f).word i = f.word i := by
  rw [endDolby_eq]
  refine ⟨?target, ?done, fun i h1 hF => ?other⟩
  case target => exact (Vpb.word_doneIf_other (by decide)).trans (Vpb.word_put_same f _ (by omega))
  case done =>
    rw [Vpb.done_doneIf ((f.put_length _ _).trans hf), Vpb.done, Vpb.word_put_other f _ (by decide)]
    rfl
  case other => exact (Vpb.word_doneIf_other h1).trans (Vpb.word_put_other f _ hF)

/-- The end request of a voice in channel mode (42_voice_mix.md R205). -/
theorem endChannels_fades {f : Vpb} (hf : f.length = 0xC0) {n : Nat} (hn : n ≤ 6) :
    (∀ c < n, (endChannels n f).target c = halve (f.target c)) ∧
      (endChannels n f).done = (if ∀ c < n, (endChannels n f).target c = 0 then 1 else f.done) ∧
      ∀ i, i ≠ 0x01 → (∀ c < n, i ≠ 0x11 + 4 * c) → (endChannels n f).word i = f.word i := by
  rw [endChannels_eq]
  have htarget (c : Nat) :
      ((f.halveTargets n).doneIf (∀ c < n, (f.halveTargets n).target c = 0)).target c = (f.halveTargets n).target c :=
    Vpb.word_doneIf_other (by omega)
  refine ⟨fun c hc => ?target, ?done, fun i h1 hi => ?other⟩
  case target => exact (htarget c).trans (Vpb.target_halveTargets hf hn hc)
  case done =>
    have hdone : (f.halveTargets n).done = f.done := f.word_halveTargets_other fun c _ => by omega
    simp only [htarget]
    rw [Vpb.done_doneIf ((f.halveTargets_length n).trans hf), hdone]
  case other => exact (Vpb.word_doneIf_other h1).trans (f.word_halveTargets_other hi)

/-- Settles O40: each mode's end request, and the magnitude halved each frame. -/
theorem endRequestFades : Obligations.EndRequestFades := by
  refine ⟨fun p f hf => ⟨endRequest_of_not_requested p, fun he hu hl => ?dolby, fun he hm => ?channels⟩,
    fun v => ⟨toInt_halve v, iterate_halve_sixteen v⟩⟩
  case dolby =>
    obtain ⟨htarget, hdone, hother⟩ := endDolby_fades hf
    rw [endRequest_dolby he (dolbyActive_iff.mpr ⟨hu, hl⟩), htarget]
    exact ⟨toInt_halve _, hdone, hother⟩
  case channels =>
    obtain ⟨htarget, hdone, hother⟩ := endChannels_fades hf (channels_le_six p)
    rw [endRequest_channels he (dolbyActive_eq_false_iff.mpr hm)]
    exact ⟨fun c hc => (congrArg BitVec.toInt (htarget c hc)).trans (toInt_halve _), hdone, hother⟩

end Sys2Proof.Machine
end

section
/-! Positional mode (42_voice_mix.md R204, R220 to R224): each quadrant ramps into its own two buses, so that what a bus
holds after the four of them is its one ramp, and the two auxiliary buses are left alone. -/

namespace Sys2Proof.Machine

/-! ### One ramp into a bus -/

theorem get_rampInto_same (voice : List Sample) (b : Buses) (id : BusId) (cur tgt : Sample) :
    (rampInto voice b id cur tgt).get id = (mixRamp (b.get id) voice (accum cur) (rampStep cur tgt)).1 :=
  Buses.get_set_same ..

theorem get_rampInto_other (voice : List Sample) (b : Buses) {id id' : BusId} (h : id' ≠ id) (cur tgt : Sample) :
    (rampInto voice b id cur tgt).get id' = b.get id' :=
  Buses.get_set_other _ _ h

/-! ### One quadrant (42_voice_mix.md R220, R222, R223) -/

/-- A master volume seen from a quadrant: scaled by the quadrant's volume, and doubled with `DOLBY_LOUDER`
(42_voice_mix.md R221, R222). -/
def quadrantGain (p : Platform) (quad master : Sample) : Sample := louder p (scale quad.toInt master.toInt 15)

/-- A quadrant's gain on its way to the reverb: scaled by the reverb factor (42_voice_mix.md R223). -/
def feedGain (f : Vpb) (gain : Sample) : Sample := scale gain.toInt f.reverbFactor.toInt 15

theorem mixQuadrant_eq (p : Platform) (f : Vpb) (voice : List Sample) (b : Buses) (q : BusId × BusId × Sample) :
    mixQuadrant p f voice b q =
      rampInto voice
        (rampInto voice b q.1 (quadrantGain p q.2.2 f.dolbyCurrent) (quadrantGain p q.2.2 f.dolbyTarget)) q.2.1
        (feedGain f (quadrantGain p q.2.2 f.dolbyCurrent)) (feedGain f (quadrantGain p q.2.2 f.dolbyTarget)) := rfl

theorem feedGain_zero {f : Vpb} (h : f.reverbFactor = 0) (gain : Sample) : feedGain f gain = 0 := by
  rw [feedGain, h]
  exact scale_zero_right _ _

/-- The buses a quadrant adds to. -/
def quadrantBuses (q : BusId × BusId × Sample) : List BusId := [q.1, q.2.1]

section
variable (p : Platform) (f : Vpb) (voice : List Sample) (b : Buses)

theorem get_mixQuadrant_other {q : BusId × BusId × Sample} {id : BusId} (h : id ∉ quadrantBuses q) :
    (mixQuadrant p f voice b q).get id = b.get id := by
  simp only [quadrantBuses, List.mem_cons, List.not_mem_nil, or_false, not_or] at h
  rw [mixQuadrant_eq, get_rampInto_other _ _ h.2, get_rampInto_other _ _ h.1]

theorem get_mixQuadrant_direct {q : BusId × BusId × Sample} (h : q.1 ≠ q.2.1) :
    (mixQuadrant p f voice b q).get q.1 =
      (mixRamp (b.get q.1) voice (accum (quadrantGain p q.2.2 f.dolbyCurrent))
        (rampStep (quadrantGain p q.2.2 f.dolbyCurrent) (quadrantGain p q.2.2 f.dolbyTarget))).1 := by
  rw [mixQuadrant_eq, get_rampInto_other _ _ h, get_rampInto_same]

theorem get_mixQuadrant_feed {q : BusId × BusId × Sample} (h : q.1 ≠ q.2.1) :
    (mixQuadrant p f voice b q).get q.2.1 =
      (mixRamp (b.get q.2.1) voice (accum (feedGain f (quadrantGain p q.2.2 f.dolbyCurrent)))
        (rampStep (feedGain f (quadrantGain p q.2.2 f.dolbyCurrent))
          (feedGain f (quadrantGain p q.2.2 f.dolbyTarget)))).1 := by
  rw [mixQuadrant_eq, get_rampInto_same, get_rampInto_other _ _ h.symm]

/-! ### Several quadrants -/

theorem get_mixQuadrants_other {l : List (BusId × BusId × Sample)} {id : BusId} (h : ∀ q ∈ l, id ∉ quadrantBuses q) :
    (l.foldl (mixQuadrant p f voice) b).get id = b.get id := by
  induction l generalizing b with
  | nil => rfl
  | cons q l ih =>
    exact (ih _ fun r hr => h r (List.mem_cons_of_mem _ hr)).trans
      (get_mixQuadrant_other p f voice b (h q List.mem_cons_self))

/-- Where no two quadrants share a bus, a quadrant's buses end as if it had been mixed alone. -/
theorem get_mixQuadrants_mem {l : List (BusId × BusId × Sample)}
    (hl : l.Pairwise fun q r => (quadrantBuses q).Disjoint (quadrantBuses r)) {q : BusId × BusId × Sample} (hq : q ∈ l)
    {id : BusId} (hid : id ∈ quadrantBuses q) (hne : q.1 ≠ q.2.1) :
    (l.foldl (mixQuadrant p f voice) b).get id = (mixQuadrant p f voice b q).get id := by
  induction l generalizing b with
  | nil => cases hq
  | cons r l ih =>
    obtain ⟨hr, hl⟩ := List.pairwise_cons.mp hl
    obtain rfl | hq := List.mem_cons.mp hq
    · exact get_mixQuadrants_other p f voice _ fun r' hr' hid' => hr r' hr' hid hid'
    · have hb : (mixQuadrant p f voice b r).get id = b.get id :=
        get_mixQuadrant_other p f voice b fun hid' => hr q hq hid' hid
      refine (ih _ hl hq).trans ?_
      obtain rfl | hfeed := List.mem_cons.mp hid
      · rw [get_mixQuadrant_direct p f voice _ hne, get_mixQuadrant_direct p f voice _ hne, hb]
      · cases List.mem_singleton.mp hfeed
        rw [get_mixQuadrant_feed p f voice _ hne, get_mixQuadrant_feed p f voice _ hne, hb]

end

/-! ### The four quadrants (42_voice_mix.md R220, R221) -/

/-- The volume of a quadrant from the two pan positions it is looked up at (42_voice_mix.md R221). -/
def quadrantVolume (t : Tables) (side depth : BitVec 7) : Sample := scale (t.sineAt side) (t.sineAt depth) 15

/-- The quadrants with their buses and volumes, in the order they are mixed. -/
def quadrants (t : Tables) (f : Vpb) : List (BusId × BusId × Sample) :=
  [(.fl, .flRv, quadrantVolume t (f.panX ^^^ 0x7F) (f.panY ^^^ 0x7F)),
    (.fr, .frRv, quadrantVolume t f.panX (f.panY ^^^ 0x7F)),
    (.bl, .blRv, quadrantVolume t (f.panX ^^^ 0x7F) f.panY), (.br, .brRv, quadrantVolume t f.panX f.panY)]

theorem mixDolby_eq (p : Platform) (t : Tables) (voice : List Sample) (f : Vpb) (b : Buses) :
    mixDolby p t voice f b = (f.put 0x0E f.dolbyTarget, (quadrants t f).foldl (mixQuadrant p f voice) b) := rfl

theorem quadrants_disjoint (t : Tables) (f : Vpb) :
    (quadrants t f).Pairwise fun q r => (quadrantBuses q).Disjoint (quadrantBuses r) := by
  simp [quadrants, quadrantBuses]

theorem ne_of_mem_quadrants {t : Tables} {f : Vpb} {q : BusId × BusId × Sample} (h : q ∈ quadrants t f) :
    q.1 ≠ q.2.1 := by
  simp only [quadrants, List.mem_cons, List.not_mem_nil, or_false] at h
  obtain rfl | rfl | rfl | rfl := h <;> simp

/-- A bus that is no quadrant's is left alone. -/
theorem get_mixDolby_other (p : Platform) (t : Tables) (voice : List Sample) (f : Vpb) (b : Buses) {id : BusId}
    (h : ∀ q ∈ quadrants t f, id ∉ quadrantBuses q) : (mixDolby p t voice f b).2.get id = b.get id :=
  get_mixQuadrants_other p f voice b h

section
variable {t : Tables} {f : Vpb} {direct feed : BusId} {quad : Sample} (h : (direct, feed, quad) ∈ quadrants t f)
  (p : Platform) (voice : List Sample) (b : Buses)
include h

/-- The direct bus of a quadrant after positional mode (42_voice_mix.md R220). -/
theorem get_mixDolby_direct :
    (mixDolby p t voice f b).2.get direct =
      (mixRamp (b.get direct) voice (accum (quadrantGain p quad f.dolbyCurrent))
        (rampStep (quadrantGain p quad f.dolbyCurrent) (quadrantGain p quad f.dolbyTarget))).1 := by
  have hne := ne_of_mem_quadrants h
  exact (get_mixQuadrants_mem p f voice b (quadrants_disjoint t f) h (by simp [quadrantBuses]) hne).trans
    (get_mixQuadrant_direct p f voice b hne)

/-- The reverb-feed bus of a quadrant after positional mode (42_voice_mix.md R223). -/
theorem get_mixDolby_feed :
    (mixDolby p t voice f b).2.get feed =
      (mixRamp (b.get feed) voice (accum (feedGain f (quadrantGain p quad f.dolbyCurrent)))
        (rampStep (feedGain f (quadrantGain p quad f.dolbyCurrent))
          (feedGain f (quadrantGain p quad f.dolbyTarget)))).1 := by
  have hne := ne_of_mem_quadrants h
  exact (get_mixQuadrants_mem p f voice b (quadrants_disjoint t f) h (by simp [quadrantBuses]) hne).trans
    (get_mixQuadrant_feed p f voice b hne)

/-- A reverb factor of 0 feeds nothing (42_voice_mix.md R223). -/
theorem get_mixDolby_feed_zero (h0 : f.reverbFactor = 0) : (mixDolby p t voice f b).2.get feed = b.get feed := by
  rw [get_mixDolby_feed h, feedGain_zero h0, feedGain_zero h0, rampStep_self, mixRamp_silent]

end

/-! ### The obligation -/

/-- The exact product of two volumes, floored and clamped (42_voice_mix.md R201). -/
theorem scale_volume (g v : Int) : scale g v 15 = clamp16 (g * v / 32768) := by
  rw [scale_eq_div, Int.mul_comm]
  rfl

/-- Settles O42: each of the eight buses holds one ramp of its own, the closed form of a ramp gives its samples. -/
theorem dolbyMix : Obligations.DolbyMix := by
  intro p t voice f b out sine x y louder
  refine ⟨fun hv hb => ⟨full_mixDolby p t voice f hb, fun direct feed side depth hq => ?samples⟩, rfl,
    get_mixDolby_other p t voice f b (by simp [quadrants, quadrantBuses]),
    get_mixDolby_other p t voice f b (by simp [quadrants, quadrantBuses]), fun h0 id hid => ?silent,
    fun hu hl => ?taken, fun hm => ?passed⟩
  case samples =>
    have hmem : (direct, feed, quadrantVolume t side depth) ∈ quadrants t f := by
      simp only [List.mem_cons, List.not_mem_nil, or_false, Prod.mk.injEq] at hq
      obtain ⟨rfl, rfl, rfl, rfl⟩ | ⟨rfl, rfl, rfl, rfl⟩ | ⟨rfl, rfl, rfl, rfl⟩ | ⟨rfl, rfl, rfl, rfl⟩ := hq <;>
        simp [quadrants, x, y, Vpb.panX, Vpb.panY]
    intro quad cur tgt feedCur feedTgt k hk
    have hquad : quadrantVolume t side depth = quad := scale_volume _ _
    have hgain (master : Sample) :
        quadrantGain p quad master = louder (clamp16 (quad.toInt * master.toInt / 32768)) :=
      congrArg (Machine.louder p) (scale_volume _ _)
    have hfeed (gain : Sample) : feedGain f gain = clamp16 (gain.toInt * f.reverbFactor.toInt / 32768) :=
      scale_volume _ _
    rw [hquad] at hmem
    have hdirect := get_mixDolby_direct hmem p voice b
    have hfed := get_mixDolby_feed hmem p voice b
    rw [hgain, hgain] at hdirect hfed
    rw [hfeed, hfeed] at hfed
    exact ⟨(congrArg (·.getD k 0) hdirect).trans ((mixRamp_volumes (Buses.length_get hb _) hv _ _).2 k hk),
      (congrArg (·.getD k 0) hfed).trans ((mixRamp_volumes (Buses.length_get hb _) hv _ _).2 k hk)⟩
  case silent =>
    simp only [List.mem_cons, List.not_mem_nil, or_false] at hid
    have hmem : ∃ direct quad, (direct, id, quad) ∈ quadrants t f := by
      obtain rfl | rfl | rfl | rfl := hid <;> simp [quadrants]
    obtain ⟨direct, quad, hmem⟩ := hmem
    exact get_mixDolby_feed_zero hmem p voice b h0
  case taken => exact (mixVoice_eq ..).trans (if_pos ⟨hu, hl⟩)
  case passed =>
    have hnot : ¬(f.useDolby ≠ 0 ∧ p.light = false) := by
      rw [← dolbyActive_iff, Bool.not_eq_true]
      exact dolbyActive_eq_false_iff.mpr hm
    exact (mixVoice_eq ..).trans (if_neg hnot)

end Sys2Proof.Machine
end

section
/-! The fetch of one raw sample (43_sources_resample.md R247, R250, R252): where the index stands decides whether a
fetch reads on, restarts the loop or ends the voice; and what a read of a PCM sample gives. -/

namespace Sys2Proof.Machine

/-! ### Where the index stands (43_sources_resample.md R250, R252) -/

theorem Vpb.inStream_eq_true {f : Vpb} (h : f.index.toNat < f.streamLength.toNat) : f.inStream = true :=
  decide_eq_true h

theorem Vpb.inStream_eq_false {f : Vpb} (h : f.streamLength.toNat ≤ f.index.toNat) : f.inStream = false :=
  decide_eq_false (by omega)

theorem nextSample_inside {f : Vpb} (h : f.index.toNat < f.streamLength.toNat) (k : StreamKind) :
    nextSample f k = fetchAt f k false := by
  rw [nextSample, if_pos (Vpb.inStream_eq_true h)]

theorem nextSample_ended {f : Vpb} (h : f.streamLength.toNat ≤ f.index.toNat) (hl : f.loopEnable = 0)
    (k : StreamKind) : nextSample f k = pure (0, f.setDone) := by
  rw [nextSample, Vpb.inStream_eq_false h, if_neg Bool.false_ne_true, if_pos hl]

/-- Past the end of a stream that loops, the image after the restart decides. -/
theorem nextSample_restarted {f : Vpb} (h : f.streamLength.toNat ≤ f.index.toNat) (hl : f.loopEnable ≠ 0)
    (k : StreamKind) :
    nextSample f k =
      if (f.restartLoop k).inStream then fetchAt (f.restartLoop k) k true
      else pure (0, (f.restartLoop k).setDone) := by
  rw [nextSample, Vpb.inStream_eq_false h, if_neg Bool.false_ne_true, if_neg hl]

/-- The index a restart sets is the low 20 bits of `loop_start`. -/
theorem Vpb.loopIndex_eq (f : Vpb) :
    f.loopStart.extractLsb' 0 20 = BitVec.ofNat 20 (f.loopStart.toNat % 2 ^ 20) := by
  apply BitVec.eq_of_toNat_eq
  simp

/-- Where a restart leaves the index. -/
theorem Vpb.restartLoop_index {f : Vpb} (hf : f.length = 0xC0) (k : StreamKind) :
    (f.restartLoop k).index = BitVec.ofNat 20 (f.loopStart.toNat % 2 ^ 20) := by
  obtain ⟨-, -, hindex, -, -⟩ := Vpb.restartLoop_fields f k hf
  rw [hindex, Vpb.loopIndex_eq]

theorem Vpb.restartLoop_index_toNat {f : Vpb} (hf : f.length = 0xC0) (k : StreamKind) :
    (f.restartLoop k).index.toNat = f.loopStart.toNat % 2 ^ 20 := by
  rw [Vpb.restartLoop_index hf, BitVec.toNat_ofNat, Nat.mod_mod]

section
variable {f : Vpb} (hf : f.length = 0xC0) (h : f.streamLength.toNat ≤ f.index.toNat) (hl : f.loopEnable ≠ 0)
include hf h hl

/-- A loop that starts inside the stream goes on there in the same fetch. -/
theorem nextSample_looped (hs : f.loopStart.toNat % 2 ^ 20 < f.streamLength.toNat) (k : StreamKind) :
    nextSample f k = fetchAt (f.restartLoop k) k true := by
  obtain ⟨-, -, -, hlength, -⟩ := Vpb.restartLoop_fields f k hf
  rw [nextSample_restarted h hl,
    if_pos (Vpb.inStream_eq_true (by rwa [Vpb.restartLoop_index_toNat hf, hlength]))]

/-- A loop that starts past the end ends the voice. -/
theorem nextSample_loop_ended (hs : f.streamLength.toNat ≤ f.loopStart.toNat % 2 ^ 20) (k : StreamKind) :
    nextSample f k = pure (0, (f.restartLoop k).setDone) := by
  obtain ⟨-, -, -, hlength, -⟩ := Vpb.restartLoop_fields f k hf
  rw [nextSample_restarted h hl,
    Vpb.inStream_eq_false (by rwa [Vpb.restartLoop_index_toNat hf, hlength]), if_neg Bool.false_ne_true]

end

/-- The image a restart leaves, the stream's kind deciding about the history. -/
theorem Vpb.restartLoop_eq (f : Vpb) (k : StreamKind) :
    f.restartLoop k =
      let g := (f.putPair 0x80 f.loopAddress).setIndex (BitVec.ofNat 20 (f.loopStart.toNat % 2 ^ 20))
      if k = .afc4 ∨ k = .afc2 then g.setYn f.loopYn1 f.loopYn2 else g := by
  rw [← Vpb.loopIndex_eq]
  rfl

theorem Vpb.restartLoop_pcm (f : Vpb) {k : StreamKind} (h4 : k ≠ .afc4) (h2 : k ≠ .afc2) :
    f.restartLoop k =
      (f.putPair 0x80 f.loopAddress).setIndex (BitVec.ofNat 20 (f.loopStart.toNat % 2 ^ 20)) := by
  rw [Vpb.restartLoop_eq]
  exact if_neg (by simp [h4, h2])

theorem add_one_eq_ofNat (x : BitVec 20) : x + 1 = BitVec.ofNat 20 (x.toNat + 1) := by
  apply BitVec.eq_of_toNat_eq
  simp

theorem fetchAt_ok {f : Vpb} {k : StreamKind} {fresh : Bool} {s t : State} {r : Sample × Vpb}
    (h : rawSample f k fresh s = .ok r t) :
    fetchAt f k fresh s = .ok (r.1, r.2.setIndex (r.2.index + 1)) t := Act.bind_ok h

theorem fetchAt_error {f : Vpb} {k : StreamKind} {fresh : Bool} {s t : State} {c : HaltCause}
    (h : rawSample f k fresh s = .error c t) : fetchAt f k fresh s = .error c t := Act.bind_error h

theorem readBytes_ok {s : State} {sp : Space} {n : Nat} {a : Addr} {bs : List Byte}
    (h : s.bytes? sp n a = some bs) : readBytes sp n a s = .ok bs s := ofRead_some h

theorem readBytes_busError {s : State} {sp : Space} {n : Nat} {a : Addr} (h : s.bytes? sp n a = none) :
    readBytes sp n a s = .error .busError (s.haltWith .busError) := ofRead_none h

/-! ### PCM samples (43_sources_resample.md R247) -/

/-- An 8-bit sample times 256 is the byte above a zero byte. -/
theorem wrap16_mul_256 (b : Byte) : wrap16 (b.toInt * 256) = b ++ (0 : Byte) := by
  have hb := b.isLt
  apply BitVec.eq_of_toNat_eq
  rw [wrap16, BitVec.toNat_ofInt, BitVec.toNat_append, BitVec.toInt_eq_toNat_cond]
  simp only [BitVec.ofNat_eq_ofNat, BitVec.toNat_ofNat, Nat.zero_mod, Nat.or_zero, Nat.shiftLeft_eq]
  split <;> omega

theorem rawSample_pcm8 (f : Vpb) (fresh : Bool) :
    rawSample f .pcm8 fresh =
      readSampleBytes 1 (f.baseAddress + BitVec.ofNat 32 f.index.toNat) >>= fun bs =>
        pure (wrap16 ((bs.getD 0 0).toInt * 256), f) := rfl

theorem rawSample_pcm16 (f : Vpb) (fresh : Bool) :
    rawSample f .pcm16 fresh =
      readSampleBytes 2 (f.baseAddress + BitVec.ofNat 32 (2 * f.index.toNat)) >>= fun bs =>
        pure (bytesHalf bs, f) := rfl

theorem rawSample_raw16Main (f : Vpb) (fresh : Bool) :
    rawSample f .raw16Main fresh =
      readBytes .main 2 (f.baseAddress + BitVec.ofNat 32 (2 * f.index.toNat)) >>= fun bs =>
        pure (bytesHalf bs, f) := rfl

/-- What the fetch of a PCM sample at index `n` over `base` comes to: where its bytes answer, the sample and the image
`g`; where one does not, the halt. -/
def FetchesPcm (s : State) (base : Addr) (n : Nat) (g : Vpb)
    (fetch : StreamKind → EStateM.Result HaltCause State (Sample × Vpb)) : Prop :=
  let at8 := s.bytes? s.sampleSpace 1 (s.sampleAddr (base + BitVec.ofNat 32 n))
  let at16 := s.bytes? s.sampleSpace 2 (s.sampleAddr (base + BitVec.ofNat 32 (2 * n)))
  let atMain := s.bytes? .main 2 (base + BitVec.ofNat 32 (2 * n))
  (∀ b : Byte, at8 = some [b] → fetch .pcm8 = .ok (b ++ (0 : Byte), g) s) ∧
  (∀ hi lo : Byte, at16 = some [hi, lo] → fetch .pcm16 = .ok (hi ++ lo, g) s) ∧
  (∀ hi lo : Byte, atMain = some [hi, lo] → fetch .raw16Main = .ok (hi ++ lo, g) s) ∧
  ∀ k : StreamKind,
    (k = .pcm8 ∧ at8 = none) ∨ (k = .pcm16 ∧ at16 = none) ∨ (k = .raw16Main ∧ atMain = none) →
      fetch k = .error .busError (s.haltWith .busError)

/-- It speaks of the three PCM streams only. -/
theorem FetchesPcm.congr {s : State} {base : Addr} {n : Nat} {g : Vpb}
    {fetch fetch' : StreamKind → EStateM.Result HaltCause State (Sample × Vpb)}
    (hfetch : FetchesPcm s base n g fetch) (heq : ∀ k, k ≠ .afc4 → k ≠ .afc2 → fetch' k = fetch k) :
    FetchesPcm s base n g fetch' := by
  obtain ⟨h8, h16, hmain, hmiss⟩ := hfetch
  have heq8 := heq .pcm8 (by decide) (by decide)
  have heq16 := heq .pcm16 (by decide) (by decide)
  have heqMain := heq .raw16Main (by decide) (by decide)
  refine ⟨fun b hb => heq8.trans (h8 b hb), fun hi lo hb => heq16.trans (h16 hi lo hb),
    fun hi lo hb => heqMain.trans (hmain hi lo hb), fun k hk => ?_⟩
  refine (heq k ?_ ?_).trans (hmiss k hk) <;> rintro rfl <;> simp at hk

/-- A fetch inside a PCM stream reads its sample and advances the index by one. -/
theorem fetchAt_pcm (f : Vpb) (fresh : Bool) (s : State) :
    FetchesPcm s f.baseAddress f.index.toNat (f.setIndex (f.index + 1)) fun k => fetchAt f k fresh s := by
  refine ⟨fun b h8 => ?_, fun hi lo h16 => ?_, fun hi lo hmain => ?_, fun k hmiss => ?_⟩
  · refine fetchAt_ok (r := (b ++ (0 : Byte), f)) ?_
    rw [rawSample_pcm8, Act.bind_ok (readSampleBytes_ok h8), ← wrap16_mul_256]
    rfl
  · refine fetchAt_ok (r := (hi ++ lo, f)) ?_
    rw [rawSample_pcm16, Act.bind_ok (readSampleBytes_ok h16)]
    rfl
  · refine fetchAt_ok (r := (hi ++ lo, f)) ?_
    rw [rawSample_raw16Main, Act.bind_ok (readBytes_ok hmain)]
    rfl
  · refine fetchAt_error ?_
    obtain ⟨rfl, hnone⟩ | ⟨rfl, hnone⟩ | ⟨rfl, hnone⟩ := hmiss
    · exact Act.bind_error (readSampleBytes_busError hnone)
    · exact Act.bind_error (readSampleBytes_busError hnone)
    · exact Act.bind_error (readBytes_busError hnone)

/-- A fetch that restarts the loop of a PCM stream reads at the loop's start and goes on behind it. -/
theorem fetchAt_restarted_pcm {f : Vpb} (hf : f.length = 0xC0) (s : State) :
    FetchesPcm s f.loopAddress (f.loopStart.toNat % 2 ^ 20)
      ((f.putPair 0x80 f.loopAddress).setIndex (BitVec.ofNat 20 (f.loopStart.toNat % 2 ^ 20 + 1)))
      fun k => fetchAt (f.restartLoop k) k true s := by
  let g := f.restartLoop .pcm8
  have hg : g = _ := Vpb.restartLoop_pcm f (by decide) (by decide)
  obtain ⟨-, hbase, -, -, -⟩ := Vpb.restartLoop_fields f .pcm8 hf
  have hindex : g.index.toNat = f.loopStart.toNat % 2 ^ 20 := Vpb.restartLoop_index_toNat hf _
  have hnext : g.setIndex (g.index + 1) =
      (f.putPair 0x80 f.loopAddress).setIndex (BitVec.ofNat 20 (f.loopStart.toNat % 2 ^ 20 + 1)) := by
    rw [add_one_eq_ofNat, hindex, hg, Vpb.setIndex_setIndex _ _ _ (by simp [hf])]
  have hfetch := fetchAt_pcm g true s
  rw [hindex, hnext, show g.baseAddress = f.loopAddress from hbase] at hfetch
  exact hfetch.congr fun k h4 h2 => by rw [Vpb.restartLoop_pcm f h4 h2, ← hg]

/-- Settles O44: the place of the index selects the fetch, and a PCM fetch inside the stream is one read. -/
theorem streamFetch : Obligations.StreamFetch := by
  intro f s i start at8 at16 atMain misses
  refine ⟨fun hi => ?inside, fun k he h0 => ?ended, fun hf he hl => ⟨fun k hs => ?loopEnded, fun hs => ?looped⟩⟩
  case inside =>
    exact (fetchAt_pcm f false s).congr (fetch' := fun k => nextSample f k s) fun k _ _ => by
      rw [nextSample_inside hi]
  case ended => rw [nextSample_ended he h0]; rfl
  case loopEnded => rw [nextSample_loop_ended hf he hl hs, Vpb.restartLoop_eq]; rfl
  case looped =>
    exact (fetchAt_restarted_pcm hf s).congr (fetch' := fun k => nextSample f k s) fun k _ _ => by
      rw [nextSample_looped hf he hl hs]

end Sys2Proof.Machine
end

section
/-! The AFC streams (43_sources_resample.md R247, R250, R252, R260 to R264): a block predicted sample by sample, and the
three ways a fetch takes its sample: from the cache, from a block it enters, from a block a loop restart lands in. -/

namespace Sys2Proof.Machine

/-! ### The prediction (43_sources_resample.md R262) -/

/-- The decoded samples behind the history they were predicted from, oldest first. -/
def afcTrail (delta c1 c2 : Int) (qs : List Int) (yn1 yn2 : Sample) : List Sample :=
  yn2 :: yn1 :: (afcPredict delta c1 c2 qs yn1 yn2).1

/-- Each sample is predicted from the two before it in the trail, floored and clamped. -/
theorem afcTrail_getD (delta c1 c2 : Int) {qs : List Int} {n : Nat} (hn : n < qs.length) (yn1 yn2 : Sample) :
    let trail := afcTrail delta c1 c2 qs yn1 yn2
    trail.getD (n + 2) 0 =
      clamp16 ((delta * qs.getD n 0 + (trail.getD (n + 1) 0).toInt * c1 + (trail.getD n 0).toInt * c2) / 2048) := by
  induction qs generalizing n yn1 yn2 with
  | nil => simp at hn
  | cons q qs ih =>
    cases n with
    | zero => exact congrArg clamp16 (asr_eq_div _ 11)
    | succ n => exact ih (by simpa using hn) _ yn1

/-- The history left is the end of the trail, newer first. -/
theorem afcPredict_history (delta c1 c2 : Int) (qs : List Int) (yn1 yn2 : Sample) :
    let trail := afcTrail delta c1 c2 qs yn1 yn2
    (afcPredict delta c1 c2 qs yn1 yn2).2 = (trail.getD (qs.length + 1) 0, trail.getD qs.length 0) := by
  induction qs generalizing yn1 yn2 with
  | nil => rfl
  | cons q qs ih => exact ih _ yn1

/-! ### The expansion (43_sources_resample.md R260) -/

/-- An element of a concatenation of pieces of one length: the piece it lies in, and the place there. -/
theorem flatMap_getD {α β : Type} {g : α → List β} {w : Nat} (hg : ∀ a, (g a).length = w) (hw : 0 < w) (da : α)
    (db : β) {as : List α} {n : Nat} (hn : n < w * as.length) :
    (as.flatMap g).getD n db = (g (as.getD (n / w) da)).getD (n % w) db := by
  induction as generalizing n with
  | nil => simp at hn
  | cons a as ih =>
    rw [List.flatMap_cons]
    by_cases h : n < w
    · rw [List.getD_append _ _ _ _ (by rwa [hg]), Nat.div_eq_of_lt h, Nat.mod_eq_of_lt h]
      rfl
    · obtain ⟨m, rfl⟩ := Nat.exists_eq_add_of_le (Nat.le_of_not_lt h)
      rw [List.getD_append_right _ _ _ _ (by rw [hg]; omega), hg, Nat.add_sub_cancel_left,
        ih (by rw [List.length_cons, Nat.mul_succ] at hn; omega), Nat.add_div_left m hw, Nat.add_mod_left]
      rfl

/-- Sample `n` of the data bytes before prediction: the nibble or the pair of bits it stands in, the most significant
first. -/
def afcQuantum (k : StreamKind) (data : List Byte) (n : Nat) : Int :=
  if k = .afc4 then ((data.getD (n / 2) 0).extractLsb' (if n % 2 = 0 then 4 else 0) 4).toInt * 2048
  else ((data.getD (n / 4) 0).extractLsb' (6 - 2 * (n % 4)) 2).toInt * 8192

theorem afcExpand_getD_afc4 (y : Byte) {m : Nat} (hm : m < 2) :
    (afcExpand .afc4 y).getD m 0 = (y.extractLsb' (if m = 0 then 4 else 0) 4).toInt * 2048 := by
  interval_cases m <;> rfl

theorem afcExpand_getD_afc2 (y : Byte) {m : Nat} (hm : m < 4) :
    (afcExpand .afc2 y).getD m 0 = (y.extractLsb' (6 - 2 * m) 2).toInt * 8192 := by
  interval_cases m <;> rfl

/-- The data bytes of a block. -/
def WholeBlock (k : StreamKind) (data : List Byte) : Prop :=
  (k = .afc4 ∧ data.length = 8) ∨ (k = .afc2 ∧ data.length = 4)

theorem expanded_getD {k : StreamKind} {data : List Byte} (h : WholeBlock k data) {n : Nat} (hn : n < 16) :
    (data.flatMap (afcExpand k)).getD n 0 = afcQuantum k data n := by
  obtain ⟨rfl, hd⟩ | ⟨rfl, hd⟩ := h
  · rw [flatMap_getD (w := 2) (afcExpand_length .afc4) (by omega) 0 0 (by omega),
      afcExpand_getD_afc4 _ (Nat.mod_lt n (by omega))]
    rfl
  · rw [flatMap_getD (w := 4) (afcExpand_length .afc2) (by omega) 0 0 (by omega),
      afcExpand_getD_afc2 _ (Nat.mod_lt n (by omega))]
    rfl

theorem expanded_length {k : StreamKind} {data : List Byte} (h : WholeBlock k data) :
    (data.flatMap (afcExpand k)).length = 16 := by
  rw [flatMap_afcExpand_length]
  obtain ⟨rfl, hd⟩ | ⟨rfl, hd⟩ := h <;> rw [hd] <;> rfl

/-! ### A block (43_sources_resample.md R260, R262) -/

theorem afcDecode_cons (k : StreamKind) (coef : List Sample) (header : Byte) (data : List Byte) (yn1 yn2 : Sample) :
    afcDecode k coef (header :: data) yn1 yn2 =
      afcPredict (2 ^ (header.extractLsb' 4 4).toNat) (coef.getD (2 * (header.extractLsb' 0 4).toNat) 0).toInt
        (coef.getD (2 * (header.extractLsb' 0 4).toNat + 1) 0).toInt (data.flatMap (afcExpand k)) yn1 yn2 := rfl

/-- Where sample `n` of the output stands in the trail, and the two before it. -/
theorem getD_trail {α : Type} (yn1 yn2 d : α) (out : List α) (n : Nat) :
    (yn2 :: yn1 :: out).getD (n + 2) d = out.getD n d ∧
      (yn2 :: yn1 :: out).getD (n + 1) d = (if n = 0 then yn1 else out.getD (n - 1) d) ∧
      (yn2 :: yn1 :: out).getD n d = if n = 0 then yn2 else if n = 1 then yn1 else out.getD (n - 2) d := by
  obtain _ | _ | n := n <;> exact ⟨rfl, rfl, rfl⟩

/-- A block decodes to sixteen samples, the last two of which are the history it leaves. -/
theorem afcDecode_history {k : StreamKind} {data : List Byte} (h : WholeBlock k data) (coef : List Sample)
    (header : Byte) (yn1 yn2 : Sample) :
    let out := (afcDecode k coef (header :: data) yn1 yn2).1
    out.length = 16 ∧
      afcDecode k coef (header :: data) yn1 yn2 = (out, out.getD 15 0, out.getD 14 0) := by
  intro out
  have hlast := afcPredict_history (2 ^ (header.extractLsb' 4 4).toNat)
    (coef.getD (2 * (header.extractLsb' 0 4).toNat) 0).toInt
    (coef.getD (2 * (header.extractLsb' 0 4).toNat + 1) 0).toInt (data.flatMap (afcExpand k)) yn1 yn2
  rw [expanded_length h] at hlast
  exact ⟨(afcPredict_length ..).trans (expanded_length h), Prod.ext rfl hlast⟩

/-- Each sample of a block, predicted from the two before it. -/
theorem afcDecode_getD {k : StreamKind} {data : List Byte} (h : WholeBlock k data) (coef : List Sample)
    (header : Byte) (yn1 yn2 : Sample) {n : Nat} (hn : n < 16) :
    let out := (afcDecode k coef (header :: data) yn1 yn2).1
    let idx := (header.extractLsb' 0 4).toNat
    let y1 := if n = 0 then yn1 else out.getD (n - 1) 0
    let y2 := if n = 0 then yn2 else if n = 1 then yn1 else out.getD (n - 2) 0
    out.getD n 0 =
      clamp16 ((2 ^ (header.extractLsb' 4 4).toNat * afcQuantum k data n +
        y1.toInt * (coef.getD (2 * idx) 0).toInt + y2.toInt * (coef.getD (2 * idx + 1) 0).toInt) / 2048) := by
  intro out idx y1 y2
  have hstep := afcTrail_getD (2 ^ (header.extractLsb' 4 4).toNat) (coef.getD (2 * idx) 0).toInt
    (coef.getD (2 * idx + 1) 0).toInt (by rwa [expanded_length h]) yn1 yn2
  obtain ⟨hout, hy1, hy2⟩ := getD_trail yn1 yn2 0 out n
  rw [expanded_getD h hn] at hstep
  show out.getD n 0 = _
  rw [← hout, show y1 = _ from hy1.symm, show y2 = _ from hy2.symm]
  exact hstep

/-! ### Writes to different places of an image -/

theorem Vpb.putAll_put_comm (f : Vpb) {i j : Nat} (v : Half) (vs : List Half) (hi : i < f.length) (h : i < j) :
    (f.put i v).putAll j vs = (f.putAll j vs).put i v := by
  unfold Vpb.putAll Vpb.put
  rw [List.take_set, List.drop_set_of_lt (by omega), List.append_assoc, List.append_assoc,
    List.set_append_left _ _ (by rw [List.length_take]; omega)]

theorem Vpb.put_comm (f : Vpb) {i j : Nat} (v w : Half) (h : i ≠ j) : (f.put i v).put j w = (f.put j w).put i v :=
  List.set_comm _ _ h

theorem Vpb.setYn_setYn (f : Vpb) (a b c d : Sample) : (f.setYn a b).setYn c d = f.setYn c d := by
  unfold Vpb.setYn
  rw [Vpb.put_comm (f.put 0x2C a) b c (by decide)]
  unfold Vpb.put
  rw [List.set_set, List.set_set]

theorem Vpb.setYn_put_comm (f : Vpb) {i : Nat} (v a b : Half) (h : i < 0x2C) :
    (f.put i v).setYn a b = (f.setYn a b).put i v := by
  unfold Vpb.setYn
  rw [Vpb.put_comm f v a (by omega), Vpb.put_comm _ v b (by omega)]

theorem Vpb.putAll_setYn (f : Vpb) (a b : Sample) {j : Nat} (vs : List Half) (hf : 0x2D < f.length) (hj : 0x2D < j) :
    (f.setYn a b).putAll j vs = (f.putAll j vs).setYn a b := by
  unfold Vpb.setYn
  rw [Vpb.putAll_put_comm _ _ _ (by simpa using hf) hj, Vpb.putAll_put_comm _ _ _ (by omega) (by omega)]

/-! ### A block decoded into the image (43_sources_resample.md R262) -/

/-- The image with a block's samples in the cache and its history. -/
def Vpb.putBlock (f : Vpb) (d : List Sample × Sample × Sample) : Vpb := (f.putAll 0x30 d.1).setYn d.2.1 d.2.2

section
variable (f : Vpb) {d : List Sample × Sample × Sample} (hf : f.length = 0xC0)
include hf

/-- The history from before a block is overwritten. -/
theorem Vpb.putBlock_setYn (a b : Sample) : (f.setYn a b).putBlock d = f.putBlock d := by
  unfold Vpb.putBlock
  rw [Vpb.putAll_setYn _ _ _ _ (by omega) (by decide), Vpb.setYn_setYn]

theorem Vpb.putBlock_putPair (v : Word) : (f.putPair 0x08 v).putBlock d = (f.putBlock d).putPair 0x08 v := by
  unfold Vpb.putBlock Vpb.putPair
  rw [Vpb.putAll_put_comm _ _ _ (by simp [hf]) (by decide), Vpb.putAll_put_comm _ _ _ (by omega) (by decide)]
  rw [Vpb.setYn_put_comm _ _ _ _ (by decide), Vpb.setYn_put_comm _ _ _ _ (by decide)]

variable (hd : d.1.length = 16)
include hd

theorem Vpb.position_putBlock : (f.putBlock d).position = f.position := by
  obtain ⟨-, hyn⟩ := Vpb.within_setYn (f.putAll 0x30 d.1) d.2.1 d.2.2
  have hword (i : Nat) (hi : i < 0x2C) : (f.putBlock d).word i = f.word i :=
    (hyn i (by simp; omega)).trans (Vpb.word_putAll_other f d.1 (by omega) (.inl (by omega)))
  unfold Vpb.position Vpb.pair
  rw [hword _ (by decide), hword _ (by decide)]

theorem Vpb.putBlock_setIndex (x : BitVec 20) : (f.setIndex x).putBlock d = (f.putBlock d).setIndex x := by
  unfold Vpb.setIndex Vpb.frac
  rw [Vpb.putBlock_putPair f hf, Vpb.position_putBlock f hf hd]

/-- The samples of the block stand in the cache. -/
theorem Vpb.cache_putBlock {n : Nat} (hn : n < 16) : (f.putBlock d).cache n = d.1.getD n 0 := by
  obtain ⟨-, hyn⟩ := Vpb.within_setYn (f.putAll 0x30 d.1) d.2.1 d.2.2
  exact (hyn _ (by simp; omega)).trans (Vpb.word_putAll_same f d.1 (by omega) (by omega))

end

/-! ### A fetch (43_sources_resample.md R247, R250, R264) -/

/-- The address the block of sample `i` is read at. -/
def Vpb.blockAddr (f : Vpb) (k : StreamKind) (i : Nat) : Addr :=
  f.baseAddress + BitVec.ofNat 32 (afcBlockBytes k * (i / 16))

theorem decodeAfcBlock_ok {f : Vpb} {k : StreamKind} {i : Nat} {s : State} {bs : List Byte}
    (h : s.bytes? s.sampleSpace (afcBlockBytes k) (s.sampleAddr (f.blockAddr k i)) = some bs) :
    decodeAfcBlock f k (i / 16) s = .ok (f.putBlock (afcDecode k s.tables.afcCoef bs f.yn1 f.yn2)) s :=
  (Act.bind_ok (readSampleBytes_ok h)).trans rfl

theorem decodeAfcBlock_busError {f : Vpb} {k : StreamKind} {i : Nat} {s : State}
    (h : s.bytes? s.sampleSpace (afcBlockBytes k) (s.sampleAddr (f.blockAddr k i)) = none) :
    decodeAfcBlock f k (i / 16) s = .error .busError (s.haltWith .busError) :=
  Act.bind_error (readSampleBytes_busError h)

section
variable {f : Vpb} {k : StreamKind} {s : State} (hk : k = .afc4 ∨ k = .afc2)
include hk

theorem rawSample_afc (f : Vpb) (fresh : Bool) :
    rawSample f k fresh =
      (if fresh || f.index.toNat % 16 == 0 then decodeAfcBlock f k (f.index.toNat / 16) else pure f) >>= fun g =>
        pure (g.cache (f.index.toNat % 16), g) := by
  obtain rfl | rfl := hk
  all_goals
    unfold rawSample
    dsimp only
    split <;> rfl

/-- Inside a block the sample is in the cache. -/
theorem fetchAt_cached (h : f.index.toNat % 16 ≠ 0) :
    fetchAt f k false s = .ok (f.cache (f.index.toNat % 16), f.setIndex (BitVec.ofNat 20 (f.index.toNat + 1))) s := by
  rw [← add_one_eq_ofNat]
  refine fetchAt_ok (r := (f.cache (f.index.toNat % 16), f)) ?_
  rw [rawSample_afc hk, if_neg (by simpa using h)]
  rfl

variable {fresh : Bool} (hfresh : fresh = true ∨ f.index.toNat % 16 = 0)
include hfresh

/-- On entering a block, or wherever a loop restart lands, the block is decoded from the image's history. -/
theorem fetchAt_block (hf : f.length = 0xC0) {bs : List Byte}
    (h : s.bytes? s.sampleSpace (afcBlockBytes k) (s.sampleAddr (f.blockAddr k f.index.toNat)) = some bs) :
    let d := afcDecode k s.tables.afcCoef bs f.yn1 f.yn2
    fetchAt f k fresh s =
      .ok (d.1.getD (f.index.toNat % 16) 0, (f.putBlock d).setIndex (BitVec.ofNat 20 (f.index.toNat + 1))) s := by
  intro d
  have hd : d.1.length = 16 := afcDecode_length _ _ _ _ _ (State.bytes?_length h)
  have hraw : rawSample f k fresh s = .ok (d.1.getD (f.index.toNat % 16) 0, f.putBlock d) s := by
    rw [rawSample_afc hk, if_pos (by simpa using hfresh), Act.bind_ok (decodeAfcBlock_ok h),
      Vpb.cache_putBlock f hf hd (Nat.mod_lt _ (by omega))]
    rfl
  have hindex : (f.putBlock d).index = f.index := by
    unfold Vpb.index
    rw [Vpb.position_putBlock f hf hd]
  rw [fetchAt_ok hraw, hindex, add_one_eq_ofNat]

theorem fetchAt_block_busError
    (h : s.bytes? s.sampleSpace (afcBlockBytes k) (s.sampleAddr (f.blockAddr k f.index.toNat)) = none) :
    fetchAt f k fresh s = .error .busError (s.haltWith .busError) := by
  refine fetchAt_error ?_
  rw [rawSample_afc hk, if_pos (by simpa using hfresh)]
  exact Act.bind_error (decodeAfcBlock_busError h)

end

/-- A block decoded right after a restart overwrites the history the restart took over, and the index is set again. -/
theorem Vpb.putBlock_restartLoop {f : Vpb} {k : StreamKind} {d : List Sample × Sample × Sample} (hf : f.length = 0xC0)
    (hk : k = .afc4 ∨ k = .afc2) (hd : d.1.length = 16) (x : BitVec 20) :
    ((f.restartLoop k).putBlock d).setIndex x = ((f.putPair 0x80 f.loopAddress).putBlock d).setIndex x := by
  have hl : (f.putPair 0x80 f.loopAddress).length = 0xC0 := (f.putPair_length ..).trans hf
  have hb : ((f.putPair 0x80 f.loopAddress).putBlock d).length = 0xC0 := by
    rw [Vpb.putBlock, (Vpb.within_setYn _ _ _).1, Vpb.putAll_length _ _ _ (by omega), hl]
  rw [Vpb.restartLoop, if_pos hk, Vpb.putBlock_setYn _ (by rw [Vpb.setIndex_length, hl]),
    Vpb.putBlock_setIndex _ hl hd, Vpb.setIndex_setIndex _ _ _ (by omega)]

theorem Vpb.blockAddr_restartLoop {f : Vpb} (hf : f.length = 0xC0) (k : StreamKind) (i : Nat) :
    Vpb.blockAddr (f.restartLoop k) k i = f.loopAddress + BitVec.ofNat 32 (afcBlockBytes k * (i / 16)) := by
  obtain ⟨-, hbase, -, -, -⟩ := Vpb.restartLoop_fields f k hf
  rw [Vpb.blockAddr, hbase]

/-- A fetch that restarts the loop decodes the block it lands in from the loop's saved history. -/
theorem fetchAt_restarted_block {f : Vpb} {k : StreamKind} {s : State} {bs : List Byte} (hf : f.length = 0xC0)
    (hk : k = .afc4 ∨ k = .afc2)
    (h : s.bytes? s.sampleSpace (afcBlockBytes k)
      (s.sampleAddr (Vpb.blockAddr (f.restartLoop k) k (f.loopStart.toNat % 2 ^ 20))) = some bs) :
    let start := f.loopStart.toNat % 2 ^ 20
    let d := afcDecode k s.tables.afcCoef bs f.loopYn1 f.loopYn2
    fetchAt (f.restartLoop k) k true s =
      .ok (d.1.getD (start % 16) 0,
        ((f.putPair 0x80 f.loopAddress).putBlock d).setIndex (BitVec.ofNat 20 (start + 1))) s := by
  intro start d
  obtain ⟨hlength, -, -, -, hhistory⟩ := Vpb.restartLoop_fields f k hf
  obtain ⟨hyn1, hyn2⟩ := hhistory hk
  have hindex : (f.restartLoop k).index.toNat = start := Vpb.restartLoop_index_toNat hf k
  have hd : d.1.length = 16 := afcDecode_length _ _ _ _ _ (State.bytes?_length h)
  have hfetch := fetchAt_block hk (.inl rfl) hlength (by rw [hindex]; exact h)
  rw [hindex, hyn1, hyn2] at hfetch
  rw [hfetch, Vpb.putBlock_restartLoop hf hk hd]

end Sys2Proof.Machine

namespace Sys2Proof.Laws.Sources

open Machine

/-- Settles O45: a block by its trail of predictions, a fetch by the cache or the block it decodes. -/
theorem afcDecode : Obligations.AfcDecode := by
  refine ⟨fun k coef header data yn1 yn2 h => ?block, fun f k s hf hk => ⟨fun hi => ?inside,
    fun he hl hs => ?looped⟩⟩
  case block =>
    obtain ⟨hlength, hhistory⟩ := afcDecode_history h coef header yn1 yn2
    exact ⟨_, hlength, hhistory, fun n hn => afcDecode_getD h coef header yn1 yn2 hn⟩
  case inside =>
    rw [nextSample_inside hi]
    refine ⟨fetchAt_cached hk, fun h0 => ⟨fun bs hbs => ?_, fun hbs => fetchAt_block_busError hk (.inr h0) hbs⟩⟩
    have hfetch := fetchAt_block (fresh := false) hk (.inr h0) hf hbs
    rw [h0] at hfetch
    exact hfetch
  case looped =>
    rw [nextSample_looped hf he hl hs]
    refine ⟨fun bs hbs => fetchAt_restarted_block hf hk ?_, fun hbs => fetchAt_block_busError hk (.inl rfl) ?_⟩
    · rw [Vpb.blockAddr_restartLoop hf]
      exact hbs
    · rw [Vpb.restartLoop_index_toNat hf, Vpb.blockAddr_restartLoop hf]
      exact hbs

end Sys2Proof.Laws.Sources
end

section
/-! The resampler (43_sources_resample.md R240, R241, R270 to R277): one output sample as a sum over four taps, the raw
samples a frame fetches, and what a frame leaves in the image. -/

namespace Sys2Proof.Machine

/-! ### The four-tap filter (43_sources_resample.md R275) -/

/-- The products over a list of coefficients that the window covers. -/
theorem dot_eq_sum {cs xs : List Sample} (h : cs.length ≤ xs.length) :
    dot cs xs = ((List.range cs.length).map fun i => (cs.getD i 0).toInt * (xs.getD i 0).toInt).sum := by
  induction cs generalizing xs with
  | nil => rfl
  | cons c cs ih =>
    cases xs with
    | nil => simp at h
    | cons x xs =>
      have hrest := ih (xs := xs) (by simpa using h)
      rw [List.length_cons, List.range_succ_eq_map, List.map_cons, List.sum_cons, List.map_map, dot, hrest]
      rfl

theorem tap_nearest (coef window : List Sample) (idx frac : Nat) {ratio : Nat} (h : 0x4000 ≤ ratio) :
    tap coef window idx frac ratio = window.getD idx 0 := if_pos h

/-- Below a ratio of 4.0 the set of four coefficients that the fraction selects, over four window samples. -/
theorem tap_filter {coef window : List Sample} {idx frac ratio : Nat} (hc : coef.length = 256)
    (hw : idx + 4 ≤ window.length) (hf : frac < 4096) (hr : ratio < 0x4000) :
    tap coef window idx frac ratio =
      clamp16 (((List.range 4).map fun i =>
        2 * (coef.getD (4 * (frac / 64) + i) 0).toInt * (window.getD (idx + i) 0).toInt).sum / 65536) := by
  let set := (coef.drop (4 * (frac / 64))).take 4
  have hset : set.length = 4 := by simp [set]; omega
  have hdot := dot_eq_sum (cs := set) (xs := window.drop idx) (by simp; omega)
  have hterm : ∀ i ∈ List.range 4, 2 * ((set.getD i 0).toInt * ((window.drop idx).getD i 0).toInt) =
      2 * (coef.getD (4 * (frac / 64) + i) 0).toInt * (window.getD (idx + i) 0).toInt := by
    intro i hi
    have hi := List.mem_range.mp hi
    simp only [set, List.getD_eq_getElem?_getD, List.getElem?_drop, List.getElem?_take, if_pos hi, Int.mul_assoc]
  rw [tap, if_neg (by omega)]
  show clamp16 (asr (2 * dot set (window.drop idx)) 16) = _
  rw [asr_eq_div, hdot, hset, ← List.sum_map_mul_left, List.map_congr_left hterm]
  rfl

/-- Settles O46: both arms of the tap, the filter as a sum over its four products. -/
theorem resamplerTap : Obligations.ResamplerTap := by
  intro coef window idx frac ratio hc hw hf
  exact ⟨tap_filter hc hw hf, tap_nearest coef window idx frac⟩

/-! ### The raw samples of a frame (43_sources_resample.md R270) -/

theorem nextSamples_zero (k : StreamKind) (f : Vpb) (s : State) : nextSamples k 0 f s = .ok ([], f) s := rfl

/-- `n + 1` fetches are one and then `n` from the image it left. -/
theorem nextSamples_succ_ok_iff {k : StreamKind} {n : Nat} {f h : Vpb} {s t : State} {xs : List Sample} :
    nextSamples k (n + 1) f s = .ok (xs, h) t ↔
      ∃ x ys g u, xs = x :: ys ∧ nextSample f k s = .ok (x, g) u ∧ nextSamples k n g u = .ok (ys, h) t := by
  rw [nextSamples, Act.bind_eq_ok]
  constructor
  · rintro ⟨⟨x, g⟩, u, hx, hrest⟩
    obtain ⟨⟨ys, h'⟩, u', hys, hdone⟩ := Act.bind_eq_ok.mp hrest
    cases hdone
    exact ⟨x, ys, g, u, rfl, hx, hys⟩
  · rintro ⟨x, ys, g, u, rfl, hx, hys⟩
    exact ⟨(x, g), u, hx, Act.bind_ok hys⟩

/-! ### A frame (43_sources_resample.md R270, R277) -/

/-- The end position of a frame, from the fraction on. -/
def Vpb.endPosition (f : Vpb) : Nat := f.frac.toNat + frameLen * f.ratio.toNat

/-- The 80 output samples of a frame over a window. -/
def resampledFrame (coef window : List Sample) (f : Vpb) : List Sample :=
  (List.range frameLen).map (resampleAt coef window f.frac.toNat f.ratio.toNat)

/-- The image after a frame whose fetches left `g` and gave `new`. -/
def resampledImage (coef new : List Sample) (f g : Vpb) : Vpb :=
  ((g.putAll 0x28 (((f.hist ++ new).drop (f.endPosition / 4096)).take 4)).setFrac
    (BitVec.ofNat 12 f.endPosition)).put 0x07 ((resampledFrame coef (f.hist ++ new) f).getD 79 0)

theorem resample_eq (f : Vpb) (k : StreamKind) :
    resample f k = nextSamples k (f.endPosition / 4096) f >>= fun r => get >>= fun s =>
      pure (resampledFrame s.tables.resampleCoef (f.hist ++ r.1) f,
        resampledImage s.tables.resampleCoef r.1 f r.2) := rfl

theorem resample_ok {f g : Vpb} {k : StreamKind} {s t : State} {new : List Sample}
    (h : nextSamples k (f.endPosition / 4096) f s = .ok (new, g) t) :
    resample f k s =
      .ok (resampledFrame t.tables.resampleCoef (f.hist ++ new) f,
        resampledImage t.tables.resampleCoef new f g) t := by
  rw [resample_eq, Act.bind_ok h]
  rfl

theorem resample_error {f : Vpb} {k : StreamKind} {s t : State} {c : HaltCause}
    (h : nextSamples k (f.endPosition / 4096) f s = .error c t) : resample f k s = .error c t := by
  rw [resample_eq, Act.bind_error h]

@[simp] theorem resampledFrame_length (coef window : List Sample) (f : Vpb) :
    (resampledFrame coef window f).length = 80 :=
  (List.length_map _).trans List.length_range

theorem resampledFrame_getD (coef window : List Sample) (f : Vpb) {i : Nat} (hi : i < 80) :
    (resampledFrame coef window f).getD i 0 =
      tap coef window ((f.frac.toNat + i * f.ratio.toNat) / 4096) ((f.frac.toNat + i * f.ratio.toNat) % 4096)
        f.ratio.toNat := by
  rw [resampledFrame, List.getD_eq_getElem?_getD, List.getElem?_map, List.getElem?_range hi]
  rfl

/-- With ratio 0 every output sample is the tap at the position the frame starts from. -/
theorem resampledFrame_ratio_zero (coef window : List Sample) {f : Vpb} (hr : f.ratio = 0) :
    resampledFrame coef window f = List.replicate 80 (tap coef window 0 f.frac.toNat 0) := by
  have hfrac := f.frac.isLt
  rw [List.eq_replicate_iff]
  refine ⟨resampledFrame_length .., fun x hx => ?_⟩
  obtain ⟨i, -, rfl⟩ := List.mem_map.mp hx
  have hratio : f.ratio.toNat = 0 := by rw [hr]; rfl
  rw [resampleAt, hratio, Nat.mul_zero, Nat.add_zero, Nat.div_eq_of_lt hfrac, Nat.mod_eq_of_lt hfrac]

/-- The image of a frame by its words. -/
theorem resampledImage_fields {k : StreamKind} {f g : Vpb} {s t : State} {new : List Sample} (hf : f.length = 0xC0)
    (h : nextSamples k (f.endPosition / 4096) f s = .ok (new, g) t) (coef : List Sample) :
    (resampledImage coef new f g).length = 0xC0 ∧
      (∀ j < 4, (resampledImage coef new f g).word (0x28 + j) =
        (f.hist ++ new).getD (f.endPosition / 4096 + j) 0) ∧
      (resampledImage coef new f g).index = g.index ∧
      (resampledImage coef new f g).frac.toNat = f.endPosition % 4096 ∧
      (resampledImage coef new f g).word 0x07 = (resampledFrame coef (f.hist ++ new) f).getD 79 0 ∧
      ∀ w, w ∉ [0x07, 0x08, 0x09, 0x28, 0x29, 0x2A, 0x2B] → (resampledImage coef new f g).word w = g.word w := by
  obtain ⟨hnew, ⟨hlength, -⟩, -⟩ := nextSamples_within (by omega) h
  have hhist := window_tail_length (f := f) hnew
  have hlength : g.length = 0xC0 := hlength.trans hf
  have hg : 0x40 ≤ g.length := by omega
  obtain ⟨htail, hindex, hfrac, hheld⟩ := resampler_fields g (BitVec.ofNat 12 f.endPosition)
    ((resampledFrame coef (f.hist ++ new) f).getD 79 0) hhist hg
  obtain ⟨hwlength, hwords⟩ := resampler_within g (BitVec.ofNat 12 f.endPosition)
    ((resampledFrame coef (f.hist ++ new) f).getD 79 0) hhist hg
  refine ⟨hwlength.trans hlength, fun j hj => (htail j hj).trans ?_, hindex, ?_, hheld, hwords⟩
  · simp only [List.getD_eq_getElem?_getD, List.getElem?_take, if_pos hj, List.getElem?_drop]
  · exact (congrArg BitVec.toNat hfrac).trans (BitVec.toNat_ofNat ..)

/-! ### Words written back -/

theorem Vpb.putAll_hist (f : Vpb) (h : 0x2C ≤ f.length) : f.putAll 0x28 f.hist = f := by
  refine List.ext_getElem (Vpb.putAll_length f 0x28 f.hist h) fun j hj hj' => ?_
  have hword : (f.putAll 0x28 f.hist).word j = f.word j := by
    by_cases hin : 0x28 ≤ j ∧ j < 0x2C
    · obtain ⟨i, rfl⟩ := Nat.exists_eq_add_of_le hin.1
      have hi : i < 4 := by omega
      rw [Vpb.word_putAll_same f f.hist (by omega) hi]
      interval_cases i <;> rfl
    · exact Vpb.word_putAll_other f f.hist h (by simp only [Vpb.hist, List.length_cons, List.length_nil]; omega)
  simpa [Vpb.word, hj, hj'] using hword

theorem Vpb.putPair_pair_self (f : Vpb) (i : Nat) : f.putPair i (f.pair i) = f := by
  rw [Vpb.putPair, Vpb.pair, BitVec.extractLsb'_append_eq_left, BitVec.extractLsb'_append_eq_right,
    Vpb.put_word_self, Vpb.put_word_self]

theorem Vpb.setFrac_self (f : Vpb) : f.setFrac f.frac = f := by
  have hposition : f.index ++ f.frac = f.position :=
    (BitVec.extractLsb'_append_extractLsb'_eq_extractLsb' (by omega)).trans (by simp)
  rw [Vpb.setFrac, hposition]
  exact Vpb.putPair_pair_self f 0x08

/-- With ratio 0 nothing is fetched, and the writes put the history and the fraction back. -/
theorem resampledImage_ratio_zero (coef : List Sample) {f : Vpb} (hf : 0x2C ≤ f.length) (hr : f.ratio = 0) :
    resampledImage coef [] f f = f.put 0x07 (tap coef f.hist 0 f.frac.toNat 0) := by
  have hfrac := f.frac.isLt
  have hend : f.endPosition = f.frac.toNat := by rw [Vpb.endPosition, hr]; rfl
  rw [resampledImage, hend, Nat.div_eq_of_lt hfrac, BitVec.ofNat_toNat, BitVec.setWidth_eq,
    resampledFrame_ratio_zero _ _ hr, List.append_nil]
  show ((f.putAll 0x28 f.hist).setFrac f.frac).put 0x07 _ = _
  rw [Vpb.putAll_hist f hf, Vpb.setFrac_self]
  rfl

/-! ### The source types of the streams (43_sources_resample.md R240, R241) -/

/-- The sources by their type (43_sources_resample.md R240). -/
def sourceTable : List (Nat × SourceKind) :=
  [(0, .wave .square), (1, .wave .saw), (2, .pattern 0), (3, .pattern 1), (4, .pattern 2), (5, .pattern 3),
    (8, .stream .pcm8), (9, .stream .pcm16), (10, .stream .afc4), (11, .stream .afc2), (12, .stream .raw16Main)]

theorem SourceKind.ofType_ofNat :
    ∀ row ∈ sourceTable, SourceKind.ofType (BitVec.ofNat 16 row.1) = some row.2 := by decide

theorem SourceKind.ofType_of_mem {t : Half} {kind : SourceKind} (h : (t.toNat, kind) ∈ sourceTable) :
    SourceKind.ofType t = some kind := by
  simpa using SourceKind.ofType_ofNat (t.toNat, kind) h

theorem SourceKind.ofType_stream {t : Half} {k : StreamKind}
    (h : (t.toNat, k) ∈ [(8, StreamKind.pcm8), (9, .pcm16), (10, .afc4), (11, .afc2), (12, .raw16Main)]) :
    SourceKind.ofType t = some (.stream k) :=
  SourceKind.ofType_of_mem (by simpa [sourceTable] using h)

theorem loadVoiceSamples_stream {f : Vpb} {k : StreamKind} (hc : f.useConstantSample = 0)
    (h : SourceKind.ofType f.sourceType = some (.stream k)) : loadVoiceSamples f = resample f k := by
  rw [loadVoiceSamples, if_neg (not_not.mpr hc), h]

/-- Settles O47: the fetches read only, so the frame is what the window and the writes of the resampler give. -/
theorem resampleFrame : Obligations.ResampleFrame := by
  refine ⟨fun f type k hc ht hk => loadVoiceSamples_stream hc (SourceKind.ofType_stream (ht ▸ hk)),
    fun k n f s => ⟨nextSamples_zero k f s, fun xs h t => nextSamples_succ_ok_iff⟩,
    fun f k s hf => ⟨fun new g t h => ?frame, fun c t h => resample_error h⟩, fun f k s hf hr => ?still⟩
  case frame =>
    obtain rfl : t = s := (nextSamples_readsOnly k _ f).eq_of_ok h
    obtain ⟨hlength, hhist, hindex, hfrac, hheld, hother⟩ := resampledImage_fields hf h t.tables.resampleCoef
    exact ⟨rfl, (nextSamples_within (by omega) h).1, _, _, resample_ok h, resampledFrame_length .., hlength,
      fun i hi => resampledFrame_getD _ _ f hi, hhist, hindex, hfrac, hheld, hother⟩
  case still =>
    have hend : f.endPosition / 4096 = 0 := by
      rw [Vpb.endPosition, hr]
      exact Nat.div_eq_of_lt f.frac.isLt
    have hnone : nextSamples k (f.endPosition / 4096) f s = .ok ([], f) s := by rw [hend]; rfl
    rw [resample_ok hnone, resampledImage_ratio_zero _ (by omega) hr, List.append_nil,
      resampledFrame_ratio_zero _ _ hr]

end Sys2Proof.Machine
end

section
/-! The sources that read no stream (43_sources_resample.md R242 to R245): what a wave and a pattern give, and that it
depends on the type, the phase and the ratio, for a pattern on its own words and on the buses it is shown. -/

namespace Sys2Proof.Machine

/-! ### The held sample (43_sources_resample.md R242) -/

theorem loadVoiceSamples_constant {f : Vpb} (h : f.useConstantSample ≠ 0) (s : State) :
    loadVoiceSamples f s = .ok (List.replicate 80 f.constantSample, f) s := by
  rw [loadVoiceSamples, if_pos h]
  rfl

/-! ### Waves and patterns (43_sources_resample.md R244, R245) -/

theorem synthWave_length (w : Wave) (f : Vpb) : (synthWave w f).1.length = 80 := Vector.length_toList

theorem synthPattern_length (t : Tables) (b : Buses) (p : Fin 4) (f : Vpb) :
    (synthPattern t b p f).1.length = 80 := Vector.length_toList

/-- A wave sees the phase and the ratio alone. -/
theorem synthWave_congr {f g : Vpb} (hp : g.synthPhase = f.synthPhase) (hr : g.ratio = f.ratio) (w : Wave) :
    synthWave w g = synthWave w f := by
  rw [synthWave, hp, hr]
  rfl

/-- A pattern sees the phase, the ratio, its own words and, where it is the variable-step pattern, the buses. -/
theorem synthPattern_congr {f g : Vpb} {t u : Tables} {b c : Buses} {p : Fin 4}
    (hp : g.synthPhase = f.synthPhase) (hr : g.ratio = f.ratio) (hw : u.patternWords p = t.patternWords p)
    (hb : p = Config.variableStepPattern → c = b) : synthPattern u c p g = synthPattern t b p f := by
  have hseen : (if p = Config.variableStepPattern then some c.toList else none) =
      if p = Config.variableStepPattern then some b.toList else none := by
    split
    · rename_i h
      rw [hb h]
    · rfl
  rw [synthPattern, hseen, hp, hr, hw]
  rfl

/-- The words of a pattern are determined by their 64 places in the table. -/
theorem Tables.patternWords_congr {t u : Tables} (ht : t.full = true) (hu : u.full = true) {p : Fin 4}
    (h : ∀ i < 64, u.pattern.getD (64 * p.val + i) 0 = t.pattern.getD (64 * p.val + i) 0) :
    u.patternWords p = t.patternWords p := by
  obtain ⟨-, htp, -, -⟩ := (Tables.full_iff t).mp ht
  obtain ⟨-, hup, -, -⟩ := (Tables.full_iff u).mp hu
  have hp := p.isLt
  have hlength {v : Tables} (hv : v.pattern.length = 256) : (v.patternWords p).length = 64 := by
    simp [Tables.patternWords, hv]
    omega
  refine List.ext_getElem ((hlength hup).trans (hlength htp).symm) fun i hi _ => ?_
  have hi : i < 64 := hlength hup ▸ hi
  have hword := h i hi
  rw [List.getD_eq_getElem _ _ (by omega), List.getD_eq_getElem _ _ (by omega)] at hword
  simpa only [Tables.patternWords, List.getElem_take, List.getElem_drop] using hword

/-! ### Their source types (43_sources_resample.md R240) -/

theorem SourceKind.exists_wave {t : Half} (h : t.toNat ≤ 1) : ∃ w, SourceKind.ofType t = some (.wave w) := by
  obtain h0 | h1 : t.toNat = 0 ∨ t.toNat = 1 := by omega
  · exact ⟨.square, SourceKind.ofType_of_mem (by simp [sourceTable, h0])⟩
  · exact ⟨.saw, SourceKind.ofType_of_mem (by simp [sourceTable, h1])⟩

theorem SourceKind.ofType_pattern {t : Half} {p : Fin 4} (h : t.toNat = p.val + 2) :
    SourceKind.ofType t = some (.pattern p) := by
  refine SourceKind.ofType_of_mem ?_
  rw [h]
  clear h
  revert p
  decide

/-- A source of type 0 to 5 gives 80 samples and a phase, the rest of the image and the state kept. -/
theorem loadVoiceSamples_synthetic {f : Vpb} (hc : f.useConstantSample = 0) (ht : f.sourceType.toNat ≤ 5)
    (s : State) :
    ∃ (voice : List Sample) (phase : Half), voice.length = 80 ∧
      loadVoiceSamples f s = .ok (voice, f.put 0x2E phase) s := by
  by_cases hwave : f.sourceType.toNat ≤ 1
  · obtain ⟨w, hw⟩ := SourceKind.exists_wave hwave
    exact ⟨_, _, synthWave_length w f, loadVoiceSamples_wave s hc hw⟩
  · have hp := SourceKind.ofType_pattern (t := f.sourceType) (p := ⟨f.sourceType.toNat - 2, by omega⟩)
      (Nat.sub_add_cancel (by omega)).symm
    exact ⟨_, _, synthPattern_length .., loadVoiceSamples_pattern s hc hp⟩

/-- Settles O48: the pattern that is shown the buses is the variable-step pattern. -/
theorem sourcesWithoutStream : Obligations.SourcesWithoutStream := by
  refine ⟨fun f s h => loadVoiceSamples_constant h s, fun f s hc ht => loadVoiceSamples_synthetic hc ht s,
    fun f g s t hf hg ht htype hphase hratio => ?wave, Config.variableStepPattern,
    fun f g s t p hf hg ht htype hphase hratio hwords hs ht' hbuses => ?pattern⟩
  case wave =>
    obtain ⟨w, hw⟩ := SourceKind.exists_wave ht
    refine ⟨_, _, loadVoiceSamples_wave s hf hw, ?_⟩
    rw [← synthWave_congr hphase hratio w]
    exact loadVoiceSamples_wave t hg (htype ▸ hw)
  case pattern =>
    have hp := SourceKind.ofType_pattern ht
    refine ⟨_, _, loadVoiceSamples_pattern s hf hp, ?_⟩
    rw [← synthPattern_congr hphase hratio (Tables.patternWords_congr hs ht' hwords)
      fun h => hbuses.resolve_left (not_not.mpr h)]
    exact loadVoiceSamples_pattern t hg (htype ▸ hp)

end Sys2Proof.Machine
end

section
/-! The eight-tap filter and the post-render phase of a reverb unit (44_reverb.md R293, R297; 60_exceptions.md R312). -/

namespace Sys2Proof.Machine

/-! ### The eight-tap filter (44_reverb.md R293) -/

/-- Output `k` of the filter as a sum over eight coefficients. -/
def firOutput (coef window : List Sample) (k : Nat) : Sample :=
  clamp16 (((List.range 8).map fun j => (coef.getD j 0).toInt * (window.getD (k + j) 0).toInt).sum / 32768)

theorem fir8_length (coef window : List Sample) : (fir8 coef window).length = 80 := by simp [fir8]

theorem fir8_eq_map_firOutput {coef window : List Sample} (hc : coef.length = 8) (hw : window.length = 88) :
    fir8 coef window = (List.range 80).map (firOutput coef window) := by
  refine List.map_congr_left fun k hk => ?_
  have hk : k < 80 := List.mem_range.mp hk
  have hdot := dot_eq_sum (cs := coef) (xs := window.drop k) (by rw [List.length_drop]; omega)
  have hsample (j : Nat) : (window.drop k).getD j 0 = window.getD (k + j) 0 := by
    simp only [List.getD_eq_getElem?_getD, List.getElem?_drop]
  simp only [hsample, hc] at hdot
  rw [asr_eq_div, hdot]
  rfl

theorem fir8_getD {coef window : List Sample} (hc : coef.length = 8) (hw : window.length = 88) {k : Nat}
    (hk : k < 80) : (fir8 coef window).getD k 0 = firOutput coef window k := by
  rw [fir8_eq_map_firOutput hc hw, List.getD_eq_getElem _ _ (by simpa using hk), List.getElem_map, List.getElem_range]

/-- The last output, `k = 79`, reaches window sample 86. -/
theorem firOutput_set_last (coef window : List Sample) (v : Sample) {k : Nat} (hk : k < 80) :
    firOutput coef (window.set 87 v) k = firOutput coef window k := by
  have hterm : ∀ j ∈ List.range 8, (coef.getD j 0).toInt * ((window.set 87 v).getD (k + j) 0).toInt =
      (coef.getD j 0).toInt * (window.getD (k + j) 0).toInt := by
    intro j hj
    have hj := List.mem_range.mp hj
    have hne : 87 ≠ k + j := by omega
    simp only [List.getD_eq_getElem?_getD, List.getElem?_set_ne hne]
  rw [firOutput, List.map_congr_left hterm]
  rfl

/-- Settles O49: each output as its sum, none of which reaches the last window sample. -/
theorem firFilter : Obligations.FirFilter := by
  intro coef window hc hw
  refine ⟨fir8_length coef window, fun k hk => fir8_getD hc hw hk, fun v => ?unused⟩
  case unused =>
    rw [fir8_eq_map_firOutput hc (by rwa [List.length_set]), fir8_eq_map_firOutput hc hw]
    exact List.map_congr_left fun k hk => firOutput_set_last coef window v (List.mem_range.mp hk)

/-! ### The cursor (44_reverb.md R297) -/

theorem toNat_nextBlock {size : Half} (h : 0 < size.toNat) (c : Half) :
    (nextBlock size c).toNat = (c.toNat + 1) % size.toNat := by
  have hfits : (c.toNat + 1) % size.toNat < 2 ^ 16 := (Nat.mod_lt _ h).trans size.isLt
  rw [nextBlock, BitVec.toNat_ofNat, Nat.mod_eq_of_lt hfits]

theorem toNat_iterate_nextBlock {size c : Half} (h : c.toNat < size.toNat) (n : Nat) :
    ((nextBlock size)^[n] c).toNat = (c.toNat + n) % size.toNat := by
  induction n with
  | zero => exact (Nat.mod_eq_of_lt h).symm
  | succ n ih => rw [Function.iterate_succ_apply', toNat_nextBlock (Nat.zero_lt_of_lt h), ih, Nat.mod_add_mod, Nat.add_assoc]

/-- As many frames as the buffer has blocks bring the cursor round. -/
theorem iterate_nextBlock_size {size c : Half} (h : c.toNat < size.toNat) : (nextBlock size)^[size.toNat] c = c := by
  apply BitVec.eq_of_toNat_eq
  rw [toNat_iterate_nextBlock h, Nat.add_mod_right, Nat.mod_eq_of_lt h]

/-! ### The post-render phase (44_reverb.md R297) -/

theorem postUnit_enabled {r : Nat} {s : State} {p : List Half} (h : s.words? .main 16 (s.rpbAddr r) = some p)
    (hp : Rpb.enabled p = true) (hs : Rpb.cbSize p ≠ 0) : postUnit r s = postEnabled r p s := by
  unfold postUnit
  rw [Act.bind_ok (rpbFetch_ok h), if_pos hp, if_neg hs]

/-- The block at the cursor of unit `r`, in a buffer of the record `p`. -/
def State.cursorBlock (s : State) (r : Nat) (p : Rpb) : Addr := p.blockAddr ((s.reverbUnit r).cursor % p.cbSize)

/-- A block that answers takes the whole bus, and the cursor moves on. -/
theorem postEnabled_ok {r : Nat} {s : State} {p : Rpb} (hb : s.buses.full = true)
    (ha : s.answers (s.cursorBlock r p) 160 = true) :
    postEnabled r p s = .ok ()
      ({ s with
        main := (storeBytes (fun _ => true) s.main (s.cursorBlock r p)
          ((s.buses.get (unitBus r)).flatMap halfBytes)).1 }.setReverb r
        ⟨nextBlock p.cbSize ((s.reverbUnit r).cursor % p.cbSize), (s.reverbUnit r).carry⟩) := by
  have hlen : (s.buses.get (unitBus r)).length = 80 := (Buses.full_iff _).mp hb (unitBus r)
  have hans : ∀ i < 2 * (s.buses.get (unitBus r)).length,
      s.cfg.mapped .main (s.cursorBlock r p + BitVec.ofNat 32 i) = true := by
    rw [hlen]
    exact State.answers_iff.mp ha
  have hstore := storeWords_ok hans
  rw [storeBytes_all _ _ _ _ (by rw [flatMap_halfBytes_length]; exact hans)] at hstore
  unfold postEnabled
  rw [Act.get_bind]
  exact Act.bind_ok hstore

/-- The first byte of the block that does not answer halts the store, before the cursor moves. -/
theorem postEnabled_busError {r : Nat} {s : State} {p : Rpb} (hb : s.buses.full = true) {j : Nat} (hj : j < 160)
    (hbreak : s.breaksAt (s.cursorBlock r p) j = true) :
    postEnabled r p s = .error .busError
      ({ s with
        main := (storeBytes (fun _ => true) s.main (s.cursorBlock r p)
          (((s.buses.get (unitBus r)).flatMap halfBytes).take j)).1 }.haltWith .busError) := by
  have hlen : (s.buses.get (unitBus r)).length = 80 := (Buses.full_iff _).mp hb (unitBus r)
  obtain ⟨hbefore, hbroken⟩ := State.breaksAt_iff.mp hbreak
  unfold postEnabled
  rw [Act.get_bind]
  exact Act.bind_error (storeWords_error (by omega) hbefore hbroken)

/-- Settles O51: the block at the cursor answers or breaks at a byte; the cursor goes round the buffer. -/
theorem reverbPost : Obligations.ReverbPost := by
  refine ⟨fun r s p hb h hp hs ha => ?stored, fun r s p hb h hp hs j hj hbreak => ?halted,
    fun size c hc => ⟨toNat_nextBlock (Nat.zero_lt_of_lt hc) c, iterate_nextBlock_size hc⟩⟩
  case stored => exact (postUnit_enabled h hp hs).trans (postEnabled_ok hb ha)
  case halted => exact (postUnit_enabled h hp hs).trans (postEnabled_busError hb hj hbreak)

end Sys2Proof.Machine
end

section
/-! Events and their pulses over any step (60_exceptions.md R320 to R322; 70_reset_and_hazards.md R351): what the AVM
does on its own only appends, and each event word comes with its own pulse; only an `EVT` read and a reset remove
words. `PortParts` does not serve here, because it leaves `irq` free in the AVM's bookkeeping: the walk over the port
is made again for the one relation that ties `irq` to the FIFO. -/

namespace Sys2Proof.Machine

/-! ### The relation -/

/-- Pulses are appended, and with them the event words they belong to, in that order (60_exceptions.md R320, R322). -/
def AppendsPulses (s t : State) : Prop :=
  ∃ pulses : List Pulse, t.irq = s.irq ++ pulses ∧ t.evt = s.evt ++ pulses.filterMap Pulse.word?

theorem AppendsPulses.of_eq {s t : State} (hi : t.irq = s.irq) (he : t.evt = s.evt) : AppendsPulses s t :=
  ⟨[], by simp [hi], by simp [he]⟩

theorem AppendsPulses.refl (s : State) : AppendsPulses s s := .of_eq rfl rfl

theorem AppendsPulses.seq (a b c : State) : AppendsPulses a b → AppendsPulses b c → AppendsPulses a c := by
  rintro ⟨ps, hirq, hevt⟩ ⟨qs, hirq', hevt'⟩
  refine ⟨ps ++ qs, ?_, ?_⟩
  · rw [hirq', hirq, List.append_assoc]
  · rw [hevt', hevt, List.filterMap_append, List.append_assoc]

theorem AppendsPulses.haltWith (s : State) (c : HaltCause) : AppendsPulses s (s.haltWith c) := .of_eq rfl rfl

theorem AppendsPulses.pushEvent (s : State) (w : Word) : AppendsPulses s (s.pushEvent w) := ⟨[.event w], rfl, rfl⟩

/-- The pulse of a light sync word comes with no event word (40_commands.md R146). -/
theorem AppendsPulses.pulseLightSync (s : State) : AppendsPulses s s.pulseLightSync :=
  ⟨[.lightSync], rfl, (List.append_nil s.evt).symm⟩

/-! ### Renders -/

theorem ack_appendsPulses (sync : BitVec 7) (s : State) : Act.At AppendsPulses (ack sync) s :=
  .modify (.pushEvent s _)

theorem prepareFrame_appendsPulses (s : State) : Act.At AppendsPulses prepareFrame s := by
  refine (prepareFrame_at s).mono fun a b h => ?_
  obtain ⟨_, _, _, _, rfl⟩ := h
  exact .of_eq rfl rfl

theorem addVoice_appendsPulses (v : Half) (s : State) : Act.At AppendsPulses (addVoice v) s := by
  refine (addVoice_at v s).mono fun a b h => ?_
  obtain ⟨_, _, rfl⟩ := h
  exact .of_eq rfl rfl

theorem finalizeFrame_appendsPulses (s : State) : Act.At AppendsPulses finalizeFrame s := by
  refine (finalizeFrame_at s).mono fun a b h => ?_
  obtain ⟨_, _, _, _, _, _, rfl⟩ := h
  exact .of_eq rfl rfl

/-- A frame done pushes its event, under `LIGHT` none (41_frame_ops.md R172). -/
theorem frameDone_appendsPulses (s : State) : AppendsPulses s s.frameDone := by
  unfold State.frameDone
  split
  · exact .refl s
  · exact .pushEvent s _

theorem renderParts_appendsPulses : RenderParts AppendsPulses where
  refl := .refl
  trans := .seq
  prepare := prepareFrame_appendsPulses
  voice := addVoice_appendsPulses
  finalize := finalizeFrame_appendsPulses
  nextVoice _ := .of_eq rfl rfl
  frameDone := frameDone_appendsPulses
  nextFrame _ := .of_eq rfl rfl
  renderDone _ := ⟨[.event renderDoneWord], rfl, rfl⟩

/-! ### Commands -/

theorem loadTable_appendsPulses (n : Nat) (a : Addr) (read : Tables → List Sample)
    (put : Tables → List Sample → Tables) (s : State) : Act.At AppendsPulses (loadTable n a read put) s := by
  obtain ⟨_, -, ⟨-, h⟩ | ⟨-, h⟩⟩ := loadTable_cases n a read put s
  · exact .ok h (.of_eq rfl rfl)
  · exact .inr ⟨_, _, by decide, h, .of_eq rfl rfl⟩

theorem loadSineUnlessLight_appendsPulses (a : Addr) (s : State) :
    Act.At AppendsPulses (loadSineUnlessLight a) s := by
  refine .get ?_
  split
  · exact .pure _ (.refl s)
  · exact loadTable_appendsPulses _ _ _ _ s

theorem doSetup_appendsPulses (sync : BitVec 7) (vpb resample pattern afc rpb : Addr) (s : State) :
    Act.At AppendsPulses (doSetup sync vpb resample pattern afc rpb) s := by
  refine .after AppendsPulses.seq (.of_eq rfl rfl) ?_
  refine .bind AppendsPulses.seq (loadTable_appendsPulses _ _ _ _ _) fun _ _ _ _ => ?_
  refine .bind AppendsPulses.seq (loadTable_appendsPulses _ _ _ _ _) fun _ _ _ _ => ?_
  refine .bind AppendsPulses.seq (loadSineUnlessLight_appendsPulses _ _) fun _ _ _ _ => ?_
  refine .bind AppendsPulses.seq (loadTable_appendsPulses _ _ _ _ _) fun _ _ _ _ => ?_
  exact .after AppendsPulses.seq (.of_eq rfl rfl) (ack_appendsPulses _ _)

theorem executeCommand_appendsPulses (i : Instr) (s : State) : Act.At AppendsPulses (executeCommand i) s := by
  cases i with
  | nop sync => exact ack_appendsPulses sync s
  | setup sync vpb resample pattern afc rpb => exact doSetup_appendsPulses _ _ _ _ _ _ s
  | startRender _ voices frames vol outL outR =>
    refine .get ?_
    split
    · exact .halt (by decide) (.refl s)
    · exact .after AppendsPulses.seq (.of_eq rfl rfl) (renderParts_appendsPulses.renderAudio _)
  | setSampleBase sync base =>
    refine .get ?_
    split
    · exact .halt (by decide) (.refl s)
    · exact .after AppendsPulses.seq (.of_eq rfl rfl) (ack_appendsPulses _ _)
  | prepareFrame sync =>
    exact .bind AppendsPulses.seq (prepareFrame_appendsPulses s) fun _ _ _ _ => ack_appendsPulses _ _
  | addVoice sync voice =>
    exact .bind AppendsPulses.seq (prepareFrame_appendsPulses s) fun _ _ _ _ =>
      .bind AppendsPulses.seq (addVoice_appendsPulses _ _) fun _ _ _ _ => ack_appendsPulses _ _
  | finalizeFrame sync =>
    exact .bind AppendsPulses.seq (finalizeFrame_appendsPulses s) fun _ _ _ _ => ack_appendsPulses _ _
  | reserved _ _ _ | sync _ _ | sync2 _ _ | sync0 | cont | reset => exact .halt (by decide) (.refl s)

theorem fetchParts_appendsPulses : FetchParts AppendsPulses where
  refl := .refl
  trans := .seq
  pop _ := .of_eq rfl rfl
  pending _ _ := .of_eq rfl rfl

theorem runPendingCommands_appendsPulses (s : State) : Act.At AppendsPulses runPendingCommands s :=
  fetchParts_appendsPulses.runPendingCommands executeCommand_appendsPulses s

/-! ### Ports -/

theorem bufPush_appendsPulses (w : Word) (s : State) : Act.At AppendsPulses (bufPush w) s := by
  by_cases hw : s.cmd.words = 64
  · exact .inr ⟨_, s, by decide, bufPush_full hw, .refl s⟩
  · exact .ok (bufPush_room hw) (.of_eq rfl rfl)

theorem headerWord_appendsPulses (w : Word) (s : State) : Act.At AppendsPulses (headerWord w) s := by
  refine .bind AppendsPulses.seq (bufPush_appendsPulses w s) fun _ t _ _ => .get ?_
  dsimp only
  split
  · exact .after AppendsPulses.seq (.of_eq rfl rfl) (runPendingCommands_appendsPulses _)
  · exact .set (.of_eq rfl rfl)

theorem operandWord_appendsPulses (w : Word) (s : State) : Act.At AppendsPulses (operandWord w) s := by
  refine .bind AppendsPulses.seq (bufPush_appendsPulses w s) fun _ t _ _ => ?_
  refine .after AppendsPulses.seq (.of_eq rfl rfl) (.get ?_)
  split
  · exact .after AppendsPulses.seq (.of_eq rfl rfl) (runPendingCommands_appendsPulses _)
  · exact .pure _ (.refl _)

theorem resumeRender_appendsPulses (s : State) : Act.At AppendsPulses resumeRender s := by
  refine .bind AppendsPulses.seq (renderParts_appendsPulses.renderAudio s) fun _ t _ _ => .get ?_
  split
  · exact runPendingCommands_appendsPulses t
  · exact .pure _ (.refl t)

theorem doContinue_appendsPulses (s : State) : Act.At AppendsPulses doContinue s := by
  refine .get ?_
  split
  · exact .pure _ (.refl s)
  · refine .bind AppendsPulses.seq (.set (.of_eq rfl rfl)) fun _ t _ _ => ?_
    split
    · exact runPendingCommands_appendsPulses t
    · exact .pure _ (.refl t)

theorem outcome_appendsPulses {act : Act Unit} {s t : State} (ha : Act.At AppendsPulses act s)
    (h : act.outcome s = .next t) : AppendsPulses s t := by
  cases h
  exact ha.final_of (fun _ => id) fun t c ht => ht.seq _ _ _ (.haltWith t c)

/-- A sync word pushes what its render pushes, the light one after a pulse of its own (40_commands.md R145, R146). -/
theorem exec_syncWord_appendsPulses {i : Instr} (hi : IsSyncWord i) {s t : State} (h : exec i s = .next t) :
    AppendsPulses s t := by
  obtain ⟨b, m, rfl⟩ | ⟨a, b, rfl⟩ | rfl := hi
  · exact outcome_appendsPulses (act := doSync b m)
      (.after AppendsPulses.seq (.of_eq rfl rfl) (resumeRender_appendsPulses _)) h
  · exact outcome_appendsPulses (act := doSync2 a b)
      (.after AppendsPulses.seq (.of_eq rfl rfl) (resumeRender_appendsPulses _)) h
  · exact outcome_appendsPulses (act := doSync0)
      (.after AppendsPulses.seq (.pulseLightSync { s with cur := s.cur.unlockAll }) (resumeRender_appendsPulses _)) h

theorem cmdWrite_appendsPulses {w : Word} {s t : State} (h : cmdWrite w s = .next t) : AppendsPulses s t := by
  obtain ⟨-, hc⟩ | ⟨c, -, -, hc⟩ | ⟨i, _, -, hd, hc⟩ | ⟨-, hc⟩ | ⟨-, -, hc⟩ := cmdWrite_cases w s
  · cases hc.symm.trans h; exact .refl s
  · cases hc.symm.trans h; exact .haltWith s c
  · exact exec_syncWord_appendsPulses (decode_syncContext_ok hd) (hc.symm.trans h)
  · exact outcome_appendsPulses (operandWord_appendsPulses w s) (hc.symm.trans h)
  · exact outcome_appendsPulses (headerWord_appendsPulses w s) (hc.symm.trans h)

/-- A control word decodes to a reset by its bit 1 (30_encoding.md R115). -/
theorem decode_control_reset {w : Word} {ws : List Word} (h : decode .control [w] = .ok (.reset, ws)) :
    w.getLsbD 1 = true := by
  by_contra hw
  simp only [decode, decodeControl, hw, if_false] at h
  split at h <;> cases h

theorem ctrlWrite_appendsPulses {w : Word} {s t : State} (h : ctrlWrite w s = .next t) :
    AppendsPulses s t ∨ (w.getLsbD 1 = true ∧ t = s.resetAvm) := by
  obtain ⟨i, _, hd, hc⟩ | hc := ctrlWrite_cases w s
  · have hi := hc.symm.trans h
    obtain rfl | rfl := decode_control_ok hd
    · cases hi; exact .inr ⟨decode_control_reset hd, rfl⟩
    · exact .inl (outcome_appendsPulses (doContinue_appendsPulses s) hi)
  · cases hc.symm.trans h; exact .inl (.refl s)

/-! ### Steps -/

/-- An access appends events with their pulses, takes the head of the FIFO, or resets the AVM
(60_exceptions.md R320, R321; 70_reset_and_hazards.md R350). -/
theorem hostAccess_appendsPulses {a : HostAccess} {s t : State} (h : hostAccess a s = .next t) :
    AppendsPulses s t ∨ (a = .regRead .word 0x0C ∧ t = s.popEvent) ∨ (a.resets = true ∧ t = s.resetAvm) := by
  obtain ⟨o, w, rfl, hw⟩ | hpop | ⟨r, rfl⟩ | ⟨sp, x, b, -, rfl⟩ | ⟨rfl, rfl⟩ := hostAccess_cases h
  · obtain ⟨-, hc⟩ | ⟨rfl, hc⟩ | rfl := regWrite_cases hw
    · exact .inl (cmdWrite_appendsPulses hc)
    · exact (ctrlWrite_appendsPulses hc).imp_right .inr
    · exact .inl (.refl _)
  · exact .inr (.inl hpop)
  · exact .inl (.of_eq rfl rfl)
  · cases sp <;> exact .inl (.of_eq rfl rfl)
  · exact .inr (.inr ⟨rfl, rfl⟩)

/-- Settles O54, from what each access of the host appends or removes. -/
theorem eventsAndPulses : Obligations.EventsAndPulses := by
  intro s t h
  cases hh : s.host with
  | nil =>
    cases (step_nil hh).symm.trans h
    exact ⟨[], (List.append_nil _).symm, .inl (List.append_nil _).symm⟩
  | cons a rest =>
    obtain ⟨pulses, hirq, hevt⟩ | ⟨rfl, rfl⟩ | ⟨ha, rfl⟩ :=
      hostAccess_appendsPulses ((step_cons hh).symm.trans h)
    · exact ⟨pulses, hirq, .inl hevt⟩
    · exact ⟨[], (List.append_nil _).symm, .inr (.inl ⟨rfl, rest, rfl, rfl⟩)⟩
    · exact ⟨[], (List.append_nil _).symm, .inr (.inr ⟨rfl, a, rest, rfl, ha, rfl⟩)⟩

end Sys2Proof.Machine
end
